-- ==== Sys2Proof/Word.lean ====
section
/-! DEFINITION. The word types of the TJD block (00_scope R8): bytes, the 16-bit halves and the 32-bit bus word. -/

namespace Sys2Proof

/-- One byte: a stream byte, a symbol, a sample, a pixel byte. -/
abbrev Byte := BitVec 8

/-- A 16-bit register or table entry: PRED, COEF, QT, RSTCTR, MCUX, MCUY. -/
abbrev Half := BitVec 16

/-- One 32-bit bus word (R63). -/
abbrev Word := BitVec 32

end Sys2Proof
end

