-- ==== Sys2Proof/Config.lean ====
section
/-! DEFINITION. The block's fixed parameters (00_scope R7) and the one free value of the model. -/

namespace Sys2Proof

/-- NCOMP's largest value: the components 0, 1, 2 (R7). -/
def Config.maxComponents : Nat := 3

/-- NSLOT: the coefficient and sample slots of one MCU (R7). -/
def Config.slots : Nat := 12

/-- The size of the pixel buffer in bytes (R7). -/
def Config.pixBytes : Nat := 768

/-- The identification value (R21). -/
def Config.idValue : Word := 0x544A4431#32

/-- The fill byte used for data at end of stream and while a marker is pending (R142). -/
def Config.fillByte : Byte := 0xFF#8

/-- The size of the register window; TJD_BASE is a multiple of it (R60, R61). -/
def Config.windowBytes : Nat := 0x4000

/-- TOL, a test threshold and not a rule of the model (R7, R192). -/
def Config.tol : Nat := 3

/-- FREE VALUE (log 6): what a read of the COEF, TILE or PIX windows, RECTLT, RECTRB or PIXLEN gives
while a command runs and no rectangle is offered (R68, "returns any value"). It is applied to the
block-step counter `epoch` of State and the offset read, so that a repeated read agrees until a block
step intervenes (R69). It has no body: nothing can be proved about its values. -/
opaque Config.freeWord : Nat → Nat → Word

end Sys2Proof
end

