-- ==== Sys2Proof/Syntax.lean ====
section
/-! DEFINITION. The instructions of the TJD block: one constructor per row of spec/opcode_table.json. -/

namespace Sys2Proof

/-- The class of a Huffman table (30_encoding R92): DC = 0, AC = 1. -/
inductive Cls where
  | dc
  | ac
  deriving DecidableEq, Repr

/-- The instructions. The first twelve are the command words written to CMD (30_encoding R94); the
other nine are the symbols of the entropy-coded stream (R102-R105): the decoded DC and AC symbol bytes
and the byte pairs that begin with 0xFF. -/
inductive Instr where
  /-- NOP (44_driver R240). -/
  | nop
  /-- SRESET (70_reset_and_hazards R281). -/
  | sreset
  /-- LOAD_QT id (40_tables R120). -/
  | loadQt (id : BitVec 2)
  /-- LOAD_HT cls, id (40_tables R122). -/
  | loadHt (cls : Cls) (id : BitVec 2)
  /-- START (44_driver R226). -/
  | start
  /-- RESYNC (41_entropy R166). -/
  | resync
  /-- DEC_DC c, b (41_entropy R155). -/
  | decDc (c : BitVec 2) (b : BitVec 4)
  /-- DEC_AC c, b (41_entropy R157). -/
  | decAc (c : BitVec 2) (b : BitVec 4)
  /-- DEC_BLK c, b (41_entropy R159). -/
  | decBlk (c : BitVec 2) (b : BitVec 4)
  /-- RESTART (41_entropy R163). -/
  | restart
  /-- IDCT c, b (42_idct R191). -/
  | idct (c : BitVec 2) (b : BitVec 4)
  /-- COLOR (43_color R211). -/
  | color
  /-- A DC symbol t ≤ 15: the magnitude category S = t (30_encoding R104, 41_entropy R151). -/
  | dcDiff (size : BitVec 4)
  /-- A DC symbol t ≥ 16 (41_entropy R153). -/
  | dcIllegal (t : Byte)
  /-- The AC symbol 0x00, end of block (41_entropy R156). -/
  | acEob
  /-- The AC symbol 0xF0, sixteen zeros (41_entropy R156). -/
  | acZrl
  /-- An AC symbol with run r and size s ≠ 0 (41_entropy R156). -/
  | acRunsize (r s : BitVec 4)
  /-- An AC symbol with s = 0 and r in 1..14 (41_entropy R156). -/
  | acUndef (r : BitVec 4)
  /-- The byte pair 0xFF 0x00 (30_encoding R102, 41_entropy R144). -/
  | stuffFf00
  /-- The byte pair 0xFF 0xD0+n, the restart marker RSTn (30_encoding R102, 41_entropy R160). -/
  | rstN (n : BitVec 3)
  /-- The byte pair 0xFF b, any other marker (30_encoding R102, 41_entropy R144). -/
  | markerOther (b : Byte)
  deriving DecidableEq, Repr

end Sys2Proof
end

