-- ==== Sys2Proof/Machine/State.lean ====
section
/-! DEFINITION. The state of the TJD block as plain data (10_state), the agents around it (00_scope R6), the
reasons a step of the model can stop, and the state after reset (70_reset_and_hazards R280). -/

namespace Sys2Proof.Machine

/-- STATE (10_state R22). -/
inductive SeqState where
  | idle
  | loadq
  | loadh
  | step
  | run
  | syncHalt
  | done
  | error
  | cancelled
  deriving DecidableEq, Repr

/-- One Huffman table HT[cls][id] (10_state R42). The entry for code length L, 1 ≤ L ≤ 16, stands at
index L - 1 of the five per-length vectors. -/
structure HuffTable where
  /-- BITS[L]: the number of codes of length L. -/
  bits : Vector (BitVec 8) 16
  /-- HUFFVAL[j]: the symbols in code-assignment order. -/
  huffval : Vector (BitVec 8) 256
  /-- NVAL: the sum of BITS, exact (40_tables R123 writes it before it checks it). -/
  nval : Nat
  /-- MINCODE[L], 17 bits. -/
  mincode : Vector (BitVec 17) 16
  /-- MAXCODE[L], -1 where the length has no code. -/
  maxcode : Vector Int 16
  /-- VALPTR[L], 0..256. -/
  valptr : Vector (BitVec 9) 16
  deriving DecidableEq, Repr

/-- A table after reset (R280): everything 0, MAXCODE -1. -/
def HuffTable.empty : HuffTable where
  bits := Vector.replicate 16 0#8
  huffval := Vector.replicate 256 0#8
  nval := 0
  mincode := Vector.replicate 16 0#17
  maxcode := Vector.replicate 16 (-1)
  valptr := Vector.replicate 16 0#9

/-- The command whose body is executing (10_state R23 b). IDCT and COLOR are not here: their bodies
have no suspension point, so they begin and end in one atomic step (20_memory R76). -/
inductive Body where
  /-- DEC_DC: one DecodeDC (41_entropy R155). -/
  | decDc
  /-- DEC_AC: one DecodeAC (41_entropy R157). -/
  | decAc
  /-- DEC_BLK: DecodeDC then DecodeAC (41_entropy R159). -/
  | decBlk
  /-- RESTART (41_entropy R163). -/
  | restart
  /-- RESYNC while it scans; whether it left a driver halt (41_entropy R166). -/
  | resync (fromRun : Bool)
  /-- The driver at MCU i (44_driver R227). -/
  | drive (i : Nat)
  deriving DecidableEq, Repr

/-- The point reached in the executing command's pseudocode (10_state R23 b, R47 d). `c` is a component,
`b` a slot, `k` a zigzag position; `len` and `code` are HuffDecode's length and running code, `left` and
`raw` the bits still to receive and those received. -/
inductive Point where
  /-- In HuffDecode for a DC symbol: `len` bits read so far (40_tables R126). -/
  | dcCode (c b len code : Nat)
  /-- A DC symbol has been matched and is the next thing to run (41_entropy R151). -/
  | dcSymbol (c b : Nat) (t : BitVec 8)
  /-- In Receive for a DC difference (41_entropy R148). -/
  | dcBits (c b size left raw : Nat)
  /-- In HuffDecode for an AC symbol at position k. -/
  | acCode (c b k len code : Nat)
  /-- An AC symbol has been matched and is the next thing to run (41_entropy R154). -/
  | acSymbol (c b k : Nat) (t : BitVec 8)
  /-- In Receive for the coefficient of position k. -/
  | acBits (c b k size left raw : Nat)
  /-- RestartCheck at its first RawRead (41_entropy R160). -/
  | rstFirst
  /-- RestartCheck at its second RawRead. -/
  | rstSecond
  /-- ResyncScan at the head of its loop (41_entropy R165). -/
  | scan (prevFf : Bool)
  /-- The driver at the head of its loop (44_driver R227). -/
  | nextMcu (skip : Bool)
  /-- The driver in Emit, waiting for OUTRESP (44_driver R228). -/
  | emit
  deriving DecidableEq, Repr

/-- Where the block is in the command it executes. -/
structure Pos where
  body : Body
  point : Point
  deriving DecidableEq, Repr

/-- The outstanding `PortRead()` request (20_memory R70) and which read it is. -/
inductive Pend where
  /-- The first read of FetchDataByte (41_entropy R144). -/
  | dataFirst
  /-- The second read of FetchDataByte, after a byte 0xFF. -/
  | dataSecond
  /-- The read of RawRead (41_entropy R145). -/
  | raw
  deriving DecidableEq, Repr

/-- An answer of the input source (20_memory R70). -/
inductive Answer where
  | byte (x : BitVec 8)
  | eos
  | ierr
  deriving DecidableEq, Repr

/-- One step of an agent outside the block, in the total order of 20_memory R76. Addresses are platform
addresses; a width is in bytes (R63). -/
inductive Event where
  /-- The host reads. -/
  | busRead (addr width : Nat)
  /-- The host writes. -/
  | busWrite (addr width : Nat) (value : BitVec 32)
  /-- The input source answers the outstanding request with the next answer of INPUT (R71). -/
  | source
  /-- The platform asserts reset (R280). -/
  | hwReset
  deriving DecidableEq, Repr

/-- A bus response (20_memory R63): the read value (0 for a write) and the bus-error response. -/
structure BusReply where
  data : BitVec 32
  err : Bool
  deriving DecidableEq, Repr

/-- The buffer windows of the register space as byte cells (20_memory R62): rising addresses, no cell
equal to the 0 that an unlisted address reads as (10_state R44-R46: every entry resets to 0).
COEF[b][k] is the two bytes at 0x1000 + 4(64b+k), low byte first; TILE[b][n] is the byte at
0x2000 + 4(64b+n); PIX[i] is the byte at 0x3000 + i. -/
abbrev Memory := List Host.Cell

/-- The state of the machine: the block's own state (10_state), then the agents around it. -/
structure State where
  /-- STATE (R22). -/
  state : SeqState
  /-- RUNHALT (R25). -/
  runhalt : Bool
  /-- ERR (R250). -/
  err : BitVec 4
  /-- DETAIL (R251). -/
  detail : BitVec 8
  /-- SYM (R251). -/
  sym : BitVec 8
  /-- INTSTAT[7:0] (R27). -/
  intstat : BitVec 8
  /-- INTEN[7:0] (R28). -/
  inten : BitVec 8
  /-- CFG0[10:0] (R30). -/
  cfg0 : BitVec 11
  /-- CFG1[29:0] (R31). -/
  cfg1 : BitVec 30
  /-- SIZE: HEIGHT and WIDTH (R32). -/
  size : BitVec 32
  /-- RSTINT[15:0] (R33). -/
  rstint : BitVec 16
  /-- QT[q][k] in zigzag order (R41). -/
  qt : Vector (Vector (BitVec 16) 64) 4
  /-- QTV[q] (R41). -/
  qtv : Vector Bool 4
  /-- HT[cls][id] at index 4·cls + id (R42). -/
  ht : Vector HuffTable 8
  /-- HTV[cls][id] at index 4·cls + id (R42). -/
  htv : Vector Bool 8
  /-- LDCLS (R43). -/
  ldcls : Cls
  /-- LDID (R43). -/
  ldid : BitVec 2
  /-- LDCNT (R43). -/
  ldcnt : BitVec 9
  /-- CBITS (R34). -/
  cbits : BitVec 8
  /-- BCNT (R34). -/
  bcnt : BitVec 4
  /-- MP (R34). -/
  mp : Bool
  /-- MARKER (R34). -/
  marker : BitVec 8
  /-- EOS (R34). -/
  eos : Bool
  /-- BYTECNT (R34). -/
  bytecnt : BitVec 32
  /-- PRED[0..2] (R35). -/
  pred : Vector (BitVec 16) 3
  /-- RSTCTR (R36). -/
  rstctr : BitVec 16
  /-- RSTNEXT (R36). -/
  rstnext : BitVec 3
  /-- MCUX (R37). -/
  mcux : BitVec 16
  /-- MCUY (R37). -/
  mcuy : BitVec 16
  /-- RECT.LEFT (R38). -/
  left : BitVec 16
  /-- RECT.TOP (R38). -/
  top : BitVec 16
  /-- RECT.RIGHT (R38). -/
  right : BitVec 16
  /-- RECT.BOTTOM (R38). -/
  bottom : BitVec 16
  /-- PIXLEN (R38). -/
  pixlen : BitVec 10
  /-- COEF, TILE and PIX (R44-R46). -/
  mem : Memory
  /-- The command being executed and the point reached in it (R23 b). -/
  pos : Option Pos
  /-- The outstanding `PortRead()` request (R70). -/
  pend : Option Pend
  /-- TJD_BASE, a parameter nothing writes (R61; log 4). -/
  tjdBase : Nat
  /-- The steps of the agents outside the block still to come, in order (R76; log 1). -/
  agenda : List Event
  /-- The answers of INPUT still to come (R71; log 2). -/
  input : List Answer
  /-- The streams the source presents after later resets (R71, R280; log 3). -/
  freshInputs : List (List Answer)
  /-- The last bus response to the host (R63; log 5). -/
  reply : Option BusReply
  /-- The model's counter of block steps, to which the draws of R68 are applied (log 6). -/
  epoch : Nat
  deriving DecidableEq, Repr

/-- Why the machine of the model stops. The block's own faults (60_exceptions R256) are not here: they are
next states. -/
inductive Fault where
  /-- Raised by the meaning of a stream symbol when the block is at no point of a decode that could have
  read it: no DC symbol, AC symbol or byte pair is being looked at. The spec gives a symbol no effect
  there and no step of the machine reads one there. Safe: the model stops. -/
  | strayStreamSymbol
  deriving DecidableEq, Repr

/-- Why an instruction has no meaning. -/
inductive Refusal where
  /-- Raised by an arm of exec that has no meaning yet. Safe: the model stops. No arm raises it. -/
  | notModelled (mnemonic : String)
  deriving DecidableEq, Repr

/-- The state after hardware reset (70_reset_and_hazards R280): every element at the value of that rule's
table. The last six fields are the model's own (logs 1-6). -/
def State.reset : State where
  state := .idle
  runhalt := false
  err := 0#4
  detail := 0#8
  sym := 0#8
  intstat := 0#8
  inten := 0#8
  cfg0 := 0#11
  cfg1 := 0#30
  size := 0#32
  rstint := 0#16
  qt := Vector.replicate 4 (Vector.replicate 64 0#16)
  qtv := Vector.replicate 4 false
  ht := Vector.replicate 8 HuffTable.empty
  htv := Vector.replicate 8 false
  ldcls := .dc
  ldid := 0#2
  ldcnt := 0#9
  cbits := 0#8
  bcnt := 0#4
  mp := false
  marker := 0#8
  eos := false
  bytecnt := 0#32
  pred := Vector.replicate 3 0#16
  rstctr := 0#16
  rstnext := 0#3
  mcux := 0#16
  mcuy := 0#16
  left := 0#16
  top := 0#16
  right := 0#16
  bottom := 0#16
  pixlen := 0#10
  mem := []
  pos := none
  pend := none
  tjdBase := 0
  agenda := []
  input := []
  freshInputs := []
  reply := none
  epoch := 0

end Sys2Proof.Machine
end

