-- ==== Sys2Proof/Machine/Flags.lean ====
section
/-! DEFINITION. The status flags: the STATE codes, the INTSTAT bits, the STATUS flags that are functions of the
sequencer's state, and the interrupt line (10_state R22, R25-R29, R48; 60_exceptions R258). -/

namespace Sys2Proof.Machine

/-- The value of the STATE field (R22). -/
def stateCode : SeqState → BitVec 4
  | .idle => 0#4
  | .loadq => 1#4
  | .loadh => 2#4
  | .step => 3#4
  | .run => 4#4
  | .syncHalt => 5#4
  | .done => 6#4
  | .error => 7#4
  | .cancelled => 8#4

/-- INTSTAT bit 0, DONE (R27). -/
def intDone : BitVec 8 := 0x01#8
/-- INTSTAT bit 1, ERROR. -/
def intError : BitVec 8 := 0x02#8
/-- INTSTAT bit 2, SYNC. -/
def intSync : BitVec 8 := 0x04#8
/-- INTSTAT bit 3, CANCEL. -/
def intCancel : BitVec 8 := 0x08#8
/-- INTSTAT bit 4, CMDDONE. -/
def intCmdDone : BitVec 8 := 0x10#8
/-- INTSTAT bit 5, OUTREQ. -/
def intOutReq : BitVec 8 := 0x20#8
/-- INTSTAT bit 6, CMDIGN. -/
def intCmdIgn : BitVec 8 := 0x40#8
/-- INTSTAT bit 7, CMDERR. -/
def intCmdErr : BitVec 8 := 0x80#8

/-- An event sets its INTSTAT bit; a bit already pending stays 1 (R27, 60_exceptions R259). -/
def raiseInt (bit : BitVec 8) (s : State) : State := { s with intstat := s.intstat ||| bit }

/-- BUSY (R25). -/
def busy (s : State) : Bool :=
  match s.state with
  | .step => true
  | .run => true
  | _ => false

/-- OUTWAIT: the driver is suspended in Emit (R25, 44_driver R228). -/
def outwait (s : State) : Bool :=
  match s.pos with
  | some ⟨.drive _, .emit⟩ => true
  | _ => false

/-- INWAIT: a `PortRead()` of the logical reader is outstanding (R25, 20_memory R70). -/
def inwait (s : State) : Bool := s.pend.isSome

/-- The STATUS word (R25). -/
def statusWord (s : State) : Word :=
  0#20 ++ s.err ++ BitVec.ofBool s.runhalt ++ BitVec.ofBool (inwait s) ++ BitVec.ofBool (outwait s)
    ++ BitVec.ofBool (busy s) ++ stateCode s.state

/-- The ERRINFO word (R26). -/
def errinfoWord (s : State) : Word := 0#16 ++ s.sym ++ s.detail

/-- Four valid bits, the one of index `o` lowest. -/
def nibbleOf {n : Nat} (v : Vector Bool n) (o : Nat) : BitVec 4 :=
  BitVec.ofBool (v[o + 3]?.getD false) ++ BitVec.ofBool (v[o + 2]?.getD false)
    ++ BitVec.ofBool (v[o + 1]?.getD false) ++ BitVec.ofBool (v[o]?.getD false)

/-- The TBLSTAT word: HTV[AC], HTV[DC], QTV (R29). -/
def tblstatWord (s : State) : Word := 0#20 ++ nibbleOf s.htv 4 ++ nibbleOf s.htv 0 ++ nibbleOf s.qtv 0

/-- The interrupt line (60_exceptions R258): some pending bit is enabled. -/
def irq (s : State) : Bool := s.intstat &&& s.inten != 0#8

end Sys2Proof.Machine
end

