-- ==== Sys2Proof/Machine/Operands.lean ====
section
/-! DEFINITION. What a command reads its operands from (30_encoding R95): the configuration fields, the MCU
layout and geometry (43_color R201-R206), the configuration check and the operand checks (44_driver R222,
R223). -/

namespace Sys2Proof.Machine

/-- `ceil(a, b)` of 00_scope R8. -/
def ceilDiv (a b : Nat) : Nat := (a + b - 1) / b

/-- CFG0.NCOMP (10_state R30). -/
def ncomp (s : State) : Nat := (s.cfg0.extractLsb' 0 2).toNat
/-- CFG0.SCALE. -/
def scale (s : State) : Nat := (s.cfg0.extractLsb' 2 2).toNat
/-- CFG0.PIXFMT. -/
def pixfmt (s : State) : Nat := (s.cfg0.extractLsb' 4 2).toNat
/-- CFG0.RGB_ORDER. -/
def rgbOrder (s : State) : Bool := s.cfg0.getLsbD 6
/-- CFG0.R565_BE. -/
def r565Be (s : State) : Bool := s.cfg0.getLsbD 7
/-- CFG0.STRATEGY. No result depends on it (40_tables R127); only CFGCHK reads it. -/
def strategy (s : State) : Nat := (s.cfg0.extractLsb' 8 2).toNat

/-- H[c] (10_state R31). -/
def hFactor (s : State) (c : Nat) : Nat := (s.cfg1.extractLsb' (10 * c) 2).toNat
/-- V[c]. -/
def vFactor (s : State) (c : Nat) : Nat := (s.cfg1.extractLsb' (10 * c + 2) 2).toNat
/-- QSEL[c]. -/
def qSel (s : State) (c : Nat) : Nat := (s.cfg1.extractLsb' (10 * c + 4) 2).toNat
/-- DCSEL[c]. -/
def dcSel (s : State) (c : Nat) : Nat := (s.cfg1.extractLsb' (10 * c + 6) 2).toNat
/-- ACSEL[c]. -/
def acSel (s : State) (c : Nat) : Nat := (s.cfg1.extractLsb' (10 * c + 8) 2).toNat

/-- WIDTH (10_state R32). -/
def width (s : State) : Nat := (s.size.extractLsb' 0 16).toNat
/-- HEIGHT. -/
def height (s : State) : Nat := (s.size.extractLsb' 16 16).toNat

/-- The index of HT[cls][id] (10_state R42). -/
def htIndex (cls : Cls) (id : Nat) : Nat :=
  match cls with
  | .dc => id
  | .ac => 4 + id

/-- HT[cls][id]. -/
def huffTable (s : State) (cls : Cls) (id : Nat) : HuffTable := s.ht[htIndex cls id]?.getD HuffTable.empty

/-- The number of blocks component c contributes to an MCU (43_color R201). -/
def blocksOf (s : State) (c : Nat) : Nat := hFactor s c * vFactor s c

/-- base(c): the first slot of component c (R201). -/
def slotBase (s : State) (c : Nat) : Nat := ((List.range c).map (blocksOf s)).sum

/-- base(NCOMP): the number of slots of an MCU (R201). -/
def slotCount (s : State) : Nat := slotBase s (ncomp s)

/-- slot(c, bx, by) (R201). -/
def slotOf (s : State) (c bx by' : Nat) : Nat := slotBase s c + by' * hFactor s c + bx

/-- The component whose block slot b holds: the slots are filled component by component (R201). -/
def compOf (s : State) (b : Nat) : Nat :=
  if b < slotBase s 1 then 0 else if b < slotBase s 2 then 1 else 2

/-- N, the block size at the current scale (42_idct R186). -/
def blockSize (s : State) : Nat := 8 >>> scale s

/-- MW and MH (43_color R203). -/
def mcuWidth (s : State) : Nat := 8 * hFactor s 0
def mcuHeight (s : State) : Nat := 8 * vFactor s 0

/-- NMCUX, NMCUY and NMCU (R203). -/
def nmcux (s : State) : Nat := ceilDiv (width s) (mcuWidth s)
def nmcuy (s : State) : Nat := ceilDiv (height s) (mcuHeight s)
def nmcu (s : State) : Nat := nmcux s * nmcuy s

/-- Ws and Hs, the scaled image size (R204). -/
def scaledWidth (s : State) : Nat := ceilDiv (width s) (2 ^ scale s)
def scaledHeight (s : State) : Nat := ceilDiv (height s) (2 ^ scale s)

/-- MWs and MHs, the scaled MCU size (R204). -/
def scaledMcuWidth (s : State) : Nat := mcuWidth s >>> scale s
def scaledMcuHeight (s : State) : Nat := mcuHeight s >>> scale s

/-- The MCU rectangle at MCUX, MCUY (R206). -/
def rectLeft (s : State) : Nat := s.mcux.toNat * scaledMcuWidth s
def rectTop (s : State) : Nat := s.mcuy.toNat * scaledMcuHeight s
def rectRight (s : State) : Nat := min (rectLeft s + scaledMcuWidth s - 1) (scaledWidth s - 1)
def rectBottom (s : State) : Nat := min (rectTop s + scaledMcuHeight s - 1) (scaledHeight s - 1)
def rectCols (s : State) : Nat := rectRight s + 1 - rectLeft s
def rectRows (s : State) : Nat := rectBottom s + 1 - rectTop s

/-- A legal sampling factor (44_driver R222, check 3). -/
def factorOk (n : Nat) : Bool := n == 1 || n == 2

/-- Every configured component passes a check. -/
def allComps (s : State) (p : Nat → Bool) : Bool := (List.range (ncomp s)).all p

/-- CFGCHK (44_driver R222): the DETAIL code of the first check that fails. It writes nothing. -/
def cfgCheck (s : State) : Option Byte :=
  if !(ncomp s == 1 || ncomp s == 3) then some 0x01#8
  else if pixfmt s == 3 || strategy s == 3 then some 0x07#8
  else if !allComps s (fun c => factorOk (hFactor s c) && factorOk (vFactor s c)) then some 0x02#8
  else if !allComps s (fun c => c == 0 ||
      (decide (hFactor s c ≤ hFactor s 0) && decide (vFactor s c ≤ vFactor s 0))) then some 0x03#8
  else if width s == 0 || height s == 0 then some 0x06#8
  else if !allComps s (fun c => s.qtv[qSel s c]?.getD false) then some 0x04#8
  else if !allComps s (fun c => s.htv[htIndex .dc (dcSel s c)]?.getD false
      && s.htv[htIndex .ac (acSel s c)]?.getD false) then some 0x05#8
  else none

/-- Operand check (a) of R223: the component is not configured. -/
def compUnconfigured (c : BitVec 2) (s : State) : Bool := decide (ncomp s ≤ c.toNat)

/-- Operand check (b) of R223: MCUPOS is outside the MCU grid. -/
def mcuOutsideGrid (s : State) : Bool :=
  decide (nmcux s ≤ s.mcux.toNat) || decide (nmcuy s ≤ s.mcuy.toNat)

end Sys2Proof.Machine
end

