-- ==== Sys2Proof/WellFormed.lean ====
section
/-! DEFINITION. Which instructions are well formed: the operand values an encoding of the spec can hold. -/

namespace Sys2Proof

/-- The operand checks of format FB (30_encoding R93, R96 d and e): C is 0..2 and B is 0..11. -/
def fbOperandsOk (c : BitVec 2) (b : BitVec 4) : Bool :=
  decide (c.toNat < Config.maxComponents) && decide (b.toNat < Config.slots)

/-- The second byte of a pair that is one of the restart markers RST0..RST7 (R102). -/
def isRstByte (b : Byte) : Bool := b.extractLsb' 3 5 == 0x1A#5

/-- An instruction whose operands its encoding can hold. -/
def Instr.wellFormed : Instr → Bool
  | .nop => true
  | .sreset => true
  | .loadQt _ => true
  | .loadHt _ _ => true
  | .start => true
  | .resync => true
  | .decDc c b => fbOperandsOk c b
  | .decAc c b => fbOperandsOk c b
  | .decBlk c b => fbOperandsOk c b
  | .restart => true
  | .idct c b => fbOperandsOk c b
  | .color => true
  | .dcDiff _ => true
  | .dcIllegal t => decide (16 ≤ t.toNat)
  | .acEob => true
  | .acZrl => true
  | .acRunsize _ s => s != 0#4
  | .acUndef r => r != 0#4 && r != 15#4
  | .stuffFf00 => true
  | .rstN _ => true
  | .markerOther b => b != 0#8 && !isRstByte b

end Sys2Proof
end

