-- ==== Sys2Proof/Machine/Ops.lean ====
section
/-! DEFINITION. The named operations over the buffers and registers: byte cells, the COEF, TILE and PIX buffers,
the predictors, taking a fault and leaving a halt (60_exceptions R256, R260), reset, the refusals of R98, and
the command wrapper (44_driver R224). -/

namespace Sys2Proof.Machine

/-! ## Buffer memory -/

/-- The byte at an address; an address with no cell reads 0, the reset value of every buffer (R44-R46). -/
def Memory.read : Memory → Nat → Byte
  | [], _ => 0#8
  | (x, v) :: m, a => if a < x then 0#8 else if a = x then v else Memory.read m a

/-- A cell put at the head of a memory, or left out where it holds 0 (the canonical form). -/
def Memory.consCell (a : Nat) (v : Byte) (m : Memory) : Memory := if v = 0#8 then m else (a, v) :: m

/-- Write one byte, keeping the canonical form. -/
def Memory.write : Memory → Nat → Byte → Memory
  | [], a, v => Memory.consCell a v []
  | (x, w) :: m, a, v =>
    if a < x then Memory.consCell a v ((x, w) :: m)
    else if a = x then Memory.consCell a v m
    else (x, w) :: Memory.write m a v

/-- Write bytes at `a`, `a + stride`, `a + 2·stride`, … -/
def Memory.writeList (stride : Nat) : Memory → Nat → List Byte → Memory
  | m, _, [] => m
  | m, a, v :: vs => Memory.writeList stride (Memory.write m a v) (a + stride) vs

/-- Every address of the memory is above `a`. -/
def Memory.above (a : Nat) (m : Memory) : Bool := m.all fun c => decide (a < c.1)

/-- The canonical form: addresses strictly rising, no cell equal to what an unlisted address reads as. -/
def Memory.wf : Memory → Bool
  | [] => true
  | (a, v) :: m => v != 0#8 && Memory.above a m && Memory.wf m

/-- The offset of COEF[b][k] in the register space (20_memory R64). -/
def coefAddr (b k : Nat) : Nat := 0x1000 + 4 * (64 * b + k)
/-- The offset of TILE[b][n] (R65). -/
def tileAddr (b n : Nat) : Nat := 0x2000 + 4 * (64 * b + n)
/-- The byte address of PIX[i] (R66). -/
def pixAddr (i : Nat) : Nat := 0x3000 + i

/-- COEF[b][k] (10_state R44). -/
def coefRead (m : Memory) (b k : Nat) : Half :=
  Memory.read m (coefAddr b k + 1) ++ Memory.read m (coefAddr b k)

/-- COEF[b][k] <- v. -/
def coefWrite (m : Memory) (b k : Nat) (v : Half) : Memory :=
  Memory.write (Memory.write m (coefAddr b k) (v.extractLsb' 0 8)) (coefAddr b k + 1) (v.extractLsb' 8 8)

/-- COEF[b][k..k+n-1] <- 0. -/
def coefClear (m : Memory) (b k : Nat) : Nat → Memory
  | 0 => m
  | n + 1 => coefClear (coefWrite m b k 0#16) b (k + 1) n

/-- TILE[b][n] (R45). -/
def tileRead (m : Memory) (b n : Nat) : Byte := Memory.read m (tileAddr b n)

/-- TILE[b][0], TILE[b][1], … <- the samples given. -/
def tileWrite (m : Memory) (b : Nat) (samples : List Byte) : Memory :=
  Memory.writeList 4 m (tileAddr b 0) samples

/-- PIX[i] (R46). -/
def pixRead (m : Memory) (i : Nat) : Byte := Memory.read m (pixAddr i)

/-- PIX[0], PIX[1], … <- the bytes given. -/
def pixWrite (m : Memory) (bytes : List Byte) : Memory := Memory.writeList 1 m (pixAddr 0) bytes

/-! ## Arithmetic of 00_scope R8 -/

/-- `a >> n` on an integer of either sign: floor(a / 2^n). -/
def asr (a : Int) (n : Nat) : Int := a / 2 ^ n

/-- `clamp(v, lo, hi)`. -/
def clamp (v lo hi : Int) : Int := min hi (max lo v)

/-- `s16(v)` as the 16-bit register that holds it. -/
def s16 (v : Int) : Half := BitVec.ofInt 16 v

/-- A value of 0..255 as a byte. -/
def byteOfInt (v : Int) : Byte := BitVec.ofInt 8 v

/-- extend(raw, S) (41_entropy R150). -/
def extend (raw size : Nat) : Int :=
  if size = 0 then 0
  else if raw.testBit (size - 1) then (raw : Int)
  else (raw : Int) - (2 ^ size - 1)

/-! ## Registers -/

/-- PRED[c] (10_state R35). -/
def predRead (s : State) (c : Nat) : Half := s.pred[c]?.getD 0#16

/-- PRED[c] <- v. -/
def predWrite (s : State) (c : Nat) (v : Half) : State := { s with pred := s.pred.setIfInBounds c v }

/-- PRED[0..2] <- 0. -/
def predClear (s : State) : State := { s with pred := Vector.replicate 3 0#16 }

/-- The block goes on from another point of the executing command. -/
def goto (body : Body) (point : Point) (s : State) : State := { s with pos := some ⟨body, point⟩ }

/-! ## Faults, refusals and the end of a command -/

/-- ERR codes (60_exceptions R250). -/
def errFormat : BitVec 4 := 1#4
def errHuffman : BitVec 4 := 3#4
def errSync : BitVec 4 := 4#4
def errInput : BitVec 4 := 6#4
def errCancelled : BitVec 4 := 7#4

/-- DETAIL codes of the faults outside CFGCHK (R251). -/
def dtHtTooMany : Byte := 0x10#8
def dtHtOversub : Byte := 0x11#8
def dtDcSize : Byte := 0x20#8
def dtAcUndef : Byte := 0x21#8
def dtAcOverrun : Byte := 0x22#8
def dtHuffNomatch : Byte := 0x30#8
def dtSyncNotFf : Byte := 0x40#8
def dtSyncWrong : Byte := 0x41#8
def dtResyncEos : Byte := 0x42#8
def dtInputErr : Byte := 0x50#8
def dtCancel : Byte := 0x60#8

/-- No command is executing and no request is outstanding. -/
def endCommand (s : State) : State := { s with pos := none, pend := none }

/-- TAKING A FAULT (60_exceptions R256): the record in ERR, DETAIL and SYM, the state the fault enters and
its INTSTAT bit; the command ends. A failed restart check enters SYNC_HALT, every other fault ERROR. -/
def takeFault (e : BitVec 4) (d sy : Byte) (s : State) : State :=
  let r := endCommand { s with err := e, detail := d, sym := sy }
  if e = errSync ∧ (d = dtSyncNotFf ∨ d = dtSyncWrong) then
    raiseInt intSync { r with runhalt := s.state == .run, state := .syncHalt }
  else raiseInt intError { r with state := .error, runhalt := false }

/-- LEAVING A HALT (41_entropy R166, 60_exceptions R260): a successful RESYNC clears ERR, DETAIL and SYM. -/
def clearFault (s : State) : State := { s with err := 0#4, detail := 0#8, sym := 0#8 }

/-- CmdError (30_encoding R98): the write is refused as malformed. -/
def cmdError (s : State) : State := raiseInt intCmdErr s

/-- CmdIgnored (R98): the write is ignored because of the state. -/
def cmdIgnored (s : State) : State := raiseInt intCmdIgn s

/-- A load or step command completes (10_state R27, 44_driver R224). -/
def completeCommand (s : State) : State := raiseInt intCmdDone { endCommand s with state := .idle }

/-- Reset (70_reset_and_hazards R280) seen with the agents around the block: the block's state is the reset
state; what is outside the block goes on, the source with the next fresh stream where one is given (R71;
log 3). -/
def resetBlock (s : State) : State :=
  { State.reset with
    tjdBase := s.tjdBase
    agenda := s.agenda
    input := s.freshInputs.headD s.input
    freshInputs := s.freshInputs.tail
    reply := s.reply
    epoch := s.epoch + 1 }

/-- A command accepted in one state only, its operands checked first (30_encoding R96-R98). -/
def issue (operandsOk : Bool) (accepted : SeqState) (run : State → State) (s : State) : State :=
  if operandsOk then
    if s.state = accepted then run s else cmdIgnored s
  else cmdError s

/-- StepCommand (44_driver R224) up to the body: CFGCHK, then the operand check, then STATE <- STEP. -/
def stepCommand (refuse : State → Bool) (body : State → State) (s : State) : State :=
  match cfgCheck s with
  | some d => takeFault errFormat d 0#8 s
  | none => if refuse s then cmdError s else body { s with state := .step }

end Sys2Proof.Machine
end

