-- ==== Sys2Proof/Machine/Control.lean ====
section
/-! DEFINITION. The two control commands that every state accepts: NOP (44_driver R240) and SRESET
(70_reset_and_hazards R281). -/

namespace Sys2Proof.Machine

/-- NOP (44_driver R240): it changes no state and sets no INTSTAT bit. -/
def execNop (s : State) : Host.Outcome State Fault Refusal := .next s

/-- SRESET (70_reset_and_hazards R281): hardware reset, as one atomic step, in every state. -/
def execSreset (s : State) : Host.Outcome State Fault Refusal := .next (resetBlock s)

end Sys2Proof.Machine
end

