-- ==== Sys2Proof/Decode.lean ====
section
/-! DEFINITION. The decoders of command words and of stream symbols, total and rejecting by name, and after
them the encoder, from the same encoding tables of the spec (30_encoding R90-R105). -/

namespace Sys2Proof

/-- Why a word is no instruction. (a)-(e) are the cases of R96; the last is a byte pair that does not
begin with 0xFF (R102), which is data and no symbol. -/
inductive Malformed where
  /-- R96 (a): the opcode is not in the map of R94. -/
  | reservedOpcode
  /-- R96 (b): a bit the format marks "must be 0" is 1. -/
  | mustBeZero
  /-- R96 (c): LOAD_QT with CLS = 1. -/
  | loadQtClass
  /-- R96 (d): format FB with C = 3. -/
  | componentOutOfRange
  /-- R96 (e): format FB with B ≥ 12. -/
  | slotOutOfRange
  /-- The first byte of a pair is not 0xFF (R102). -/
  | notMarkerPair
  deriving DecidableEq, Repr

/-- Format F0 (R91): bits [23:0] must be 0. -/
def decodeF0 (w : Word) (i : Instr) : Except Malformed Instr :=
  if w.extractLsb' 0 24 = 0#24 then .ok i else .error .mustBeZero

/-- Format FT (R92): CLS is bit 4, ID is bits [1:0], the other operand bits must be 0. -/
def decodeFT (w : Word) (k : Cls → BitVec 2 → Except Malformed Instr) : Except Malformed Instr :=
  if w.extractLsb' 5 19 = 0#19 ∧ w.extractLsb' 2 2 = 0#2 then
    k (if w.extractLsb' 4 1 = 1#1 then .ac else .dc) (w.extractLsb' 0 2)
  else .error .mustBeZero

/-- Format FB (R93): C is bits [9:8], B is bits [3:0], the other operand bits must be 0; C = 3 and
B ≥ 12 are malformed (R96 d, e). -/
def decodeFB (w : Word) (k : BitVec 2 → BitVec 4 → Instr) : Except Malformed Instr :=
  if w.extractLsb' 10 14 = 0#14 ∧ w.extractLsb' 4 4 = 0#4 then
    if Config.maxComponents ≤ (w.extractLsb' 8 2).toNat then .error .componentOutOfRange
    else if Config.slots ≤ (w.extractLsb' 0 4).toNat then .error .slotOutOfRange
    else .ok (k (w.extractLsb' 8 2) (w.extractLsb' 0 4))
  else .error .mustBeZero

/-- A word written to CMD (R90, R94, R96): its opcode is bits [31:24]. -/
def decodeCmd (w : Word) : Except Malformed Instr :=
  let opc := w.extractLsb' 24 8
  if opc = 0x00#8 then decodeF0 w .nop
  else if opc = 0x01#8 then decodeF0 w .sreset
  else if opc = 0x10#8 then
    decodeFT w fun cls id => if cls = .ac then .error .loadQtClass else .ok (.loadQt id)
  else if opc = 0x11#8 then decodeFT w fun cls id => .ok (.loadHt cls id)
  else if opc = 0x20#8 then decodeF0 w .start
  else if opc = 0x21#8 then decodeF0 w .resync
  else if opc = 0x30#8 then decodeFB w .decDc
  else if opc = 0x31#8 then decodeFB w .decAc
  else if opc = 0x32#8 then decodeFB w .decBlk
  else if opc = 0x33#8 then decodeF0 w .restart
  else if opc = 0x40#8 then decodeFB w .idct
  else if opc = 0x50#8 then decodeF0 w .color
  else .error .reservedOpcode

/-- A decoded DC symbol byte (R104): every byte is a DC symbol. -/
def decodeDcSymbol (t : Byte) : Instr :=
  if t.extractLsb' 4 4 = 0#4 then .dcDiff (t.extractLsb' 0 4) else .dcIllegal t

/-- A decoded AC symbol byte (R105): r = t[7:4], s = t[3:0]; every byte is an AC symbol. -/
def decodeAcSymbol (t : Byte) : Instr :=
  if t = 0x00#8 then .acEob
  else if t = 0xF0#8 then .acZrl
  else if t.extractLsb' 0 4 = 0#4 then .acUndef (t.extractLsb' 4 4)
  else .acRunsize (t.extractLsb' 4 4) (t.extractLsb' 0 4)

/-- The byte that follows 0xFF in a byte pair (R102). -/
def decodeAfterFf (b : Byte) : Instr :=
  if b = 0x00#8 then .stuffFf00
  else if isRstByte b then .rstN (b.extractLsb' 0 3)
  else .markerOther b

/-- A byte pair of the stream, the byte read first given first (R102). -/
def decodePair (first second : Byte) : Except Malformed Instr :=
  if first = 0xFF#8 then .ok (decodeAfterFf second) else .error .notMarkerPair

/-- An encoded instruction in the space its encoding belongs to: a command word, a DC or AC symbol
byte, a byte pair of the input stream (the column "space" of the opcode table). -/
inductive Code where
  | cmd (w : Word)
  | dcSymbol (t : Byte)
  | acSymbol (t : Byte)
  | pair (first second : Byte)
  deriving DecidableEq, Repr

/-- Decoding in the space a code belongs to. -/
def decodeCode : Code → Except Malformed Instr
  | .cmd w => decodeCmd w
  | .dcSymbol t => .ok (decodeDcSymbol t)
  | .acSymbol t => .ok (decodeAcSymbol t)
  | .pair a b => decodePair a b

/-- The CLS bit (R92). -/
def clsBit : Cls → BitVec 1
  | .dc => 0#1
  | .ac => 1#1

/-- The word of format F0 (R91). -/
def encodeF0 (opc : BitVec 8) : Word := opc ++ 0#24

/-- The word of format FT (R92). -/
def encodeFT (opc : BitVec 8) (cls : Cls) (id : BitVec 2) : Word :=
  opc ++ 0#19 ++ clsBit cls ++ 0#2 ++ id

/-- The word of format FB (R93). -/
def encodeFB (opc : BitVec 8) (c : BitVec 2) (b : BitVec 4) : Word :=
  opc ++ 0#14 ++ c ++ 0#4 ++ b

/-- The encoding of an instruction, from the opcode map (R94) and the stream's encodings (R102-R105). -/
def encode : Instr → Code
  | .nop => .cmd (encodeF0 0x00#8)
  | .sreset => .cmd (encodeF0 0x01#8)
  | .loadQt id => .cmd (encodeFT 0x10#8 .dc id)
  | .loadHt cls id => .cmd (encodeFT 0x11#8 cls id)
  | .start => .cmd (encodeF0 0x20#8)
  | .resync => .cmd (encodeF0 0x21#8)
  | .decDc c b => .cmd (encodeFB 0x30#8 c b)
  | .decAc c b => .cmd (encodeFB 0x31#8 c b)
  | .decBlk c b => .cmd (encodeFB 0x32#8 c b)
  | .restart => .cmd (encodeF0 0x33#8)
  | .idct c b => .cmd (encodeFB 0x40#8 c b)
  | .color => .cmd (encodeF0 0x50#8)
  | .dcDiff size => .dcSymbol (0#4 ++ size)
  | .dcIllegal t => .dcSymbol t
  | .acEob => .acSymbol 0x00#8
  | .acZrl => .acSymbol 0xF0#8
  | .acRunsize r s => .acSymbol (r ++ s)
  | .acUndef r => .acSymbol (r ++ 0#4)
  | .stuffFf00 => .pair 0xFF#8 0x00#8
  | .rstN n => .pair 0xFF#8 (0x1A#5 ++ n)
  | .markerOther b => .pair 0xFF#8 b

/-- The space that `nbits` bits of the opcode table are read in. 32 bits are a command word. 16 bits
are a byte pair, the byte read first in bits [15:8] as the table writes it. 8 bits are a symbol byte;
the table gives the DC and the AC symbols the same width and no bit that tells them apart, so one byte
is read in one of the two spaces (log 8): 1..16 as DC symbols (the categories 1..15, and 0x10, the match
byte of the table's DC_ILLEGAL row), every other byte as an AC symbol. -/
def tableCode (nbits w : Nat) : Option Code :=
  if nbits = 32 then some (.cmd (BitVec.ofNat 32 w))
  else if nbits = 16 then some (.pair (BitVec.ofNat 8 (w / 256)) (BitVec.ofNat 8 w))
  else if nbits = 8 then
    if 1 ≤ w ∧ w ≤ 16 then some (.dcSymbol (BitVec.ofNat 8 w)) else some (.acSymbol (BitVec.ofNat 8 w))
  else none

/-- The instruction the decoder reads from an instruction whose bits are `w`, numbered as the opcode
table numbers them. -/
def decodeTableWord (nbits w : Nat) : Option Instr :=
  match tableCode nbits w with
  | some code => (decodeCode code).toOption
  | none => none

end Sys2Proof
end

