-- ==== Sys2Proof/Machine/Color.lean ====
section
/-! DEFINITION. The colour unit (43_color): chroma replication, YCbCr to RGB, pixel packing, the assembly of an
MCU's rectangle, and the command COLOR. -/

namespace Sys2Proof.Machine

/-- A pixel's channels. -/
structure Rgb where
  r : Int
  g : Int
  b : Int
  deriving DecidableEq, Repr

/-- fx(c) and fy(c) (43_color R202). -/
def replX (s : State) (c : Nat) : Nat := hFactor s 0 / hFactor s c
def replY (s : State) (c : Nat) : Nat := vFactor s 0 / vFactor s c

/-- Sample(c, i, j) (R205). -/
def sampleFor (s : State) (c i j : Nat) : Byte :=
  let n := blockSize s
  let ci := i / replX s c
  let cj := j / replY s c
  tileRead s.mem (slotOf s c (ci / n) (cj / n)) (8 * (cj % n) + ci % n)

/-- YCbCr to RGB (R207). -/
def ycbcrToRgb (y cb cr : Byte) : Rgb :=
  let yy : Int := y.toNat
  let b' : Int := (cb.toNat : Int) - 128
  let r' : Int := (cr.toNat : Int) - 128
  { r := clamp (yy + asr (1436 * r' + 512) 10) 0 255
    g := clamp (yy + asr (-352 * b' - 731 * r' + 512) 10) 0 255
    b := clamp (yy + asr (1815 * b' + 512) 10) 0 255 }

/-- The channels of pixel (i, j) (R209): no conversion for a single component. -/
def pixelRgb (s : State) (i j : Nat) : Rgb :=
  let y := sampleFor s 0 i j
  if ncomp s = 1 then ⟨y.toNat, y.toNat, y.toNat⟩
  else ycbcrToRgb y (sampleFor s 1 i j) (sampleFor s 2 i j)

/-- The RGB565 word: R in [15:11], G in [10:5], B in [4:0], truncated (R208). -/
def rgb565 (p : Rgb) : Half :=
  (byteOfInt p.r).extractLsb' 3 5 ++ (byteOfInt p.g).extractLsb' 2 6 ++ (byteOfInt p.b).extractLsb' 3 5

/-- The bytes of one RGB pixel in a colour format, in order (R208). -/
def packRgb (fmt : Nat) (bgr be : Bool) (p : Rgb) : List Byte :=
  if fmt = 0 then
    if bgr then [byteOfInt p.b, byteOfInt p.g, byteOfInt p.r]
    else [byteOfInt p.r, byteOfInt p.g, byteOfInt p.b]
  else
    let w := rgb565 p
    if be then [w.extractLsb' 8 8, w.extractLsb' 0 8] else [w.extractLsb' 0 8, w.extractLsb' 8 8]

/-- The bytes of pixel (i, j) (R208, R209): GRAY8 is the luma sample whatever NCOMP is. -/
def pixelBytes (s : State) (i j : Nat) : List Byte :=
  if pixfmt s = 2 then [sampleFor s 0 i j]
  else packRgb (pixfmt s) (rgbOrder s) (r565Be s) (pixelRgb s i j)

/-- The bytes of the rectangle, row by row and left to right (R210). -/
def rectBytes (s : State) : List Byte :=
  (List.range (rectRows s)).flatMap fun j => (List.range (rectCols s)).flatMap fun i => pixelBytes s i j

/-- AssembleMCU (R210): PIX, zero past the rectangle's bytes; PIXLEN; RECT. -/
def assembleMcu (s : State) : State :=
  let bytes := rectBytes s
  { s with
    mem := pixWrite s.mem (bytes ++ List.replicate (Config.pixBytes - bytes.length) 0#8)
    pixlen := BitVec.ofNat 10 bytes.length
    left := BitVec.ofNat 16 (rectLeft s)
    top := BitVec.ofNat 16 (rectTop s)
    right := BitVec.ofNat 16 (rectRight s)
    bottom := BitVec.ofNat 16 (rectBottom s) }

/-- COLOR (R211). Its body never suspends, so it begins and ends in one atomic step (20_memory R76). -/
def execColor (s : State) : Host.Outcome State Fault Refusal :=
  .next (issue true .idle (stepCommand mcuOutsideGrid fun t => completeCommand (assembleMcu t)) s)

end Sys2Proof.Machine
end

