-- ==== Sys2Proof/Machine/Transform.lean ====
section
/-! DEFINITION. The IDCT unit (42_idct): zigzag reorder, dequantisation, the row and column passes at the output
scale, the level shift and clamp, the tile layout, and the command IDCT. -/

namespace Sys2Proof.Machine

/-- ZZ[k]: the natural index of zigzag position k (42_idct R180). -/
def zigzag : List Nat :=
  [0, 1, 8, 16, 9, 2, 3, 10, 17, 24, 32, 25, 18, 11, 4, 5] ++
  [12, 19, 26, 33, 40, 48, 41, 34, 27, 20, 13, 6, 7, 14, 21, 28] ++
  [35, 42, 49, 56, 57, 50, 43, 36, 29, 22, 15, 23, 30, 37, 44, 51] ++
  [58, 59, 52, 45, 38, 31, 39, 46, 53, 60, 61, 54, 47, 55, 62, 63]

/-- The zigzag position of each natural index, R180's second table. -/
def zigzagPos : List Nat :=
  [0, 1, 5, 6, 14, 15, 27, 28, 2, 4, 7, 13, 16, 26, 29, 42] ++
  [3, 8, 12, 17, 25, 30, 41, 43, 9, 11, 18, 24, 31, 40, 44, 53] ++
  [10, 19, 23, 32, 39, 45, 52, 54, 20, 22, 33, 38, 46, 51, 55, 60] ++
  [21, 34, 37, 47, 50, 56, 59, 61, 35, 36, 48, 49, 57, 58, 62, 63]

/-- K_8 (R184). -/
def basis8 : List (List Int) :=
  [[2896, 4017, 3784, 3406, 2896, 2276, 1567, 799],
   [2896, 3406, 1567, -799, -2896, -4017, -3784, -2276],
   [2896, 2276, -1567, -4017, -2896, 799, 3784, 3406],
   [2896, 799, -3784, -2276, 2896, 3406, -1567, -4017],
   [2896, -799, -3784, 2276, 2896, -3406, -1567, 4017],
   [2896, -2276, -1567, 4017, -2896, -799, 3784, -3406],
   [2896, -3406, 1567, 799, -2896, 4017, -3784, 2276],
   [2896, -4017, 3784, -3406, 2896, -2276, 1567, -799]]

/-- K_4 (R184). -/
def basis4 : List (List Int) :=
  [[2896, 3784, 2896, 1567],
   [2896, 1567, -2896, -3784],
   [2896, -1567, -2896, 3784],
   [2896, -3784, 2896, -1567]]

/-- K_2 (R184). -/
def basis2 : List (List Int) := [[2896, 2896], [2896, -2896]]

/-- K_1 (R184). -/
def basis1 : List (List Int) := [[2896]]

/-- K_N (R183, R184). -/
def basis (n : Nat) : List (List Int) :=
  if n = 8 then basis8 else if n = 4 then basis4 else if n = 2 then basis2 else basis1

/-- Row x of K_N. -/
def basisRow (n x : Nat) : List Int := (basis n)[x]?.getD []

/-- The sum of products of two rows. -/
def dot : List Int → List Int → Int
  | a :: as, b :: bs => a * b + dot as bs
  | _, _ => 0

/-- The quantisation entry QT[q][k] (10_state R41). -/
def qtEntry (s : State) (q k : Nat) : Half := (s.qt[q]?.getD (Vector.replicate 64 0#16))[k]?.getD 0#16

/-- F[n], the dequantised coefficient of natural index n (R181): COEF times QT at the zigzag position that
ZZ sends to n. -/
def dequant (s : State) (b q n : Nat) : Int :=
  let k := zigzagPos[n]?.getD 0
  (coefRead s.mem b k).toInt * ((qtEntry s q k).toNat : Int)

/-- Row v of the N×N corner of F (R186). -/
def coefRow (s : State) (b q n v : Nat) : List Int := (List.range n).map fun u => dequant s b q (8 * v + u)

/-- One row-pass value from a row of F (R187). -/
def rowPass (n x : Nat) (row : List Int) : Int := asr (dot (basisRow n x) row + 1024) 11

/-- One sample from a column of row-pass values: column pass, level shift, clamp (R188). -/
def colPass (n y : Nat) (column : List Int) : Int :=
  clamp (asr (dot (basisRow n y) column + 16384) 15 + 128) 0 255

/-- Column x of the row pass, from the N rows of F. -/
def rowColumn (n x : Nat) (rows : List (List Int)) : List Int := rows.map (rowPass n x)

/-- The N rows of F that the transform uses (R186). -/
def coefRows (s : State) (b q n : Nat) : List (List Int) := (List.range n).map (coefRow s b q n)

/-- The sample s[y][x] of slot b under table q (R187, R188). -/
def sampleAt (s : State) (b q n y x : Nat) : Int := colPass n y (rowColumn n x (coefRows s b q n))

/-- The tile layout (R190): entry 8y + x is the sample for x, y < N and 0 elsewhere. `columns` holds the
row-pass columns 0..N-1. -/
def tileLayout (n : Nat) (columns : List (List Int)) : List Byte :=
  (List.range 64).map fun e =>
    if e % 8 < n ∧ e / 8 < n then byteOfInt (colPass n (e / 8) (columns[e % 8]?.getD [])) else 0#8

/-- The 64 tile bytes of slot b under table q (R186-R190). -/
def idctSamples (s : State) (b q : Nat) : List Byte :=
  let n := blockSize s
  let rows := coefRows s b q n
  tileLayout n ((List.range n).map fun x => rowColumn n x rows)

/-- IdctBlock(b, q) (R191). -/
def idctBlock (b q : Nat) (s : State) : State := { s with mem := tileWrite s.mem b (idctSamples s b q) }

/-- IDCT c, b (R191). Its body never suspends, so it begins and ends in one atomic step (20_memory R76). -/
def execIdct (c : BitVec 2) (b : BitVec 4) (s : State) : Host.Outcome State Fault Refusal :=
  .next (issue (fbOperandsOk c b) .idle
    (stepCommand (compUnconfigured c) fun t => completeCommand (idctBlock b.toNat (qSel t c.toNat) t)) s)

end Sys2Proof.Machine
end

