-- ==== Sys2Proof/Machine/Driver.lean ====
section
/-! DEFINITION. The driver's loop between its suspension points (44_driver R227, R228), and the restart check and
the recovery scan it and the step commands share (41_entropy R160-R167). -/

namespace Sys2Proof.Machine

/-- The IDCT of every slot of the MCU (R227, second loop). -/
def idctAll (s : State) : State :=
  (List.range (slotCount s)).foldl (fun t b => idctBlock b (qSel s (compOf s b)) t) s

/-- All blocks of MCU i are decoded: transform, assemble, then Emit up to its wait (R227, R228). -/
def finishMcu (i : Nat) (s : State) : State :=
  raiseInt intOutReq (goto (.drive i) .emit (assembleMcu (idctAll s)))

/-- Go on with slot b of MCU i (R227, first loop): slots are decoded in the order c, by, bx, which is the
order of their numbers (43_color R201). -/
def blockFrom (i b : Nat) (s : State) : State :=
  if b < slotCount s then goto (.drive i) (.dcCode (compOf s b) b 0 0) s else finishMcu i s

/-- The restart check has succeeded: the driver goes on with MCU i's blocks, RESTART completes. -/
def afterRestart (body : Body) (s : State) : State :=
  match body with
  | .drive i => blockFrom i 0 s
  | _ => completeCommand s

/-- RestartCheck from the point where the marker byte x is known (R160). -/
def checkMarker (body : Body) (x : Byte) (s : State) : State :=
  if x = 0xD0#8 + s.rstnext.setWidth 8 then
    afterRestart body (predClear { s with rstctr := s.rstint, rstnext := s.rstnext + 1#3 })
  else takeFault errSync dtSyncWrong x { s with mp := true, marker := x }

/-- RestartCheck (R160) up to its first read: partial bits are discarded, and a pending marker is the
marker. -/
def restartCheck (body : Body) (s : State) : State :=
  let s := { s with bcnt := 0#4 }
  if s.mp then checkMarker body s.marker { s with mp := false } else goto body .rstFirst s

/-- The head of the driver's loop at MCU i (R227). -/
def nextMcuStep (i : Nat) (skip : Bool) (s : State) : State :=
  if i < nmcu s then
    let s := { s with mcux := BitVec.ofNat 16 (i % nmcux s), mcuy := BitVec.ofNat 16 (i / nmcux s) }
    if !skip && decide (0 < i) && s.rstint != 0#16 && s.rstctr == 0#16 then restartCheck (.drive i) s
    else blockFrom i 0 s
  else raiseInt intDone { endCommand s with state := .done }

/-- The host has answered continue (R227, R228): the counter goes down and the loop goes on. -/
def continueDrive (i : Nat) (s : State) : State :=
  goto (.drive (i + 1)) (.nextMcu false)
    { s with rstctr := if s.rstint = 0#16 then s.rstctr else s.rstctr - 1#16 }

/-- The host has answered abort (R228): CANCELLED, which is no fault (R230). -/
def cancelDrive (s : State) : State :=
  raiseInt intCancel
    { endCommand s with state := .cancelled, err := errCancelled, detail := dtCancel, sym := 0#8 }

/-- RESYNC after its scan has found RSTn (R166): predictors, restart state and fault record, then the
resume index of R167 for a driver halt. -/
def resyncFound (fromRun : Bool) (n : BitVec 3) (s : State) : State :=
  let d := (n - s.rstnext).toNat
  let t := clearFault (predClear { s with rstctr := s.rstint, rstnext := n + 1#3 })
  if fromRun then
    let i := s.mcuy.toNat * nmcux s + s.mcux.toNat + d * s.rstint.toNat
    if nmcu s ≤ i then raiseInt intDone { endCommand t with state := .done }
    else goto (.drive i) (.nextMcu true) t
  else completeCommand t

/-- ResyncScan (R165) up to its loop: a pending restart marker is used, any other pending marker is
skipped, and a pending 0xFF may begin a pair. -/
def resyncBegin (fromRun : Bool) (s : State) : State :=
  let s := { s with bcnt := 0#4 }
  if s.mp && isRstByte s.marker then
    resyncFound fromRun (s.marker.extractLsb' 0 3) { s with mp := false }
  else goto (.resync fromRun) (.scan (s.mp && s.marker == 0xFF#8)) { s with mp := false }

/-- Whether a scan was started from a driver halt. -/
def bodyFromRun : Body → Bool
  | .resync fromRun => fromRun
  | _ => false

/-- The loop body of ResyncScan once the byte x has been read (R165). -/
def scanByte (body : Body) (prevFf : Bool) (x : Byte) (s : State) : State :=
  if prevFf && isRstByte x then resyncFound (bodyFromRun body) (x.extractLsb' 0 3) s
  else goto body (.scan (x == 0xFF#8)) s

end Sys2Proof.Machine
end

