-- ==== Sys2Proof/Machine/Entropy.lean ====
section
/-! DEFINITION. The entropy unit (41_entropy): the cursor and the byte reader, Huffman matching bit by bit
(40_tables R126), the effects of the DC and AC symbols and of the byte pairs. -/

namespace Sys2Proof.Machine

/-! ## The byte reader -/

/-- A data byte enters the cursor (41_entropy R147). -/
def loadByte (x : Byte) (s : State) : State := { s with cbits := x, bcnt := 8#4, pend := none }

/-- NextBit (R147) with what is done with the bit. An empty cursor takes the fill byte while a marker is
pending or after end of stream (R142, R144), and otherwise issues the first `PortRead()` of
FetchDataByte and suspends. -/
def withBit (s : State) (use : Bool → State → State) : State :=
  if s.bcnt = 0#4 then
    if s.mp || s.eos then
      use (Config.fillByte.getLsbD 7) { s with cbits := Config.fillByte, bcnt := 7#4 }
    else { s with pend := some .dataFirst }
  else use (s.cbits.getLsbD (s.bcnt.toNat - 1)) { s with bcnt := s.bcnt - 1#4 }

/-- RawRead (R145) with what is done with the byte: 0xFF after end of stream, else a `PortRead()`. -/
def withRawByte (s : State) (use : Byte → State → State) : State :=
  if s.eos then use Config.fillByte s else { s with pend := some .raw }

/-- The byte of a RawRead has come (R160, R165). -/
def rawByte (p : Pos) (x : Byte) (s : State) : State :=
  match p.point with
  | .rstFirst =>
    if x = 0xFF#8 then goto p.body .rstSecond s else takeFault errSync dtSyncNotFf x s
  | .rstSecond => checkMarker p.body x s
  | .scan prevFf =>
    if s.eos then takeFault errSync dtResyncEos 0#8 s else scanByte p.body prevFf x s
  | _ => s

/-! ## Huffman matching (40_tables R126) -/

/-- The symbol of a code of `len` bits with value `code`, if the length's bounds admit it. -/
def huffMatch (t : HuffTable) (len code : Nat) : Option Byte :=
  let mx := t.maxcode[len - 1]?.getD (-1)
  if 0 ≤ mx ∧ (code : Int) ≤ mx then
    some (t.huffval[(t.valptr[len - 1]?.getD 0#9).toNat + code
      - (t.mincode[len - 1]?.getD 0#17).toNat]?.getD 0#8)
  else none

/-- HuffDecode after one more bit: a match, a failure after 16 bits, or the next bit. -/
def huffBit (t : HuffTable) (len code : Nat) (bit : Bool)
    (matched : Byte → State → State) (more : Nat → Nat → State → State) (s : State) : State :=
  match huffMatch t (len + 1) (2 * code + bit.toNat) with
  | some sy => matched sy s
  | none =>
    if 16 ≤ len + 1 then takeFault errHuffman dtHuffNomatch 0#8 s
    else more (len + 1) (2 * code + bit.toNat) s

/-- The DC table of component c. -/
def dcTable (s : State) (c : Nat) : HuffTable := huffTable s .dc (dcSel s c)
/-- The AC table of component c. -/
def acTable (s : State) (c : Nat) : HuffTable := huffTable s .ac (acSel s c)

/-! ## DC and AC decoding -/

/-- A block of the executing command is decoded: the driver goes on, a step command completes. -/
def blockDone (body : Body) (b : Nat) (s : State) : State :=
  match body with
  | .drive i => blockFrom i (b + 1) s
  | _ => completeCommand s

/-- DecodeAC begins (41_entropy R154): COEF[b][1..63] <- 0, k = 1. -/
def startAc (body : Body) (c b : Nat) (s : State) : State :=
  goto body (.acCode c b 1 0 0) { s with mem := coefClear s.mem b 1 63 }

/-- DecodeDC ends with the difference known (R151, R152): the sum wraps to 16 bits. -/
def dcFinish (body : Body) (c b : Nat) (diff : Int) (s : State) : State :=
  let v := s16 ((predRead s c).toInt + diff)
  let t := predWrite { s with mem := coefWrite s.mem b 0 v } c v
  match body with
  | .decDc => completeCommand t
  | _ => startAc body c b t

/-- DecodeAC at position k: the next symbol, or the end of the block at k = 64 (R154). -/
def acNext (body : Body) (c b k : Nat) (s : State) : State :=
  if k ≤ 63 then goto body (.acCode c b k 0 0) s else blockDone body b s

/-- One more received bit of a DC difference (R148, R150). -/
def dcReceive (body : Body) (c b size left raw : Nat) (bit : Bool) (s : State) : State :=
  if left ≤ 1 then dcFinish body c b (extend (2 * raw + bit.toNat) size) s
  else goto body (.dcBits c b size (left - 1) (2 * raw + bit.toNat)) s

/-- One more received bit of an AC coefficient (R154). -/
def acReceive (body : Body) (c b k size left raw : Nat) (bit : Bool) (s : State) : State :=
  if left ≤ 1 then
    acNext body c b (k + 1)
      { s with mem := coefWrite s.mem b k (s16 (extend (2 * raw + bit.toNat) size)) }
  else goto body (.acBits c b k size (left - 1) (2 * raw + bit.toNat)) s

/-! ## The symbols: what each does at the point that has read it -/

/-- Where a DC symbol has been matched: the body, the component and the slot. -/
def dcSymbolAt (s : State) : Option (Body × Nat × Nat) :=
  match s.pos with
  | some ⟨body, .dcSymbol c b _⟩ => some (body, c, b)
  | _ => none

/-- Where an AC symbol has been matched: the body, the component, the slot and the position. -/
def acSymbolAt (s : State) : Option (Body × Nat × Nat × Nat) :=
  match s.pos with
  | some ⟨body, .acSymbol c b k _⟩ => some (body, c, b, k)
  | _ => none

/-- DC_DIFF (R151): S additional bits follow; Receive(0) consumes none (R148). -/
def dcDiffEffect (size : BitVec 4) (s : State) : Option State :=
  (dcSymbolAt s).map fun (body, c, b) =>
    if size = 0#4 then dcFinish body c b 0 s
    else goto body (.dcBits c b size.toNat size.toNat 0) s

/-- DC_ILLEGAL (R153): FORMAT_ERROR DC_SIZE with the symbol, before any further bit. -/
def dcIllegalEffect (t : Byte) (s : State) : Option State :=
  (dcSymbolAt s).map fun _ => takeFault errFormat dtDcSize t s

/-- AC_EOB (R156): the block ends; the other positions stay zero. -/
def acEobEffect (s : State) : Option State :=
  (acSymbolAt s).map fun (body, _, b, _) => blockDone body b s

/-- AC_ZRL (R156): sixteen zeros; past position 63 it is AC_OVERRUN. -/
def acZrlEffect (s : State) : Option State :=
  (acSymbolAt s).map fun (body, c, b, k) =>
    if 64 < k + 16 then takeFault errFormat dtAcOverrun 0xF0#8 s else acNext body c b (k + 16) s

/-- AC_RUNSIZE (R156): r zeros, then one coefficient of s bits; a run past position 63 is AC_OVERRUN,
before any additional bit. -/
def acRunsizeEffect (r sz : BitVec 4) (s : State) : Option State :=
  (acSymbolAt s).map fun (body, c, b, k) =>
    if 63 < k + r.toNat then takeFault errFormat dtAcOverrun (r ++ sz) s
    else goto body (.acBits c b (k + r.toNat) sz.toNat sz.toNat 0) s

/-- AC_UNDEF (R156): FORMAT_ERROR AC_UNDEF with the symbol. -/
def acUndefEffect (r : BitVec 4) (s : State) : Option State :=
  (acSymbolAt s).map fun _ => takeFault errFormat dtAcUndef (r ++ 0#4) s

/-- The second byte y of a pair that begins with 0xFF has been read, by FetchDataByte (R144: 0x00 is the
stuffed data byte 0xFF; any other sets marker pending and the fill byte is supplied), by RestartCheck
(R160) or by ResyncScan (R165). -/
def afterFf (y : Byte) (s : State) : Option State :=
  match s.pos, s.pend with
  | some _, some .dataSecond =>
    if y = 0x00#8 then some (loadByte 0xFF#8 s)
    else some (loadByte Config.fillByte { s with mp := true, marker := y })
  | some ⟨body, .rstSecond⟩, some .raw => some (rawByte ⟨body, .rstSecond⟩ y { s with pend := none })
  | some ⟨body, .scan true⟩, some .raw => some (rawByte ⟨body, .scan true⟩ y { s with pend := none })
  | _, _ => none

/-- The effect of a stream symbol at the point that has read it; none where the block is at no such
point, and for the commands, which are no stream symbols. -/
def symbolEffect : Instr → State → Option State
  | .nop, _ => none
  | .sreset, _ => none
  | .loadQt _, _ => none
  | .loadHt _ _, _ => none
  | .start, _ => none
  | .resync, _ => none
  | .decDc _ _, _ => none
  | .decAc _ _, _ => none
  | .decBlk _ _, _ => none
  | .restart, _ => none
  | .idct _ _, _ => none
  | .color, _ => none
  | .dcDiff size, s => dcDiffEffect size s
  | .dcIllegal t, s => dcIllegalEffect t s
  | .acEob, s => acEobEffect s
  | .acZrl, s => acZrlEffect s
  | .acRunsize r sz, s => acRunsizeEffect r sz s
  | .acUndef r, s => acUndefEffect r s
  | .stuffFf00, s => afterFf 0x00#8 s
  | .rstN n, s => afterFf (0x1A#5 ++ n) s
  | .markerOther b, s => afterFf b s

/-- The symbol the block has matched and is about to run, if it is at such a point. -/
def symbolAt (s : State) : Option Instr :=
  match s.pos with
  | some ⟨_, .dcSymbol _ _ t⟩ => some (decodeDcSymbol t)
  | some ⟨_, .acSymbol _ _ _ t⟩ => some (decodeAcSymbol t)
  | _ => none

end Sys2Proof.Machine
end

