-- ==== Sys2Proof/Machine/Sequencer.lean ====
section
/-! DEFINITION. The sequencer: the block's run from one suspension point to the next (20_memory R76) and the
meanings of the commands and symbols whose bodies read the stream (41_entropy, 44_driver). -/

namespace Sys2Proof.Machine

/-- The block can go on by itself: a command is executing, no `PortRead()` is outstanding, and the driver
is not in its output wait. -/
def runnable (s : State) : Bool :=
  match s.pos with
  | none => false
  | some p => s.pend.isNone && p.point != .emit

/-- One move of the block inside an atomic step: one bit, one symbol, one raw byte, or one turn of the
driver's loop. -/
def blockMove (s : State) : State :=
  match s.pos with
  | none => s
  | some p =>
    match p.point with
    | .dcCode c b len code => withBit s fun bit t =>
        huffBit (dcTable t c) len code bit (fun sy => goto p.body (.dcSymbol c b sy))
          (fun len' code' => goto p.body (.dcCode c b len' code')) t
    | .acCode c b k len code => withBit s fun bit t =>
        huffBit (acTable t c) len code bit (fun sy => goto p.body (.acSymbol c b k sy))
          (fun len' code' => goto p.body (.acCode c b k len' code')) t
    | .dcBits c b size left raw => withBit s fun bit t => dcReceive p.body c b size left raw bit t
    | .acBits c b k size left raw => withBit s fun bit t => acReceive p.body c b k size left raw bit t
    | .dcSymbol _ _ t => (symbolEffect (decodeDcSymbol t) s).getD s
    | .acSymbol _ _ _ t => (symbolEffect (decodeAcSymbol t) s).getD s
    | .rstFirst => withRawByte s (rawByte p)
    | .rstSecond => withRawByte s (rawByte p)
    | .scan _ => withRawByte s (rawByte p)
    | .nextMcu skip =>
      match p.body with
      | .drive i => nextMcuStep i skip s
      | _ => s
    | .emit => s

/-- The block's moves until it suspends or the command ends, at most `fuel` of them. -/
def settle : Nat → State → State
  | 0, s => s
  | fuel + 1, s => if runnable s then settle fuel (blockMove s) else s

/-- More moves than any atomic step has: between two suspension points the block decodes at most the
blocks of one MCU, and a block is at most 33·64 moves (log 9). -/
def moveBound : Nat := 65536

/-- The block's part of an atomic step (20_memory R76): it runs to its next suspension point in one go. -/
def runBlock (s : State) : State := settle moveBound { s with epoch := s.epoch + 1 }

/-! ## Meanings of the stream symbols -/

/-- A symbol runs, and the block goes on to its next suspension point (R76). -/
def runSymbol (effect : Option State) : Host.Outcome State Fault Refusal :=
  match effect with
  | some t => .next (runBlock t)
  | none => .fault .strayStreamSymbol

/-- DC_DIFF (41_entropy R151). -/
def execDcDiff (size : BitVec 4) (s : State) : Host.Outcome State Fault Refusal := runSymbol (dcDiffEffect size s)

/-- DC_ILLEGAL (R153). -/
def execDcIllegal (t : Byte) (s : State) : Host.Outcome State Fault Refusal := runSymbol (dcIllegalEffect t s)

/-- AC_EOB (R156). -/
def execAcEob (s : State) : Host.Outcome State Fault Refusal := runSymbol (acEobEffect s)

/-- AC_ZRL (R156). -/
def execAcZrl (s : State) : Host.Outcome State Fault Refusal := runSymbol (acZrlEffect s)

/-- AC_RUNSIZE (R156). -/
def execAcRunsize (r sz : BitVec 4) (s : State) : Host.Outcome State Fault Refusal :=
  runSymbol (acRunsizeEffect r sz s)

/-- AC_UNDEF (R156). -/
def execAcUndef (r : BitVec 4) (s : State) : Host.Outcome State Fault Refusal := runSymbol (acUndefEffect r s)

/-- STUFF_FF00 (30_encoding R102, 41_entropy R144). -/
def execStuffFf00 (s : State) : Host.Outcome State Fault Refusal := runSymbol (afterFf 0x00#8 s)

/-- RSTn (R102, R144, R160, R165). -/
def execRstN (n : BitVec 3) (s : State) : Host.Outcome State Fault Refusal := runSymbol (afterFf (0x1A#5 ++ n) s)

/-- MARKER_OTHER (R102, R144, R160, R165). -/
def execMarkerOther (b : Byte) (s : State) : Host.Outcome State Fault Refusal := runSymbol (afterFf b s)

/-! ## Meanings of the commands that read the stream -/

/-- A decode command (FB): its body starts at the point given. -/
def decodeCommand (body : Body) (begin' : Body → Nat → Nat → State → State) (c : BitVec 2) (b : BitVec 4)
    (s : State) : State :=
  issue (fbOperandsOk c b) .idle
    (stepCommand (compUnconfigured c) fun t => runBlock (begin' body c.toNat b.toNat t)) s

/-- DecodeDC begins (41_entropy R151). -/
def startDc (body : Body) (c b : Nat) (s : State) : State := goto body (.dcCode c b 0 0) s

/-- DEC_DC c, b (R155). -/
def execDecDc (c : BitVec 2) (b : BitVec 4) (s : State) : Host.Outcome State Fault Refusal :=
  .next (decodeCommand .decDc startDc c b s)

/-- DEC_AC c, b (R157). -/
def execDecAc (c : BitVec 2) (b : BitVec 4) (s : State) : Host.Outcome State Fault Refusal :=
  .next (decodeCommand .decAc startAc c b s)

/-- DEC_BLK c, b (R159): DecodeDC, then DecodeAC if it completed. -/
def execDecBlk (c : BitVec 2) (b : BitVec 4) (s : State) : Host.Outcome State Fault Refusal :=
  .next (decodeCommand .decBlk startDc c b s)

/-- RESTART (R163): the restart check, whatever RSTCTR holds. -/
def execRestart (s : State) : Host.Outcome State Fault Refusal :=
  .next (issue true .idle (stepCommand (fun _ => false) fun t => runBlock (restartCheck .restart t)) s)

/-- RESYNC (R166), accepted in SYNC_HALT only. It runs no CFGCHK. -/
def execResync (s : State) : Host.Outcome State Fault Refusal :=
  .next (issue true .syncHalt
    (fun t => runBlock
      (resyncBegin t.runhalt { t with state := if t.runhalt then .run else .step, runhalt := false })) s)

/-- START's initialisation (44_driver R226). -/
def startInit (s : State) : State :=
  predClear { s with rstctr := s.rstint, rstnext := 0#3, mcux := 0#16, mcuy := 0#16, state := .run }

/-- START (R226): CFGCHK, the initialisation, then the driver from MCU 0. -/
def execStart (s : State) : Host.Outcome State Fault Refusal :=
  .next (issue true .idle
    (fun t =>
      match cfgCheck t with
      | some d => takeFault errFormat d 0#8 t
      | none => runBlock (goto (.drive 0) (.nextMcu false) (startInit t))) s)

end Sys2Proof.Machine
end

