-- ==== Sys2Proof/Machine/Tables.lean ====
section
/-! DEFINITION. Table loading (40_tables): LOAD_QT, LOAD_HT, the DATA words that fill a table, and the canonical
code construction. -/

namespace Sys2Proof.Machine

/-- LOAD_QT's effect (40_tables R120). -/
def beginLoadQt (id : BitVec 2) (s : State) : State :=
  { s with qtv := s.qtv.setIfInBounds id.toNat false, ldid := id, ldcnt := 0#9, state := .loadq }

/-- LOAD_QT id (R120). -/
def execLoadQt (id : BitVec 2) (s : State) : Host.Outcome State Fault Refusal :=
  .next (issue true .idle (beginLoadQt id) s)

/-- LOAD_HT's effect (R122). -/
def beginLoadHt (cls : Cls) (id : BitVec 2) (s : State) : State :=
  { s with
    htv := s.htv.setIfInBounds (htIndex cls id.toNat) false
    ldcls := cls
    ldid := id
    ldcnt := 0#9
    state := .loadh }

/-- LOAD_HT cls, id (R122). -/
def execLoadHt (cls : Cls) (id : BitVec 2) (s : State) : Host.Outcome State Fault Refusal :=
  .next (issue true .idle (beginLoadHt cls id) s)

/-- QT[q][k] <- v. -/
def qtWrite (s : State) (q k : Nat) (v : Half) : State :=
  { s with qt := s.qt.setIfInBounds q ((s.qt[q]?.getD (Vector.replicate 64 0#16)).setIfInBounds k v) }

/-- A DATA word of a LOAD_QT (R121). -/
def dataWordQt (v : Word) (s : State) : State :=
  let t := { qtWrite s s.ldid.toNat s.ldcnt.toNat (v.extractLsb' 0 16) with ldcnt := s.ldcnt + 1#9 }
  if t.ldcnt = 64#9 then completeCommand { t with qtv := t.qtv.setIfInBounds s.ldid.toNat true } else t

/-- The index of the Huffman table being loaded. -/
def loadIndex (s : State) : Nat := htIndex s.ldcls s.ldid.toNat

/-- The Huffman table being loaded. -/
def loadTable (s : State) : HuffTable := huffTable s s.ldcls s.ldid.toNat

/-- The Huffman table being loaded is replaced. -/
def loadTableSet (t : HuffTable) (s : State) : State := { s with ht := s.ht.setIfInBounds (loadIndex s) t }

/-- The load of a Huffman table is complete (R123, R124). -/
def completeLoadHt (s : State) : State :=
  completeCommand { s with htv := s.htv.setIfInBounds (loadIndex s) true }

/-- BITS[L] (R42). -/
def bitsAt (t : HuffTable) (len : Nat) : Nat := (t.bits[len - 1]?.getD 0#8).toNat

/-- The exact sum of BITS (R123). -/
def bitsSum (t : HuffTable) : Nat := ((List.range 16).map fun j => bitsAt t (j + 1)).sum

/-- Build(T) over the lengths given, from the running code and symbol index (R125): the table with its
derived fields, and whether no length was over-subscribed. What was written before a failing length
stays (60_exceptions R257). -/
def buildFrom : List Nat → Nat → Nat → HuffTable → HuffTable × Bool
  | [], _, _, t => (t, true)
  | len :: lens, code, p, t =>
    let n := bitsAt t len
    let t1 : HuffTable :=
      { t with
        mincode := t.mincode.setIfInBounds (len - 1) (BitVec.ofNat 17 code)
        valptr := t.valptr.setIfInBounds (len - 1) (BitVec.ofNat 9 p) }
    let last : Int := if 0 < n then ((code + n : Nat) : Int) - 1 else -1
    if 2 ^ len < code + n then (t1, false)
    else
      buildFrom lens (2 * (code + n)) (p + n)
        { t1 with maxcode := t1.maxcode.setIfInBounds (len - 1) last }

/-- Build(T) (R125). -/
def build (t : HuffTable) : HuffTable × Bool :=
  buildFrom [1, 2, 3, 4, 5, 6, 7, 8, 9, 10, 11, 12, 13, 14, 15, 16] 0 0 t

/-- The checks and the construction at the 16th BITS word (R123). -/
def finishBits (s : State) : State :=
  let sum := bitsSum (loadTable s)
  let t := { loadTable s with nval := sum }
  if 256 < sum then takeFault errFormat dtHtTooMany 0#8 (loadTableSet t s)
  else
    let r := build t
    if r.2 then
      if sum = 0 then completeLoadHt (loadTableSet r.1 s) else loadTableSet r.1 s
    else takeFault errFormat dtHtOversub 0#8 (loadTableSet r.1 s)

/-- A DATA word of a LOAD_HT with LDCNT < 16 (R123). -/
def dataWordBits (v : Word) (s : State) : State :=
  let t := loadTable s
  let bits' := t.bits.setIfInBounds s.ldcnt.toNat (v.extractLsb' 0 8)
  let u : State := { loadTableSet { t with bits := bits' } s with ldcnt := s.ldcnt + 1#9 }
  if u.ldcnt = 16#9 then finishBits u else u

/-- A DATA word of a LOAD_HT with LDCNT ≥ 16 (R124). -/
def dataWordSymbol (v : Word) (s : State) : State :=
  let t := loadTable s
  let huffval' := t.huffval.setIfInBounds (s.ldcnt.toNat - 16) (v.extractLsb' 0 8)
  let u : State := { loadTableSet { t with huffval := huffval' } s with ldcnt := s.ldcnt + 1#9 }
  if u.ldcnt.toNat = 16 + t.nval then completeLoadHt u else u

/-- A write to DATA (R121, R123, R124, R128). -/
def dataWrite (v : Word) (s : State) : State :=
  match s.state with
  | .loadq => dataWordQt v s
  | .loadh => if s.ldcnt.toNat < 16 then dataWordBits v s else dataWordSymbol v s
  | _ => cmdIgnored s

end Sys2Proof.Machine
end

