-- ==== Sys2Proof/Machine/Dispatch.lean ====
section
/-! DEFINITION. exec: one arm per instruction, each one direct call of that instruction's meaning. -/

namespace Sys2Proof.Machine

/-- The effect of one instruction. -/
def exec (i : Instr) (s : State) : Host.Outcome State Fault Refusal :=
  match i with
  | .nop => Sys2Proof.Machine.execNop s
  | .sreset => Sys2Proof.Machine.execSreset s
  | .loadQt id => Sys2Proof.Machine.execLoadQt id s
  | .loadHt cls id => Sys2Proof.Machine.execLoadHt cls id s
  | .start => Sys2Proof.Machine.execStart s
  | .resync => Sys2Proof.Machine.execResync s
  | .decDc c b => Sys2Proof.Machine.execDecDc c b s
  | .decAc c b => Sys2Proof.Machine.execDecAc c b s
  | .decBlk c b => Sys2Proof.Machine.execDecBlk c b s
  | .restart => Sys2Proof.Machine.execRestart s
  | .idct c b => Sys2Proof.Machine.execIdct c b s
  | .color => Sys2Proof.Machine.execColor s
  | .dcDiff size => Sys2Proof.Machine.execDcDiff size s
  | .dcIllegal t => Sys2Proof.Machine.execDcIllegal t s
  | .acEob => Sys2Proof.Machine.execAcEob s
  | .acZrl => Sys2Proof.Machine.execAcZrl s
  | .acRunsize r sz => Sys2Proof.Machine.execAcRunsize r sz s
  | .acUndef r => Sys2Proof.Machine.execAcUndef r s
  | .stuffFf00 => Sys2Proof.Machine.execStuffFf00 s
  | .rstN n => Sys2Proof.Machine.execRstN n s
  | .markerOther b => Sys2Proof.Machine.execMarkerOther b s

end Sys2Proof.Machine
end

