-- ==== Sys2Proof/Machine/Bus.lean ====
section
/-! DEFINITION. The host bus (20_memory R60-R69): which accesses are refused, what each word of the register space
reads, what a write to it does, and the answers of the input source (R70-R72). -/

namespace Sys2Proof.Machine

/-- What an agent's step leaves to do: an instruction to run, or nothing more. -/
inductive Fetched where
  | instr (i : Instr) (s : State)
  | settled (s : State)
  deriving DecidableEq, Repr

/-! ## Reading -/

/-- The CURSOR word (10_state R34). -/
def cursorWord (s : State) : Word :=
  s.marker ++ 0#6 ++ BitVec.ofBool s.eos ++ BitVec.ofBool s.mp ++ s.cbits ++ 0#4 ++ s.bcnt

/-- The RSTSTAT word (R36). -/
def rststatWord (s : State) : Word := 0#13 ++ s.rstnext ++ s.rstctr

/-- The PIX window's word i, packed little-endian (20_memory R66). -/
def pixWord (s : State) (i : Nat) : Word :=
  pixRead s.mem (4 * i + 3) ++ pixRead s.mem (4 * i + 2) ++ pixRead s.mem (4 * i + 1) ++ pixRead s.mem (4 * i)

/-- The offset is a word of the COEF window (R62, R64). -/
def inCoef (off : Nat) : Bool := decide (0x1000 ≤ off) && decide (off < 0x1C00)
/-- The offset is a word of the TILE window (R65). -/
def inTile (off : Nat) : Bool := decide (0x2000 ≤ off) && decide (off < 0x2C00)
/-- The offset is a word of the PIX window (R66). -/
def inPix (off : Nat) : Bool := decide (0x3000 ≤ off) && decide (off < 0x3300)

/-- An offset of the address map (R62). -/
def mapped (off : Nat) : Bool := decide (off < 0x5C) || inCoef off || inTile off || inPix off

/-- An access the bus accepts: 4 bytes wide, a multiple of 4, a mapped offset (R63). -/
def accessOk (off width : Nat) : Bool := width == 4 && off % 4 == 0 && mapped off

/-- What is read as any value while a command runs with no rectangle offered (R68). -/
def isBufferWord (off : Nat) : Bool :=
  inCoef off || inTile off || inPix off || off == 0x4C || off == 0x50 || off == 0x54

/-- The word at an offset by its actual contents (R62). The write-only CMD, DATA and OUTRESP read 0 (R39,
R40). -/
def contentsAt (off : Nat) (s : State) : Word :=
  if off = 0x000 then Config.idValue
  else if off = 0x00C then statusWord s
  else if off = 0x010 then errinfoWord s
  else if off = 0x014 then s.intstat.setWidth 32
  else if off = 0x018 then s.inten.setWidth 32
  else if off = 0x01C then tblstatWord s
  else if off = 0x020 then s.cfg0.setWidth 32
  else if off = 0x024 then s.cfg1.setWidth 32
  else if off = 0x028 then s.size
  else if off = 0x02C then s.rstint.setWidth 32
  else if off = 0x030 then s.mcuy ++ s.mcux
  else if off = 0x034 then rststatWord s
  else if off = 0x038 then (predRead s 0).signExtend 32
  else if off = 0x03C then (predRead s 1).signExtend 32
  else if off = 0x040 then (predRead s 2).signExtend 32
  else if off = 0x044 then s.bytecnt
  else if off = 0x048 then cursorWord s
  else if off = 0x04C then s.top ++ s.left
  else if off = 0x050 then s.bottom ++ s.right
  else if off = 0x054 then s.pixlen.setWidth 32
  else if inCoef off then
    (coefRead s.mem ((off - 0x1000) / 4 / 64) ((off - 0x1000) / 4 % 64)).signExtend 32
  else if inTile off then
    (tileRead s.mem ((off - 0x2000) / 4 / 64) ((off - 0x2000) / 4 % 64)).setWidth 32
  else if inPix off then pixWord s ((off - 0x3000) / 4)
  else 0#32

/-- What a read of a mapped offset gives (R68): any value for a buffer word while a command runs with
OUTWAIT = 0, the contents otherwise. -/
def readAt (off : Nat) (s : State) : Word :=
  if isBufferWord off && busy s && !outwait s then Config.freeWord s.epoch off else contentsAt off s

/-! ## Writing -/

/-- A write to a configuration location (10_state R49): it takes effect in IDLE only. -/
def configWrite (set : State → State) (s : State) : State :=
  if s.state = .idle then set s else cmdIgnored s

/-- A write to OUTRESP (44_driver R229). -/
def outrespWrite (v : Word) (s : State) : State :=
  match s.pos with
  | some ⟨.drive i, .emit⟩ =>
    if v = 1#32 then runBlock (continueDrive i s)
    else if v = 2#32 then cancelDrive s
    else cmdError s
  | _ => cmdIgnored s

/-- A write to CMD (30_encoding R98): a malformed word is refused, any other is the instruction it
encodes. -/
def cmdWrite (v : Word) (s : State) : Fetched :=
  match decodeCmd v with
  | .ok i => .instr i s
  | .error _ => .settled (cmdError s)

/-- A write to any mapped offset but CMD (20_memory R62, R69; 10_state R49). A write to a read-only
location has no effect and sets no flag. -/
def registerWrite (off : Nat) (v : Word) (s : State) : State :=
  if off = 0x008 then dataWrite v s
  else if off = 0x014 then { s with intstat := s.intstat &&& ~~~(v.extractLsb' 0 8) }
  else if off = 0x018 then { s with inten := v.extractLsb' 0 8 }
  else if off = 0x020 then configWrite (fun t => { t with cfg0 := v.extractLsb' 0 11 }) s
  else if off = 0x024 then configWrite (fun t => { t with cfg1 := v.extractLsb' 0 30 }) s
  else if off = 0x028 then configWrite (fun t => { t with size := v }) s
  else if off = 0x02C then configWrite (fun t => { t with rstint := v.extractLsb' 0 16 }) s
  else if off = 0x030 then
    configWrite (fun t => { t with mcux := v.extractLsb' 0 16, mcuy := v.extractLsb' 16 16 }) s
  else if off = 0x038 then configWrite (fun t => predWrite t 0 (v.extractLsb' 0 16)) s
  else if off = 0x03C then configWrite (fun t => predWrite t 1 (v.extractLsb' 0 16)) s
  else if off = 0x040 then configWrite (fun t => predWrite t 2 (v.extractLsb' 0 16)) s
  else if off = 0x058 then outrespWrite v s
  else if inCoef off then
    configWrite (fun t => { t with
      mem := coefWrite t.mem ((off - 0x1000) / 4 / 64) ((off - 0x1000) / 4 % 64) (v.extractLsb' 0 16) }) s
  else s

/-! ## The agents' steps -/

/-- The offset of a platform address in the block's window (20_memory R61). -/
def offsetOf (s : State) (addr : Nat) : Option Nat :=
  if s.tjdBase ≤ addr ∧ addr < s.tjdBase + Config.windowBytes then some (addr - s.tjdBase) else none

/-- The host reads (R63, R68, R69). An address outside the window is no access to this block. -/
def hostRead (addr width : Nat) (s : State) : State :=
  match offsetOf s addr with
  | none => { s with reply := none }
  | some off =>
    if accessOk off width then { s with reply := some ⟨readAt off s, false⟩ }
    else { s with reply := some ⟨0#32, true⟩ }

/-- The host writes (R63, R69). -/
def hostWrite (addr width : Nat) (v : Word) (s : State) : Fetched :=
  match offsetOf s addr with
  | none => .settled { s with reply := none }
  | some off =>
    if accessOk off width then
      let t := { s with reply := some ⟨0#32, false⟩ }
      if off = 0x004 then cmdWrite v t else .settled (registerWrite off v t)
    else .settled { s with reply := some ⟨0#32, true⟩ }

/-- The outstanding request reads the second byte of a pair that began with 0xFF (41_entropy R144, R160,
R165). -/
def awaitsAfterFf (s : State) : Bool :=
  match s.pos, s.pend with
  | some _, some .dataSecond => true
  | some ⟨_, .rstSecond⟩, some .raw => true
  | some ⟨_, .scan true⟩, some .raw => true
  | _, _ => false

/-- A byte that is not the second of a pair (41_entropy R144, R145). -/
def firstByte (x : Byte) (s : State) : State :=
  match s.pos, s.pend with
  | some _, some .dataFirst =>
    if x = 0xFF#8 then { s with pend := some .dataSecond } else loadByte x s
  | some p, some .raw => rawByte p x { s with pend := none }
  | _, _ => s

/-- The input source answers (20_memory R70-R72). With no request outstanding, or with no answer left, it
does nothing. BYTECNT counts the bytes taken (R72). -/
def sourceAnswer (s : State) : Fetched :=
  match s.pend, s.input with
  | none, _ => .settled s
  | some _, [] => .settled s
  | some _, a :: rest =>
    let t := { s with input := rest }
    match a with
    | .ierr => .settled (takeFault errInput dtInputErr 0#8 t)
    | .eos => .settled (runBlock { t with eos := true, pend := none })
    | .byte x =>
      let u := { t with bytecnt := t.bytecnt + 1#32 }
      if awaitsAfterFf u then .instr (decodeAfterFf x) u else .settled (runBlock (firstByte x u))

end Sys2Proof.Machine
end

