-- ==== Sys2Proof/Machine/Fetch.lean ====
section
/-! DEFINITION. Where the machine's next instruction comes from: a symbol the block has matched, a command word the
host writes, or a byte pair the source's answer completes; and how one instruction is placed so that the
next step runs it. -/

namespace Sys2Proof.Machine

/-- The step of one agent outside the block (20_memory R76). -/
def agentStep (ev : Event) (s : State) : Fetched :=
  match ev with
  | .busRead addr width => .settled (hostRead addr width s)
  | .busWrite addr width v => hostWrite addr width v s
  | .source => sourceAnswer s
  | .hwReset => .settled (resetBlock s)

/-- The next thing the machine does. The block goes first while it can go on by itself, so no agent's step
falls in the middle of a block step (R76); else the next agent of the agenda moves; with an empty
agenda nothing moves and the state stays as it is (60_exceptions R269). -/
def fetchNext (s : State) : Fetched :=
  if runnable s then
    match symbolAt s with
    | some i => .instr i s
    | none => .settled (runBlock s)
  else
    match s.agenda with
    | [] => .settled s
    | ev :: rest => agentStep ev { s with agenda := rest }

/-- The instruction of a code placed as the next one (log 10). A command word: the host writes it to CMD
next. A DC or AC symbol: DEC_DC or DEC_AC 0, 0 is executing and has just matched it (at k = 1). A byte
pair: DEC_DC 0, 0 is executing, has read the byte 0xFF first, and the source answers next with the other. -/
def placeCode (s : State) : Code → State
  | .cmd w => { s with pos := none, pend := none, agenda := .busWrite (s.tjdBase + 0x004) 4 w :: s.agenda }
  | .dcSymbol t => { s with state := .step, pend := none, pos := some ⟨.decDc, .dcSymbol 0 0 t⟩ }
  | .acSymbol t => { s with state := .step, pend := none, pos := some ⟨.decAc, .acSymbol 0 0 1 t⟩ }
  | .pair _ second =>
    { s with
      state := .step
      pos := some ⟨.decDc, .dcCode 0 0 0 0⟩
      pend := some .dataSecond
      input := .byte second :: s.input
      agenda := .source :: s.agenda }

/-- The instruction of a table word placed as the next one; a width the table does not have places
nothing. -/
def placeWord (s : State) (nbits w : Nat) : State :=
  match tableCode nbits w with
  | some code => placeCode s code
  | none => s

end Sys2Proof.Machine
end

