-- ==== Sys2Proof/Machine/Step.lean ====
section
/-! DEFINITION. One step of the machine: one atomic step of 20_memory R76. -/

namespace Sys2Proof.Machine

/-- One step: what is fetched runs. -/
def step (s : State) : Host.Outcome State Fault Refusal :=
  match fetchNext s with
  | .instr i t => exec i t
  | .settled t => .next t

/-- `s` with one instruction placed where the next step takes it from. -/
def State.withFetchWord (s : State) (nbits w : Nat) : State := placeWord s nbits w

end Sys2Proof.Machine
end

