-- ==== Sys2Proof/Safety.lean ====
section
/-! DEFINITION. The terms the claims use: the invariant of the machine, the malformed words of R96 and the state
transitions of R220 in the spec's own words, and reference functions over whole bit strings and blocks. -/

namespace Sys2Proof.Machine

/-! ## The invariant -/

/-- The loop variables of the point reached are in their ranges (10_state R23, 40_tables R126, 41_entropy
R148, R154). -/
def pointOk : Point → Bool
  | .dcCode c b len _ => decide (c < Config.maxComponents) && decide (b < Config.slots) && decide (len < 16)
  | .dcSymbol c b _ => decide (c < Config.maxComponents) && decide (b < Config.slots)
  | .dcBits c b size left _ =>
    decide (c < Config.maxComponents) && decide (b < Config.slots) && decide (1 ≤ left) && decide (left ≤ size) && decide (size ≤ 15)
  | .acCode c b k len _ =>
    decide (c < Config.maxComponents) && decide (b < Config.slots) && decide (1 ≤ k) && decide (k ≤ 63) && decide (len < 16)
  | .acSymbol c b k _ => decide (c < Config.maxComponents) && decide (b < Config.slots) && decide (1 ≤ k) && decide (k ≤ 63)
  | .acBits c b k size left _ =>
    decide (c < Config.maxComponents) && decide (b < Config.slots) && decide (1 ≤ k) && decide (k ≤ 63)
      && decide (1 ≤ left) && decide (left ≤ size) && decide (size ≤ 15)
  | .rstFirst => true
  | .rstSecond => true
  | .scan _ => true
  | .nextMcu _ => true
  | .emit => true

/-- The point belongs to the body that executes: decodes to the decode commands and the driver, the restart
check to RESTART and the driver, the scan to RESYNC, the loop head and Emit to the driver. -/
def bodyFits : Body → Point → Bool
  | .decDc, .dcCode _ _ _ _ => true
  | .decDc, .dcSymbol _ _ _ => true
  | .decDc, .dcBits _ _ _ _ _ => true
  | .decAc, .acCode _ _ _ _ _ => true
  | .decAc, .acSymbol _ _ _ _ => true
  | .decAc, .acBits _ _ _ _ _ _ => true
  | .decBlk, .dcCode _ _ _ _ => true
  | .decBlk, .dcSymbol _ _ _ => true
  | .decBlk, .dcBits _ _ _ _ _ => true
  | .decBlk, .acCode _ _ _ _ _ => true
  | .decBlk, .acSymbol _ _ _ _ => true
  | .decBlk, .acBits _ _ _ _ _ _ => true
  | .restart, .rstFirst => true
  | .restart, .rstSecond => true
  | .resync _, .scan _ => true
  | .drive _, .dcCode _ _ _ _ => true
  | .drive _, .dcSymbol _ _ _ => true
  | .drive _, .dcBits _ _ _ _ _ => true
  | .drive _, .acCode _ _ _ _ _ => true
  | .drive _, .acSymbol _ _ _ _ => true
  | .drive _, .acBits _ _ _ _ _ _ => true
  | .drive _, .rstFirst => true
  | .drive _, .rstSecond => true
  | .drive _, .nextMcu _ => true
  | .drive _, .emit => true
  | _, _ => false

/-- The STATE a body executes in (44_driver R220, R224, 41_entropy R166). -/
def bodyState : Body → SeqState
  | .decDc => .step
  | .decAc => .step
  | .decBlk => .step
  | .restart => .step
  | .resync fromRun => if fromRun then .run else .step
  | .drive _ => .run

/-- The position fits STATE: a command is executing exactly in STEP and RUN (10_state R22, R25). -/
def posOk (s : State) : Bool :=
  match s.pos with
  | none => !busy s && s.pend.isNone
  | some p => s.state == bodyState p.body && pointOk p.point && bodyFits p.body p.point

/-- A request is outstanding only at a point that reads and never after end of stream (20_memory R71); a data
byte is requested only with no bit buffered and no marker pending (41_entropy R144, R145, R147). -/
def pendOk (s : State) : Bool :=
  match s.pend, s.pos with
  | none, _ => true
  | some _, none => false
  | some .raw, some p =>
    !s.eos &&
    (match p.point with
      | .rstFirst => true
      | .rstSecond => true
      | .scan _ => true
      | _ => false)
  | some _, some p =>
    s.bcnt == 0#4 && !s.mp && !s.eos &&
    (match p.point with
      | .dcCode _ _ _ _ => true
      | .dcBits _ _ _ _ _ => true
      | .acCode _ _ _ _ _ => true
      | .acBits _ _ _ _ _ _ => true
      | _ => false)

/-- A load takes its words in order: fewer than 64 in LOADQ, fewer than 16 + NVAL in LOADH once the counts are
in (40_tables R121, R123, R124). -/
def loadOk (s : State) : Bool :=
  match s.state with
  | .loadq => decide (s.ldcnt.toNat < 64)
  | .loadh =>
    decide (s.ldcnt.toNat < 16)
      || (decide (s.ldcnt.toNat < 16 + (huffTable s s.ldcls s.ldid.toNat).nval)
          && decide ((huffTable s s.ldcls s.ldid.toNat).nval ≤ 256))
  | _ => true

/-- While a command executes and in SYNC_HALT the configuration passes CFGCHK: it passed when the command
began, and only IDLE permits a change (44_driver R222, 10_state R50, 41_entropy R166). -/
def cfgOk (s : State) : Bool := !(busy s || s.state == .syncHalt) || cfgCheck s == none

/-- THE INVARIANT: the buffers are in canonical form; 0 ≤ BCNT ≤ 8 (R141); RUNHALT is 1 only in SYNC_HALT
(R25); a command executes exactly in STEP and RUN, at a point that is one of its own, under a configuration
that passes CFGCHK; requests and loads are in order; TJD_BASE is a multiple of 0x4000 (R61). -/
abbrev State.Inv (s : State) : Prop :=
  s.mem.wf = true ∧ s.bcnt.toNat ≤ 8 ∧ (s.runhalt = true → s.state = .syncHalt) ∧ posOk s = true
    ∧ pendOk s = true ∧ loadOk s = true ∧ cfgOk s = true ∧ s.tjdBase % Config.windowBytes = 0

/-! ## The state after reset, as the table of 70_reset_and_hazards R280 gives it -/

/-- A Huffman table's reset value (R280). -/
def emptyTable (t : HuffTable) : Prop :=
  t.nval = 0 ∧ (∀ j, j < 256 → t.huffval[j]? = some 0#8)
    ∧ ∀ len, 1 ≤ len → len ≤ 16 → t.bits[len - 1]? = some 0#8 ∧ t.mincode[len - 1]? = some 0#17
      ∧ t.maxcode[len - 1]? = some (-1) ∧ t.valptr[len - 1]? = some 0#9

/-- R280: the reset value of every piece of the block's state, no command executing and no request
outstanding. -/
def AtReset (t : State) : Prop :=
  t.state = .idle ∧ busy t = false ∧ outwait t = false ∧ inwait t = false ∧ t.runhalt = false
    ∧ t.err = 0#4 ∧ t.detail = 0#8 ∧ t.sym = 0#8 ∧ t.intstat = 0#8 ∧ t.inten = 0#8
    ∧ t.cfg0 = 0#11 ∧ t.cfg1 = 0#30 ∧ t.size = 0#32 ∧ t.rstint = 0#16
    ∧ (∀ q, q < 4 → t.qtv[q]? = some false ∧ ∀ k, k < 64 → qtEntry t q k = 0#16)
    ∧ (∀ cls id, id < 4 → t.htv[htIndex cls id]? = some false ∧ emptyTable (huffTable t cls id))
    ∧ t.ldcls = .dc ∧ t.ldid = 0#2 ∧ t.ldcnt = 0#9
    ∧ t.cbits = 0#8 ∧ t.bcnt = 0#4 ∧ t.mp = false ∧ t.marker = 0#8 ∧ t.eos = false ∧ t.bytecnt = 0#32
    ∧ (∀ c, c < 3 → predRead t c = 0#16)
    ∧ t.rstctr = 0#16 ∧ t.rstnext = 0#3 ∧ t.mcux = 0#16 ∧ t.mcuy = 0#16
    ∧ t.left = 0#16 ∧ t.top = 0#16 ∧ t.right = 0#16 ∧ t.bottom = 0#16 ∧ t.pixlen = 0#10
    ∧ (∀ b k, b < 12 → k < 64 → coefRead t.mem b k = 0#16)
    ∧ (∀ b n, b < 12 → n < 64 → tileRead t.mem b n = 0#8)
    ∧ (∀ i, i < 768 → pixRead t.mem i = 0#8)
    ∧ t.pos = none ∧ t.pend = none

/-- The step to come is a reset: the block cannot go on by itself, and next the platform asserts reset (R280) or
the host writes the SRESET word to CMD (R281). -/
def Resets (s : State) : Prop :=
  runnable s = false ∧ ∃ rest, s.agenda = .hwReset :: rest
    ∨ s.agenda = .busWrite (s.tjdBase + 0x004) 4 0x01000000#32 :: rest

/-! ## Results of an instruction, field by field -/

/-- One step of the block has been made (log 6). -/
def tick (s : State) : State := { s with epoch := s.epoch + 1 }

/-- INTSTAT.CMDIGN <- 1 and nothing else (30_encoding R98). -/
def ignored (s : State) : State := { s with intstat := s.intstat ||| 0x40#8 }

/-- INTSTAT.CMDERR <- 1 and nothing else (R98). -/
def refusedWrite (s : State) : State := { s with intstat := s.intstat ||| 0x80#8 }

/-- STATE <- IDLE and INTSTAT.CMDDONE <- 1; the command has ended (44_driver R224). -/
def completed (s : State) : State :=
  { s with state := .idle, intstat := s.intstat ||| 0x10#8, pos := none, pend := none }

/-- A fault that enters ERROR (60_exceptions R256). -/
def inError (e : BitVec 4) (d sy : Byte) (s : State) : State :=
  { s with
    err := e, detail := d, sym := sy, state := .error, runhalt := false, intstat := s.intstat ||| 0x02#8
    pos := none, pend := none }

/-- A failed restart check, which enters SYNC_HALT (R256). -/
def inSyncHalt (d sy : Byte) (byDriver : Bool) (s : State) : State :=
  { s with
    err := 4#4, detail := d, sym := sy, state := .syncHalt, runhalt := byDriver
    intstat := s.intstat ||| 0x04#8, pos := none, pend := none }

/-- STATE <- DONE and INTSTAT.DONE <- 1 (44_driver R227). -/
def inDone (s : State) : State :=
  { s with state := .done, intstat := s.intstat ||| 0x01#8, pos := none, pend := none }

/-- The host's abort (R228). -/
def inCancelled (s : State) : State :=
  { s with
    state := .cancelled, err := 7#4, detail := 0x60#8, sym := 0#8, intstat := s.intstat ||| 0x08#8
    pos := none, pend := none }

/-- The restart state and predictors after marker RSTn has been taken (41_entropy R160, R166). -/
def afterMarker (n : BitVec 3) (s : State) : State :=
  { s with pred := Vector.replicate 3 0#16, rstctr := s.rstint, rstnext := n + 1#3 }

/-- The command goes on at another point (10_state R23 b). -/
def atPoint (body : Body) (point : Point) (s : State) : State := { s with pos := some ⟨body, point⟩ }

/-- A `PortRead()` is outstanding (20_memory R70). -/
def waiting (p : Pend) (s : State) : State := { s with pend := some p }

/-! ## Malformed command words, as 30_encoding R96 lists them -/

/-- The opcodes of the map of R94. -/
def mapOpcodes : List (BitVec 8) :=
  [0x00#8, 0x01#8, 0x10#8, 0x11#8, 0x20#8, 0x21#8, 0x30#8, 0x31#8, 0x32#8, 0x33#8, 0x40#8, 0x50#8]

/-- The bits a format marks "must be 0", by opcode (R91-R94). -/
def mustBeZeroMask (opc : BitVec 8) : Word :=
  if opc = 0x10#8 ∨ opc = 0x11#8 then 0x00FFFFEC#32
  else if opc = 0x30#8 ∨ opc = 0x31#8 ∨ opc = 0x32#8 ∨ opc = 0x40#8 then 0x00FFFCF0#32
  else 0x00FFFFFF#32

/-- The opcode uses format FB (R94). -/
def isFbOpcode (opc : BitVec 8) : Prop := opc = 0x30#8 ∨ opc = 0x31#8 ∨ opc = 0x32#8 ∨ opc = 0x40#8

/-- R96, its five cases. -/
def MalformedWord (w : Word) : Prop :=
  w.extractLsb' 24 8 ∉ mapOpcodes
  ∨ w &&& mustBeZeroMask (w.extractLsb' 24 8) ≠ 0#32
  ∨ (w.extractLsb' 24 8 = 0x10#8 ∧ w.getLsbD 4 = true)
  ∨ (isFbOpcode (w.extractLsb' 24 8) ∧ (w.extractLsb' 8 2).toNat = 3)
  ∨ (isFbOpcode (w.extractLsb' 24 8) ∧ 12 ≤ (w.extractLsb' 0 4).toNat)

/-- The instruction is a command word, not a stream symbol (30_encoding R94). -/
def isCommand (i : Instr) : Bool :=
  match encode i with
  | .cmd _ => true
  | _ => false

/-- The states in which a command is accepted (30_encoding R97). -/
def acceptedIn : Instr → SeqState → Bool
  | .nop, _ => true
  | .sreset, _ => true
  | .resync, st => st == .syncHalt
  | _, st => st == .idle

/-! ## The state transitions of 44_driver R220 -/

/-- One arrow of R220's table, its last row (reset) left out. -/
def arrow : SeqState → SeqState → Bool
  | .idle, .loadq => true
  | .loadq, .idle => true
  | .idle, .loadh => true
  | .loadh, .idle => true
  | .loadh, .error => true
  | .idle, .step => true
  | .idle, .error => true
  | .step, .idle => true
  | .step, .syncHalt => true
  | .step, .error => true
  | .idle, .run => true
  | .run, .done => true
  | .run, .cancelled => true
  | .run, .syncHalt => true
  | .run, .error => true
  | .syncHalt, .step => true
  | .syncHalt, .run => true
  | _, _ => false

/-- Two arrows in one atomic step: a step command or a step-mode RESYNC that ends in the step that begins it, and a
RESYNC after a driver halt that ends the decode there. (A START or RESYNC that faults in its first step goes to
ERROR: from IDLE that is an arrow of its own.) -/
def twoArrows : SeqState → SeqState → Bool
  | .idle, .syncHalt => true
  | .syncHalt, .idle => true
  | .syncHalt, .done => true
  | .syncHalt, .error => true
  | _, _ => false

/-- What one atomic step that is no reset can do to STATE: keep it, take one arrow, or take two with an
executing state between them. -/
def stepArrow (a b : SeqState) : Bool := a == b || arrow a b || twoArrows a b

/-- DONE, ERROR and CANCELLED (10_state R22). -/
def terminal : SeqState → Bool
  | .idle => false
  | .loadq => false
  | .loadh => false
  | .step => false
  | .run => false
  | .syncHalt => false
  | .done => true
  | .error => true
  | .cancelled => true

/-! ## Register offsets by their access (20_memory R62) -/

/-- The locations writable in IDLE only (10_state R49). -/
def isConfigOffset (off : Nat) : Prop :=
  off = 0x20 ∨ off = 0x24 ∨ off = 0x28 ∨ off = 0x2C ∨ off = 0x30 ∨ off = 0x38 ∨ off = 0x3C ∨ off = 0x40
    ∨ (0x1000 ≤ off ∧ off < 0x1C00)

/-- The read-only registers and windows. -/
def isReadOnlyOffset (off : Nat) : Prop :=
  off = 0x00 ∨ off = 0x0C ∨ off = 0x10 ∨ off = 0x1C ∨ off = 0x34 ∨ off = 0x44 ∨ off = 0x48 ∨ off = 0x4C
    ∨ off = 0x50 ∨ off = 0x54 ∨ (0x2000 ≤ off ∧ off < 0x2C00) ∨ (0x3000 ≤ off ∧ off < 0x3300)

/-- The offsets of the address map, its write-only registers CMD, DATA and OUTRESP, INTSTAT and INTEN too. -/
def isMappedOffset (off : Nat) : Prop :=
  isConfigOffset off ∨ isReadOnlyOffset off ∨ off = 0x04 ∨ off = 0x08 ∨ off = 0x14 ∨ off = 0x18 ∨ off = 0x58

/-! ## Reference functions -/

/-- The bits of the current byte not yet consumed, the next one first (41_entropy R141, R143). -/
def bufferedBits (s : State) : List Bool :=
  (List.range s.bcnt.toNat).map fun j => s.cbits.getLsbD (s.bcnt.toNat - 1 - j)

/-- The unsigned value of a bit string, first bit most significant (R143). -/
def bitsValue (bs : List Bool) : Nat := bs.foldl (fun v b => 2 * v + b.toNat) 0

/-- The first code of the table that is a prefix of the bits, tried by rising length as 40_tables R126 does:
the symbol and the bits after the code. -/
def huffPrefix (t : HuffTable) (bs : List Bool) : Option (Byte × List Bool) :=
  (List.range bs.length).findSome? fun j =>
    (huffMatch t (j + 1) (bitsValue (bs.take (j + 1)))).map fun sy => (sy, bs.drop (j + 1))

/-- DecodeAC over a bit string from position k (41_entropy R154, R156): the memory and the bits left where it
ends without a fault inside the string. -/
def acBlockRef (t : HuffTable) (b : Nat) : Nat → Nat → Memory → List Bool → Option (Memory × List Bool)
  | 0, _, _, _ => none
  | fuel + 1, k, m, bs =>
    if 63 < k then some (m, bs)
    else
      match huffPrefix t bs with
      | none => none
      | some (sy, left) =>
        if sy = 0x00#8 then some (m, left)
        else if sy = 0xF0#8 then
          if 64 < k + 16 then none else acBlockRef t b fuel (k + 16) m left
        else
          let r := sy.toNat / 16
          let size := sy.toNat % 16
          if size = 0 ∨ 63 < k + r ∨ left.length < size then none
          else
            acBlockRef t b fuel (k + r + 1)
              (coefWrite m b (k + r) (s16 (extend (bitsValue (left.take size)) size))) (left.drop size)

/-- The L-bit string of a code, first bit most significant (40_tables R125). -/
def codeBits (len code : Nat) : List Bool := (List.range len).map fun j => code.testBit (len - 1 - j)

/-- The sum of f(0), …, f(n-1). -/
def sumTo (n : Nat) (f : Nat → Int) : Int := ((List.range n).map f).sum

/-- K_N[x][u] (42_idct R184). -/
def kEntry (n x u : Nat) : Int := ((basis n)[x]?.getD [])[u]?.getD 0

/-- F[n'] by 42_idct R181: the product for the zigzag position k with ZZ[k] = n'. -/
def dequantRef (s : State) (b q n' : Nat) : Int :=
  sumTo 64 fun k =>
    if zigzag[k]?.getD 64 = n' then (coefRead s.mem b k).toInt * ((qtEntry s q k).toNat : Int) else 0

/-- Rrow[v][x] (R187). -/
def rowRef (s : State) (b q n v x : Nat) : Int :=
  (sumTo n (fun u => kEntry n x u * dequantRef s b q (8 * v + u)) + 1024) / 2048

/-- s[y][x] (R188). -/
def sampleRef (s : State) (b q n y x : Nat) : Int :=
  min 255 (max 0
    ((sumTo n (fun v => kEntry n y v * rowRef s b q n v x) + 16384) / 32768 + 128))

/-- Bytes per pixel (43_color R208). -/
def bytesPerPixel (s : State) : Nat := if pixfmt s = 0 then 3 else if pixfmt s = 1 then 2 else 1

/-- base(c) (43_color R201). -/
def baseRef (s : State) (c : Nat) : Nat :=
  if c = 0 then 0
  else if c = 1 then hFactor s 0 * vFactor s 0
  else hFactor s 0 * vFactor s 0 + hFactor s 1 * vFactor s 1

/-- Sample(c, i, j) (R205): the sample that pixel (i, j) of the rectangle takes from component c, each chroma sample
repeated fx times along a row and fy times down a column (R202). -/
def pixelSampleRef (s : State) (c i j : Nat) : Int :=
  let n := 8 / 2 ^ scale s
  let ci := i / (hFactor s 0 / hFactor s c)
  let cj := j / (vFactor s 0 / vFactor s c)
  (tileRead s.mem (baseRef s c + cj / n * hFactor s c + ci / n) (8 * (cj % n) + ci % n)).toNat

/-- One channel: the luma plus the fixed-point chroma term rounded down, clamped to 0..255 (R207). -/
def channelRef (y term : Int) : Int := max 0 (min 255 (y + (term + 512) / 1024))

/-- The channels R, G and B of pixel (i, j) (R207, R209): no conversion with one component. -/
def redRef (s : State) (i j : Nat) : Int :=
  if ncomp s = 1 then pixelSampleRef s 0 i j
  else channelRef (pixelSampleRef s 0 i j) (1436 * (pixelSampleRef s 2 i j - 128))

/-- G of pixel (i, j). -/
def greenRef (s : State) (i j : Nat) : Int :=
  if ncomp s = 1 then pixelSampleRef s 0 i j
  else channelRef (pixelSampleRef s 0 i j)
    (-352 * (pixelSampleRef s 1 i j - 128) - 731 * (pixelSampleRef s 2 i j - 128))

/-- B of pixel (i, j). -/
def blueRef (s : State) (i j : Nat) : Int :=
  if ncomp s = 1 then pixelSampleRef s 0 i j
  else channelRef (pixelSampleRef s 0 i j) (1815 * (pixelSampleRef s 1 i j - 128))

/-- The RGB565 word of pixel (i, j): R truncated to [15:11], G to [10:5], B to [4:0] (R208). -/
def word565Ref (s : State) (i j : Nat) : Int :=
  2048 * (redRef s i j / 8) + 32 * (greenRef s i j / 4) + blueRef s i j / 8

/-- Byte z of pixel (i, j) in the configured format and byte order (R208, R209). -/
def pixelByteRef (s : State) (i j z : Nat) : Int :=
  if pixfmt s = 0 then
    if z = 1 then greenRef s i j
    else if (z = 0 ∧ rgbOrder s = false) ∨ (z = 2 ∧ rgbOrder s = true) then redRef s i j
    else blueRef s i j
  else if pixfmt s = 1 then
    if (z = 0 ∧ r565Be s = false) ∨ (z = 1 ∧ r565Be s = true) then word565Ref s i j % 256
    else word565Ref s i j / 256
  else pixelSampleRef s 0 i j

/-- RECT, PIXLEN and PIX of t hold the rectangle of the MCU at MCUPOS, assembled from the tiles of s (R203-R210): its
corners, the bytes of its pixels row by row, and zeros after them. -/
def ShowsRectangle (s t : State) : Prop :=
  t.left.toNat = s.mcux.toNat * (8 / 2 ^ scale s * hFactor s 0)
    ∧ t.top.toNat = s.mcuy.toNat * (8 / 2 ^ scale s * vFactor s 0)
    ∧ t.right.toNat = min (t.left.toNat + 8 / 2 ^ scale s * hFactor s 0 - 1) (scaledWidth s - 1)
    ∧ t.bottom.toNat = min (t.top.toNat + 8 / 2 ^ scale s * vFactor s 0 - 1) (scaledHeight s - 1)
    ∧ t.left.toNat ≤ t.right.toNat ∧ t.top.toNat ≤ t.bottom.toNat
    ∧ t.pixlen.toNat = (t.right.toNat + 1 - t.left.toNat) * (t.bottom.toNat + 1 - t.top.toNat) * bytesPerPixel s
    ∧ t.pixlen.toNat ≤ 768
    ∧ (∀ i j z, i < t.right.toNat + 1 - t.left.toNat → j < t.bottom.toNat + 1 - t.top.toNat →
      z < bytesPerPixel s →
      ((pixRead t.mem ((j * (t.right.toNat + 1 - t.left.toNat) + i) * bytesPerPixel s + z)).toNat : Int)
        = pixelByteRef s i j z)
    ∧ ∀ o, t.pixlen.toNat ≤ o → o < 768 → pixRead t.mem o = 0#8

/-- The tiles of t hold the transform of every block of the MCU in s: the block of component c at column bx and row
by stands in slot(c, bx, by) and is transformed with the table QSEL[c] (R201, 42_idct R190, 44_driver R227). -/
def ShowsTiles (s t : State) : Prop :=
  ∀ c bx by' y x, c < ncomp s → bx < hFactor s c → by' < vFactor s c → y < 8 → x < 8 →
    ((tileRead t.mem (baseRef s c + by' * hFactor s c + bx) (8 * y + x)).toNat : Int) =
      if x < 8 / 2 ^ scale s ∧ y < 8 / 2 ^ scale s then
        sampleRef s (baseRef s c + by' * hFactor s c + bx) (qSel s c) (8 / 2 ^ scale s) y x
      else 0

/-- The first code and the first symbol index of a length by the recurrence of 40_tables R125: code starts at
0 and doubles after each length; p sums the counts. -/
def firstCode (t : HuffTable) : Nat → Nat
  | 0 => 0
  | 1 => 0
  | len + 1 => 2 * (firstCode t len + bitsAt t len)

/-- VALPTR by R125: the number of shorter codes. -/
def firstIndex (t : HuffTable) : Nat → Nat
  | 0 => 0
  | 1 => 0
  | len + 1 => firstIndex t len + bitsAt t len

/-! ## Parts of the state that whole families of instructions keep -/

/-- The configuration, the interrupt enables, TJD_BASE and the tables (10_state R30-R33, R41, R42): everything
that only the host's writes and the loads change (R50, 40_tables R128). -/
def SameSetup (s t : State) : Prop :=
  t.cfg0 = s.cfg0 ∧ t.cfg1 = s.cfg1 ∧ t.size = s.size ∧ t.rstint = s.rstint ∧ t.inten = s.inten
    ∧ t.qt = s.qt ∧ t.qtv = s.qtv ∧ t.ht = s.ht ∧ t.htv = s.htv
    ∧ t.ldcls = s.ldcls ∧ t.ldid = s.ldid ∧ t.ldcnt = s.ldcnt ∧ t.tjdBase = s.tjdBase

/-- What stands outside the block: the agents' lists and the last bus response. -/
def SameOutside (s t : State) : Prop :=
  t.agenda = s.agenda ∧ t.input = s.input ∧ t.freshInputs = s.freshInputs ∧ t.reply = s.reply

/-- The restart counter and the MCU position (R36, R37). -/
def SameProgress (s t : State) : Prop :=
  t.rstctr = s.rstctr ∧ t.rstnext = s.rstnext ∧ t.mcux = s.mcux ∧ t.mcuy = s.mcuy

/-- The last rectangle (R38). -/
def SameRect (s t : State) : Prop :=
  t.left = s.left ∧ t.top = s.top ∧ t.right = s.right ∧ t.bottom = s.bottom ∧ t.pixlen = s.pixlen

/-- The cursor (R34). -/
def SameCursor (s t : State) : Prop :=
  t.cbits = s.cbits ∧ t.bcnt = s.bcnt ∧ t.mp = s.mp ∧ t.marker = s.marker ∧ t.eos = s.eos
    ∧ t.bytecnt = s.bytecnt

/-- The fault record and RUNHALT (R25, R26). -/
def SameFault (s t : State) : Prop :=
  t.err = s.err ∧ t.detail = s.detail ∧ t.sym = s.sym ∧ t.runhalt = s.runhalt

/-- The address holds one of the two bytes of an entry of COEF[b] (R44, 20_memory R64). -/
def inCoefSlot (b a : Nat) : Prop := ∃ k, k < 64 ∧ (a = coefAddr b k ∨ a = coefAddr b k + 1)

/-- The slot a point decodes. -/
def pointSlot : Point → Option Nat
  | .dcCode _ b _ _ => some b
  | .dcSymbol _ b _ => some b
  | .dcBits _ b _ _ _ => some b
  | .acCode _ b _ _ _ => some b
  | .acSymbol _ b _ _ => some b
  | .acBits _ b _ _ _ _ => some b
  | .rstFirst => none
  | .rstSecond => none
  | .scan _ => none
  | .nextMcu _ => none
  | .emit => none

/-- The component a point decodes. -/
def pointComp : Point → Option Nat
  | .dcCode c _ _ _ => some c
  | .dcSymbol c _ _ => some c
  | .dcBits c _ _ _ _ => some c
  | .acCode c _ _ _ _ => some c
  | .acSymbol c _ _ _ => some c
  | .acBits c _ _ _ _ _ => some c
  | .rstFirst => none
  | .rstSecond => none
  | .scan _ => none
  | .nextMcu _ => none
  | .emit => none

/-- The address holds an entry of TILE[b] (R45, R65). -/
def inTileSlot (b a : Nat) : Prop := ∃ n, n < 64 ∧ a = tileAddr b n

/-- The address holds a byte of PIX (R46, R66). -/
def inPixBuffer (a : Nat) : Prop := ∃ i, i < Config.pixBytes ∧ a = pixAddr i

/-- The address holds a byte the driver stores to: COEF and TILE of the MCU's slots, and PIX (44_driver R227). -/
def inDriverBuffer (s : State) (a : Nat) : Prop :=
  (∃ b, b < slotCount s ∧ (inCoefSlot b a ∨ inTileSlot b a)) ∨ inPixBuffer a

/-- The command being executed may store to the address: DEC_DC to COEF[b][0], DEC_AC to COEF[b][1..63],
DEC_BLK to COEF[b], the driver to the slot it is at and its buffers, RESTART and a step-mode RESYNC to none
(41_entropy R140, R155-R163, 44_driver R227). -/
def mayStore (s : State) (a : Nat) : Prop :=
  match s.pos with
  | none => False
  | some p =>
    match p.body with
    | .decDc => ∃ b, pointSlot p.point = some b ∧ (a = coefAddr b 0 ∨ a = coefAddr b 0 + 1)
    | .decAc =>
      ∃ b k, pointSlot p.point = some b ∧ 1 ≤ k ∧ k < 64 ∧ (a = coefAddr b k ∨ a = coefAddr b k + 1)
    | .decBlk => ∃ b, pointSlot p.point = some b ∧ inCoefSlot b a
    | .restart => False
    | .resync fromRun => fromRun = true ∧ inDriverBuffer s a
    | .drive _ => (∃ b, pointSlot p.point = some b ∧ inCoefSlot b a) ∨ inDriverBuffer s a

/-- The command being executed may write PRED[c]: a DC decode its component's, a restart, a resync and the
driver any (41_entropy R151, R160, R166). -/
def mayPredict (s : State) (c : Nat) : Prop :=
  match s.pos with
  | none => False
  | some p =>
    match p.body with
    | .decDc => pointComp p.point = some c
    | .decAc => False
    | .decBlk => pointComp p.point = some c
    | .restart => True
    | .resync _ => True
    | .drive _ => True

/-- STRATEGY and LUT9 of CFG0 replaced (10_state R30). -/
def withStrategy (k : BitVec 2) (lut9 : Bool) (s : State) : State :=
  { s with cfg0 := BitVec.ofBool lut9 ++ k ++ s.cfg0.extractLsb' 0 8 }

/-- An outcome's next state changed by f. -/
def mapNext (f : State → State) : Host.Outcome State Fault Refusal → Host.Outcome State Fault Refusal
  | .next s => .next (f s)
  | .fault e => .fault e
  | .refused r => .refused r

end Sys2Proof.Machine
end

