-- ==== Sys2Proof/Certificates/Slice0/Obligations.lean ====
section
/-! DEFINITION. The statements for the provers. Each docstring names the rule of spec/ it formalises. -/

open Sys2Proof Sys2Proof.Machine

/-! ## Encoding (30_encoding) -/

/-- R90-R96, R102-R105: decoding the encoding of any well-formed instruction gives the instruction back. -/
def Obligations.EncodeThenDecode : Prop :=
  ∀ i : Instr, i.wellFormed = true → decodeCode (encode i) = .ok i

/-- R96, R98, R104, R105: whatever decodes is a well-formed instruction and is the one encoding of it. -/
def Obligations.DecodeThenEncode : Prop :=
  ∀ (code : Code) (i : Instr), decodeCode code = .ok i → i.wellFormed = true ∧ encode i = code

/-- R90-R94, R102-R105: some words written out from the encoding tables. -/
def Obligations.DecodedWords : Prop :=
  decodeCode (.cmd 0x00000000#32) = .ok .nop ∧ decodeCode (.cmd 0x01000000#32) = .ok .sreset
    ∧ decodeCode (.cmd 0x10000002#32) = .ok (.loadQt 2#2)
    ∧ decodeCode (.cmd 0x11000011#32) = .ok (.loadHt .ac 1#2)
    ∧ decodeCode (.cmd 0x20000000#32) = .ok .start ∧ decodeCode (.cmd 0x21000000#32) = .ok .resync
    ∧ decodeCode (.cmd 0x32000209#32) = .ok (.decBlk 2#2 9#4)
    ∧ decodeCode (.cmd 0x4000010B#32) = .ok (.idct 1#2 11#4)
    ∧ decodeCode (.cmd 0x50000000#32) = .ok .color
    ∧ decodeCode (.dcSymbol 0x0F#8) = .ok (.dcDiff 15#4) ∧ decodeCode (.dcSymbol 0x13#8) = .ok (.dcIllegal 0x13#8)
    ∧ decodeCode (.acSymbol 0x00#8) = .ok .acEob ∧ decodeCode (.acSymbol 0xF0#8) = .ok .acZrl
    ∧ decodeCode (.acSymbol 0x21#8) = .ok (.acRunsize 2#4 1#4)
    ∧ decodeCode (.acSymbol 0x10#8) = .ok (.acUndef 1#4)
    ∧ decodeCode (.pair 0xFF#8 0x00#8) = .ok .stuffFf00
    ∧ decodeCode (.pair 0xFF#8 0xD7#8) = .ok (.rstN 7#3)
    ∧ decodeCode (.pair 0xFF#8 0xD9#8) = .ok (.markerOther 0xD9#8)

/-- R96: the words refused are exactly those of the five cases, and such a CMD write changes INTSTAT.CMDERR
alone. -/
def Obligations.MalformedWordsRefused : Prop :=
  ∀ w : Word,
    (MalformedWord w ↔ ¬∃ i, decodeCmd w = .ok i)
      ∧ (MalformedWord w → ∀ s, cmdWrite w s = .settled (refusedWrite s))

/-- R97, R98: a well-formed command word that is not malformed is the instruction the write runs, and a command
the current STATE does not accept changes INTSTAT.CMDIGN alone. -/
def Obligations.UnacceptedCommandsIgnored : Prop :=
  ∀ (w : Word) (s : State), ¬MalformedWord w →
    ∃ i, decodeCmd w = .ok i ∧ isCommand i = true ∧ cmdWrite w s = .instr i s
      ∧ (acceptedIn i s.state = false → exec i s = .next (ignored s))

/-! ## The step (20_memory R63, R69, R76) -/

/-- R76, R79, R90: what the next step fetches is what it runs. A command word the host writes to CMD, a symbol
the block has matched, and a byte pair the source's answer completes run as the instruction they decode to;
any other register write takes its effect; and a symbol met in the middle of a run of the block has the effect
exec gives it. `step` adds to exec the taking of the agenda's event and of the
source's answer, the count in BYTECNT and the bus response. -/
def Obligations.StepRunsDecoded : Prop :=
  (∀ (s : State) (rest : List Event) (w : Word) (i : Instr), runnable s = false →
      s.agenda = .busWrite (s.tjdBase + 0x004) 4 w :: rest → decodeCmd w = .ok i →
      step s = exec i { s with agenda := rest, reply := some ⟨0#32, false⟩ })
    ∧ (∀ (s : State) (body : Body) (c b : Nat) (t : Byte), s.pend = none →
      s.pos = some ⟨body, .dcSymbol c b t⟩ → step s = exec (decodeDcSymbol t) s)
    ∧ (∀ (s : State) (body : Body) (c b k : Nat) (t : Byte), s.pend = none →
      s.pos = some ⟨body, .acSymbol c b k t⟩ → step s = exec (decodeAcSymbol t) s)
    ∧ (∀ (s : State) (rest : List Event) (y : Byte) (more : List Answer), awaitsAfterFf s = true →
      s.agenda = .source :: rest → s.input = .byte y :: more →
      step s = exec (decodeAfterFf y) { s with agenda := rest, input := more, bytecnt := s.bytecnt + 1#32 })
    ∧ (∀ (s : State) (rest : List Event) (off : Nat) (v : Word), runnable s = false → isMappedOffset off →
      off % 4 = 0 → off ≠ 0x004 → s.agenda = .busWrite (s.tjdBase + off) 4 v :: rest →
      step s = .next (registerWrite off v { s with agenda := rest, reply := some ⟨0#32, false⟩ }))
    ∧ (∀ (s : State) (i : Instr), runnable s = true → symbolAt s = some i →
      exec i s = .next (runBlock (blockMove s)))

/-- R63: every access that is not 4 bytes wide at a mapped multiple of 4 is refused by the bus-error response,
a read with the value 0, and changes nothing of the block. -/
def Obligations.BadAccessRefused : Prop :=
  ∀ (s : State) (rest : List Event) (off width : Nat) (v : Word), runnable s = false → off < 0x4000 →
    (width ≠ 4 ∨ off % 4 ≠ 0 ∨ ¬isMappedOffset off) →
    (s.agenda = .busRead (s.tjdBase + off) width :: rest →
        step s = .next { s with agenda := rest, reply := some ⟨0#32, true⟩ })
      ∧ (s.agenda = .busWrite (s.tjdBase + off) width v :: rest →
        step s = .next { s with agenda := rest, reply := some ⟨0#32, true⟩ })

/-- R68, R69: a read of a mapped word has no side effect. It gives the actual contents, except that the buffer
windows, RECTLT, RECTRB and PIXLEN give an unconstrained value while a command runs with OUTWAIT = 0. That the
draw is a function of the block-step counter and the offset is log 6. -/
def Obligations.ReadsHaveNoEffect : Prop :=
  ∀ (s : State) (rest : List Event) (off : Nat), runnable s = false → isMappedOffset off → off % 4 = 0 →
    s.agenda = .busRead (s.tjdBase + off) 4 :: rest →
    (((s.state = .step ∨ s.state = .run) ∧ outwait s = false
        ∧ ((0x1000 ≤ off ∧ off < 0x3300) ∨ off = 0x4C ∨ off = 0x50 ∨ off = 0x54)) →
      step s = .next { s with agenda := rest, reply := some ⟨Config.freeWord s.epoch off, false⟩ })
    ∧ (¬((s.state = .step ∨ s.state = .run) ∧ outwait s = false
        ∧ ((0x1000 ≤ off ∧ off < 0x3300) ∨ off = 0x4C ∨ off = 0x50 ∨ off = 0x54)) →
      step s = .next { s with agenda := rest, reply := some ⟨contentsAt off s, false⟩ })

/-! ## Registers (10_state) -/

/-- R21, R25-R38, R51, R64-R66: the fields of every word the host reads, by bit position, with the bits that read
as 0; the write-only CMD, DATA and OUTRESP read 0 (R39, R40). -/
def Obligations.RegisterFields : Prop :=
  ∀ s : State, State.Inv s →
    contentsAt 0x000 s = 0x544A4431#32
    ∧ (contentsAt 0x00C s).extractLsb' 0 4 = stateCode s.state
    ∧ ((contentsAt 0x00C s).getLsbD 4 = true ↔ s.state = .step ∨ s.state = .run)
    ∧ ((contentsAt 0x00C s).getLsbD 5 = true ↔ ∃ i, s.pos = some ⟨.drive i, .emit⟩)
    ∧ ((contentsAt 0x00C s).getLsbD 6 = true ↔ s.pend ≠ none)
    ∧ (contentsAt 0x00C s).getLsbD 7 = s.runhalt ∧ (s.runhalt = true → s.state = .syncHalt)
    ∧ (contentsAt 0x00C s).extractLsb' 8 4 = s.err ∧ (contentsAt 0x00C s).extractLsb' 12 20 = 0#20
    ∧ (contentsAt 0x010 s).extractLsb' 0 8 = s.detail ∧ (contentsAt 0x010 s).extractLsb' 8 8 = s.sym
    ∧ (contentsAt 0x010 s).extractLsb' 16 16 = 0#16
    ∧ (contentsAt 0x014 s).extractLsb' 0 8 = s.intstat ∧ (contentsAt 0x014 s).extractLsb' 8 24 = 0#24
    ∧ (contentsAt 0x018 s).extractLsb' 0 8 = s.inten ∧ (contentsAt 0x018 s).extractLsb' 8 24 = 0#24
    ∧ contentsAt 0x004 s = 0#32 ∧ contentsAt 0x008 s = 0#32 ∧ contentsAt 0x058 s = 0#32
    ∧ (contentsAt 0x020 s).extractLsb' 0 11 = s.cfg0 ∧ (contentsAt 0x020 s).extractLsb' 11 21 = 0#21
    ∧ (contentsAt 0x024 s).extractLsb' 0 30 = s.cfg1 ∧ (contentsAt 0x024 s).extractLsb' 30 2 = 0#2
    ∧ contentsAt 0x028 s = s.size
    ∧ (contentsAt 0x02C s).extractLsb' 0 16 = s.rstint ∧ (contentsAt 0x02C s).extractLsb' 16 16 = 0#16
    ∧ (contentsAt 0x030 s).extractLsb' 0 16 = s.mcux ∧ (contentsAt 0x030 s).extractLsb' 16 16 = s.mcuy
    ∧ (∀ c, c < 3 → (contentsAt (0x038 + 4 * c) s).toInt = (predRead s c).toInt)
    ∧ (∀ q, q < 4 → (contentsAt 0x01C s).getLsbD q = s.qtv[q]?.getD false)
    ∧ (∀ j, j < 8 → (contentsAt 0x01C s).getLsbD (4 + j) = s.htv[j]?.getD false)
    ∧ (contentsAt 0x01C s).extractLsb' 12 20 = 0#20
    ∧ (contentsAt 0x048 s).extractLsb' 0 4 = s.bcnt ∧ (contentsAt 0x048 s).extractLsb' 8 8 = s.cbits
    ∧ (contentsAt 0x048 s).getLsbD 16 = s.mp ∧ (contentsAt 0x048 s).getLsbD 17 = s.eos
    ∧ (contentsAt 0x048 s).extractLsb' 24 8 = s.marker ∧ contentsAt 0x044 s = s.bytecnt
    ∧ (contentsAt 0x048 s).extractLsb' 4 4 = 0#4 ∧ (contentsAt 0x048 s).extractLsb' 18 6 = 0#6
    ∧ (contentsAt 0x034 s).extractLsb' 0 16 = s.rstctr ∧ (contentsAt 0x034 s).extractLsb' 16 3 = s.rstnext
    ∧ (contentsAt 0x034 s).extractLsb' 19 13 = 0#13
    ∧ (contentsAt 0x04C s).extractLsb' 0 16 = s.left ∧ (contentsAt 0x04C s).extractLsb' 16 16 = s.top
    ∧ (contentsAt 0x050 s).extractLsb' 0 16 = s.right ∧ (contentsAt 0x050 s).extractLsb' 16 16 = s.bottom
    ∧ (contentsAt 0x054 s).extractLsb' 0 10 = s.pixlen ∧ (contentsAt 0x054 s).extractLsb' 10 22 = 0#22
    ∧ (∀ b k, b < 12 → k < 64 → (contentsAt (0x1000 + 4 * (64 * b + k)) s).toInt = (coefRead s.mem b k).toInt)
    ∧ (∀ b n, b < 12 → n < 64 → (contentsAt (0x2000 + 4 * (64 * b + n)) s).toNat = (tileRead s.mem b n).toNat)
    ∧ (∀ i z, i < 192 → z < 4 →
      (contentsAt (0x3000 + 4 * i) s).extractLsb' (8 * z) 8 = pixRead s.mem (4 * i + z))

/-- R49: configuration is writable in IDLE only, elsewhere the write sets CMDIGN alone; a write to a read-only
location does nothing; INTEN and INTSTAT are writable in every state. -/
def Obligations.ConfigurationOnlyInIdle : Prop :=
  ∀ (s : State) (off : Nat) (v : Word),
    (isConfigOffset off → s.state ≠ .idle → registerWrite off v s = ignored s)
    ∧ (isReadOnlyOffset off → registerWrite off v s = s)
    ∧ registerWrite 0x018 v s = { s with inten := v.extractLsb' 0 8 }
    ∧ registerWrite 0x014 v s = { s with intstat := s.intstat &&& ~~~(v.extractLsb' 0 8) }

/-- R30-R33, R35, R37, R64: what a configuration write in IDLE leaves: the location reads back what was written,
its read-as-zero bits zero, its sign extended where the rule says so, and nothing else changes. -/
def Obligations.ConfigurationReadBack : Prop :=
  ∀ (s : State) (v : Word), s.state = .idle →
    registerWrite 0x020 v s = { s with cfg0 := v.extractLsb' 0 11 }
    ∧ contentsAt 0x020 (registerWrite 0x020 v s) = v &&& 0x000007FF#32
    ∧ registerWrite 0x024 v s = { s with cfg1 := v.extractLsb' 0 30 }
    ∧ contentsAt 0x024 (registerWrite 0x024 v s) = v &&& 0x3FFFFFFF#32
    ∧ registerWrite 0x028 v s = { s with size := v }
    ∧ contentsAt 0x028 (registerWrite 0x028 v s) = v
    ∧ width (registerWrite 0x028 v s) = v.toNat % 65536 ∧ height (registerWrite 0x028 v s) = v.toNat / 65536
    ∧ registerWrite 0x02C v s = { s with rstint := v.extractLsb' 0 16 }
    ∧ contentsAt 0x02C (registerWrite 0x02C v s) = v &&& 0x0000FFFF#32
    ∧ registerWrite 0x030 v s = { s with mcux := v.extractLsb' 0 16, mcuy := v.extractLsb' 16 16 }
    ∧ contentsAt 0x030 (registerWrite 0x030 v s) = v
    ∧ (∀ c, c < 3 →
      registerWrite (0x038 + 4 * c) v s = { s with pred := s.pred.setIfInBounds c (v.extractLsb' 0 16) }
      ∧ contentsAt (0x038 + 4 * c) (registerWrite (0x038 + 4 * c) v s) = (v.extractLsb' 0 16).signExtend 32)
    ∧ (∀ b k, b < 12 → k < 64 → registerWrite (0x1000 + 4 * (64 * b + k)) v s =
      { s with mem := (registerWrite (0x1000 + 4 * (64 * b + k)) v s).mem })
    ∧ (s.mem.wf = true → ∀ b k, b < 12 → k < 64 →
      contentsAt (0x1000 + 4 * (64 * b + k)) (registerWrite (0x1000 + 4 * (64 * b + k)) v s)
          = (v.extractLsb' 0 16).signExtend 32
        ∧ ∀ a, a ≠ coefAddr b k → a ≠ coefAddr b k + 1 →
          (registerWrite (0x1000 + 4 * (64 * b + k)) v s).mem.read a = s.mem.read a)

/-- R27, R290: a write to INTSTAT clears each bit that is 1 in the value written and leaves every other bit and
everything else as it was. -/
def Obligations.IntstatWriteOneToClear : Prop :=
  ∀ (s : State) (v : Word),
    (∀ i, i < 8 → (registerWrite 0x014 v s).intstat.getLsbD i = (s.intstat.getLsbD i && !v.getLsbD i))
      ∧ registerWrite 0x014 v s = { s with intstat := (registerWrite 0x014 v s).intstat }

/-- R258: the interrupt line is the OR over i in 0..7 of INTSTAT[i] AND INTEN[i]. -/
def Obligations.InterruptLine : Prop :=
  ∀ s : State, irq s = true ↔ ∃ i, i < 8 ∧ s.intstat.getLsbD i = true ∧ s.inten.getLsbD i = true

/-! ## Reset and control (70_reset_and_hazards, 44_driver) -/

/-- R280: State.reset and the state after the platform's reset hold the table's value in every piece of state,
whatever the block was doing, and no request is outstanding. -/
def Obligations.ResetState : Prop :=
  AtReset State.reset
    ∧ ∀ (s : State) (rest : List Event), runnable s = false → s.agenda = .hwReset :: rest →
      ∃ t, step s = .next t ∧ AtReset t ∧ t.agenda = rest ∧ t.tjdBase = s.tjdBase

/-- R281: SRESET completes in every state as hardware reset; the host's last response, its steps to come and
TJD_BASE are no state of the block. -/
def Obligations.SresetCompletes : Prop :=
  ∀ s : State, ∃ t, exec .sreset s = .next t ∧ AtReset t ∧ t.tjdBase = s.tjdBase ∧ t.agenda = s.agenda
    ∧ t.reply = s.reply

/-- R240: NOP is the word 0, is accepted in every state and changes nothing; a word with its opcode and a
non-zero bit in [23:0] is refused. -/
def Obligations.NopDoesNothing : Prop :=
  decodeCmd 0#32 = .ok .nop
    ∧ (∀ s : State, exec .nop s = .next s)
    ∧ ∀ (w : Word) (s : State), w.extractLsb' 24 8 = 0#8 → w ≠ 0#32 → cmdWrite w s = .settled (refusedWrite s)

/-! ## Tables (40_tables) -/

/-- R120, R122: a load command accepted in IDLE invalidates its table at once, names it, clears the count and
enters LOADQ or LOADH. -/
def Obligations.LoadsBegin : Prop :=
  ∀ s : State, s.state = .idle →
    (∀ id, exec (.loadQt id) s = .next
      { s with qtv := s.qtv.setIfInBounds id.toNat false, ldid := id, ldcnt := 0#9, state := .loadq })
    ∧ (∀ id, exec (.loadHt .dc id) s = .next
      { s with
        htv := s.htv.setIfInBounds id.toNat false, ldcls := .dc, ldid := id, ldcnt := 0#9, state := .loadh })
    ∧ (∀ id, exec (.loadHt .ac id) s = .next
      { s with
        htv := s.htv.setIfInBounds (4 + id.toNat) false, ldcls := .ac, ldid := id, ldcnt := 0#9
        state := .loadh })

/-- R121: a DATA word in LOADQ is the entry of the next zigzag position, and the 64th completes the load. -/
def Obligations.QuantWords : Prop :=
  ∀ (s : State) (v : Word), s.state = .loadq → s.ldcnt.toNat < 64 →
    ∃ q : Vector (Vector (BitVec 16) 64) 4,
      (∀ (i k : Nat), i < 4 → k < 64 → (q[i]?.getD (Vector.replicate 64 0#16))[k]?.getD 0#16 =
          if i = s.ldid.toNat ∧ k = s.ldcnt.toNat then v.extractLsb' 0 16 else qtEntry s i k)
      ∧ (s.ldcnt.toNat < 63 → registerWrite 0x008 v s = { s with qt := q, ldcnt := s.ldcnt + 1#9 })
      ∧ (s.ldcnt.toNat = 63 → registerWrite 0x008 v s =
          completed { s with qt := q, ldcnt := 64#9, qtv := s.qtv.setIfInBounds s.ldid.toNat true })

/-- R123: a DATA word in LOADH before the 16th is a count; at the 16th the sum is checked, then the code space,
and an empty table is complete. -/
def Obligations.CountWords : Prop :=
  ∀ (s : State) (v : Word) (T : HuffTable), s.state = .loadh → s.ldcnt.toNat < 16 →
    T = { loadTable s with bits := (loadTable s).bits.setIfInBounds s.ldcnt.toNat (v.extractLsb' 0 8) } →
    (s.ldcnt.toNat < 15 → registerWrite 0x008 v s = { loadTableSet T s with ldcnt := s.ldcnt + 1#9 })
    ∧ (s.ldcnt.toNat = 15 → 256 < bitsSum T → registerWrite 0x008 v s =
        inError 1#4 0x10#8 0#8 { loadTableSet { T with nval := bitsSum T } s with ldcnt := 16#9 })
    ∧ (s.ldcnt.toNat = 15 → bitsSum T ≤ 256 →
        (∃ len, 1 ≤ len ∧ len ≤ 16 ∧ 2 ^ len < firstCode T len + bitsAt T len) →
        ∃ U, registerWrite 0x008 v s = inError 1#4 0x11#8 0#8 { loadTableSet U s with ldcnt := 16#9 })
    ∧ (s.ldcnt.toNat = 15 → bitsSum T ≤ 256 →
        (∀ len, 1 ≤ len → len ≤ 16 → firstCode T len + bitsAt T len ≤ 2 ^ len) →
        registerWrite 0x008 v s =
          if bitsSum T = 0 then
            completed { loadTableSet (build { T with nval := 0 }).1 s with
              ldcnt := 16#9, htv := s.htv.setIfInBounds (loadIndex s) true }
          else { loadTableSet (build { T with nval := bitsSum T }).1 s with ldcnt := 16#9 })

/-- R124: a later DATA word in LOADH is the next symbol, and the NVAL-th completes the load. -/
def Obligations.SymbolWords : Prop :=
  ∀ (s : State) (v : Word) (T : HuffTable), s.state = .loadh → 16 ≤ s.ldcnt.toNat →
    s.ldcnt.toNat < 16 + (loadTable s).nval → (loadTable s).nval ≤ 256 →
    T = { loadTable s with huffval := (loadTable s).huffval.setIfInBounds (s.ldcnt.toNat - 16) (v.extractLsb' 0 8) } →
    registerWrite 0x008 v s =
      if s.ldcnt.toNat + 1 = 16 + (loadTable s).nval then
        completed { loadTableSet T s with
          ldcnt := s.ldcnt + 1#9, htv := s.htv.setIfInBounds (loadIndex s) true }
      else { loadTableSet T s with ldcnt := s.ldcnt + 1#9 }

/-- R125: Build succeeds exactly where no length over-subscribes its code space, and then every length has the
code bounds and the first symbol index of the recurrence. -/
def Obligations.BuildRecurrence : Prop :=
  ∀ t : HuffTable, bitsSum t ≤ 256 →
    ((build t).2 = true ↔ ∀ len, 1 ≤ len → len ≤ 16 → firstCode t len + bitsAt t len ≤ 2 ^ len)
    ∧ ((build t).2 = true →
      (build t).1.bits = t.bits ∧ (build t).1.huffval = t.huffval ∧ (build t).1.nval = t.nval
      ∧ ∀ len, 1 ≤ len → len ≤ 16 →
        ((build t).1.mincode[len - 1]?.getD 0#17).toNat = firstCode t len
        ∧ ((build t).1.valptr[len - 1]?.getD 0#9).toNat = firstIndex t len
        ∧ (build t).1.maxcode[len - 1]?.getD 0 =
          if 0 < bitsAt t len then (firstCode t len + bitsAt t len : Int) - 1 else -1)

/-- R125, R126: with a table built, the i-th code of each length decodes to its own symbol, consuming exactly its
bits, whatever follows: the code is prefix-free. -/
def Obligations.CanonicalCodesDecode : Prop :=
  ∀ (t : HuffTable) (len i : Nat) (rest : List Bool), bitsSum t ≤ 256 → (build t).2 = true → 1 ≤ len →
    len ≤ 16 → i < bitsAt t len →
    huffPrefix (build t).1 (codeBits len (firstCode t len + i) ++ rest)
      = some (t.huffval[firstIndex t len + i]?.getD 0#8, rest)

/-- R128: a DATA write outside a load sets CMDIGN alone; the tables and their valid bits are constant while STATE
is STEP, RUN or SYNC_HALT, but for the platform's reset and the SRESET word. -/
def Obligations.TablesOnlyInLoads : Prop :=
  (∀ (s : State) (v : Word), s.state ≠ .loadq → s.state ≠ .loadh → registerWrite 0x008 v s = ignored s)
    ∧ ∀ s t : State, (s.state = .step ∨ s.state = .run ∨ s.state = .syncHalt) → step s = .next t →
      (t.qt = s.qt ∧ t.qtv = s.qtv ∧ t.ht = s.ht ∧ t.htv = s.htv) ∨ (Resets s ∧ AtReset t)

/-! ## Entropy unit (41_entropy) -/

/-- R150: extend, and the range its value lies in. -/
def Obligations.ExtendValue : Prop :=
  extend 0 0 = 0
    ∧ ∀ raw size : Nat, 1 ≤ size → size ≤ 15 → raw < 2 ^ size →
      (raw < 2 ^ (size - 1) → extend raw size = (raw : Int) - (2 ^ size - 1)
        ∧ -(2 ^ size - 1) ≤ extend raw size ∧ extend raw size ≤ -2 ^ (size - 1))
      ∧ (2 ^ (size - 1) ≤ raw → extend raw size = (raw : Int)
        ∧ 2 ^ (size - 1) ≤ extend raw size ∧ extend raw size ≤ 2 ^ size - 1)
      ∧ (s16 (extend raw size)).toInt = extend raw size

/-- R70-R72, R144, R253: the answers of the input source to a data request: a data byte enters the cursor and
counts in BYTECNT, 0xFF asks for the byte after it, end of stream sets EOS and lets the block go on with fill
bits, an input failure is the fault INPUT_ERROR; to a marker read (R145, R160), a byte other than 0xFF at a
restart check is SYNC_NOT_FF, a byte of a recovery scan (R165) is skipped and remembered if it is 0xFF, and end of
stream is SYNC_WRONG with the fill byte at the check and RESYNC_EOS in the scan. -/
def Obligations.SourceAnswers : Prop :=
  ∀ (s : State) (p : Pos) (rest : List Event) (more : List Answer), s.pos = some p →
    s.agenda = .source :: rest →
    (s.pend = some .dataFirst → ∀ x, s.input = .byte x :: more →
      step s = .next
        (if x = 0xFF#8 then
          tick (waiting .dataSecond { s with agenda := rest, input := more, bytecnt := s.bytecnt + 1#32 })
        else runBlock { s with
          agenda := rest, input := more, bytecnt := s.bytecnt + 1#32, cbits := x, bcnt := 8#4, pend := none }))
    ∧ (s.pend ≠ none → s.input = .eos :: more →
      step s = .next (runBlock { s with agenda := rest, input := more, eos := true, pend := none }))
    ∧ (s.pend ≠ none → s.input = .ierr :: more →
      step s = .next (inError 6#4 0x50#8 0#8 { s with agenda := rest, input := more }))
    ∧ (s.pend = some .raw → s.eos = false → p.point = .rstFirst → ∀ x, s.input = .byte x :: more →
      step s = .next (tick
        (if x = 0xFF#8 then waiting .raw (atPoint p.body .rstSecond
            { s with agenda := rest, input := more, bytecnt := s.bytecnt + 1#32 })
        else inSyncHalt 0x40#8 x (s.state == .run)
            { s with agenda := rest, input := more, bytecnt := s.bytecnt + 1#32 })))
    ∧ (s.pend = some .raw → s.eos = false → p.point = .scan false → ∀ x, s.input = .byte x :: more →
      step s = .next (tick (waiting .raw (atPoint p.body (.scan (x == 0xFF#8))
        { s with agenda := rest, input := more, bytecnt := s.bytecnt + 1#32 }))))
    ∧ (s.pend = some .raw → (p.point = .rstFirst ∨ p.point = .rstSecond) → s.input = .eos :: more →
      step s = .next (tick (inSyncHalt 0x41#8 0xFF#8 (s.state == .run)
        { s with agenda := rest, input := more, eos := true, mp := true, marker := 0xFF#8 })))
    ∧ (s.pend = some .raw → ∀ q, p.point = .scan q → s.input = .eos :: more →
      step s = .next (tick (inError 4#4 0x42#8 0#8 { s with agenda := rest, input := more, eos := true })))

/-- R151, R152, R155: DEC_DC completes where the buffered bits hold a DC code of a legal size and its additional
bits: PRED[c] and COEF[b][0] become the wrapped sum, the bits are consumed, and nothing else changes. -/
def Obligations.DecDcCompletes : Prop :=
  ∀ (s : State) (c : BitVec 2) (b : BitVec 4) (sy : Byte) (left : List Bool) (v : Half),
    s.state = .idle → s.pend = none → cfgCheck s = none → c.toNat < ncomp s → b.toNat < 12 →
    huffPrefix (dcTable s c.toNat) (bufferedBits s) = some (sy, left) → sy.toNat ≤ 15 →
    sy.toNat ≤ left.length →
    v = s16 ((predRead s c.toNat).toInt + extend (bitsValue (left.take sy.toNat)) sy.toNat) →
    exec (.decDc c b) s = .next (tick (completed { s with
      bcnt := BitVec.ofNat 4 (left.length - sy.toNat)
      pred := s.pred.setIfInBounds c.toNat v
      mem := coefWrite s.mem b.toNat 0 v }))

/-- R154, R156, R157: DEC_AC completes where the buffered bits hold a whole block: COEF[b][1..63] are cleared, then
hold the coefficients the symbols give, and nothing else but the cursor changes. -/
def Obligations.DecAcCompletes : Prop :=
  ∀ (s : State) (c : BitVec 2) (b : BitVec 4) (m : Memory) (left : List Bool),
    s.state = .idle → s.pend = none → cfgCheck s = none → c.toNat < ncomp s → b.toNat < 12 →
    acBlockRef (acTable s c.toNat) b.toNat 64 1 (coefClear s.mem b.toNat 1 63) (bufferedBits s) = some (m, left) →
    exec (.decAc c b) s = .next (tick (completed { s with bcnt := BitVec.ofNat 4 left.length, mem := m }))

/-- R159: DEC_BLK is DecodeDC and then DecodeAC. -/
def Obligations.DecBlkCompletes : Prop :=
  ∀ (s : State) (c : BitVec 2) (b : BitVec 4) (sy : Byte) (left left' : List Bool) (v : Half) (m : Memory),
    s.state = .idle → s.pend = none → cfgCheck s = none → c.toNat < ncomp s → b.toNat < 12 →
    huffPrefix (dcTable s c.toNat) (bufferedBits s) = some (sy, left) → sy.toNat ≤ 15 →
    sy.toNat ≤ left.length →
    v = s16 ((predRead s c.toNat).toInt + extend (bitsValue (left.take sy.toNat)) sy.toNat) →
    acBlockRef (acTable s c.toNat) b.toNat 64 1 (coefClear (coefWrite s.mem b.toNat 0 v) b.toNat 1 63)
      (left.drop sy.toNat) = some (m, left') →
    exec (.decBlk c b) s = .next (tick (completed { s with
      bcnt := BitVec.ofNat 4 left'.length, pred := s.pred.setIfInBounds c.toNat v, mem := m }))

/-- R126, R146, R155, R157, R159: with no bit buffered, no marker pending and no end of stream, a decode command
suspends in its first PortRead with INWAIT = 1; with the fill bits and a table that has no code of 1-bits
alone it is HUFFMAN_DECODE_ERROR after 16 bits. -/
def Obligations.DecodesOnEmptyCursor : Prop :=
  ∀ (s : State) (c : BitVec 2) (b : BitVec 4), s.state = .idle → s.pend = none → cfgCheck s = none →
    c.toNat < ncomp s → b.toNat < 12 → s.bcnt = 0#4 →
    (s.mp = false → s.eos = false →
      exec (.decDc c b) s = .next (tick (waiting .dataFirst
        (atPoint .decDc (.dcCode c.toNat b.toNat 0 0) { s with state := .step })))
      ∧ exec (.decBlk c b) s = .next (tick (waiting .dataFirst
        (atPoint .decBlk (.dcCode c.toNat b.toNat 0 0) { s with state := .step })))
      ∧ exec (.decAc c b) s = .next (tick (waiting .dataFirst
        (atPoint .decAc (.acCode c.toNat b.toNat 1 0 0)
          { s with state := .step, mem := coefClear s.mem b.toNat 1 63 }))))
    ∧ ((s.mp = true ∨ s.eos = true) →
      (∀ len, 1 ≤ len → len ≤ 16 → huffMatch (dcTable s c.toNat) len (2 ^ len - 1) = none) →
      exec (.decDc c b) s = .next (tick (inError 3#4 0x30#8 0#8 { s with cbits := 0xFF#8 })))

/-- R104, R148, R151, R152: the DC symbol of size S at the point that has matched it: S = 0 ends the difference at
0, and otherwise S bits are received; in DEC_DC with the S bits buffered it writes PRED[c] and COEF[b][0] and
completes. -/
def Obligations.DcDiffEffect : Prop :=
  ∀ (s : State) (body : Body) (c b : Nat) (t : Byte) (size : BitVec 4), s.pend = none →
    s.pos = some ⟨body, .dcSymbol c b t⟩ →
    (size ≠ 0#4 →
      exec (.dcDiff size) s = .next (runBlock (atPoint body (.dcBits c b size.toNat size.toNat 0) s)))
    ∧ (size = 0#4 → body ≠ .decDc →
      exec (.dcDiff size) s = .next (runBlock (atPoint body (.acCode c b 1 0 0)
        { s with
          pred := s.pred.setIfInBounds c (predRead s c)
          mem := coefClear (coefWrite s.mem b 0 (predRead s c)) b 1 63 })))
    ∧ (body = .decDc → size.toNat ≤ s.bcnt.toNat → ∀ v : Half,
      v = s16 ((predRead s c).toInt + extend (bitsValue ((bufferedBits s).take size.toNat)) size.toNat) →
      exec (.dcDiff size) s = .next (tick (completed { s with
        bcnt := s.bcnt - size, pred := s.pred.setIfInBounds c v, mem := coefWrite s.mem b 0 v })))

/-- R153, R156, R256: the illegal symbols end the command in ERROR with FORMAT_ERROR, DC_SIZE or AC_UNDEF, and the
symbol in SYM, before any further bit. -/
def Obligations.IllegalSymbolsFault : Prop :=
  (∀ (s : State) (body : Body) (c b : Nat) (t u : Byte), s.pos = some ⟨body, .dcSymbol c b u⟩ →
      exec (.dcIllegal t) s = .next (tick (inError 1#4 0x20#8 t s)))
    ∧ ∀ (s : State) (body : Body) (c b k : Nat) (u : Byte) (r : BitVec 4), s.pos = some ⟨body, .acSymbol c b k u⟩ →
      exec (.acUndef r) s = .next (tick (inError 1#4 0x21#8 (r ++ 0#4) s))

/-- R156-R159, R201, R227: EOB ends the block: a step command completes, the driver goes on with the next slot, and
after the last slot it transforms every slot of the MCU with its component's table, assembles the rectangle from
those tiles and offers it. ZRL skips sixteen zeros; at k + 16 = 64 the block is complete, as by EOB, past it the fault
AC_OVERRUN is raised with the symbol 0xF0. -/
def Obligations.AcEobZrlEffect : Prop :=
  ∀ (s : State) (body : Body) (c b k : Nat) (t : Byte), s.pend = none →
    s.pos = some ⟨body, .acSymbol c b k t⟩ →
    ((body = .decAc ∨ body = .decBlk) → exec .acEob s = .next (tick (completed s)))
    ∧ (∀ i, body = .drive i → b + 1 < slotCount s →
      exec .acEob s = .next (runBlock (atPoint body (.dcCode (compOf s (b + 1)) (b + 1) 0 0) s)))
    ∧ (∀ i, body = .drive i → slotCount s ≤ b + 1 → ∀ u, u = assembleMcu (idctAll s) →
      exec .acEob s = .next (tick { u with pos := some ⟨body, .emit⟩, intstat := u.intstat ||| 0x20#8 }))
    ∧ (∀ i, body = .drive i → slotCount s ≤ b + 1 → s.mem.wf = true → cfgCheck s = none →
      ∃ t, exec .acEob s = .next t
        ∧ t = tick { s with
            mem := t.mem, left := t.left, top := t.top, right := t.right, bottom := t.bottom, pixlen := t.pixlen
            pos := some ⟨body, .emit⟩, intstat := s.intstat ||| 0x20#8 }
        ∧ ShowsTiles s t
        ∧ (s.mcux.toNat < nmcux s → s.mcuy.toNat < nmcuy s → ShowsRectangle t t)
        ∧ ∀ a, (∀ b', b' < slotCount s → ¬inTileSlot b' a) → ¬inPixBuffer a → t.mem.read a = s.mem.read a)
    ∧ (k + 16 < 64 → exec .acZrl s = .next (runBlock (atPoint body (.acCode c b (k + 16) 0 0) s)))
    ∧ (k + 16 = 64 → (body = .decAc ∨ body = .decBlk) → exec .acZrl s = .next (tick (completed s)))
    ∧ (k + 16 = 64 → exec .acZrl s = exec .acEob s)
    ∧ (64 < k + 16 → exec .acZrl s = .next (tick (inError 1#4 0x22#8 0xF0#8 s)))

/-- R156, R158: RUN/SIZE skips r zeros and receives one coefficient of s bits for position k + r; a run past
position 63 is AC_OVERRUN before any bit; with exactly the s bits buffered the coefficient is written and the
decode goes on at the next position, or ends the block at 63. -/
def Obligations.AcRunsizeEffect : Prop :=
  ∀ (s : State) (body : Body) (c b k : Nat) (t : Byte) (r size : BitVec 4), s.pend = none →
    s.pos = some ⟨body, .acSymbol c b k t⟩ → size ≠ 0#4 →
    (63 < k + r.toNat → exec (.acRunsize r size) s = .next (tick (inError 1#4 0x22#8 (r ++ size) s)))
    ∧ (k + r.toNat ≤ 63 → exec (.acRunsize r size) s = .next
        (runBlock (atPoint body (.acBits c b (k + r.toNat) size.toNat size.toNat 0) s)))
    ∧ (k + r.toNat < 63 → size = s.bcnt → s.mp = false → s.eos = false →
      exec (.acRunsize r size) s = .next (tick (waiting .dataFirst
        (atPoint body (.acCode c b (k + r.toNat + 1) 0 0) { s with
          bcnt := 0#4
          mem := coefWrite s.mem b (k + r.toNat) (s16 (extend (bitsValue (bufferedBits s)) size.toNat)) }))))
    ∧ (k + r.toNat = 63 → size.toNat ≤ s.bcnt.toNat → (body = .decAc ∨ body = .decBlk) →
      exec (.acRunsize r size) s = .next (tick (completed { s with
        bcnt := s.bcnt - size
        mem := coefWrite s.mem b 63
          (s16 (extend (bitsValue ((bufferedBits s).take size.toNat)) size.toNat)) })))

/-- R102, R144: a byte pair read for data: 0xFF 0x00 is one data byte 0xFF; any other sets marker pending, keeps
the marker byte, and the fill byte 0xFF stands in for data. -/
def Obligations.PairsInData : Prop :=
  ∀ (s : State) (p : Pos), s.pos = some p → s.pend = some .dataSecond →
    exec .stuffFf00 s = .next (runBlock { s with cbits := 0xFF#8, bcnt := 8#4, pend := none })
    ∧ (∀ n : BitVec 3, exec (.rstN n) s = .next (runBlock { s with
        cbits := 0xFF#8, bcnt := 8#4, pend := none, mp := true, marker := 0x1A#5 ++ n }))
    ∧ (∀ b : Byte, b ≠ 0#8 → exec (.markerOther b) s = .next (runBlock { s with
        cbits := 0xFF#8, bcnt := 8#4, pend := none, mp := true, marker := b }))

/-- R160-R163, R165-R167: a byte pair read for a marker. At a restart check the expected RSTn completes RESTART, or
takes the driver to the MCU's first block, and every other second byte is SYNC_WRONG, kept as the pending marker. In
a recovery scan any RSTn completes a step-mode RESYNC, or takes the driver to the MCU after the lost intervals or to
DONE past the last MCU; any other pair is skipped, its second byte remembered if it is 0xFF. -/
def Obligations.PairsInMarkerReads : Prop :=
  ∀ s : State, s.pend = some .raw → s.eos = false →
    (∀ body, (body = .restart ∨ ∃ i, body = .drive i) → s.pos = some ⟨body, .rstSecond⟩ →
      (∀ n : BitVec 3, n ≠ s.rstnext → exec (.rstN n) s = .next (tick
        (inSyncHalt 0x41#8 (0x1A#5 ++ n) (s.state == .run) { s with mp := true, marker := 0x1A#5 ++ n })))
      ∧ exec .stuffFf00 s = .next (tick
        (inSyncHalt 0x41#8 0#8 (s.state == .run) { s with mp := true, marker := 0#8 }))
      ∧ ∀ b : Byte, isRstByte b = false → exec (.markerOther b) s = .next (tick
        (inSyncHalt 0x41#8 b (s.state == .run) { s with mp := true, marker := b })))
    ∧ (s.pos = some ⟨.restart, .rstSecond⟩ →
      exec (.rstN s.rstnext) s = .next (tick (completed (afterMarker s.rstnext s))))
    ∧ (∀ i, s.pos = some ⟨.drive i, .rstSecond⟩ → cfgCheck s = none →
      exec (.rstN s.rstnext) s = .next (runBlock (atPoint (.drive i) (.dcCode 0 0 0 0)
        { afterMarker s.rstnext s with pend := none })))
    ∧ (∀ fromRun, s.pos = some ⟨.resync fromRun, .scan true⟩ →
      exec .stuffFf00 s = .next (tick (atPoint (.resync fromRun) (.scan false) s))
      ∧ ∀ b : Byte, isRstByte b = false → exec (.markerOther b) s = .next (tick
        (atPoint (.resync fromRun) (.scan (b == 0xFF#8)) s)))
    ∧ (s.pos = some ⟨.resync false, .scan true⟩ →
      ∀ n : BitVec 3, exec (.rstN n) s = .next (tick (completed
        { afterMarker n s with err := 0#4, detail := 0#8, sym := 0#8 })))
    ∧ (s.pos = some ⟨.resync true, .scan true⟩ →
      ∀ (n : BitVec 3) (i : Nat) (t : State),
        i = s.mcuy.toNat * nmcux s + s.mcux.toNat + (n - s.rstnext).toNat * s.rstint.toNat →
        t = { afterMarker n s with err := 0#4, detail := 0#8, sym := 0#8, pend := none } →
        (nmcu s ≤ i → exec (.rstN n) s = .next (tick (inDone t)))
        ∧ (i < nmcu s → exec (.rstN n) s = .next (runBlock (atPoint (.drive i) (.nextMcu true) t)))
        ∧ (i < nmcu s → s.bcnt = 0#4 → s.mp = false → cfgCheck s = none →
          exec (.rstN n) s = .next (tick (waiting .dataFirst (atPoint (.drive i) (.dcCode 0 0 0 0)
            { t with mcux := BitVec.ofNat 16 (i % nmcux s), mcuy := BitVec.ofNat 16 (i / nmcux s) })))))

/-- R102, R104, R105: no step of the machine reads a symbol anywhere but at the points of R126, R144, R160 and
R165; where the block is at no such point the model stops by name (log 13, the model's choice). -/
def Obligations.StraySymbolsStop : Prop :=
  ∀ s : State,
    ((∀ body c b t, s.pos ≠ some ⟨body, .dcSymbol c b t⟩) →
      (∀ size, exec (.dcDiff size) s = .fault .strayStreamSymbol)
      ∧ ∀ t, exec (.dcIllegal t) s = .fault .strayStreamSymbol)
    ∧ ((∀ body c b k t, s.pos ≠ some ⟨body, .acSymbol c b k t⟩) →
      exec .acEob s = .fault .strayStreamSymbol ∧ exec .acZrl s = .fault .strayStreamSymbol
      ∧ (∀ r size, exec (.acRunsize r size) s = .fault .strayStreamSymbol)
      ∧ ∀ r, exec (.acUndef r) s = .fault .strayStreamSymbol)
    ∧ (awaitsAfterFf s = false →
      exec .stuffFf00 s = .fault .strayStreamSymbol
      ∧ (∀ n, exec (.rstN n) s = .fault .strayStreamSymbol)
      ∧ ∀ b, exec (.markerOther b) s = .fault .strayStreamSymbol)

/-! ## Restart and recovery -/

/-- R160, R162, R163: RESTART completes on a pending marker that is RST(RSTNEXT), whatever RSTCTR holds; a wrong
pending marker, or an exhausted stream, is SYNC_WRONG with the marker kept; otherwise it reads. That the completed
branch keeps MARKER while MP becomes 0 is the model's reading (log 11, DEDUCED). -/
def Obligations.RestartOutcome : Prop :=
  ∀ s : State, s.state = .idle → s.pend = none → cfgCheck s = none →
    exec .restart s = .next (tick
      (if s.mp = true then
        if s.marker = 0xD0#8 + s.rstnext.setWidth 8 then
          completed { afterMarker s.rstnext s with bcnt := 0#4, mp := false }
        else inSyncHalt 0x41#8 s.marker false { s with bcnt := 0#4 }
      else if s.eos = true then inSyncHalt 0x41#8 0xFF#8 false { s with bcnt := 0#4, mp := true, marker := 0xFF#8 }
      else waiting .raw (atPoint .restart .rstFirst { s with bcnt := 0#4, state := .step })))

/-- R165, R166: RESYNC after a step-mode halt: a pending restart marker completes it and clears the fault record;
otherwise the scan begins, at end of stream with the fault RESYNC_EOS. That every branch keeps MARKER while MP
becomes 0 is the model's reading (log 11, DEDUCED). -/
def Obligations.ResyncFromStep : Prop :=
  ∀ s : State, s.state = .syncHalt → s.runhalt = false → s.pend = none →
    (∀ n : BitVec 3, s.mp = true → s.marker = 0x1A#5 ++ n →
      exec .resync s = .next (tick (completed { afterMarker n s with
        bcnt := 0#4, mp := false, err := 0#4, detail := 0#8, sym := 0#8 })))
    ∧ ((s.mp = false ∨ isRstByte s.marker = false) → exec .resync s = .next (tick
      (if s.eos = true then inError 4#4 0x42#8 0#8 { s with bcnt := 0#4, mp := false }
      else waiting .raw (atPoint (.resync false) (.scan (s.mp && s.marker == 0xFF#8))
        { s with bcnt := 0#4, mp := false, state := .step }))))

/-- R166, R167: RESYNC after a driver halt with RSTn pending resumes at MCU i0 + d·RSTINT, d the intervals skipped,
or ends in DONE where that index is past the last MCU; with no end of stream met the resumed MCU's first block is the
next to be read. With no restart marker pending the scan begins, at end of stream with the fault RESYNC_EOS; what a
scan finds is in PairsInMarkerReads. That every branch keeps MARKER while MP becomes 0 is the model's reading (log 11,
DEDUCED). -/
def Obligations.ResyncFromRun : Prop :=
  ∀ s : State, s.state = .syncHalt → s.runhalt = true → s.pend = none →
    (∀ (n : BitVec 3) (i : Nat) (t : State), s.mp = true → s.marker = 0x1A#5 ++ n →
      i = s.mcuy.toNat * nmcux s + s.mcux.toNat + (n - s.rstnext).toNat * s.rstint.toNat →
      t = { afterMarker n s with
        bcnt := 0#4, mp := false, err := 0#4, detail := 0#8, sym := 0#8, state := .run, runhalt := false } →
      (nmcu s ≤ i → exec .resync s = .next (tick (inDone t)))
      ∧ (i < nmcu s → exec .resync s = .next (runBlock (atPoint (.drive i) (.nextMcu true) t)))
      ∧ (i < nmcu s → s.eos = false → cfgCheck s = none → exec .resync s = .next (tick (waiting .dataFirst
        (atPoint (.drive i) (.dcCode 0 0 0 0)
          { t with mcux := BitVec.ofNat 16 (i % nmcux s), mcuy := BitVec.ofNat 16 (i / nmcux s) })))))
    ∧ ((s.mp = false ∨ isRstByte s.marker = false) → exec .resync s = .next (tick
      (if s.eos = true then inError 4#4 0x42#8 0#8 { s with bcnt := 0#4, mp := false }
      else waiting .raw (atPoint (.resync true) (.scan (s.mp && s.marker == 0xFF#8))
        { s with bcnt := 0#4, mp := false, state := .run, runhalt := false }))))

/-! ## IDCT and colour (42_idct, 43_color) -/

/-- R181, R186-R191: IDCT c, b writes TILE[b] with the samples of the row and column passes over the N×N corner and
0 elsewhere, sets CMDDONE, and changes nothing else. -/
def Obligations.IdctSamples : Prop :=
  ∀ (s : State) (c : BitVec 2) (b : BitVec 4), s.state = .idle → s.mem.wf = true → cfgCheck s = none →
    c.toNat < ncomp s → b.toNat < 12 →
    ∃ m, exec (.idct c b) s = .next (completed { s with mem := m })
      ∧ (∀ y x, y < 8 → x < 8 → ((tileRead m b.toNat (8 * y + x)).toNat : Int) =
        if x < 8 / 2 ^ scale s ∧ y < 8 / 2 ^ scale s then
          sampleRef s b.toNat (qSel s c.toNat) (8 / 2 ^ scale s) y x
        else 0)
      ∧ ∀ a, ¬inTileSlot b.toNat a → m.read a = s.mem.read a

/-- R201-R211: COLOR assembles the MCU at MCUPOS: the rectangle of R206, the pixels row by row with the samples of
R205, the channels of R207 and R209 and the bytes of R208, zeros after them, their length, CMDDONE, and nothing
else. -/
def Obligations.ColorAssembles : Prop :=
  ∀ s : State, s.state = .idle → s.mem.wf = true → cfgCheck s = none → s.mcux.toNat < nmcux s →
    s.mcuy.toNat < nmcuy s →
    ∃ t, exec .color s = .next (completed t)
      ∧ t = { s with
          mem := t.mem, left := t.left, top := t.top, right := t.right, bottom := t.bottom, pixlen := t.pixlen }
      ∧ ShowsRectangle s t
      ∧ ∀ a, ¬inPixBuffer a → t.mem.read a = s.mem.read a

/-- R207: the channels of a converted pixel: the luma plus each channel's fixed-point chroma term, its quotient by
1024 rounded down, clamped to 0..255. -/
def Obligations.ColorConversion : Prop :=
  ∀ y cb cr : Byte, ∃ r g b : Int,
    1024 * r ≤ 1436 * ((cr.toNat : Int) - 128) + 512 ∧ 1436 * ((cr.toNat : Int) - 128) + 512 < 1024 * (r + 1)
    ∧ 1024 * g ≤ -352 * ((cb.toNat : Int) - 128) - 731 * ((cr.toNat : Int) - 128) + 512
    ∧ -352 * ((cb.toNat : Int) - 128) - 731 * ((cr.toNat : Int) - 128) + 512 < 1024 * (g + 1)
    ∧ 1024 * b ≤ 1815 * ((cb.toNat : Int) - 128) + 512 ∧ 1815 * ((cb.toNat : Int) - 128) + 512 < 1024 * (b + 1)
    ∧ (ycbcrToRgb y cb cr).r = max 0 (min 255 ((y.toNat : Int) + r))
    ∧ (ycbcrToRgb y cb cr).g = max 0 (min 255 ((y.toNat : Int) + g))
    ∧ (ycbcrToRgb y cb cr).b = max 0 (min 255 ((y.toNat : Int) + b))

/-- R212: over the NMCU MCUs of a decode the rectangles tile the scaled image: every pixel of it lies in the
rectangle of exactly one MCU, and no rectangle leaves it. -/
def Obligations.RectanglesTile : Prop :=
  ∀ s : State, cfgCheck s = none →
    (∀ i, i < nmcu s → ∀ u : State,
      u = { s with mcux := BitVec.ofNat 16 (i % nmcux s), mcuy := BitVec.ofNat 16 (i / nmcux s) } →
      rectLeft u ≤ rectRight u ∧ rectRight u < scaledWidth s ∧ rectTop u ≤ rectBottom u
        ∧ rectBottom u < scaledHeight s)
    ∧ ∀ x y, x < scaledWidth s → y < scaledHeight s →
      ∃ i, i < nmcu s ∧ ∀ j, j < nmcu s → ∀ u : State,
        u = { s with mcux := BitVec.ofNat 16 (j % nmcux s), mcuy := BitVec.ofNat 16 (j / nmcux s) } →
        (j = i ↔ rectLeft u ≤ x ∧ x ≤ rectRight u ∧ rectTop u ≤ y ∧ y ≤ rectBottom u)

/-! ## Sequencer (44_driver) -/

/-- R222: CFGCHK is the first of the seven checks that fails, in order, with its DETAIL code. -/
def Obligations.CfgCheckOrder : Prop :=
  ∀ s : State,
    (¬(ncomp s = 1 ∨ ncomp s = 3) → cfgCheck s = some 0x01#8)
    ∧ ((ncomp s = 1 ∨ ncomp s = 3) →
      ((pixfmt s = 3 ∨ strategy s = 3) → cfgCheck s = some 0x07#8)
      ∧ (¬(pixfmt s = 3 ∨ strategy s = 3) →
        ((∃ c, c < ncomp s ∧ ¬((hFactor s c = 1 ∨ hFactor s c = 2) ∧ (vFactor s c = 1 ∨ vFactor s c = 2))) →
          cfgCheck s = some 0x02#8)
        ∧ ((∀ c, c < ncomp s → (hFactor s c = 1 ∨ hFactor s c = 2) ∧ (vFactor s c = 1 ∨ vFactor s c = 2)) →
          ((∃ c, 1 ≤ c ∧ c < ncomp s ∧ (hFactor s 0 < hFactor s c ∨ vFactor s 0 < vFactor s c)) →
            cfgCheck s = some 0x03#8)
          ∧ ((∀ c, 1 ≤ c → c < ncomp s → hFactor s c ≤ hFactor s 0 ∧ vFactor s c ≤ vFactor s 0) →
            ((width s = 0 ∨ height s = 0) → cfgCheck s = some 0x06#8)
            ∧ (0 < width s → 0 < height s →
              ((∃ c, c < ncomp s ∧ s.qtv[qSel s c]? = some false) → cfgCheck s = some 0x04#8)
              ∧ ((∀ c, c < ncomp s → s.qtv[qSel s c]? = some true) →
                ((∃ c, c < ncomp s ∧ (s.htv[dcSel s c]? = some false ∨ s.htv[4 + acSel s c]? = some false)) →
                  cfgCheck s = some 0x05#8)
                ∧ ((∀ c, c < ncomp s → s.htv[dcSel s c]? = some true ∧ s.htv[4 + acSel s c]? = some true) →
                  cfgCheck s = none)))))))

/-- R222, R224, R226, R256: START and every step command run CFGCHK first; its fault is FORMAT_ERROR in ERROR, with
nothing else written. -/
def Obligations.CfgFaultsFirst : Prop :=
  ∀ (s : State) (d : Byte) (i : Instr), s.state = .idle → cfgCheck s = some d → i.wellFormed = true →
    isCommand i = true → acceptedIn i .idle = true →
    (match i with
      | .nop => False
      | .sreset => False
      | .loadQt _ => False
      | .loadHt _ _ => False
      | _ => True) →
    exec i s = .next (inError 1#4 d 0#8 s)

/-- R223: after CFGCHK an unconfigured component, or for COLOR a position outside the MCU grid, refuses the command
with CMDERR alone. -/
def Obligations.OperandsRefused : Prop :=
  ∀ s : State, s.state = .idle → cfgCheck s = none →
    (∀ (c : BitVec 2) (b : BitVec 4), ncomp s ≤ c.toNat →
      exec (.decDc c b) s = .next (refusedWrite s) ∧ exec (.decAc c b) s = .next (refusedWrite s)
      ∧ exec (.decBlk c b) s = .next (refusedWrite s) ∧ exec (.idct c b) s = .next (refusedWrite s))
    ∧ ((nmcux s ≤ s.mcux.toNat ∨ nmcuy s ≤ s.mcuy.toNat) → exec .color s = .next (refusedWrite s))

/-- R226, R227: START with a configuration that passes CFGCHK clears the predictors, sets RSTCTR, RSTNEXT and the MCU
position, and runs the driver from MCU 0; from an empty cursor it suspends in the first block's first read. -/
def Obligations.StartBegins : Prop :=
  ∀ s t : State, s.state = .idle → s.pend = none → cfgCheck s = none →
    t = { s with
      pred := Vector.replicate 3 0#16, rstctr := s.rstint, rstnext := 0#3, mcux := 0#16, mcuy := 0#16
      state := .run } →
    exec .start s = .next (runBlock (atPoint (.drive 0) (.nextMcu false) t))
    ∧ (s.bcnt = 0#4 → s.mp = false → s.eos = false →
      exec .start s = .next (tick (waiting .dataFirst (atPoint (.drive 0) (.dcCode 0 0 0 0) t))))

/-- R228, R229, R230: a write to OUTRESP. Outside an output wait it is ignored; in one, 2 is the abort, which is
CANCELLED and no fault, 1 lets the driver go on, ending in DONE after the last MCU, and any other value is
refused. -/
def Obligations.OutrespWrites : Prop :=
  ∀ (s : State) (v : Word),
    (outwait s = false → registerWrite 0x058 v s = ignored s)
    ∧ ∀ i t, s.pos = some ⟨.drive i, .emit⟩ →
      t = { s with rstctr := if s.rstint = 0#16 then s.rstctr else s.rstctr - 1#16 } →
      (v = 1#32 →
        registerWrite 0x058 v s = runBlock (atPoint (.drive (i + 1)) (.nextMcu false) t)
        ∧ (s.pend = none → nmcu s ≤ i + 1 → registerWrite 0x058 v s = tick (inDone t)))
      ∧ (v = 2#32 → registerWrite 0x058 v s = inCancelled s)
      ∧ (v ≠ 1#32 → v ≠ 2#32 → registerWrite 0x058 v s = refusedWrite s)

/-- R160, R161, R227: the head of the driver's loop. MCU i > 0 with restarts on and RSTCTR at 0 begins with the restart
check, and no other does; after it, or without it, the MCU's first block is decoded. That the branch of a pending
expected marker keeps MARKER while MP becomes 0 is the model's reading (log 11, DEDUCED). -/
def Obligations.NextMcuRestart : Prop :=
  ∀ (s t : State) (i : Nat) (skip : Bool), s.pend = none → s.pos = some ⟨.drive i, .nextMcu skip⟩ →
    cfgCheck s = none → i < nmcu s →
    t = { s with mcux := BitVec.ofNat 16 (i % nmcux s), mcuy := BitVec.ofNat 16 (i / nmcux s) } →
    blockMove s =
      if skip = false ∧ 0 < i ∧ s.rstint ≠ 0#16 ∧ s.rstctr = 0#16 then
        if s.mp = true then
          if s.marker = 0xD0#8 + s.rstnext.setWidth 8 then
            atPoint (.drive i) (.dcCode 0 0 0 0) { afterMarker s.rstnext t with bcnt := 0#4, mp := false }
          else inSyncHalt 0x41#8 s.marker (s.state == .run) { t with bcnt := 0#4 }
        else atPoint (.drive i) .rstFirst { t with bcnt := 0#4 }
      else atPoint (.drive i) (.dcCode 0 0 0 0) t

/-- R256: what taking a fault writes. -/
def Obligations.FaultEntry : Prop :=
  ∀ (s : State) (e : BitVec 4) (d sy : Byte),
    takeFault e d sy s =
      if e = 4#4 ∧ (d = 0x40#8 ∨ d = 0x41#8) then
        { s with
          err := e, detail := d, sym := sy, state := .syncHalt, runhalt := s.state == .run
          intstat := s.intstat ||| 0x04#8, pos := none, pend := none }
      else
        { s with
          err := e, detail := d, sym := sy, state := .error, runhalt := false
          intstat := s.intstat ||| 0x02#8, pos := none, pend := none }

/-! ## Frames -/

/-- R50, R128: no instruction but the loads and SRESET changes the configuration, the interrupt enables, the tables
or the load progress. -/
def Obligations.SetupKept : Prop :=
  ∀ (i : Instr) (s t : State), exec i s = .next t → i ≠ .sreset → (∀ id, i ≠ .loadQt id) →
    (∀ cls id, i ≠ .loadHt cls id) → SameSetup s t ∧ SameOutside s t

/-- R140, R155-R163: what DEC_DC, DEC_AC, DEC_BLK and RESTART leave unchanged up to their next suspension point: every
byte of memory but the command's coefficients, every other predictor, the restart and MCU registers (for the
decodes), and the rectangle. -/
def Obligations.StepCommandFrames : Prop :=
  ∀ s t : State, State.Inv s → s.state = .idle →
    (∀ (c : BitVec 2) (b : BitVec 4), exec (.decDc c b) s = .next t →
      SameProgress s t ∧ SameRect s t ∧ t.bytecnt = s.bytecnt
      ∧ (∀ c', c' < 3 → c' ≠ c.toNat → predRead t c' = predRead s c')
      ∧ ∀ a, a ≠ coefAddr b.toNat 0 → a ≠ coefAddr b.toNat 0 + 1 → t.mem.read a = s.mem.read a)
    ∧ (∀ (c : BitVec 2) (b : BitVec 4), exec (.decAc c b) s = .next t →
      SameProgress s t ∧ SameRect s t ∧ t.bytecnt = s.bytecnt ∧ t.pred = s.pred
      ∧ ∀ a, (∀ k, 1 ≤ k → k < 64 → a ≠ coefAddr b.toNat k ∧ a ≠ coefAddr b.toNat k + 1) →
        t.mem.read a = s.mem.read a)
    ∧ (∀ (c : BitVec 2) (b : BitVec 4), exec (.decBlk c b) s = .next t →
      SameProgress s t ∧ SameRect s t ∧ t.bytecnt = s.bytecnt
      ∧ (∀ c', c' < 3 → c' ≠ c.toNat → predRead t c' = predRead s c')
      ∧ ∀ a, ¬inCoefSlot b.toNat a → t.mem.read a = s.mem.read a)
    ∧ (exec .restart s = .next t →
      SameRect s t ∧ t.mcux = s.mcux ∧ t.mcuy = s.mcuy ∧ t.mem = s.mem ∧ t.cbits = s.cbits
        ∧ t.bytecnt = s.bytecnt)

/-- R140, R227: what START and RESYNC leave unchanged up to their next suspension point: every byte of memory but
COEF and TILE of the MCU's slots and PIX; in a step-mode RESYNC all of memory, the rectangle and the MCU
position. -/
def Obligations.DriverFrames : Prop :=
  ∀ s t : State, State.Inv s →
    (exec .start s = .next t → ∀ a, ¬inDriverBuffer s a → t.mem.read a = s.mem.read a)
    ∧ (exec .resync s = .next t →
      (∀ a, ¬inDriverBuffer s a → t.mem.read a = s.mem.read a)
      ∧ (s.runhalt = false → t.mem = s.mem ∧ SameRect s t ∧ t.mcux = s.mcux ∧ t.mcuy = s.mcuy))

/-- R140, R151-R165: what the stream symbols leave unchanged up to the next suspension point: every byte of memory
the executing command does not store to, every predictor it does not write, the rectangle and MCU position unless
the driver runs, the restart registers in a decode command, and BYTECNT (the step has counted the byte it took). -/
def Obligations.SymbolFrames : Prop :=
  ∀ (i : Instr) (s t : State), State.Inv s → i.wellFormed = true → isCommand i = false → exec i s = .next t →
    (∀ a, ¬mayStore s a → t.mem.read a = s.mem.read a)
    ∧ (∀ c, c < 3 → ¬mayPredict s c → predRead t c = predRead s c)
    ∧ (s.state = .step → SameRect s t ∧ t.mcux = s.mcux ∧ t.mcuy = s.mcuy)
    ∧ (∀ body point, s.pos = some ⟨body, point⟩ → (body = .decDc ∨ body = .decAc ∨ body = .decBlk) →
      SameProgress s t)
    ∧ t.bytecnt = s.bytecnt

/-! ## The whole machine -/

/-- The state after reset meets the invariant. -/
def Obligations.InvAtReset : Prop := State.Inv State.reset

/-- R25, R50, R71, R141: every step from a state that meets the invariant gives a next state that meets it: no run
stops, and none leaves it. -/
def Obligations.StepKeepsInv : Prop :=
  ∀ s : State, State.Inv s → ∃ t, step s = .next t ∧ State.Inv t

/-- R76, R292: one step is one whole atomic step. The block never stops between two suspension points: after any
step it is suspended in a PortRead or an output wait, or executes no command. -/
def Obligations.StepsEndAtSuspension : Prop :=
  ∀ s t : State, State.Inv s → step s = .next t → runnable t = false

/-- R220: no step moves STATE but along the arrows of the table; its last row is the platform's reset and the
SRESET word, and nothing else takes it. -/
def Obligations.StateTransitions : Prop :=
  ∀ s t : State, State.Inv s → step s = .next t →
    stepArrow s.state t.state = true ∨ (Resets s ∧ AtReset t)

/-- R22, R230, R260, R261: DONE, ERROR and CANCELLED are left by the platform's reset and the SRESET word only, and
in them no step changes the fault record, the cursor, the predictors, the restart and MCU registers, the rectangle or
the buffers. -/
def Obligations.TerminalStates : Prop :=
  ∀ s t : State, State.Inv s → terminal s.state = true → step s = .next t →
    (Resets s ∧ AtReset t) ∨ (t.state = s.state ∧ SameFault s t ∧ SameCursor s t ∧ SameProgress s t ∧ SameRect s t
      ∧ t.pred = s.pred ∧ t.mem = s.mem)

/-- R99, R127, R146, R232: the Huffman strategy and the lookup width change no result: every instruction and every run
of the block does the same under any legal STRATEGY and either LUT9. The strategies' hidden state is left out of the
model (log 7). -/
def Obligations.StrategyIndependence : Prop :=
  ∀ (s : State) (k : BitVec 2) (lut9 : Bool), k ≠ 3#2 → strategy s ≠ 3 →
    (∀ i : Instr, i ≠ .sreset → exec i (withStrategy k lut9 s) = mapNext (withStrategy k lut9) (exec i s))
    ∧ runBlock (withStrategy k lut9 s) = withStrategy k lut9 (runBlock s)
end

