-- ==== Sys2Proof/Laws/Decode.lean ====
section
/-! SUPPORT. What the three command formats decode to, one lemma per format, and that a decoded word is a command. -/

namespace Sys2Proof

theorem decodeF0_eq_ok {w : Word} {i j : Instr} :
    decodeF0 w i = .ok j ↔ w.extractLsb' 0 24 = 0#24 ∧ i = j := by
  unfold decodeF0; split <;> simp_all

theorem decodeFT_eq_ok {w : Word} {k : Cls → BitVec 2 → Except Malformed Instr} {j : Instr} :
    decodeFT w k = .ok j ↔ (w.extractLsb' 5 19 = 0#19 ∧ w.extractLsb' 2 2 = 0#2)
      ∧ k (if w.extractLsb' 4 1 = 1#1 then .ac else .dc) (w.extractLsb' 0 2) = .ok j := by
  unfold decodeFT; split <;> simp_all

theorem decodeFB_eq_ok {w : Word} {k : BitVec 2 → BitVec 4 → Instr} {j : Instr} :
    decodeFB w k = .ok j ↔ (w.extractLsb' 10 14 = 0#14 ∧ w.extractLsb' 4 4 = 0#4)
      ∧ fbOperandsOk (w.extractLsb' 8 2) (w.extractLsb' 0 4) = true
      ∧ k (w.extractLsb' 8 2) (w.extractLsb' 0 4) = j := by
  unfold decodeFB fbOperandsOk
  simp only [Bool.and_eq_true, decide_eq_true_eq]
  generalize w.extractLsb' 8 2 = c
  generalize w.extractLsb' 0 4 = b
  split
  · next h =>
    split
    · next hc => simp [Nat.not_lt.2 hc]
    · next hc =>
      split
      · next hb => simp [Nat.not_lt.2 hb]
      · next hb => simp [h, Nat.not_le.1 hc, Nat.not_le.1 hb]
  · simp_all

/-- A word the CMD decoder accepts is a command, and its opcode names it. -/
theorem Machine.isCommand_of_decodeCmd {w : Word} {i : Instr} (h : decodeCmd w = .ok i) :
    Machine.isCommand i = true := by
  unfold decodeCmd at h
  dsimp only at h
  by_cases h1 : w.extractLsb' 24 8 = 0x00#8
  · rw [if_pos h1] at h; obtain ⟨-, rfl⟩ := decodeF0_eq_ok.1 h; rfl
  rw [if_neg h1] at h
  by_cases h2 : w.extractLsb' 24 8 = 0x01#8
  · rw [if_pos h2] at h; obtain ⟨-, rfl⟩ := decodeF0_eq_ok.1 h; rfl
  rw [if_neg h2] at h
  by_cases h3 : w.extractLsb' 24 8 = 0x10#8
  · rw [if_pos h3] at h
    obtain ⟨-, hk⟩ := decodeFT_eq_ok.1 h
    split at hk
    · cases hk
    · cases hk; rfl
  rw [if_neg h3] at h
  by_cases h4 : w.extractLsb' 24 8 = 0x11#8
  · rw [if_pos h4] at h; obtain ⟨-, hk⟩ := decodeFT_eq_ok.1 h; cases hk; rfl
  rw [if_neg h4] at h
  by_cases h5 : w.extractLsb' 24 8 = 0x20#8
  · rw [if_pos h5] at h; obtain ⟨-, rfl⟩ := decodeF0_eq_ok.1 h; rfl
  rw [if_neg h5] at h
  by_cases h6 : w.extractLsb' 24 8 = 0x21#8
  · rw [if_pos h6] at h; obtain ⟨-, rfl⟩ := decodeF0_eq_ok.1 h; rfl
  rw [if_neg h6] at h
  by_cases h7 : w.extractLsb' 24 8 = 0x30#8
  · rw [if_pos h7] at h; obtain ⟨-, -, rfl⟩ := decodeFB_eq_ok.1 h; rfl
  rw [if_neg h7] at h
  by_cases h8 : w.extractLsb' 24 8 = 0x31#8
  · rw [if_pos h8] at h; obtain ⟨-, -, rfl⟩ := decodeFB_eq_ok.1 h; rfl
  rw [if_neg h8] at h
  by_cases h9 : w.extractLsb' 24 8 = 0x32#8
  · rw [if_pos h9] at h; obtain ⟨-, -, rfl⟩ := decodeFB_eq_ok.1 h; rfl
  rw [if_neg h9] at h
  by_cases h10 : w.extractLsb' 24 8 = 0x33#8
  · rw [if_pos h10] at h; obtain ⟨-, rfl⟩ := decodeF0_eq_ok.1 h; rfl
  rw [if_neg h10] at h
  by_cases h11 : w.extractLsb' 24 8 = 0x40#8
  · rw [if_pos h11] at h; obtain ⟨-, -, rfl⟩ := decodeFB_eq_ok.1 h; rfl
  rw [if_neg h11] at h
  by_cases h12 : w.extractLsb' 24 8 = 0x50#8
  · rw [if_pos h12] at h; obtain ⟨-, rfl⟩ := decodeF0_eq_ok.1 h; rfl
  rw [if_neg h12] at h
  cases h

/-- The one word of SRESET (30_encoding R94). -/
theorem Machine.word_of_sreset {w : Word} (h : decodeCmd w = .ok .sreset) : w = 0x01000000#32 := by
  unfold decodeCmd at h
  dsimp only at h
  by_cases h1 : w.extractLsb' 24 8 = 0x01#8
  · rw [if_neg (by rw [h1]; decide), if_pos h1] at h
    have h0 := (decodeF0_eq_ok.1 h).1
    have : w = w.extractLsb' 24 8 ++ w.extractLsb' 0 24 := by
      apply BitVec.eq_of_getLsbD_eq
      intro i hi
      simp only [BitVec.getLsbD_append, BitVec.getLsbD_extractLsb']
      split
      · next hlt => simp [hlt]
      · next hge =>
        have : i - 24 < 8 := by omega
        simp [this, show 24 + (i - 24) = i by omega]
    rw [this, h0, h1]; rfl
  rw [if_neg h1] at h
  split at h
  · cases (decodeF0_eq_ok.1 h).2
  split at h
  · have := (decodeFT_eq_ok.1 h).2; split at this <;> cases this
  split at h
  · cases (decodeFT_eq_ok.1 h).2
  iterate 2 (split at h; · cases (decodeF0_eq_ok.1 h).2)
  iterate 3 (split at h; · cases (decodeFB_eq_ok.1 h).2.2)
  split at h
  · cases (decodeF0_eq_ok.1 h).2
  split at h
  · cases (decodeFB_eq_ok.1 h).2.2
  split at h
  · cases (decodeF0_eq_ok.1 h).2
  cases h

/-- The byte of a restart marker is 0xD0 plus its number (30_encoding R102). -/
theorem rstByte_eq {x : Byte} (h : isRstByte x = true) : (0x1A#5 ++ x.extractLsb' 0 3 : Byte) = x := by
  simp only [isRstByte, beq_iff_eq] at h
  apply BitVec.eq_of_getLsbD_eq
  intro i hi
  rw [BitVec.getLsbD_append]
  by_cases h3 : i < 3
  · simp [h3]
  · have e : (x.extractLsb' 3 5).getLsbD (i - 3) = (0x1A#5).getLsbD (i - 3) := by rw [h]
    rw [BitVec.getLsbD_extractLsb'] at e
    have h5 : i - 3 < 5 := by omega
    have hi' : 3 + (i - 3) = i := by omega
    simp only [h5, hi', decide_true, Bool.true_and] at e
    simp [h3, ← e]

end Sys2Proof
end

