-- ==== Sys2Proof/Laws/Frame.lean ====
section
/-! SUPPORT. What no move of the block changes: the configuration, the tables, the load progress, the parameters
and what stands outside the block, as one projection of the state; and the induction over a run. -/

namespace Sys2Proof.Machine

/-! ## Induction over a run of the block -/

/-- A property every move keeps holds after a run. -/
theorem settle_induct {P : State → Prop} (hmove : ∀ s, P s → runnable s = true → P (blockMove s)) :
    ∀ (n : Nat) (s : State), P s → P (settle n s)
  | 0, _, h => h
  | n + 1, s, h => by
    unfold settle
    split
    · next hr => exact settle_induct hmove n _ (hmove s h hr)
    · exact h

/-- A suspended or idle block does not move. -/
theorem settle_of_not_runnable {s : State} (h : runnable s = false) (n : Nat) : settle n s = s := by
  cases n with
  | zero => rfl
  | succ n => simp [settle, h]

/-- One move of a run. -/
theorem settle_succ {s : State} (h : runnable s = true) (n : Nat) :
    settle (n + 1) s = settle n (blockMove s) := by simp [settle, h]

/-- A run is at rest once it has stopped, whatever fuel is left. -/
theorem settle_add (m n : Nat) (s : State) : settle (m + n) s = settle n (settle m s) := by
  induction m generalizing s with
  | zero => simp [settle]
  | succ m ih =>
    rw [Nat.succ_add]
    by_cases h : runnable s = true
    · rw [settle_succ h, settle_succ h, ih]
    · have h' : runnable s = false := by simpa using h
      rw [settle_of_not_runnable h', settle_of_not_runnable h', settle_of_not_runnable h']

/-- A run is its first k moves, once they have brought the block to rest. -/
theorem runBlock_of_settle {k : Nat} {s : State} (hk : k ≤ moveBound)
    (h : runnable (settle k { s with epoch := s.epoch + 1 }) = false) :
    runBlock s = settle k { s with epoch := s.epoch + 1 } := by
  unfold runBlock
  rw [show moveBound = k + (moveBound - k) by omega, settle_add, settle_of_not_runnable h]

/-- A block at rest only counts the step. -/
theorem runBlock_rest {s : State} (h : runnable s = false) : runBlock s = { s with epoch := s.epoch + 1 } :=
  settle_of_not_runnable (s := { s with epoch := s.epoch + 1 }) h _

/-! ## The setup projection -/

/-- The parts of the state that no move of the block writes. -/
structure Setup where
  cfg0 : BitVec 11
  cfg1 : BitVec 30
  size : BitVec 32
  rstint : BitVec 16
  inten : BitVec 8
  qt : Vector (Vector (BitVec 16) 64) 4
  qtv : Vector Bool 4
  ht : Vector HuffTable 8
  htv : Vector Bool 8
  ldcls : Cls
  ldid : BitVec 2
  ldcnt : BitVec 9
  tjdBase : Nat
  agenda : List Event
  input : List Answer
  freshInputs : List (List Answer)
  reply : Option BusReply
  epoch : Nat

/-- The projection. -/
def setupOf (s : State) : Setup :=
  ⟨s.cfg0, s.cfg1, s.size, s.rstint, s.inten, s.qt, s.qtv, s.ht, s.htv, s.ldcls, s.ldid, s.ldcnt, s.tjdBase,
    s.agenda, s.input, s.freshInputs, s.reply, s.epoch⟩

/-! ### Functions of the configuration alone -/

theorem cfg0_of_setup {s t : State} (h : setupOf t = setupOf s) : t.cfg0 = s.cfg0 := congrArg Setup.cfg0 h
theorem cfg1_of_setup {s t : State} (h : setupOf t = setupOf s) : t.cfg1 = s.cfg1 := congrArg Setup.cfg1 h
theorem size_of_setup {s t : State} (h : setupOf t = setupOf s) : t.size = s.size := congrArg Setup.size h
theorem rstint_of_setup {s t : State} (h : setupOf t = setupOf s) : t.rstint = s.rstint :=
  congrArg Setup.rstint h
theorem inten_of_setup {s t : State} (h : setupOf t = setupOf s) : t.inten = s.inten := congrArg Setup.inten h
theorem qt_of_setup {s t : State} (h : setupOf t = setupOf s) : t.qt = s.qt := congrArg Setup.qt h
theorem qtv_of_setup {s t : State} (h : setupOf t = setupOf s) : t.qtv = s.qtv := congrArg Setup.qtv h
theorem ht_of_setup {s t : State} (h : setupOf t = setupOf s) : t.ht = s.ht := congrArg Setup.ht h
theorem htv_of_setup {s t : State} (h : setupOf t = setupOf s) : t.htv = s.htv := congrArg Setup.htv h
theorem ldcls_of_setup {s t : State} (h : setupOf t = setupOf s) : t.ldcls = s.ldcls := congrArg Setup.ldcls h
theorem ldid_of_setup {s t : State} (h : setupOf t = setupOf s) : t.ldid = s.ldid := congrArg Setup.ldid h
theorem ldcnt_of_setup {s t : State} (h : setupOf t = setupOf s) : t.ldcnt = s.ldcnt := congrArg Setup.ldcnt h
theorem tjdBase_of_setup {s t : State} (h : setupOf t = setupOf s) : t.tjdBase = s.tjdBase :=
  congrArg Setup.tjdBase h
theorem agenda_of_setup {s t : State} (h : setupOf t = setupOf s) : t.agenda = s.agenda :=
  congrArg Setup.agenda h
theorem input_of_setup {s t : State} (h : setupOf t = setupOf s) : t.input = s.input := congrArg Setup.input h
theorem freshInputs_of_setup {s t : State} (h : setupOf t = setupOf s) : t.freshInputs = s.freshInputs :=
  congrArg Setup.freshInputs h
theorem reply_of_setup {s t : State} (h : setupOf t = setupOf s) : t.reply = s.reply := congrArg Setup.reply h
theorem epoch_of_setup {s t : State} (h : setupOf t = setupOf s) : t.epoch = s.epoch := congrArg Setup.epoch h

theorem ncomp_of_setup {s t : State} (h : setupOf t = setupOf s) : ncomp t = ncomp s := by
  simp [ncomp, cfg0_of_setup h]
theorem scale_of_setup {s t : State} (h : setupOf t = setupOf s) : scale t = scale s := by
  simp [scale, cfg0_of_setup h]
theorem pixfmt_of_setup {s t : State} (h : setupOf t = setupOf s) : pixfmt t = pixfmt s := by
  simp [pixfmt, cfg0_of_setup h]
theorem hFactor_of_setup {s t : State} (h : setupOf t = setupOf s) : hFactor t = hFactor s := by
  funext c; simp [hFactor, cfg1_of_setup h]
theorem vFactor_of_setup {s t : State} (h : setupOf t = setupOf s) : vFactor t = vFactor s := by
  funext c; simp [vFactor, cfg1_of_setup h]
theorem qSel_of_setup {s t : State} (h : setupOf t = setupOf s) : qSel t = qSel s := by
  funext c; simp [qSel, cfg1_of_setup h]
theorem width_of_setup {s t : State} (h : setupOf t = setupOf s) : width t = width s := by
  simp [width, size_of_setup h]
theorem height_of_setup {s t : State} (h : setupOf t = setupOf s) : height t = height s := by
  simp [height, size_of_setup h]
theorem blocksOf_of_setup {s t : State} (h : setupOf t = setupOf s) : blocksOf t = blocksOf s := by
  funext c; simp [blocksOf, hFactor_of_setup h, vFactor_of_setup h]
theorem slotBase_of_setup {s t : State} (h : setupOf t = setupOf s) : slotBase t = slotBase s := by
  funext c; simp [slotBase, blocksOf_of_setup h]
theorem slotCount_of_setup {s t : State} (h : setupOf t = setupOf s) : slotCount t = slotCount s := by
  simp [slotCount, slotBase_of_setup h, ncomp_of_setup h]
theorem compOf_of_setup {s t : State} (h : setupOf t = setupOf s) : compOf t = compOf s := by
  funext b; simp [compOf, slotBase_of_setup h]
theorem nmcux_of_setup {s t : State} (h : setupOf t = setupOf s) : nmcux t = nmcux s := by
  simp [nmcux, mcuWidth, width_of_setup h, hFactor_of_setup h]
theorem nmcuy_of_setup {s t : State} (h : setupOf t = setupOf s) : nmcuy t = nmcuy s := by
  simp [nmcuy, mcuHeight, height_of_setup h, vFactor_of_setup h]
theorem nmcu_of_setup {s t : State} (h : setupOf t = setupOf s) : nmcu t = nmcu s := by
  simp [nmcu, nmcux_of_setup h, nmcuy_of_setup h]

/-! ### Every operation keeps the projection -/

@[simp] theorem setupOf_raiseInt (bit : BitVec 8) (s : State) : setupOf (raiseInt bit s) = setupOf s := rfl
@[simp] theorem setupOf_goto (b : Body) (p : Point) (s : State) : setupOf (goto b p s) = setupOf s := rfl
@[simp] theorem setupOf_endCommand (s : State) : setupOf (endCommand s) = setupOf s := rfl
@[simp] theorem setupOf_predWrite (s : State) (c : Nat) (v : Half) : setupOf (predWrite s c v) = setupOf s := rfl
@[simp] theorem setupOf_predClear (s : State) : setupOf (predClear s) = setupOf s := rfl
@[simp] theorem setupOf_clearFault (s : State) : setupOf (clearFault s) = setupOf s := rfl
@[simp] theorem setupOf_cmdError (s : State) : setupOf (cmdError s) = setupOf s := rfl
@[simp] theorem setupOf_cmdIgnored (s : State) : setupOf (cmdIgnored s) = setupOf s := rfl
@[simp] theorem setupOf_completeCommand (s : State) : setupOf (completeCommand s) = setupOf s := rfl
@[simp] theorem setupOf_loadByte (x : Byte) (s : State) : setupOf (loadByte x s) = setupOf s := rfl
@[simp] theorem setupOf_takeFault (e : BitVec 4) (d sy : Byte) (s : State) :
    setupOf (takeFault e d sy s) = setupOf s := by unfold takeFault; split <;> rfl
@[simp] theorem setupOf_idctBlock (b q : Nat) (s : State) : setupOf (idctBlock b q s) = setupOf s := by
  simp only [setupOf, idctBlock]
@[simp] theorem setupOf_assembleMcu (s : State) : setupOf (assembleMcu s) = setupOf s := by
  simp only [setupOf, assembleMcu]
@[simp] theorem setupOf_startAc (body : Body) (c b : Nat) (s : State) :
    setupOf (startAc body c b s) = setupOf s := by
  simp only [setupOf, startAc, goto]
@[simp] theorem setupOf_startDc (body : Body) (c b : Nat) (s : State) :
    setupOf (startDc body c b s) = setupOf s := rfl
@[simp] theorem setupOf_continueDrive (i : Nat) (s : State) : setupOf (continueDrive i s) = setupOf s := rfl
@[simp] theorem setupOf_cancelDrive (s : State) : setupOf (cancelDrive s) = setupOf s := rfl
@[simp] theorem setupOf_startInit (s : State) : setupOf (startInit s) = setupOf s := rfl

/-- A fold of operations that keep the projection keeps it. -/
theorem setupOf_foldl {f : State → Nat → State} (hf : ∀ t b, setupOf (f t b) = setupOf t) (l : List Nat)
    (s : State) : setupOf (l.foldl f s) = setupOf s := by
  induction l generalizing s with
  | nil => rfl
  | cons b l ih => rw [List.foldl_cons, ih, hf]

@[simp] theorem setupOf_idctAll (s : State) : setupOf (idctAll s) = setupOf s :=
  setupOf_foldl (fun _ _ => setupOf_idctBlock _ _ _) _ _

@[simp] theorem setupOf_finishMcu (i : Nat) (s : State) : setupOf (finishMcu i s) = setupOf s := by
  simp [finishMcu]

@[simp] theorem setupOf_blockFrom (i b : Nat) (s : State) : setupOf (blockFrom i b s) = setupOf s := by
  unfold blockFrom; split <;> simp

@[simp] theorem setupOf_blockDone (body : Body) (b : Nat) (s : State) :
    setupOf (blockDone body b s) = setupOf s := by unfold blockDone; split <;> simp

@[simp] theorem setupOf_afterRestart (body : Body) (s : State) :
    setupOf (afterRestart body s) = setupOf s := by unfold afterRestart; split <;> simp

@[simp] theorem setupOf_checkMarker (body : Body) (x : Byte) (s : State) :
    setupOf (checkMarker body x s) = setupOf s := by
  unfold checkMarker; split <;> simp <;> rfl

@[simp] theorem setupOf_restartCheck (body : Body) (s : State) :
    setupOf (restartCheck body s) = setupOf s := by
  unfold restartCheck; dsimp only; split <;> simp <;> rfl

@[simp] theorem setupOf_nextMcuStep (i : Nat) (skip : Bool) (s : State) :
    setupOf (nextMcuStep i skip s) = setupOf s := by
  unfold nextMcuStep; dsimp only; split
  · split <;> simp <;> rfl
  · rfl

@[simp] theorem setupOf_resyncFound (fromRun : Bool) (n : BitVec 3) (s : State) :
    setupOf (resyncFound fromRun n s) = setupOf s := by
  unfold resyncFound; dsimp only; split
  · split <;> rfl
  · rfl

@[simp] theorem setupOf_resyncBegin (fromRun : Bool) (s : State) :
    setupOf (resyncBegin fromRun s) = setupOf s := by
  unfold resyncBegin; dsimp only; split <;> simp <;> rfl

@[simp] theorem setupOf_scanByte (body : Body) (p : Bool) (x : Byte) (s : State) :
    setupOf (scanByte body p x s) = setupOf s := by unfold scanByte; split <;> simp

@[simp] theorem setupOf_rawByte (p : Pos) (x : Byte) (s : State) : setupOf (rawByte p x s) = setupOf s := by
  unfold rawByte; split <;> (try split) <;> simp

theorem setupOf_withBit (s : State) {use : Bool → State → State}
    (h : ∀ b t, setupOf (use b t) = setupOf t) : setupOf (withBit s use) = setupOf s := by
  unfold withBit; split
  · split
    · rw [h]; rfl
    · rfl
  · rw [h]; rfl

theorem setupOf_withRawByte (s : State) {use : Byte → State → State}
    (h : ∀ b t, setupOf (use b t) = setupOf t) : setupOf (withRawByte s use) = setupOf s := by
  unfold withRawByte; split
  · exact h _ _
  · rfl

theorem setupOf_huffBit (t : HuffTable) (len code : Nat) (bit : Bool) {matched : Byte → State → State}
    {more : Nat → Nat → State → State} (h1 : ∀ sy u, setupOf (matched sy u) = setupOf u)
    (h2 : ∀ l c u, setupOf (more l c u) = setupOf u) (s : State) :
    setupOf (huffBit t len code bit matched more s) = setupOf s := by
  unfold huffBit; split
  · exact h1 _ _
  · split
    · simp
    · exact h2 _ _ _

@[simp] theorem setupOf_acNext (body : Body) (c b k : Nat) (s : State) :
    setupOf (acNext body c b k s) = setupOf s := by unfold acNext; split <;> simp

@[simp] theorem setupOf_dcFinish (body : Body) (c b : Nat) (d : Int) (s : State) :
    setupOf (dcFinish body c b d s) = setupOf s := by
  unfold dcFinish; dsimp only; split
  · rw [setupOf_completeCommand, setupOf_predWrite]; rfl
  · rw [setupOf_startAc, setupOf_predWrite]; rfl

@[simp] theorem setupOf_dcReceive (body : Body) (c b size left raw : Nat) (bit : Bool) (s : State) :
    setupOf (dcReceive body c b size left raw bit s) = setupOf s := by
  unfold dcReceive; split <;> simp

@[simp] theorem setupOf_acReceive (body : Body) (c b k size left raw : Nat) (bit : Bool) (s : State) :
    setupOf (acReceive body c b k size left raw bit s) = setupOf s := by
  unfold acReceive; split
  · simp; rfl
  · simp

/-- A symbol's effect keeps the projection. -/
theorem setupOf_symbolEffect {i : Instr} {s t : State} (h : symbolEffect i s = some t) :
    setupOf t = setupOf s := by
  cases i <;> simp only [symbolEffect, dcDiffEffect, dcIllegalEffect, acEobEffect, acZrlEffect, acRunsizeEffect,
    acUndefEffect, Option.map_eq_some_iff, reduceCtorEq] at h
  case dcDiff size => obtain ⟨_, _, rfl⟩ := h; split <;> simp
  case dcIllegal => obtain ⟨_, _, rfl⟩ := h; simp
  case acEob => obtain ⟨_, _, rfl⟩ := h; simp
  case acZrl => obtain ⟨_, _, rfl⟩ := h; split <;> simp
  case acRunsize => obtain ⟨_, _, rfl⟩ := h; split <;> simp
  case acUndef => obtain ⟨_, _, rfl⟩ := h; simp
  all_goals
    unfold afterFf at h
    split at h
    · split at h <;> (cases h; simp <;> rfl)
    · cases h; simp; rfl
    · cases h; simp; rfl
    · cases h

theorem setupOf_symbolEffect_getD (i : Instr) (s : State) :
    setupOf ((symbolEffect i s).getD s) = setupOf s := by
  cases h : symbolEffect i s with
  | none => rfl
  | some t => exact setupOf_symbolEffect h

/-- No move of the block changes the projection. -/
@[simp] theorem setupOf_blockMove (s : State) : setupOf (blockMove s) = setupOf s := by
  unfold blockMove
  split
  · rfl
  · split
    · exact setupOf_withBit _ fun b t => setupOf_huffBit _ _ _ _ (fun _ _ => setupOf_goto _ _ _)
        (fun _ _ _ => setupOf_goto _ _ _) _
    · exact setupOf_withBit _ fun b t => setupOf_huffBit _ _ _ _ (fun _ _ => setupOf_goto _ _ _)
        (fun _ _ _ => setupOf_goto _ _ _) _
    · exact setupOf_withBit _ fun b t => setupOf_dcReceive _ _ _ _ _ _ _ _
    · exact setupOf_withBit _ fun b t => setupOf_acReceive _ _ _ _ _ _ _ _ _
    · exact setupOf_symbolEffect_getD _ _
    · exact setupOf_symbolEffect_getD _ _
    · exact setupOf_withRawByte _ fun b t => setupOf_rawByte _ _ _
    · exact setupOf_withRawByte _ fun b t => setupOf_rawByte _ _ _
    · exact setupOf_withRawByte _ fun b t => setupOf_rawByte _ _ _
    · split <;> simp
    · rfl

/-- No run of the block changes the projection, but for the block-step counter. -/
theorem setupOf_settle (n : Nat) (s : State) : setupOf (settle n s) = setupOf s :=
  settle_induct (P := fun t => setupOf t = setupOf s) (fun t h _ => by rw [setupOf_blockMove, h]) n s rfl

theorem setupOf_runBlock (s : State) : setupOf (runBlock s) = setupOf { s with epoch := s.epoch + 1 } :=
  setupOf_settle _ _

end Sys2Proof.Machine
end

