-- ==== Sys2Proof/Laws/Memory.lean ====
section
/-! SUPPORT. The laws of the buffer memory: a read after a write, the canonical form, lists of writes, and the
three buffers built on them. -/

namespace Sys2Proof.Machine

/-! ## One byte -/

theorem Memory.read_consCell (a : Nat) (v : Byte) (m : Memory) (x : Nat) (h : Memory.above a m = true) :
    Memory.read (Memory.consCell a v m) x = if x = a then v else Memory.read m x := by
  unfold Memory.consCell
  split
  · next hv =>
    split
    · next hx =>
      subst hx hv
      cases m with
      | nil => rfl
      | cons c m =>
        obtain ⟨y, w⟩ := c
        have : x < y := by simp [Memory.above] at h; exact h.1
        simp [Memory.read, this]
    · rfl
  · split
    · next hx => subst hx; simp [Memory.read]
    · next hx =>
      by_cases hlt : x < a
      · have : Memory.read m x = 0#8 := by
          cases m with
          | nil => rfl
          | cons c m =>
            obtain ⟨y, w⟩ := c
            have : a < y := by simp [Memory.above] at h; exact h.1
            have : x < y := by omega
            simp [Memory.read, this]
        simp [Memory.read, hlt, this]
      · simp [Memory.read, hlt, hx]

theorem Memory.above_trans {a b : Nat} {m : Memory} (hab : a < b) (h : Memory.above b m = true) :
    Memory.above a m = true := by
  simp only [Memory.above, List.all_eq_true, decide_eq_true_eq] at *
  intro c hc
  have := h c hc
  omega

theorem Memory.above_consCell {a b : Nat} {v : Byte} {m : Memory} (hab : a < b)
    (h : Memory.above a m = true) : Memory.above a (Memory.consCell b v m) = true := by
  unfold Memory.consCell
  split
  · exact h
  · simpa [Memory.above, hab] using h

theorem Memory.wf_consCell {a : Nat} {v : Byte} {m : Memory} (ha : Memory.above a m = true)
    (h : Memory.wf m = true) : Memory.wf (Memory.consCell a v m) = true := by
  unfold Memory.consCell
  split
  · exact h
  · next hv => simp [Memory.wf, hv, ha, h]

theorem Memory.above_write {b : Nat} {m : Memory} {a : Nat} {v : Byte} (hab : b < a)
    (h : Memory.above b m = true) : Memory.above b (Memory.write m a v) = true := by
  induction m with
  | nil => exact Memory.above_consCell hab h
  | cons c m ih =>
    obtain ⟨x, w⟩ := c
    have hx : b < x ∧ Memory.above b m = true := by simpa [Memory.above] using h
    unfold Memory.write
    split
    · exact Memory.above_consCell hab h
    · split
      · exact Memory.above_consCell hab hx.2
      · have := ih hx.2
        simp only [Memory.above, List.all_cons, Bool.and_eq_true, decide_eq_true_eq]
        exact ⟨hx.1, this⟩

/-- Every write keeps the canonical form. -/
theorem Memory.wf_write {m : Memory} (a : Nat) (v : Byte) (h : Memory.wf m = true) :
    Memory.wf (Memory.write m a v) = true := by
  induction m with
  | nil => exact Memory.wf_consCell rfl rfl
  | cons c m ih =>
    obtain ⟨x, w⟩ := c
    have hc : (w ≠ 0#8 ∧ Memory.above x m = true) ∧ Memory.wf m = true := by simpa [Memory.wf] using h
    unfold Memory.write
    split
    · next hlt =>
      refine Memory.wf_consCell ?_ h
      have := Memory.above_trans hlt hc.1.2
      simp only [Memory.above, List.all_cons, Bool.and_eq_true, decide_eq_true_eq]
      exact ⟨hlt, this⟩
    · split
      · next heq => subst heq; exact Memory.wf_consCell hc.1.2 hc.2
      · next hlt hne =>
        have hw := ih hc.2
        have ha := Memory.above_write (v := v) (show x < a by omega) hc.1.2
        simp [Memory.wf, hc.1.1, hw, ha]

/-- A read after a write in a canonical memory. -/
theorem Memory.read_write {m : Memory} (h : Memory.wf m = true) (a : Nat) (v : Byte) (x : Nat) :
    Memory.read (Memory.write m a v) x = if x = a then v else Memory.read m x := by
  induction m with
  | nil => exact Memory.read_consCell a v [] x rfl
  | cons c m ih =>
    obtain ⟨y, w⟩ := c
    have hc : (w ≠ 0#8 ∧ Memory.above y m = true) ∧ Memory.wf m = true := by simpa [Memory.wf] using h
    unfold Memory.write
    split
    · next hlt =>
      refine Memory.read_consCell a v _ x ?_
      have := Memory.above_trans hlt hc.1.2
      simp only [Memory.above, List.all_cons, Bool.and_eq_true, decide_eq_true_eq]
      exact ⟨hlt, this⟩
    · split
      · next heq =>
        subst heq
        rw [Memory.read_consCell a v m x hc.1.2]
        by_cases hx : x = a
        · simp [hx]
        · simp only [hx, if_false, Memory.read]
          split
          · next hlt =>
            cases m with
            | nil => rfl
            | cons d m =>
              obtain ⟨z, u⟩ := d
              have : a < z := by have := hc.1.2; simp [Memory.above] at this; exact this.1
              have : x < z := by omega
              simp [Memory.read, this]
          · rfl
      · next hlt hne =>
        simp only [Memory.read]
        have := ih hc.2
        by_cases h1 : x < y
        · have : x ≠ a := by omega
          simp [h1, this]
        · by_cases h2 : x = y
          · have : x ≠ a := by omega
            subst h2
            simp [this]
          · simp [h1, h2, this]

theorem Memory.read_write_same {m : Memory} (h : Memory.wf m = true) (a : Nat) (v : Byte) :
    Memory.read (Memory.write m a v) a = v := by simp [Memory.read_write h]

theorem Memory.read_write_ne {m : Memory} (h : Memory.wf m = true) {a x : Nat} (v : Byte) (hx : x ≠ a) :
    Memory.read (Memory.write m a v) x = Memory.read m x := by simp [Memory.read_write h, hx]

/-! ## Lists of bytes -/

theorem Memory.wf_writeList (stride : Nat) (vs : List Byte) {m : Memory} (a : Nat) (h : Memory.wf m = true) :
    Memory.wf (Memory.writeList stride m a vs) = true := by
  induction vs generalizing m a with
  | nil => exact h
  | cons v vs ih => exact ih (a + stride) (Memory.wf_write a v h)

/-- What a list of writes leaves at an address none of them writes. -/
theorem Memory.read_writeList_of_not_mem {stride : Nat} {vs : List Byte} {m : Memory} {a x : Nat}
    (h : Memory.wf m = true) (hx : ∀ i, i < vs.length → x ≠ a + stride * i) :
    Memory.read (Memory.writeList stride m a vs) x = Memory.read m x := by
  induction vs generalizing m a with
  | nil => rfl
  | cons v vs ih =>
    have h0 : x ≠ a := by simpa using hx 0 (by simp)
    have hrest : ∀ i, i < vs.length → x ≠ a + stride + stride * i := by
      intro i hi
      have := hx (i + 1) (by simpa using hi)
      rw [Nat.mul_succ] at this
      omega
    show Memory.read (Memory.writeList stride (Memory.write m a v) (a + stride) vs) x = _
    rw [ih (Memory.wf_write a v h) hrest, Memory.read_write_ne h v h0]

/-- What a list of writes leaves at the address of its i-th byte. -/
theorem Memory.read_writeList {stride : Nat} (hs : 0 < stride) {vs : List Byte} {m : Memory} {a : Nat}
    (h : Memory.wf m = true) (i : Nat) (hi : i < vs.length) :
    Memory.read (Memory.writeList stride m a vs) (a + stride * i) = vs[i] := by
  induction vs generalizing m a i with
  | nil => simp at hi
  | cons v vs ih =>
    show Memory.read (Memory.writeList stride (Memory.write m a v) (a + stride) vs) _ = _
    have hw := Memory.wf_write a v h
    cases i with
    | zero =>
      rw [Memory.read_writeList_of_not_mem hw (by intro j _; simp; omega)]
      simpa using Memory.read_write_same h a v
    | succ i =>
      have := ih hw (a := a + stride) i (by simpa using hi)
      rw [show a + stride * (i + 1) = a + stride + stride * i by rw [Nat.mul_succ]; omega]
      simpa using this

/-! ## COEF, TILE and PIX -/

theorem wf_coefWrite {m : Memory} (b k : Nat) (v : Half) (h : Memory.wf m = true) :
    Memory.wf (coefWrite m b k v) = true := Memory.wf_write _ _ (Memory.wf_write _ _ h)

theorem read_coefWrite {m : Memory} (h : Memory.wf m = true) (b k : Nat) (v : Half) (x : Nat) :
    Memory.read (coefWrite m b k v) x =
      if x = coefAddr b k + 1 then v.extractLsb' 8 8
      else if x = coefAddr b k then v.extractLsb' 0 8 else Memory.read m x := by
  unfold coefWrite
  rw [Memory.read_write (Memory.wf_write _ _ h), Memory.read_write h]

theorem coefAddr_inj {b k b' k' : Nat} (hk : k < 64) (hk' : k' < 64) :
    coefAddr b k = coefAddr b' k' ↔ b = b' ∧ k = k' := by
  unfold coefAddr
  omega

/-- A half word is its high byte before its low byte. -/
theorem halves_append (v : Half) : v.extractLsb' 8 8 ++ v.extractLsb' 0 8 = v := by
  apply BitVec.eq_of_getLsbD_eq
  intro i hi
  rw [BitVec.getLsbD_append, BitVec.getLsbD_extractLsb', BitVec.getLsbD_extractLsb']
  by_cases h8 : i < 8
  · simp [h8]
  · have h1 : i - 8 < 8 := by omega
    have h9 : 8 + (i - 8) = i := by omega
    simp [h8, h1, h9]

/-- COEF[b][k] after a write to COEF[b'][k']. -/
theorem coefRead_coefWrite {m : Memory} (h : Memory.wf m = true) {b k b' k' : Nat} (hk : k < 64)
    (hk' : k' < 64) (v : Half) :
    coefRead (coefWrite m b' k' v) b k = if b = b' ∧ k = k' then v else coefRead m b k := by
  unfold coefRead
  rw [read_coefWrite h, read_coefWrite h]
  by_cases hb : b = b' ∧ k = k'
  · obtain ⟨rfl, rfl⟩ := hb
    rw [if_pos rfl, if_neg (by omega), if_pos rfl, if_pos ⟨rfl, rfl⟩]
    exact halves_append v
  · have hne : coefAddr b k ≠ coefAddr b' k' := fun e => hb ((coefAddr_inj hk hk').1 e)
    have h4 : coefAddr b k % 4 = 0 := by unfold coefAddr; omega
    have h4' : coefAddr b' k' % 4 = 0 := by unfold coefAddr; omega
    rw [if_neg hb, if_neg (by omega), if_neg (by omega), if_neg (by omega), if_neg hne]

theorem wf_coefClear {m : Memory} (b k n : Nat) (h : Memory.wf m = true) :
    Memory.wf (coefClear m b k n) = true := by
  induction n generalizing m k with
  | zero => exact h
  | succ n ih => exact ih (k + 1) (wf_coefWrite b k 0#16 h)

/-- COEF after `n` entries from position k of slot b are cleared. -/
theorem coefRead_coefClear {m : Memory} (h : Memory.wf m = true) {b k n b' k' : Nat} (hn : k + n ≤ 64)
    (hk' : k' < 64) :
    coefRead (coefClear m b k n) b' k' =
      if b' = b ∧ k ≤ k' ∧ k' < k + n then 0#16 else coefRead m b' k' := by
  induction n generalizing m k with
  | zero =>
    rw [if_neg (by omega)]
    rfl
  | succ n ih =>
    show coefRead (coefClear (coefWrite m b k 0#16) b (k + 1) n) b' k' = _
    rw [ih (wf_coefWrite b k 0#16 h) (by omega), coefRead_coefWrite h hk' (by omega)]
    by_cases h1 : b' = b ∧ k + 1 ≤ k' ∧ k' < k + 1 + n
    · rw [if_pos h1, if_pos (by omega)]
    · rw [if_neg h1]
      by_cases h2 : b' = b ∧ k' = k
      · rw [if_pos h2, if_pos (by omega)]
      · rw [if_neg h2, if_neg (by omega)]

/-- A byte that is in no entry cleared is kept. -/
theorem read_coefClear {m : Memory} (h : Memory.wf m = true) {b k n x : Nat}
    (hx : ∀ j, k ≤ j → j < k + n → x ≠ coefAddr b j ∧ x ≠ coefAddr b j + 1) :
    Memory.read (coefClear m b k n) x = Memory.read m x := by
  induction n generalizing m k with
  | zero => rfl
  | succ n ih =>
    show Memory.read (coefClear (coefWrite m b k 0#16) b (k + 1) n) x = _
    have h0 := hx k (by omega) (by omega)
    rw [ih (wf_coefWrite b k 0#16 h) (fun j h1 h2 => hx j (by omega) (by omega)), read_coefWrite h,
      if_neg h0.2, if_neg h0.1]

theorem wf_tileWrite {m : Memory} (b : Nat) (vs : List Byte) (h : Memory.wf m = true) :
    Memory.wf (tileWrite m b vs) = true := Memory.wf_writeList 4 vs _ h

theorem wf_pixWrite {m : Memory} (vs : List Byte) (h : Memory.wf m = true) :
    Memory.wf (pixWrite m vs) = true := Memory.wf_writeList 1 vs _ h

/-- TILE[b][n] after the samples of slot b are written. -/
theorem tileRead_tileWrite {m : Memory} (h : Memory.wf m = true) (b : Nat) (vs : List Byte) (n : Nat)
    (hn : n < vs.length) : tileRead (tileWrite m b vs) b n = vs[n] := by
  have := Memory.read_writeList (stride := 4) (by omega) h (a := tileAddr b 0) n hn
  unfold tileRead tileWrite
  rw [← this]
  congr 1
  unfold tileAddr
  omega

/-- A byte outside the slot is kept by the write of its samples. -/
theorem read_tileWrite {m : Memory} (h : Memory.wf m = true) {b : Nat} {vs : List Byte} {x : Nat}
    (hx : ∀ n, n < vs.length → x ≠ tileAddr b n) : Memory.read (tileWrite m b vs) x = Memory.read m x := by
  refine Memory.read_writeList_of_not_mem h fun i hi => ?_
  have := hx i hi
  unfold tileAddr at *
  omega

/-- PIX[i] after the pixel bytes are written. -/
theorem pixRead_pixWrite {m : Memory} (h : Memory.wf m = true) (vs : List Byte) (i : Nat)
    (hi : i < vs.length) : pixRead (pixWrite m vs) i = vs[i] := by
  have := Memory.read_writeList (stride := 1) (by omega) h (a := pixAddr 0) i hi
  unfold pixRead pixWrite
  rw [← this]
  congr 1
  unfold pixAddr
  omega

/-- A byte outside the pixel bytes is kept. -/
theorem read_pixWrite {m : Memory} (h : Memory.wf m = true) {vs : List Byte} {x : Nat}
    (hx : ∀ i, i < vs.length → x ≠ pixAddr i) : Memory.read (pixWrite m vs) x = Memory.read m x := by
  refine Memory.read_writeList_of_not_mem h fun i hi => ?_
  have := hx i hi
  unfold pixAddr at *
  omega

theorem wf_reset : Memory.wf State.reset.mem = true := rfl

end Sys2Proof.Machine
end

