-- ==== Sys2Proof/Laws/State.lean ====
section
/-! SUPPORT. One lemma per field per named update of the state. -/

namespace Sys2Proof.Machine

@[simp] theorem raiseInt_state (bit : BitVec 8) (s : State) : (raiseInt bit s).state = s.state := rfl
@[simp] theorem raiseInt_runhalt (bit : BitVec 8) (s : State) : (raiseInt bit s).runhalt = s.runhalt := rfl
@[simp] theorem raiseInt_err (bit : BitVec 8) (s : State) : (raiseInt bit s).err = s.err := rfl
@[simp] theorem raiseInt_detail (bit : BitVec 8) (s : State) : (raiseInt bit s).detail = s.detail := rfl
@[simp] theorem raiseInt_sym (bit : BitVec 8) (s : State) : (raiseInt bit s).sym = s.sym := rfl
@[simp] theorem raiseInt_intstat (bit : BitVec 8) (s : State) : (raiseInt bit s).intstat = s.intstat ||| bit := rfl
@[simp] theorem raiseInt_inten (bit : BitVec 8) (s : State) : (raiseInt bit s).inten = s.inten := rfl
@[simp] theorem raiseInt_cfg0 (bit : BitVec 8) (s : State) : (raiseInt bit s).cfg0 = s.cfg0 := rfl
@[simp] theorem raiseInt_cfg1 (bit : BitVec 8) (s : State) : (raiseInt bit s).cfg1 = s.cfg1 := rfl
@[simp] theorem raiseInt_size (bit : BitVec 8) (s : State) : (raiseInt bit s).size = s.size := rfl
@[simp] theorem raiseInt_rstint (bit : BitVec 8) (s : State) : (raiseInt bit s).rstint = s.rstint := rfl
@[simp] theorem raiseInt_qt (bit : BitVec 8) (s : State) : (raiseInt bit s).qt = s.qt := rfl
@[simp] theorem raiseInt_qtv (bit : BitVec 8) (s : State) : (raiseInt bit s).qtv = s.qtv := rfl
@[simp] theorem raiseInt_ht (bit : BitVec 8) (s : State) : (raiseInt bit s).ht = s.ht := rfl
@[simp] theorem raiseInt_htv (bit : BitVec 8) (s : State) : (raiseInt bit s).htv = s.htv := rfl
@[simp] theorem raiseInt_ldcls (bit : BitVec 8) (s : State) : (raiseInt bit s).ldcls = s.ldcls := rfl
@[simp] theorem raiseInt_ldid (bit : BitVec 8) (s : State) : (raiseInt bit s).ldid = s.ldid := rfl
@[simp] theorem raiseInt_ldcnt (bit : BitVec 8) (s : State) : (raiseInt bit s).ldcnt = s.ldcnt := rfl
@[simp] theorem raiseInt_cbits (bit : BitVec 8) (s : State) : (raiseInt bit s).cbits = s.cbits := rfl
@[simp] theorem raiseInt_bcnt (bit : BitVec 8) (s : State) : (raiseInt bit s).bcnt = s.bcnt := rfl
@[simp] theorem raiseInt_mp (bit : BitVec 8) (s : State) : (raiseInt bit s).mp = s.mp := rfl
@[simp] theorem raiseInt_marker (bit : BitVec 8) (s : State) : (raiseInt bit s).marker = s.marker := rfl
@[simp] theorem raiseInt_eos (bit : BitVec 8) (s : State) : (raiseInt bit s).eos = s.eos := rfl
@[simp] theorem raiseInt_bytecnt (bit : BitVec 8) (s : State) : (raiseInt bit s).bytecnt = s.bytecnt := rfl
@[simp] theorem raiseInt_pred (bit : BitVec 8) (s : State) : (raiseInt bit s).pred = s.pred := rfl
@[simp] theorem raiseInt_rstctr (bit : BitVec 8) (s : State) : (raiseInt bit s).rstctr = s.rstctr := rfl
@[simp] theorem raiseInt_rstnext (bit : BitVec 8) (s : State) : (raiseInt bit s).rstnext = s.rstnext := rfl
@[simp] theorem raiseInt_mcux (bit : BitVec 8) (s : State) : (raiseInt bit s).mcux = s.mcux := rfl
@[simp] theorem raiseInt_mcuy (bit : BitVec 8) (s : State) : (raiseInt bit s).mcuy = s.mcuy := rfl
@[simp] theorem raiseInt_left (bit : BitVec 8) (s : State) : (raiseInt bit s).left = s.left := rfl
@[simp] theorem raiseInt_top (bit : BitVec 8) (s : State) : (raiseInt bit s).top = s.top := rfl
@[simp] theorem raiseInt_right (bit : BitVec 8) (s : State) : (raiseInt bit s).right = s.right := rfl
@[simp] theorem raiseInt_bottom (bit : BitVec 8) (s : State) : (raiseInt bit s).bottom = s.bottom := rfl
@[simp] theorem raiseInt_pixlen (bit : BitVec 8) (s : State) : (raiseInt bit s).pixlen = s.pixlen := rfl
@[simp] theorem raiseInt_mem (bit : BitVec 8) (s : State) : (raiseInt bit s).mem = s.mem := rfl
@[simp] theorem raiseInt_pos (bit : BitVec 8) (s : State) : (raiseInt bit s).pos = s.pos := rfl
@[simp] theorem raiseInt_pend (bit : BitVec 8) (s : State) : (raiseInt bit s).pend = s.pend := rfl
@[simp] theorem raiseInt_tjdBase (bit : BitVec 8) (s : State) : (raiseInt bit s).tjdBase = s.tjdBase := rfl
@[simp] theorem raiseInt_agenda (bit : BitVec 8) (s : State) : (raiseInt bit s).agenda = s.agenda := rfl
@[simp] theorem raiseInt_input (bit : BitVec 8) (s : State) : (raiseInt bit s).input = s.input := rfl
@[simp] theorem raiseInt_freshInputs (bit : BitVec 8) (s : State) :
    (raiseInt bit s).freshInputs = s.freshInputs := rfl
@[simp] theorem raiseInt_reply (bit : BitVec 8) (s : State) : (raiseInt bit s).reply = s.reply := rfl
@[simp] theorem raiseInt_epoch (bit : BitVec 8) (s : State) : (raiseInt bit s).epoch = s.epoch := rfl

@[simp] theorem goto_state (body : Body) (p : Point) (s : State) : (goto body p s).state = s.state := rfl
@[simp] theorem goto_runhalt (body : Body) (p : Point) (s : State) : (goto body p s).runhalt = s.runhalt := rfl
@[simp] theorem goto_err (body : Body) (p : Point) (s : State) : (goto body p s).err = s.err := rfl
@[simp] theorem goto_detail (body : Body) (p : Point) (s : State) : (goto body p s).detail = s.detail := rfl
@[simp] theorem goto_sym (body : Body) (p : Point) (s : State) : (goto body p s).sym = s.sym := rfl
@[simp] theorem goto_intstat (body : Body) (p : Point) (s : State) : (goto body p s).intstat = s.intstat := rfl
@[simp] theorem goto_inten (body : Body) (p : Point) (s : State) : (goto body p s).inten = s.inten := rfl
@[simp] theorem goto_cfg0 (body : Body) (p : Point) (s : State) : (goto body p s).cfg0 = s.cfg0 := rfl
@[simp] theorem goto_cfg1 (body : Body) (p : Point) (s : State) : (goto body p s).cfg1 = s.cfg1 := rfl
@[simp] theorem goto_size (body : Body) (p : Point) (s : State) : (goto body p s).size = s.size := rfl
@[simp] theorem goto_rstint (body : Body) (p : Point) (s : State) : (goto body p s).rstint = s.rstint := rfl
@[simp] theorem goto_qt (body : Body) (p : Point) (s : State) : (goto body p s).qt = s.qt := rfl
@[simp] theorem goto_qtv (body : Body) (p : Point) (s : State) : (goto body p s).qtv = s.qtv := rfl
@[simp] theorem goto_ht (body : Body) (p : Point) (s : State) : (goto body p s).ht = s.ht := rfl
@[simp] theorem goto_htv (body : Body) (p : Point) (s : State) : (goto body p s).htv = s.htv := rfl
@[simp] theorem goto_ldcls (body : Body) (p : Point) (s : State) : (goto body p s).ldcls = s.ldcls := rfl
@[simp] theorem goto_ldid (body : Body) (p : Point) (s : State) : (goto body p s).ldid = s.ldid := rfl
@[simp] theorem goto_ldcnt (body : Body) (p : Point) (s : State) : (goto body p s).ldcnt = s.ldcnt := rfl
@[simp] theorem goto_cbits (body : Body) (p : Point) (s : State) : (goto body p s).cbits = s.cbits := rfl
@[simp] theorem goto_bcnt (body : Body) (p : Point) (s : State) : (goto body p s).bcnt = s.bcnt := rfl
@[simp] theorem goto_mp (body : Body) (p : Point) (s : State) : (goto body p s).mp = s.mp := rfl
@[simp] theorem goto_marker (body : Body) (p : Point) (s : State) : (goto body p s).marker = s.marker := rfl
@[simp] theorem goto_eos (body : Body) (p : Point) (s : State) : (goto body p s).eos = s.eos := rfl
@[simp] theorem goto_bytecnt (body : Body) (p : Point) (s : State) : (goto body p s).bytecnt = s.bytecnt := rfl
@[simp] theorem goto_pred (body : Body) (p : Point) (s : State) : (goto body p s).pred = s.pred := rfl
@[simp] theorem goto_rstctr (body : Body) (p : Point) (s : State) : (goto body p s).rstctr = s.rstctr := rfl
@[simp] theorem goto_rstnext (body : Body) (p : Point) (s : State) : (goto body p s).rstnext = s.rstnext := rfl
@[simp] theorem goto_mcux (body : Body) (p : Point) (s : State) : (goto body p s).mcux = s.mcux := rfl
@[simp] theorem goto_mcuy (body : Body) (p : Point) (s : State) : (goto body p s).mcuy = s.mcuy := rfl
@[simp] theorem goto_left (body : Body) (p : Point) (s : State) : (goto body p s).left = s.left := rfl
@[simp] theorem goto_top (body : Body) (p : Point) (s : State) : (goto body p s).top = s.top := rfl
@[simp] theorem goto_right (body : Body) (p : Point) (s : State) : (goto body p s).right = s.right := rfl
@[simp] theorem goto_bottom (body : Body) (p : Point) (s : State) : (goto body p s).bottom = s.bottom := rfl
@[simp] theorem goto_pixlen (body : Body) (p : Point) (s : State) : (goto body p s).pixlen = s.pixlen := rfl
@[simp] theorem goto_mem (body : Body) (p : Point) (s : State) : (goto body p s).mem = s.mem := rfl
@[simp] theorem goto_pos (body : Body) (p : Point) (s : State) : (goto body p s).pos = some ⟨body, p⟩ := rfl
@[simp] theorem goto_pend (body : Body) (p : Point) (s : State) : (goto body p s).pend = s.pend := rfl
@[simp] theorem goto_tjdBase (body : Body) (p : Point) (s : State) : (goto body p s).tjdBase = s.tjdBase := rfl
@[simp] theorem goto_agenda (body : Body) (p : Point) (s : State) : (goto body p s).agenda = s.agenda := rfl
@[simp] theorem goto_input (body : Body) (p : Point) (s : State) : (goto body p s).input = s.input := rfl
@[simp] theorem goto_freshInputs (body : Body) (p : Point) (s : State) :
    (goto body p s).freshInputs = s.freshInputs := rfl
@[simp] theorem goto_reply (body : Body) (p : Point) (s : State) : (goto body p s).reply = s.reply := rfl
@[simp] theorem goto_epoch (body : Body) (p : Point) (s : State) : (goto body p s).epoch = s.epoch := rfl

@[simp] theorem endCommand_state (s : State) : (endCommand s).state = s.state := rfl
@[simp] theorem endCommand_runhalt (s : State) : (endCommand s).runhalt = s.runhalt := rfl
@[simp] theorem endCommand_err (s : State) : (endCommand s).err = s.err := rfl
@[simp] theorem endCommand_detail (s : State) : (endCommand s).detail = s.detail := rfl
@[simp] theorem endCommand_sym (s : State) : (endCommand s).sym = s.sym := rfl
@[simp] theorem endCommand_intstat (s : State) : (endCommand s).intstat = s.intstat := rfl
@[simp] theorem endCommand_inten (s : State) : (endCommand s).inten = s.inten := rfl
@[simp] theorem endCommand_cfg0 (s : State) : (endCommand s).cfg0 = s.cfg0 := rfl
@[simp] theorem endCommand_cfg1 (s : State) : (endCommand s).cfg1 = s.cfg1 := rfl
@[simp] theorem endCommand_size (s : State) : (endCommand s).size = s.size := rfl
@[simp] theorem endCommand_rstint (s : State) : (endCommand s).rstint = s.rstint := rfl
@[simp] theorem endCommand_qt (s : State) : (endCommand s).qt = s.qt := rfl
@[simp] theorem endCommand_qtv (s : State) : (endCommand s).qtv = s.qtv := rfl
@[simp] theorem endCommand_ht (s : State) : (endCommand s).ht = s.ht := rfl
@[simp] theorem endCommand_htv (s : State) : (endCommand s).htv = s.htv := rfl
@[simp] theorem endCommand_ldcls (s : State) : (endCommand s).ldcls = s.ldcls := rfl
@[simp] theorem endCommand_ldid (s : State) : (endCommand s).ldid = s.ldid := rfl
@[simp] theorem endCommand_ldcnt (s : State) : (endCommand s).ldcnt = s.ldcnt := rfl
@[simp] theorem endCommand_cbits (s : State) : (endCommand s).cbits = s.cbits := rfl
@[simp] theorem endCommand_bcnt (s : State) : (endCommand s).bcnt = s.bcnt := rfl
@[simp] theorem endCommand_mp (s : State) : (endCommand s).mp = s.mp := rfl
@[simp] theorem endCommand_marker (s : State) : (endCommand s).marker = s.marker := rfl
@[simp] theorem endCommand_eos (s : State) : (endCommand s).eos = s.eos := rfl
@[simp] theorem endCommand_bytecnt (s : State) : (endCommand s).bytecnt = s.bytecnt := rfl
@[simp] theorem endCommand_pred (s : State) : (endCommand s).pred = s.pred := rfl
@[simp] theorem endCommand_rstctr (s : State) : (endCommand s).rstctr = s.rstctr := rfl
@[simp] theorem endCommand_rstnext (s : State) : (endCommand s).rstnext = s.rstnext := rfl
@[simp] theorem endCommand_mcux (s : State) : (endCommand s).mcux = s.mcux := rfl
@[simp] theorem endCommand_mcuy (s : State) : (endCommand s).mcuy = s.mcuy := rfl
@[simp] theorem endCommand_left (s : State) : (endCommand s).left = s.left := rfl
@[simp] theorem endCommand_top (s : State) : (endCommand s).top = s.top := rfl
@[simp] theorem endCommand_right (s : State) : (endCommand s).right = s.right := rfl
@[simp] theorem endCommand_bottom (s : State) : (endCommand s).bottom = s.bottom := rfl
@[simp] theorem endCommand_pixlen (s : State) : (endCommand s).pixlen = s.pixlen := rfl
@[simp] theorem endCommand_mem (s : State) : (endCommand s).mem = s.mem := rfl
@[simp] theorem endCommand_pos (s : State) : (endCommand s).pos = none := rfl
@[simp] theorem endCommand_pend (s : State) : (endCommand s).pend = none := rfl
@[simp] theorem endCommand_tjdBase (s : State) : (endCommand s).tjdBase = s.tjdBase := rfl
@[simp] theorem endCommand_agenda (s : State) : (endCommand s).agenda = s.agenda := rfl
@[simp] theorem endCommand_input (s : State) : (endCommand s).input = s.input := rfl
@[simp] theorem endCommand_freshInputs (s : State) : (endCommand s).freshInputs = s.freshInputs := rfl
@[simp] theorem endCommand_reply (s : State) : (endCommand s).reply = s.reply := rfl
@[simp] theorem endCommand_epoch (s : State) : (endCommand s).epoch = s.epoch := rfl

@[simp] theorem predWrite_state (s : State) (c : Nat) (v : Half) : (predWrite s c v).state = s.state := rfl
@[simp] theorem predWrite_runhalt (s : State) (c : Nat) (v : Half) : (predWrite s c v).runhalt = s.runhalt := rfl
@[simp] theorem predWrite_err (s : State) (c : Nat) (v : Half) : (predWrite s c v).err = s.err := rfl
@[simp] theorem predWrite_detail (s : State) (c : Nat) (v : Half) : (predWrite s c v).detail = s.detail := rfl
@[simp] theorem predWrite_sym (s : State) (c : Nat) (v : Half) : (predWrite s c v).sym = s.sym := rfl
@[simp] theorem predWrite_intstat (s : State) (c : Nat) (v : Half) : (predWrite s c v).intstat = s.intstat := rfl
@[simp] theorem predWrite_inten (s : State) (c : Nat) (v : Half) : (predWrite s c v).inten = s.inten := rfl
@[simp] theorem predWrite_cfg0 (s : State) (c : Nat) (v : Half) : (predWrite s c v).cfg0 = s.cfg0 := rfl
@[simp] theorem predWrite_cfg1 (s : State) (c : Nat) (v : Half) : (predWrite s c v).cfg1 = s.cfg1 := rfl
@[simp] theorem predWrite_size (s : State) (c : Nat) (v : Half) : (predWrite s c v).size = s.size := rfl
@[simp] theorem predWrite_rstint (s : State) (c : Nat) (v : Half) : (predWrite s c v).rstint = s.rstint := rfl
@[simp] theorem predWrite_qt (s : State) (c : Nat) (v : Half) : (predWrite s c v).qt = s.qt := rfl
@[simp] theorem predWrite_qtv (s : State) (c : Nat) (v : Half) : (predWrite s c v).qtv = s.qtv := rfl
@[simp] theorem predWrite_ht (s : State) (c : Nat) (v : Half) : (predWrite s c v).ht = s.ht := rfl
@[simp] theorem predWrite_htv (s : State) (c : Nat) (v : Half) : (predWrite s c v).htv = s.htv := rfl
@[simp] theorem predWrite_ldcls (s : State) (c : Nat) (v : Half) : (predWrite s c v).ldcls = s.ldcls := rfl
@[simp] theorem predWrite_ldid (s : State) (c : Nat) (v : Half) : (predWrite s c v).ldid = s.ldid := rfl
@[simp] theorem predWrite_ldcnt (s : State) (c : Nat) (v : Half) : (predWrite s c v).ldcnt = s.ldcnt := rfl
@[simp] theorem predWrite_cbits (s : State) (c : Nat) (v : Half) : (predWrite s c v).cbits = s.cbits := rfl
@[simp] theorem predWrite_bcnt (s : State) (c : Nat) (v : Half) : (predWrite s c v).bcnt = s.bcnt := rfl
@[simp] theorem predWrite_mp (s : State) (c : Nat) (v : Half) : (predWrite s c v).mp = s.mp := rfl
@[simp] theorem predWrite_marker (s : State) (c : Nat) (v : Half) : (predWrite s c v).marker = s.marker := rfl
@[simp] theorem predWrite_eos (s : State) (c : Nat) (v : Half) : (predWrite s c v).eos = s.eos := rfl
@[simp] theorem predWrite_bytecnt (s : State) (c : Nat) (v : Half) : (predWrite s c v).bytecnt = s.bytecnt := rfl
@[simp] theorem predWrite_pred (s : State) (c : Nat) (v : Half) :
    (predWrite s c v).pred = s.pred.setIfInBounds c v := rfl
@[simp] theorem predWrite_rstctr (s : State) (c : Nat) (v : Half) : (predWrite s c v).rstctr = s.rstctr := rfl
@[simp] theorem predWrite_rstnext (s : State) (c : Nat) (v : Half) : (predWrite s c v).rstnext = s.rstnext := rfl
@[simp] theorem predWrite_mcux (s : State) (c : Nat) (v : Half) : (predWrite s c v).mcux = s.mcux := rfl
@[simp] theorem predWrite_mcuy (s : State) (c : Nat) (v : Half) : (predWrite s c v).mcuy = s.mcuy := rfl
@[simp] theorem predWrite_left (s : State) (c : Nat) (v : Half) : (predWrite s c v).left = s.left := rfl
@[simp] theorem predWrite_top (s : State) (c : Nat) (v : Half) : (predWrite s c v).top = s.top := rfl
@[simp] theorem predWrite_right (s : State) (c : Nat) (v : Half) : (predWrite s c v).right = s.right := rfl
@[simp] theorem predWrite_bottom (s : State) (c : Nat) (v : Half) : (predWrite s c v).bottom = s.bottom := rfl
@[simp] theorem predWrite_pixlen (s : State) (c : Nat) (v : Half) : (predWrite s c v).pixlen = s.pixlen := rfl
@[simp] theorem predWrite_mem (s : State) (c : Nat) (v : Half) : (predWrite s c v).mem = s.mem := rfl
@[simp] theorem predWrite_pos (s : State) (c : Nat) (v : Half) : (predWrite s c v).pos = s.pos := rfl
@[simp] theorem predWrite_pend (s : State) (c : Nat) (v : Half) : (predWrite s c v).pend = s.pend := rfl
@[simp] theorem predWrite_tjdBase (s : State) (c : Nat) (v : Half) : (predWrite s c v).tjdBase = s.tjdBase := rfl
@[simp] theorem predWrite_agenda (s : State) (c : Nat) (v : Half) : (predWrite s c v).agenda = s.agenda := rfl
@[simp] theorem predWrite_input (s : State) (c : Nat) (v : Half) : (predWrite s c v).input = s.input := rfl
@[simp] theorem predWrite_freshInputs (s : State) (c : Nat) (v : Half) :
    (predWrite s c v).freshInputs = s.freshInputs := rfl
@[simp] theorem predWrite_reply (s : State) (c : Nat) (v : Half) : (predWrite s c v).reply = s.reply := rfl
@[simp] theorem predWrite_epoch (s : State) (c : Nat) (v : Half) : (predWrite s c v).epoch = s.epoch := rfl

@[simp] theorem predClear_state (s : State) : (predClear s).state = s.state := rfl
@[simp] theorem predClear_runhalt (s : State) : (predClear s).runhalt = s.runhalt := rfl
@[simp] theorem predClear_err (s : State) : (predClear s).err = s.err := rfl
@[simp] theorem predClear_detail (s : State) : (predClear s).detail = s.detail := rfl
@[simp] theorem predClear_sym (s : State) : (predClear s).sym = s.sym := rfl
@[simp] theorem predClear_intstat (s : State) : (predClear s).intstat = s.intstat := rfl
@[simp] theorem predClear_inten (s : State) : (predClear s).inten = s.inten := rfl
@[simp] theorem predClear_cfg0 (s : State) : (predClear s).cfg0 = s.cfg0 := rfl
@[simp] theorem predClear_cfg1 (s : State) : (predClear s).cfg1 = s.cfg1 := rfl
@[simp] theorem predClear_size (s : State) : (predClear s).size = s.size := rfl
@[simp] theorem predClear_rstint (s : State) : (predClear s).rstint = s.rstint := rfl
@[simp] theorem predClear_qt (s : State) : (predClear s).qt = s.qt := rfl
@[simp] theorem predClear_qtv (s : State) : (predClear s).qtv = s.qtv := rfl
@[simp] theorem predClear_ht (s : State) : (predClear s).ht = s.ht := rfl
@[simp] theorem predClear_htv (s : State) : (predClear s).htv = s.htv := rfl
@[simp] theorem predClear_ldcls (s : State) : (predClear s).ldcls = s.ldcls := rfl
@[simp] theorem predClear_ldid (s : State) : (predClear s).ldid = s.ldid := rfl
@[simp] theorem predClear_ldcnt (s : State) : (predClear s).ldcnt = s.ldcnt := rfl
@[simp] theorem predClear_cbits (s : State) : (predClear s).cbits = s.cbits := rfl
@[simp] theorem predClear_bcnt (s : State) : (predClear s).bcnt = s.bcnt := rfl
@[simp] theorem predClear_mp (s : State) : (predClear s).mp = s.mp := rfl
@[simp] theorem predClear_marker (s : State) : (predClear s).marker = s.marker := rfl
@[simp] theorem predClear_eos (s : State) : (predClear s).eos = s.eos := rfl
@[simp] theorem predClear_bytecnt (s : State) : (predClear s).bytecnt = s.bytecnt := rfl
@[simp] theorem predClear_pred (s : State) : (predClear s).pred = Vector.replicate 3 0#16 := rfl
@[simp] theorem predClear_rstctr (s : State) : (predClear s).rstctr = s.rstctr := rfl
@[simp] theorem predClear_rstnext (s : State) : (predClear s).rstnext = s.rstnext := rfl
@[simp] theorem predClear_mcux (s : State) : (predClear s).mcux = s.mcux := rfl
@[simp] theorem predClear_mcuy (s : State) : (predClear s).mcuy = s.mcuy := rfl
@[simp] theorem predClear_left (s : State) : (predClear s).left = s.left := rfl
@[simp] theorem predClear_top (s : State) : (predClear s).top = s.top := rfl
@[simp] theorem predClear_right (s : State) : (predClear s).right = s.right := rfl
@[simp] theorem predClear_bottom (s : State) : (predClear s).bottom = s.bottom := rfl
@[simp] theorem predClear_pixlen (s : State) : (predClear s).pixlen = s.pixlen := rfl
@[simp] theorem predClear_mem (s : State) : (predClear s).mem = s.mem := rfl
@[simp] theorem predClear_pos (s : State) : (predClear s).pos = s.pos := rfl
@[simp] theorem predClear_pend (s : State) : (predClear s).pend = s.pend := rfl
@[simp] theorem predClear_tjdBase (s : State) : (predClear s).tjdBase = s.tjdBase := rfl
@[simp] theorem predClear_agenda (s : State) : (predClear s).agenda = s.agenda := rfl
@[simp] theorem predClear_input (s : State) : (predClear s).input = s.input := rfl
@[simp] theorem predClear_freshInputs (s : State) : (predClear s).freshInputs = s.freshInputs := rfl
@[simp] theorem predClear_reply (s : State) : (predClear s).reply = s.reply := rfl
@[simp] theorem predClear_epoch (s : State) : (predClear s).epoch = s.epoch := rfl

@[simp] theorem clearFault_state (s : State) : (clearFault s).state = s.state := rfl
@[simp] theorem clearFault_runhalt (s : State) : (clearFault s).runhalt = s.runhalt := rfl
@[simp] theorem clearFault_err (s : State) : (clearFault s).err = 0#4 := rfl
@[simp] theorem clearFault_detail (s : State) : (clearFault s).detail = 0#8 := rfl
@[simp] theorem clearFault_sym (s : State) : (clearFault s).sym = 0#8 := rfl
@[simp] theorem clearFault_intstat (s : State) : (clearFault s).intstat = s.intstat := rfl
@[simp] theorem clearFault_inten (s : State) : (clearFault s).inten = s.inten := rfl
@[simp] theorem clearFault_cfg0 (s : State) : (clearFault s).cfg0 = s.cfg0 := rfl
@[simp] theorem clearFault_cfg1 (s : State) : (clearFault s).cfg1 = s.cfg1 := rfl
@[simp] theorem clearFault_size (s : State) : (clearFault s).size = s.size := rfl
@[simp] theorem clearFault_rstint (s : State) : (clearFault s).rstint = s.rstint := rfl
@[simp] theorem clearFault_qt (s : State) : (clearFault s).qt = s.qt := rfl
@[simp] theorem clearFault_qtv (s : State) : (clearFault s).qtv = s.qtv := rfl
@[simp] theorem clearFault_ht (s : State) : (clearFault s).ht = s.ht := rfl
@[simp] theorem clearFault_htv (s : State) : (clearFault s).htv = s.htv := rfl
@[simp] theorem clearFault_ldcls (s : State) : (clearFault s).ldcls = s.ldcls := rfl
@[simp] theorem clearFault_ldid (s : State) : (clearFault s).ldid = s.ldid := rfl
@[simp] theorem clearFault_ldcnt (s : State) : (clearFault s).ldcnt = s.ldcnt := rfl
@[simp] theorem clearFault_cbits (s : State) : (clearFault s).cbits = s.cbits := rfl
@[simp] theorem clearFault_bcnt (s : State) : (clearFault s).bcnt = s.bcnt := rfl
@[simp] theorem clearFault_mp (s : State) : (clearFault s).mp = s.mp := rfl
@[simp] theorem clearFault_marker (s : State) : (clearFault s).marker = s.marker := rfl
@[simp] theorem clearFault_eos (s : State) : (clearFault s).eos = s.eos := rfl
@[simp] theorem clearFault_bytecnt (s : State) : (clearFault s).bytecnt = s.bytecnt := rfl
@[simp] theorem clearFault_pred (s : State) : (clearFault s).pred = s.pred := rfl
@[simp] theorem clearFault_rstctr (s : State) : (clearFault s).rstctr = s.rstctr := rfl
@[simp] theorem clearFault_rstnext (s : State) : (clearFault s).rstnext = s.rstnext := rfl
@[simp] theorem clearFault_mcux (s : State) : (clearFault s).mcux = s.mcux := rfl
@[simp] theorem clearFault_mcuy (s : State) : (clearFault s).mcuy = s.mcuy := rfl
@[simp] theorem clearFault_left (s : State) : (clearFault s).left = s.left := rfl
@[simp] theorem clearFault_top (s : State) : (clearFault s).top = s.top := rfl
@[simp] theorem clearFault_right (s : State) : (clearFault s).right = s.right := rfl
@[simp] theorem clearFault_bottom (s : State) : (clearFault s).bottom = s.bottom := rfl
@[simp] theorem clearFault_pixlen (s : State) : (clearFault s).pixlen = s.pixlen := rfl
@[simp] theorem clearFault_mem (s : State) : (clearFault s).mem = s.mem := rfl
@[simp] theorem clearFault_pos (s : State) : (clearFault s).pos = s.pos := rfl
@[simp] theorem clearFault_pend (s : State) : (clearFault s).pend = s.pend := rfl
@[simp] theorem clearFault_tjdBase (s : State) : (clearFault s).tjdBase = s.tjdBase := rfl
@[simp] theorem clearFault_agenda (s : State) : (clearFault s).agenda = s.agenda := rfl
@[simp] theorem clearFault_input (s : State) : (clearFault s).input = s.input := rfl
@[simp] theorem clearFault_freshInputs (s : State) : (clearFault s).freshInputs = s.freshInputs := rfl
@[simp] theorem clearFault_reply (s : State) : (clearFault s).reply = s.reply := rfl
@[simp] theorem clearFault_epoch (s : State) : (clearFault s).epoch = s.epoch := rfl

@[simp] theorem completeCommand_state (s : State) : (completeCommand s).state = .idle := rfl
@[simp] theorem completeCommand_runhalt (s : State) : (completeCommand s).runhalt = s.runhalt := rfl
@[simp] theorem completeCommand_err (s : State) : (completeCommand s).err = s.err := rfl
@[simp] theorem completeCommand_detail (s : State) : (completeCommand s).detail = s.detail := rfl
@[simp] theorem completeCommand_sym (s : State) : (completeCommand s).sym = s.sym := rfl
@[simp] theorem completeCommand_intstat (s : State) : (completeCommand s).intstat = s.intstat ||| intCmdDone := rfl
@[simp] theorem completeCommand_inten (s : State) : (completeCommand s).inten = s.inten := rfl
@[simp] theorem completeCommand_cfg0 (s : State) : (completeCommand s).cfg0 = s.cfg0 := rfl
@[simp] theorem completeCommand_cfg1 (s : State) : (completeCommand s).cfg1 = s.cfg1 := rfl
@[simp] theorem completeCommand_size (s : State) : (completeCommand s).size = s.size := rfl
@[simp] theorem completeCommand_rstint (s : State) : (completeCommand s).rstint = s.rstint := rfl
@[simp] theorem completeCommand_qt (s : State) : (completeCommand s).qt = s.qt := rfl
@[simp] theorem completeCommand_qtv (s : State) : (completeCommand s).qtv = s.qtv := rfl
@[simp] theorem completeCommand_ht (s : State) : (completeCommand s).ht = s.ht := rfl
@[simp] theorem completeCommand_htv (s : State) : (completeCommand s).htv = s.htv := rfl
@[simp] theorem completeCommand_ldcls (s : State) : (completeCommand s).ldcls = s.ldcls := rfl
@[simp] theorem completeCommand_ldid (s : State) : (completeCommand s).ldid = s.ldid := rfl
@[simp] theorem completeCommand_ldcnt (s : State) : (completeCommand s).ldcnt = s.ldcnt := rfl
@[simp] theorem completeCommand_cbits (s : State) : (completeCommand s).cbits = s.cbits := rfl
@[simp] theorem completeCommand_bcnt (s : State) : (completeCommand s).bcnt = s.bcnt := rfl
@[simp] theorem completeCommand_mp (s : State) : (completeCommand s).mp = s.mp := rfl
@[simp] theorem completeCommand_marker (s : State) : (completeCommand s).marker = s.marker := rfl
@[simp] theorem completeCommand_eos (s : State) : (completeCommand s).eos = s.eos := rfl
@[simp] theorem completeCommand_bytecnt (s : State) : (completeCommand s).bytecnt = s.bytecnt := rfl
@[simp] theorem completeCommand_pred (s : State) : (completeCommand s).pred = s.pred := rfl
@[simp] theorem completeCommand_rstctr (s : State) : (completeCommand s).rstctr = s.rstctr := rfl
@[simp] theorem completeCommand_rstnext (s : State) : (completeCommand s).rstnext = s.rstnext := rfl
@[simp] theorem completeCommand_mcux (s : State) : (completeCommand s).mcux = s.mcux := rfl
@[simp] theorem completeCommand_mcuy (s : State) : (completeCommand s).mcuy = s.mcuy := rfl
@[simp] theorem completeCommand_left (s : State) : (completeCommand s).left = s.left := rfl
@[simp] theorem completeCommand_top (s : State) : (completeCommand s).top = s.top := rfl
@[simp] theorem completeCommand_right (s : State) : (completeCommand s).right = s.right := rfl
@[simp] theorem completeCommand_bottom (s : State) : (completeCommand s).bottom = s.bottom := rfl
@[simp] theorem completeCommand_pixlen (s : State) : (completeCommand s).pixlen = s.pixlen := rfl
@[simp] theorem completeCommand_mem (s : State) : (completeCommand s).mem = s.mem := rfl
@[simp] theorem completeCommand_pos (s : State) : (completeCommand s).pos = none := rfl
@[simp] theorem completeCommand_pend (s : State) : (completeCommand s).pend = none := rfl
@[simp] theorem completeCommand_tjdBase (s : State) : (completeCommand s).tjdBase = s.tjdBase := rfl
@[simp] theorem completeCommand_agenda (s : State) : (completeCommand s).agenda = s.agenda := rfl
@[simp] theorem completeCommand_input (s : State) : (completeCommand s).input = s.input := rfl
@[simp] theorem completeCommand_freshInputs (s : State) : (completeCommand s).freshInputs = s.freshInputs := rfl
@[simp] theorem completeCommand_reply (s : State) : (completeCommand s).reply = s.reply := rfl
@[simp] theorem completeCommand_epoch (s : State) : (completeCommand s).epoch = s.epoch := rfl

@[simp] theorem cmdError_state (s : State) : (cmdError s).state = s.state := rfl
@[simp] theorem cmdError_runhalt (s : State) : (cmdError s).runhalt = s.runhalt := rfl
@[simp] theorem cmdError_err (s : State) : (cmdError s).err = s.err := rfl
@[simp] theorem cmdError_detail (s : State) : (cmdError s).detail = s.detail := rfl
@[simp] theorem cmdError_sym (s : State) : (cmdError s).sym = s.sym := rfl
@[simp] theorem cmdError_intstat (s : State) : (cmdError s).intstat = s.intstat ||| intCmdErr := rfl
@[simp] theorem cmdError_inten (s : State) : (cmdError s).inten = s.inten := rfl
@[simp] theorem cmdError_cfg0 (s : State) : (cmdError s).cfg0 = s.cfg0 := rfl
@[simp] theorem cmdError_cfg1 (s : State) : (cmdError s).cfg1 = s.cfg1 := rfl
@[simp] theorem cmdError_size (s : State) : (cmdError s).size = s.size := rfl
@[simp] theorem cmdError_rstint (s : State) : (cmdError s).rstint = s.rstint := rfl
@[simp] theorem cmdError_qt (s : State) : (cmdError s).qt = s.qt := rfl
@[simp] theorem cmdError_qtv (s : State) : (cmdError s).qtv = s.qtv := rfl
@[simp] theorem cmdError_ht (s : State) : (cmdError s).ht = s.ht := rfl
@[simp] theorem cmdError_htv (s : State) : (cmdError s).htv = s.htv := rfl
@[simp] theorem cmdError_ldcls (s : State) : (cmdError s).ldcls = s.ldcls := rfl
@[simp] theorem cmdError_ldid (s : State) : (cmdError s).ldid = s.ldid := rfl
@[simp] theorem cmdError_ldcnt (s : State) : (cmdError s).ldcnt = s.ldcnt := rfl
@[simp] theorem cmdError_cbits (s : State) : (cmdError s).cbits = s.cbits := rfl
@[simp] theorem cmdError_bcnt (s : State) : (cmdError s).bcnt = s.bcnt := rfl
@[simp] theorem cmdError_mp (s : State) : (cmdError s).mp = s.mp := rfl
@[simp] theorem cmdError_marker (s : State) : (cmdError s).marker = s.marker := rfl
@[simp] theorem cmdError_eos (s : State) : (cmdError s).eos = s.eos := rfl
@[simp] theorem cmdError_bytecnt (s : State) : (cmdError s).bytecnt = s.bytecnt := rfl
@[simp] theorem cmdError_pred (s : State) : (cmdError s).pred = s.pred := rfl
@[simp] theorem cmdError_rstctr (s : State) : (cmdError s).rstctr = s.rstctr := rfl
@[simp] theorem cmdError_rstnext (s : State) : (cmdError s).rstnext = s.rstnext := rfl
@[simp] theorem cmdError_mcux (s : State) : (cmdError s).mcux = s.mcux := rfl
@[simp] theorem cmdError_mcuy (s : State) : (cmdError s).mcuy = s.mcuy := rfl
@[simp] theorem cmdError_left (s : State) : (cmdError s).left = s.left := rfl
@[simp] theorem cmdError_top (s : State) : (cmdError s).top = s.top := rfl
@[simp] theorem cmdError_right (s : State) : (cmdError s).right = s.right := rfl
@[simp] theorem cmdError_bottom (s : State) : (cmdError s).bottom = s.bottom := rfl
@[simp] theorem cmdError_pixlen (s : State) : (cmdError s).pixlen = s.pixlen := rfl
@[simp] theorem cmdError_mem (s : State) : (cmdError s).mem = s.mem := rfl
@[simp] theorem cmdError_pos (s : State) : (cmdError s).pos = s.pos := rfl
@[simp] theorem cmdError_pend (s : State) : (cmdError s).pend = s.pend := rfl
@[simp] theorem cmdError_tjdBase (s : State) : (cmdError s).tjdBase = s.tjdBase := rfl
@[simp] theorem cmdError_agenda (s : State) : (cmdError s).agenda = s.agenda := rfl
@[simp] theorem cmdError_input (s : State) : (cmdError s).input = s.input := rfl
@[simp] theorem cmdError_freshInputs (s : State) : (cmdError s).freshInputs = s.freshInputs := rfl
@[simp] theorem cmdError_reply (s : State) : (cmdError s).reply = s.reply := rfl
@[simp] theorem cmdError_epoch (s : State) : (cmdError s).epoch = s.epoch := rfl

@[simp] theorem cmdIgnored_state (s : State) : (cmdIgnored s).state = s.state := rfl
@[simp] theorem cmdIgnored_runhalt (s : State) : (cmdIgnored s).runhalt = s.runhalt := rfl
@[simp] theorem cmdIgnored_err (s : State) : (cmdIgnored s).err = s.err := rfl
@[simp] theorem cmdIgnored_detail (s : State) : (cmdIgnored s).detail = s.detail := rfl
@[simp] theorem cmdIgnored_sym (s : State) : (cmdIgnored s).sym = s.sym := rfl
@[simp] theorem cmdIgnored_intstat (s : State) : (cmdIgnored s).intstat = s.intstat ||| intCmdIgn := rfl
@[simp] theorem cmdIgnored_inten (s : State) : (cmdIgnored s).inten = s.inten := rfl
@[simp] theorem cmdIgnored_cfg0 (s : State) : (cmdIgnored s).cfg0 = s.cfg0 := rfl
@[simp] theorem cmdIgnored_cfg1 (s : State) : (cmdIgnored s).cfg1 = s.cfg1 := rfl
@[simp] theorem cmdIgnored_size (s : State) : (cmdIgnored s).size = s.size := rfl
@[simp] theorem cmdIgnored_rstint (s : State) : (cmdIgnored s).rstint = s.rstint := rfl
@[simp] theorem cmdIgnored_qt (s : State) : (cmdIgnored s).qt = s.qt := rfl
@[simp] theorem cmdIgnored_qtv (s : State) : (cmdIgnored s).qtv = s.qtv := rfl
@[simp] theorem cmdIgnored_ht (s : State) : (cmdIgnored s).ht = s.ht := rfl
@[simp] theorem cmdIgnored_htv (s : State) : (cmdIgnored s).htv = s.htv := rfl
@[simp] theorem cmdIgnored_ldcls (s : State) : (cmdIgnored s).ldcls = s.ldcls := rfl
@[simp] theorem cmdIgnored_ldid (s : State) : (cmdIgnored s).ldid = s.ldid := rfl
@[simp] theorem cmdIgnored_ldcnt (s : State) : (cmdIgnored s).ldcnt = s.ldcnt := rfl
@[simp] theorem cmdIgnored_cbits (s : State) : (cmdIgnored s).cbits = s.cbits := rfl
@[simp] theorem cmdIgnored_bcnt (s : State) : (cmdIgnored s).bcnt = s.bcnt := rfl
@[simp] theorem cmdIgnored_mp (s : State) : (cmdIgnored s).mp = s.mp := rfl
@[simp] theorem cmdIgnored_marker (s : State) : (cmdIgnored s).marker = s.marker := rfl
@[simp] theorem cmdIgnored_eos (s : State) : (cmdIgnored s).eos = s.eos := rfl
@[simp] theorem cmdIgnored_bytecnt (s : State) : (cmdIgnored s).bytecnt = s.bytecnt := rfl
@[simp] theorem cmdIgnored_pred (s : State) : (cmdIgnored s).pred = s.pred := rfl
@[simp] theorem cmdIgnored_rstctr (s : State) : (cmdIgnored s).rstctr = s.rstctr := rfl
@[simp] theorem cmdIgnored_rstnext (s : State) : (cmdIgnored s).rstnext = s.rstnext := rfl
@[simp] theorem cmdIgnored_mcux (s : State) : (cmdIgnored s).mcux = s.mcux := rfl
@[simp] theorem cmdIgnored_mcuy (s : State) : (cmdIgnored s).mcuy = s.mcuy := rfl
@[simp] theorem cmdIgnored_left (s : State) : (cmdIgnored s).left = s.left := rfl
@[simp] theorem cmdIgnored_top (s : State) : (cmdIgnored s).top = s.top := rfl
@[simp] theorem cmdIgnored_right (s : State) : (cmdIgnored s).right = s.right := rfl
@[simp] theorem cmdIgnored_bottom (s : State) : (cmdIgnored s).bottom = s.bottom := rfl
@[simp] theorem cmdIgnored_pixlen (s : State) : (cmdIgnored s).pixlen = s.pixlen := rfl
@[simp] theorem cmdIgnored_mem (s : State) : (cmdIgnored s).mem = s.mem := rfl
@[simp] theorem cmdIgnored_pos (s : State) : (cmdIgnored s).pos = s.pos := rfl
@[simp] theorem cmdIgnored_pend (s : State) : (cmdIgnored s).pend = s.pend := rfl
@[simp] theorem cmdIgnored_tjdBase (s : State) : (cmdIgnored s).tjdBase = s.tjdBase := rfl
@[simp] theorem cmdIgnored_agenda (s : State) : (cmdIgnored s).agenda = s.agenda := rfl
@[simp] theorem cmdIgnored_input (s : State) : (cmdIgnored s).input = s.input := rfl
@[simp] theorem cmdIgnored_freshInputs (s : State) : (cmdIgnored s).freshInputs = s.freshInputs := rfl
@[simp] theorem cmdIgnored_reply (s : State) : (cmdIgnored s).reply = s.reply := rfl
@[simp] theorem cmdIgnored_epoch (s : State) : (cmdIgnored s).epoch = s.epoch := rfl

@[simp] theorem loadByte_state (x : Byte) (s : State) : (loadByte x s).state = s.state := rfl
@[simp] theorem loadByte_runhalt (x : Byte) (s : State) : (loadByte x s).runhalt = s.runhalt := rfl
@[simp] theorem loadByte_err (x : Byte) (s : State) : (loadByte x s).err = s.err := rfl
@[simp] theorem loadByte_detail (x : Byte) (s : State) : (loadByte x s).detail = s.detail := rfl
@[simp] theorem loadByte_sym (x : Byte) (s : State) : (loadByte x s).sym = s.sym := rfl
@[simp] theorem loadByte_intstat (x : Byte) (s : State) : (loadByte x s).intstat = s.intstat := rfl
@[simp] theorem loadByte_inten (x : Byte) (s : State) : (loadByte x s).inten = s.inten := rfl
@[simp] theorem loadByte_cfg0 (x : Byte) (s : State) : (loadByte x s).cfg0 = s.cfg0 := rfl
@[simp] theorem loadByte_cfg1 (x : Byte) (s : State) : (loadByte x s).cfg1 = s.cfg1 := rfl
@[simp] theorem loadByte_size (x : Byte) (s : State) : (loadByte x s).size = s.size := rfl
@[simp] theorem loadByte_rstint (x : Byte) (s : State) : (loadByte x s).rstint = s.rstint := rfl
@[simp] theorem loadByte_qt (x : Byte) (s : State) : (loadByte x s).qt = s.qt := rfl
@[simp] theorem loadByte_qtv (x : Byte) (s : State) : (loadByte x s).qtv = s.qtv := rfl
@[simp] theorem loadByte_ht (x : Byte) (s : State) : (loadByte x s).ht = s.ht := rfl
@[simp] theorem loadByte_htv (x : Byte) (s : State) : (loadByte x s).htv = s.htv := rfl
@[simp] theorem loadByte_ldcls (x : Byte) (s : State) : (loadByte x s).ldcls = s.ldcls := rfl
@[simp] theorem loadByte_ldid (x : Byte) (s : State) : (loadByte x s).ldid = s.ldid := rfl
@[simp] theorem loadByte_ldcnt (x : Byte) (s : State) : (loadByte x s).ldcnt = s.ldcnt := rfl
@[simp] theorem loadByte_cbits (x : Byte) (s : State) : (loadByte x s).cbits = x := rfl
@[simp] theorem loadByte_bcnt (x : Byte) (s : State) : (loadByte x s).bcnt = 8#4 := rfl
@[simp] theorem loadByte_mp (x : Byte) (s : State) : (loadByte x s).mp = s.mp := rfl
@[simp] theorem loadByte_marker (x : Byte) (s : State) : (loadByte x s).marker = s.marker := rfl
@[simp] theorem loadByte_eos (x : Byte) (s : State) : (loadByte x s).eos = s.eos := rfl
@[simp] theorem loadByte_bytecnt (x : Byte) (s : State) : (loadByte x s).bytecnt = s.bytecnt := rfl
@[simp] theorem loadByte_pred (x : Byte) (s : State) : (loadByte x s).pred = s.pred := rfl
@[simp] theorem loadByte_rstctr (x : Byte) (s : State) : (loadByte x s).rstctr = s.rstctr := rfl
@[simp] theorem loadByte_rstnext (x : Byte) (s : State) : (loadByte x s).rstnext = s.rstnext := rfl
@[simp] theorem loadByte_mcux (x : Byte) (s : State) : (loadByte x s).mcux = s.mcux := rfl
@[simp] theorem loadByte_mcuy (x : Byte) (s : State) : (loadByte x s).mcuy = s.mcuy := rfl
@[simp] theorem loadByte_left (x : Byte) (s : State) : (loadByte x s).left = s.left := rfl
@[simp] theorem loadByte_top (x : Byte) (s : State) : (loadByte x s).top = s.top := rfl
@[simp] theorem loadByte_right (x : Byte) (s : State) : (loadByte x s).right = s.right := rfl
@[simp] theorem loadByte_bottom (x : Byte) (s : State) : (loadByte x s).bottom = s.bottom := rfl
@[simp] theorem loadByte_pixlen (x : Byte) (s : State) : (loadByte x s).pixlen = s.pixlen := rfl
@[simp] theorem loadByte_mem (x : Byte) (s : State) : (loadByte x s).mem = s.mem := rfl
@[simp] theorem loadByte_pos (x : Byte) (s : State) : (loadByte x s).pos = s.pos := rfl
@[simp] theorem loadByte_pend (x : Byte) (s : State) : (loadByte x s).pend = none := rfl
@[simp] theorem loadByte_tjdBase (x : Byte) (s : State) : (loadByte x s).tjdBase = s.tjdBase := rfl
@[simp] theorem loadByte_agenda (x : Byte) (s : State) : (loadByte x s).agenda = s.agenda := rfl
@[simp] theorem loadByte_input (x : Byte) (s : State) : (loadByte x s).input = s.input := rfl
@[simp] theorem loadByte_freshInputs (x : Byte) (s : State) : (loadByte x s).freshInputs = s.freshInputs := rfl
@[simp] theorem loadByte_reply (x : Byte) (s : State) : (loadByte x s).reply = s.reply := rfl
@[simp] theorem loadByte_epoch (x : Byte) (s : State) : (loadByte x s).epoch = s.epoch := rfl

@[simp] theorem takeFault_inten (e : BitVec 4) (d sy : Byte) (s : State) :
    (takeFault e d sy s).inten = s.inten := by unfold takeFault; split <;> rfl
@[simp] theorem takeFault_cfg0 (e : BitVec 4) (d sy : Byte) (s : State) :
    (takeFault e d sy s).cfg0 = s.cfg0 := by unfold takeFault; split <;> rfl
@[simp] theorem takeFault_cfg1 (e : BitVec 4) (d sy : Byte) (s : State) :
    (takeFault e d sy s).cfg1 = s.cfg1 := by unfold takeFault; split <;> rfl
@[simp] theorem takeFault_size (e : BitVec 4) (d sy : Byte) (s : State) :
    (takeFault e d sy s).size = s.size := by unfold takeFault; split <;> rfl
@[simp] theorem takeFault_rstint (e : BitVec 4) (d sy : Byte) (s : State) :
    (takeFault e d sy s).rstint = s.rstint := by unfold takeFault; split <;> rfl
@[simp] theorem takeFault_qt (e : BitVec 4) (d sy : Byte) (s : State) :
    (takeFault e d sy s).qt = s.qt := by unfold takeFault; split <;> rfl
@[simp] theorem takeFault_qtv (e : BitVec 4) (d sy : Byte) (s : State) :
    (takeFault e d sy s).qtv = s.qtv := by unfold takeFault; split <;> rfl
@[simp] theorem takeFault_ht (e : BitVec 4) (d sy : Byte) (s : State) :
    (takeFault e d sy s).ht = s.ht := by unfold takeFault; split <;> rfl
@[simp] theorem takeFault_htv (e : BitVec 4) (d sy : Byte) (s : State) :
    (takeFault e d sy s).htv = s.htv := by unfold takeFault; split <;> rfl
@[simp] theorem takeFault_ldcls (e : BitVec 4) (d sy : Byte) (s : State) :
    (takeFault e d sy s).ldcls = s.ldcls := by unfold takeFault; split <;> rfl
@[simp] theorem takeFault_ldid (e : BitVec 4) (d sy : Byte) (s : State) :
    (takeFault e d sy s).ldid = s.ldid := by unfold takeFault; split <;> rfl
@[simp] theorem takeFault_ldcnt (e : BitVec 4) (d sy : Byte) (s : State) :
    (takeFault e d sy s).ldcnt = s.ldcnt := by unfold takeFault; split <;> rfl
@[simp] theorem takeFault_cbits (e : BitVec 4) (d sy : Byte) (s : State) :
    (takeFault e d sy s).cbits = s.cbits := by unfold takeFault; split <;> rfl
@[simp] theorem takeFault_bcnt (e : BitVec 4) (d sy : Byte) (s : State) :
    (takeFault e d sy s).bcnt = s.bcnt := by unfold takeFault; split <;> rfl
@[simp] theorem takeFault_mp (e : BitVec 4) (d sy : Byte) (s : State) :
    (takeFault e d sy s).mp = s.mp := by unfold takeFault; split <;> rfl
@[simp] theorem takeFault_marker (e : BitVec 4) (d sy : Byte) (s : State) :
    (takeFault e d sy s).marker = s.marker := by unfold takeFault; split <;> rfl
@[simp] theorem takeFault_eos (e : BitVec 4) (d sy : Byte) (s : State) :
    (takeFault e d sy s).eos = s.eos := by unfold takeFault; split <;> rfl
@[simp] theorem takeFault_bytecnt (e : BitVec 4) (d sy : Byte) (s : State) :
    (takeFault e d sy s).bytecnt = s.bytecnt := by unfold takeFault; split <;> rfl
@[simp] theorem takeFault_pred (e : BitVec 4) (d sy : Byte) (s : State) :
    (takeFault e d sy s).pred = s.pred := by unfold takeFault; split <;> rfl
@[simp] theorem takeFault_rstctr (e : BitVec 4) (d sy : Byte) (s : State) :
    (takeFault e d sy s).rstctr = s.rstctr := by unfold takeFault; split <;> rfl
@[simp] theorem takeFault_rstnext (e : BitVec 4) (d sy : Byte) (s : State) :
    (takeFault e d sy s).rstnext = s.rstnext := by unfold takeFault; split <;> rfl
@[simp] theorem takeFault_mcux (e : BitVec 4) (d sy : Byte) (s : State) :
    (takeFault e d sy s).mcux = s.mcux := by unfold takeFault; split <;> rfl
@[simp] theorem takeFault_mcuy (e : BitVec 4) (d sy : Byte) (s : State) :
    (takeFault e d sy s).mcuy = s.mcuy := by unfold takeFault; split <;> rfl
@[simp] theorem takeFault_left (e : BitVec 4) (d sy : Byte) (s : State) :
    (takeFault e d sy s).left = s.left := by unfold takeFault; split <;> rfl
@[simp] theorem takeFault_top (e : BitVec 4) (d sy : Byte) (s : State) :
    (takeFault e d sy s).top = s.top := by unfold takeFault; split <;> rfl
@[simp] theorem takeFault_right (e : BitVec 4) (d sy : Byte) (s : State) :
    (takeFault e d sy s).right = s.right := by unfold takeFault; split <;> rfl
@[simp] theorem takeFault_bottom (e : BitVec 4) (d sy : Byte) (s : State) :
    (takeFault e d sy s).bottom = s.bottom := by unfold takeFault; split <;> rfl
@[simp] theorem takeFault_pixlen (e : BitVec 4) (d sy : Byte) (s : State) :
    (takeFault e d sy s).pixlen = s.pixlen := by unfold takeFault; split <;> rfl
@[simp] theorem takeFault_mem (e : BitVec 4) (d sy : Byte) (s : State) :
    (takeFault e d sy s).mem = s.mem := by unfold takeFault; split <;> rfl
@[simp] theorem takeFault_tjdBase (e : BitVec 4) (d sy : Byte) (s : State) :
    (takeFault e d sy s).tjdBase = s.tjdBase := by unfold takeFault; split <;> rfl
@[simp] theorem takeFault_agenda (e : BitVec 4) (d sy : Byte) (s : State) :
    (takeFault e d sy s).agenda = s.agenda := by unfold takeFault; split <;> rfl
@[simp] theorem takeFault_input (e : BitVec 4) (d sy : Byte) (s : State) :
    (takeFault e d sy s).input = s.input := by unfold takeFault; split <;> rfl
@[simp] theorem takeFault_freshInputs (e : BitVec 4) (d sy : Byte) (s : State) :
    (takeFault e d sy s).freshInputs = s.freshInputs := by unfold takeFault; split <;> rfl
@[simp] theorem takeFault_reply (e : BitVec 4) (d sy : Byte) (s : State) :
    (takeFault e d sy s).reply = s.reply := by unfold takeFault; split <;> rfl
@[simp] theorem takeFault_epoch (e : BitVec 4) (d sy : Byte) (s : State) :
    (takeFault e d sy s).epoch = s.epoch := by unfold takeFault; split <;> rfl
@[simp] theorem takeFault_err (e : BitVec 4) (d sy : Byte) (s : State) :
    (takeFault e d sy s).err = e := by unfold takeFault; split <;> rfl
@[simp] theorem takeFault_detail (e : BitVec 4) (d sy : Byte) (s : State) :
    (takeFault e d sy s).detail = d := by unfold takeFault; split <;> rfl
@[simp] theorem takeFault_sym (e : BitVec 4) (d sy : Byte) (s : State) :
    (takeFault e d sy s).sym = sy := by unfold takeFault; split <;> rfl
@[simp] theorem takeFault_pos (e : BitVec 4) (d sy : Byte) (s : State) :
    (takeFault e d sy s).pos = none := by unfold takeFault; split <;> rfl
@[simp] theorem takeFault_pend (e : BitVec 4) (d sy : Byte) (s : State) :
    (takeFault e d sy s).pend = none := by unfold takeFault; split <;> rfl

end Sys2Proof.Machine
end

