-- ==== Sys2Proof/Laws/Invariant.lean ====
section
/-! SUPPORT. One move of the block in a state that meets the invariant: it meets the invariant again, its cost to the
next suspension point falls, and STATE moves along the arrows of an executing state (44_driver R220). -/

namespace Sys2Proof.Machine

/-! ## A command is executing and nothing is outstanding -/

/-- A command's body is running: what the moves of the block start from. -/
structure Running (body : Body) (s : State) : Prop where
  wf : s.mem.wf = true
  bcnt : s.bcnt.toNat ≤ 8
  halt : s.runhalt = false
  state : s.state = bodyState body
  pend : s.pend = none
  cfg : cfgCheck s = none
  base : s.tjdBase % Config.windowBytes = 0

theorem cfgCheck_of_setup {s t : State} (h : setupOf t = setupOf s) : cfgCheck t = cfgCheck s := by
  simp only [cfgCheck, allComps, ncomp_of_setup h, pixfmt_of_setup h, hFactor_of_setup h, vFactor_of_setup h,
    qSel_of_setup h, width_of_setup h, height_of_setup h, qtv_of_setup h, htv_of_setup h]
  simp only [strategy, dcSel, acSel, cfg0_of_setup h, cfg1_of_setup h]
  rfl

/-- Running depends on a few fields of the state. -/
theorem Running.of_eq {body : Body} {s t : State} (h : Running body s) (hset : setupOf t = setupOf s)
    (hwf : t.mem.wf = true) (hb : t.bcnt.toNat ≤ 8) (hr : t.runhalt = s.runhalt) (hs : t.state = s.state)
    (hp : t.pend = none) : Running body t :=
  ⟨hwf, hb, hr.trans h.halt, hs.trans h.state, hp, (cfgCheck_of_setup hset).trans h.cfg,
    by rw [tjdBase_of_setup hset]; exact h.base⟩

/-- A body executes in STEP or RUN. -/
theorem bodyState_eq (body : Body) : bodyState body = .step ∨ bodyState body = .run := by
  cases body <;> simp [bodyState]

/-! ## Geometry of an accepted configuration -/

/-- An accepted configuration has 1..12 slots, and component 0 has at least one (43_color R201, R202). -/
theorem slots_of_cfg {s : State} (h : cfgCheck s = none) :
    0 < blocksOf s 0 ∧ 0 < slotCount s ∧ slotCount s ≤ 12 := by
  unfold cfgCheck at h
  have hn : ncomp s = 1 ∨ ncomp s = 3 := by
    by_contra hc
    simp only [not_or] at hc
    simp [hc.1, hc.2] at h
  have hf : ∀ c, c < ncomp s → (1 ≤ hFactor s c ∧ hFactor s c ≤ 2) ∧ 1 ≤ vFactor s c ∧ vFactor s c ≤ 2 := by
    intro c hc
    have hall : allComps s (fun c => factorOk (hFactor s c) && factorOk (vFactor s c)) = true := by
      by_contra hc'
      simp only [Bool.not_eq_true] at hc'
      rw [hc'] at h
      split at h
      · cases h
      · split at h <;> simp at h
    have := List.all_eq_true.1 hall c (List.mem_range.2 hc)
    simp only [factorOk, Bool.and_eq_true, Bool.or_eq_true, beq_iff_eq] at this
    omega
  have h0 := hf 0 (by omega)
  have b0 : 1 ≤ blocksOf s 0 ∧ blocksOf s 0 ≤ 4 := by
    refine ⟨Nat.mul_pos h0.1.1 h0.2.1, ?_⟩
    calc blocksOf s 0 ≤ 2 * 2 := Nat.mul_le_mul h0.1.2 h0.2.2
      _ = 4 := rfl
  rcases hn with h1 | h3
  · simp only [slotCount, slotBase, h1, List.range_one, List.map_cons, List.map_nil, List.sum_cons, List.sum_nil]
    omega
  · have h1 := hf 1 (by omega)
    have h2 := hf 2 (by omega)
    have b1 : blocksOf s 1 ≤ 4 := Nat.mul_le_mul h1.1.2 h1.2.2
    have b2 : blocksOf s 2 ≤ 4 := Nat.mul_le_mul h2.1.2 h2.2.2
    simp only [slotCount, slotBase, h3, show List.range 3 = [0, 1, 2] from rfl, List.map_cons, List.map_nil,
      List.sum_cons, List.sum_nil]
    omega

theorem compOf_lt (s : State) (b : Nat) : compOf s b < 3 := by unfold compOf; split <;> (try split) <;> omega

/-- Slot 0 is component 0's (R201). -/
theorem compOf_zero {s : State} (h : cfgCheck s = none) : compOf s 0 = 0 := by
  have := (slots_of_cfg h).1
  have h1 : slotBase s 1 = blocksOf s 0 := by simp [slotBase]
  simp [compOf, h1, this]

/-! ## Cost: how many moves remain to the next suspension point, at most -/

/-- The cost of a block still to be decoded is at most 2113 moves; the 12 slots come in order. -/
def pointCost : Point → Nat
  | .dcCode _ b len _ => 2113 * (11 - b) + 2112 - len
  | .dcSymbol _ b _ => 2113 * (11 - b) + 2096
  | .dcBits _ b _ left _ => 2113 * (11 - b) + 2080 + left
  | .acCode _ b k len _ => 2113 * (11 - b) + 33 * (64 - k) - len
  | .acSymbol _ b k _ => 2113 * (11 - b) + 33 * (64 - k) - 16
  | .acBits _ b k _ left _ => 2113 * (11 - b) + 33 * (64 - k) + left - 32
  | .rstFirst => 25361
  | .rstSecond => 25360
  | .scan _ => 25363
  | .nextMcu _ => 25362
  | .emit => 0

/-- The cost of a state. -/
def cost (s : State) : Nat :=
  match s.pos with
  | none => 0
  | some p => pointCost p.point

/-- The states STATE can move to while a command executes in st (44_driver R220). -/
def exits (st st' : SeqState) : Bool :=
  st' == st || (st == .step && (st' == .idle || st' == .syncHalt || st' == .error))
    || (st == .run && (st' == .done || st' == .syncHalt || st' == .error))

/-- What a move of the block gives: the invariant, a lower cost while it goes on, and a legal STATE. -/
structure Moved (body : Body) (n : Nat) (t : State) : Prop where
  inv : t.Inv
  cost : runnable t = true → cost t < n
  exits : exits (bodyState body) t.state = true

theorem exits_self (st : SeqState) : exits st st = true := by cases st <;> rfl

theorem cfgOk_of_cfg {s : State} (h : cfgCheck s = none) : cfgOk s = true := by simp [cfgOk, h]

/-- The body goes on from another point of its own. -/
theorem moved_goto {body body' : Body} {p : Point} {s : State} {n : Nat} (h : Running body s)
    (hb : bodyState body' = bodyState body) (hp : pointOk p = true) (hf : bodyFits body' p = true)
    (hc : p ≠ .emit → pointCost p < n) : Moved body n (goto body' p s) := by
  have hst : (goto body' p s).state = bodyState body' := by simp [h.state, hb]
  refine ⟨⟨h.wf, h.bcnt, by simp [h.halt], ?_, ?_, ?_, cfgOk_of_cfg h.cfg, h.base⟩, ?_, ?_⟩
  · simp [posOk, h.state, hb, hp, hf]
  · simp [pendOk, h.pend]
  · rcases bodyState_eq body with e | e <;> simp [loadOk, h.state, e]
  · intro hr
    exact hc (by rintro rfl; simp [runnable, goto] at hr)
  · rw [hst, hb]; exact exits_self _

/-- The command's position and requests are gone: what is left of the invariant. -/
theorem inv_ended {s : State} (hwf : s.mem.wf = true) (hb : s.bcnt.toNat ≤ 8)
    (hh : s.runhalt = true → s.state = .syncHalt) (hp : s.pos = none) (hd : s.pend = none)
    (hbusy : busy s = false) (hl : loadOk s = true) (hc : cfgOk s = true)
    (ht : s.tjdBase % Config.windowBytes = 0) : s.Inv :=
  ⟨hwf, hb, hh, by simp [posOk, hp, hd, hbusy], by simp [pendOk, hd], hl, hc, ht⟩

theorem not_runnable_of_pos {s : State} (h : s.pos = none) : runnable s = false := by simp [runnable, h]

/-- A step command completes. -/
theorem moved_complete {body : Body} {s : State} (n : Nat) (h : Running body s) (hb : bodyState body = .step) :
    Moved body n (completeCommand s) := by
  refine ⟨inv_ended h.wf h.bcnt (by simp [h.halt]) rfl rfl rfl rfl (cfgOk_of_cfg h.cfg) h.base, ?_, ?_⟩
  · intro hr; simp [runnable] at hr
  · simp [hb, exits]

/-- A fault ends the command. -/
theorem moved_fault {body : Body} {s : State} (n : Nat) (e : BitVec 4) (d sy : Byte) (h : Running body s) :
    Moved body n (takeFault e d sy s) := by
  have hcfg : cfgCheck (takeFault e d sy s) = none := (cfgCheck_of_setup (setupOf_takeFault e d sy s)).trans h.cfg
  refine ⟨inv_ended (by simp [h.wf]) (by simp [h.bcnt]) ?_ (by simp) (by simp) ?_ ?_ (cfgOk_of_cfg hcfg)
    (by simp [h.base]), ?_, ?_⟩
  · unfold takeFault; split <;> simp
  · unfold takeFault; split <;> simp [busy]
  · unfold takeFault; split <;> simp [loadOk]
  · intro hr; simp [runnable] at hr
  · rcases bodyState_eq body with e | e <;> (unfold takeFault; split <;> simp [exits, e])

/-- The driver ends in DONE. -/
theorem moved_done {body : Body} {s : State} (n : Nat) (h : Running body s) (hb : bodyState body = .run) :
    Moved body n (raiseInt intDone { endCommand s with state := .done }) := by
  refine ⟨inv_ended h.wf h.bcnt (by simp [h.halt]) rfl rfl rfl rfl (cfgOk_of_cfg h.cfg) h.base, ?_, ?_⟩
  · intro hr; simp [runnable] at hr
  · simp [hb, exits]

/-! ## The driver's loop -/

theorem idctBlock_mem (b q : Nat) (s : State) :
    (idctBlock b q s).mem = tileWrite s.mem b (idctSamples s b q) := by simp only [idctBlock]

theorem wf_idctAll {s : State} (h : s.mem.wf = true) : (idctAll s).mem.wf = true := by
  unfold idctAll
  generalize List.range (slotCount s) = l
  suffices ∀ t : State, t.mem.wf = true →
      (l.foldl (fun t b => idctBlock b (qSel s (compOf s b)) t) t).mem.wf = true from this s h
  induction l with
  | nil => exact fun t ht => ht
  | cons b l ih =>
    intro t ht
    rw [List.foldl_cons]
    refine ih _ ?_
    rw [idctBlock_mem]
    exact wf_tileWrite _ _ ht

/-- The fields of the block that neither the transform nor the assembly writes. -/
theorem idctAll_fields (s : State) :
    (idctAll s).bcnt = s.bcnt ∧ (idctAll s).runhalt = s.runhalt ∧ (idctAll s).state = s.state
      ∧ (idctAll s).pend = s.pend := by
  unfold idctAll
  generalize List.range (slotCount s) = l
  suffices ∀ t : State, (l.foldl (fun t b => idctBlock b (qSel s (compOf s b)) t) t).bcnt = t.bcnt
      ∧ (l.foldl (fun t b => idctBlock b (qSel s (compOf s b)) t) t).runhalt = t.runhalt
      ∧ (l.foldl (fun t b => idctBlock b (qSel s (compOf s b)) t) t).state = t.state
      ∧ (l.foldl (fun t b => idctBlock b (qSel s (compOf s b)) t) t).pend = t.pend from this s
  induction l with
  | nil => exact fun t => ⟨rfl, rfl, rfl, rfl⟩
  | cons b l ih =>
    intro t
    have := ih (idctBlock b (qSel s (compOf s b)) t)
    simpa [idctBlock] using this

theorem wf_assembleMcu {s : State} (h : s.mem.wf = true) : (assembleMcu s).mem.wf = true := by
  simp only [assembleMcu]
  exact wf_pixWrite _ h

theorem moved_finishMcu {i n : Nat} {s : State} {body : Body} (h : Running body s)
    (hb : bodyState body = .run) : Moved body n (finishMcu i s) := by
  have hf := idctAll_fields s
  have ha : (assembleMcu (idctAll s)).bcnt = s.bcnt ∧ (assembleMcu (idctAll s)).runhalt = s.runhalt
      ∧ (assembleMcu (idctAll s)).state = s.state ∧ (assembleMcu (idctAll s)).pend = s.pend := by
    simp only [assembleMcu]; exact hf
  have hr : Running body (assembleMcu (idctAll s)) :=
    h.of_eq (by simp) (wf_assembleMcu (wf_idctAll h.wf)) (by rw [ha.1]; exact h.bcnt) ha.2.1 ha.2.2.1
      (ha.2.2.2.trans h.pend)
  have hg := moved_goto (body' := .drive i) (p := .emit) (n := n) hr hb.symm rfl rfl (by simp)
  exact ⟨hg.inv, hg.cost, hg.exits⟩

theorem moved_blockFrom {i b n : Nat} {s : State} {body : Body} (h : Running body s)
    (hb : bodyState body = .run) (hn : 2113 * (11 - b) + 2112 < n) : Moved body n (blockFrom i b s) := by
  unfold blockFrom
  split
  · next hlt =>
    have h12 := (slots_of_cfg h.cfg).2.2
    refine moved_goto h hb.symm ?_ rfl fun _ => by simpa [pointCost] using hn
    have := compOf_lt s b
    simp [pointOk, Config.maxComponents, Config.slots]
    exact ⟨decide_eq_true this, decide_eq_true (by omega)⟩
  · exact moved_finishMcu h hb

theorem moved_afterRestart {body : Body} {s : State} {n : Nat} (h : Running body s)
    (hf : bodyFits body .rstSecond = true) (hn : 25359 ≤ n) : Moved body n (afterRestart body s) := by
  cases body with
  | drive i => exact moved_blockFrom h rfl (by omega)
  | restart => exact moved_complete n h rfl
  | decDc => simp [bodyFits] at hf
  | decAc => simp [bodyFits] at hf
  | decBlk => simp [bodyFits] at hf
  | resync r => simp [bodyFits] at hf

theorem moved_checkMarker {body : Body} {s : State} {n : Nat} (x : Byte) (h : Running body s)
    (hf : bodyFits body .rstSecond = true) (hn : 25359 ≤ n) : Moved body n (checkMarker body x s) := by
  unfold checkMarker
  split
  · exact moved_afterRestart (h.of_eq rfl h.wf h.bcnt rfl rfl h.pend) hf hn
  · exact moved_fault n _ _ _ (h.of_eq rfl h.wf h.bcnt rfl rfl h.pend)

theorem moved_restartCheck {body : Body} {s : State} {n : Nat} (h : Running body s)
    (hf : bodyFits body .rstSecond = true) (hf' : bodyFits body .rstFirst = true) (hn : 25362 ≤ n) :
    Moved body n (restartCheck body s) := by
  unfold restartCheck
  dsimp only
  split
  · exact moved_checkMarker _ (h.of_eq rfl h.wf (by simp) rfl rfl h.pend) hf (by omega)
  · exact moved_goto (h.of_eq rfl h.wf (by simp) rfl rfl h.pend) rfl rfl hf'
      fun _ => by simp only [pointCost]; omega

theorem moved_nextMcuStep {i : Nat} {skip : Bool} {s : State} {body : Body} {n : Nat} (h : Running body s)
    (hb : bodyState body = .run) (hn : 25362 ≤ n) : Moved body n (nextMcuStep i skip s) := by
  have key : ∀ t, Running body t → Moved body n (restartCheck (.drive i) t) := by
    intro t ht
    have ht' : Running (.drive i) t :=
      ⟨ht.wf, ht.bcnt, ht.halt, by rw [ht.state, hb]; rfl, ht.pend, ht.cfg, ht.base⟩
    have := moved_restartCheck (n := n) ht' rfl rfl hn
    exact ⟨this.inv, this.cost, by rw [hb]; exact this.exits⟩
  unfold nextMcuStep
  dsimp only
  split
  · split
    · exact key _ (h.of_eq rfl h.wf h.bcnt rfl rfl h.pend)
    · exact moved_blockFrom (h.of_eq rfl h.wf h.bcnt rfl rfl h.pend) hb (by omega)
  · exact moved_done n h hb

theorem moved_resyncFound {fromRun : Bool} {m : BitVec 3} {s : State} {n : Nat}
    (h : Running (.resync fromRun) s) (hn : 25363 ≤ n) : Moved (.resync fromRun) n (resyncFound fromRun m s) := by
  unfold resyncFound
  dsimp only
  split
  · next hr =>
    subst hr
    split
    · exact moved_done n (h.of_eq rfl h.wf h.bcnt rfl rfl h.pend) rfl
    · exact moved_goto (h.of_eq rfl h.wf h.bcnt rfl rfl h.pend) rfl rfl rfl
        fun _ => by simp only [pointCost]; omega
  · next hr =>
    have hr' : fromRun = false := by simpa using hr
    subst hr'
    exact moved_complete n (h.of_eq rfl h.wf h.bcnt rfl rfl h.pend) rfl

theorem moved_resyncBegin {fromRun : Bool} {s : State} {n : Nat} (h : Running (.resync fromRun) s)
    (hn : 25364 ≤ n) : Moved (.resync fromRun) n (resyncBegin fromRun s) := by
  unfold resyncBegin
  dsimp only
  split
  · exact moved_resyncFound (h.of_eq rfl h.wf (by simp) rfl rfl h.pend) (by omega)
  · exact moved_goto (h.of_eq rfl h.wf (by simp) rfl rfl h.pend) rfl rfl rfl
      fun _ => by simp only [pointCost]; omega

/-! ## Decoding -/

theorem moved_blockDone {body : Body} {c b k n : Nat} {t : Byte} {s : State} (h : Running body s)
    (hf : bodyFits body (.acSymbol c b k t) = true) (hn : b < 11 → 2113 * (11 - b) - 1 < n) (hb : b < 12) :
    Moved body n (blockDone body b s) := by
  cases body with
  | drive i =>
    by_cases h11 : b < 11
    · exact moved_blockFrom h rfl (by have := hn h11; omega)
    · have : ¬(b + 1 < slotCount s) := by have := (slots_of_cfg h.cfg).2.2; omega
      simp only [blockDone, blockFrom, this, if_false]
      exact moved_finishMcu h rfl
  | decAc => exact moved_complete n h rfl
  | decBlk => exact moved_complete n h rfl
  | decDc => simp [bodyFits] at hf
  | restart => simp [bodyFits] at hf
  | resync r => simp [bodyFits] at hf

theorem moved_startAc {body : Body} {c b n : Nat} {s : State} (h : Running body s)
    (hf : bodyFits body (.acCode c b 1 0 0) = true) (hc : c < 3) (hb : b < 12)
    (hn : 2113 * (11 - b) + 2079 < n) : Moved body n (startAc body c b s) := by
  unfold startAc
  have hw := wf_coefClear b 1 63 h.wf
  generalize coefClear s.mem b 1 63 = m at hw
  have h' : Running body { s with mem := m } := h.of_eq rfl hw h.bcnt rfl rfl h.pend
  refine moved_goto h' rfl ?_ hf ?_
  · simp [pointOk, Config.maxComponents, Config.slots, hc, hb]
  · intro _; simp only [pointCost]; omega

theorem moved_dcFinish {body : Body} {c b n : Nat} {d : Int} {t : Byte} {s : State} (h : Running body s)
    (hf : bodyFits body (.dcSymbol c b t) = true) (hc : c < 3) (hb : b < 12)
    (hn : 2113 * (11 - b) + 2079 < n) : Moved body n (dcFinish body c b d s) := by
  have h' : Running body (predWrite { s with mem := coefWrite s.mem b 0 (s16 ((predRead s c).toInt + d)) } c
      (s16 ((predRead s c).toInt + d))) :=
    h.of_eq rfl (wf_coefWrite _ _ _ h.wf) h.bcnt rfl rfl h.pend
  unfold dcFinish
  cases body with
  | decDc => exact moved_complete n h' rfl
  | decBlk => exact moved_startAc h' rfl hc hb hn
  | drive i => exact moved_startAc h' rfl hc hb hn
  | decAc => simp [bodyFits] at hf
  | restart => simp [bodyFits] at hf
  | resync r => simp [bodyFits] at hf

theorem moved_acNext {body : Body} {c b k n : Nat} {t : Byte} {s : State} (h : Running body s)
    (hf : bodyFits body (.acSymbol c b 1 t) = true) (hc : c < 3) (hb : b < 12) (hk : 1 ≤ k)
    (hn : 2113 * (11 - b) + 33 * (64 - k) < n) : Moved body n (acNext body c b k s) := by
  unfold acNext
  split
  · next h63 =>
    have hf' : bodyFits body (.acCode c b k 0 0) = true := by cases body <;> simp_all [bodyFits]
    refine moved_goto h rfl ?_ hf' fun _ => by simp only [pointCost]; omega
    simp [pointOk, Config.maxComponents, Config.slots, hc, hb, hk, h63]
  · exact moved_blockDone h hf (by omega) hb

/-- A taken bit leaves the body running. -/
theorem Running.bit {body : Body} {s : State} (h : Running body s) (h0 : s.bcnt ≠ 0#4) :
    Running body { s with bcnt := s.bcnt - 1#4 } := by
  refine h.of_eq rfl h.wf ?_ rfl rfl h.pend
  have := h.bcnt
  have : s.bcnt.toNat ≠ 0 := fun e => h0 (by apply BitVec.eq_of_toNat_eq; simpa using e)
  show (s.bcnt - 1#4).toNat ≤ 8
  bv_omega

theorem Running.fill {body : Body} {s : State} (h : Running body s) :
    Running body { s with cbits := Config.fillByte, bcnt := 7#4 } :=
  h.of_eq rfl h.wf (show (7#4).toNat ≤ 8 by decide) rfl rfl h.pend

/-- NextBit and what is done with the bit, at a point that takes bits. -/
theorem moved_withBit {body : Body} {p : Point} {s : State} {n : Nat} {use : Bool → State → State}
    (h : Running body s) (hpos : s.pos = some ⟨body, p⟩) (hp : pointOk p = true) (hf : bodyFits body p = true)
    (hbits : pendOk { s with pend := some .dataFirst, bcnt := 0#4, mp := false, eos := false } = true)
    (huse : ∀ b t, Running body t → Moved body n (use b t)) : Moved body n (withBit s use) := by
  unfold withBit
  split
  · next h0 =>
    split
    · exact huse _ _ h.fill
    · next hme =>
      simp only [Bool.or_eq_true, not_or, Bool.not_eq_true] at hme
      refine ⟨⟨h.wf, h.bcnt, by simp [h.halt], ?_, ?_, ?_, cfgOk_of_cfg h.cfg, h.base⟩, ?_, ?_⟩
      · simp [posOk, hpos, h.state, hp, hf]
      · simp only [pendOk, hpos, h0, hme] at hbits ⊢
        exact hbits
      · rcases bodyState_eq body with e | e <;> simp [loadOk, h.state, e]
      · intro hr; simp [runnable, hpos] at hr
      · rw [show ({ s with pend := some Pend.dataFirst } : State).state = bodyState body from h.state]
        exact exits_self _
  · next h0 => exact huse _ _ (h.bit h0)

theorem moved_huffBit {body : Body} {T : HuffTable} {len code n : Nat} {bit : Bool} {s : State}
    {matched : Byte → State → State} {more : Nat → Nat → State → State} (h : Running body s)
    (h1 : ∀ sy, Moved body n (matched sy s))
    (h2 : len + 1 < 16 → ∀ code', Moved body n (more (len + 1) code' s)) :
    Moved body n (huffBit T len code bit matched more s) := by
  unfold huffBit
  split
  · exact h1 _
  · split
    · exact moved_fault n _ _ _ h
    · next hl => exact h2 (by omega) _

theorem moved_dcReceive {body : Body} {c b size left raw n : Nat} {bit : Bool} {s : State} {t : Byte}
    (h : Running body s) (hf : bodyFits body (.dcSymbol c b t) = true) (hc : c < 3) (hb : b < 12)
    (hl : 1 ≤ left) (hls : left ≤ size) (hs : size ≤ 15) (hn : 2113 * (11 - b) + 2079 + left < n) :
    Moved body n (dcReceive body c b size left raw bit s) := by
  unfold dcReceive
  split
  · exact moved_dcFinish h hf hc hb (by omega)
  · have hf' : bodyFits body (.dcBits c b size (left - 1) (2 * raw + bit.toNat)) = true := by
      cases body <;> simp_all [bodyFits]
    refine moved_goto h rfl ?_ hf' fun _ => by simp only [pointCost]; omega
    simp [pointOk, Config.maxComponents, Config.slots, hc, hb]
    omega

theorem moved_acReceive {body : Body} {c b k size left raw n : Nat} {bit : Bool} {s : State} {t : Byte}
    (h : Running body s) (hf : bodyFits body (.acSymbol c b 1 t) = true) (hc : c < 3) (hb : b < 12)
    (hk : 1 ≤ k) (hk' : k ≤ 63) (hl : 1 ≤ left) (hls : left ≤ size) (hs : size ≤ 15)
    (hn : 2113 * (11 - b) + 33 * (64 - k) + left - 33 < n) :
    Moved body n (acReceive body c b k size left raw bit s) := by
  unfold acReceive
  split
  · exact moved_acNext (h.of_eq rfl (wf_coefWrite _ _ _ h.wf) h.bcnt rfl rfl h.pend) hf hc hb (by omega)
      (by omega)
  · have hf' : bodyFits body (.acBits c b k size (left - 1) (2 * raw + bit.toNat)) = true := by
      cases body <;> simp_all [bodyFits]
    refine moved_goto h rfl ?_ hf' fun _ => by simp only [pointCost]; omega
    simp [pointOk, Config.maxComponents, Config.slots, hc, hb]
    omega

/-! ## One move -/

/-- What the invariant says of a block that can move. -/
theorem running_of_inv {s : State} (h : s.Inv) {p : Pos} (hp : s.pos = some p) (hd : s.pend = none) :
    Running p.body s ∧ pointOk p.point = true ∧ bodyFits p.body p.point = true := by
  obtain ⟨hwf, hb, hh, hpos, -, -, hc, ht⟩ := h
  simp only [posOk, hp, Bool.and_eq_true, beq_iff_eq] at hpos
  have hst := hpos.1.1
  refine ⟨⟨hwf, hb, ?_, hst, hd, ?_, ht⟩, hpos.1.2, hpos.2⟩
  · by_contra hr
    have := hh (by simpa using hr)
    rcases bodyState_eq p.body with e | e <;> simp [hst, e] at this
  · rcases bodyState_eq p.body with e | e <;> simpa [cfgOk, busy, hst, e] using hc

/-! ### What each symbol does at the point that has matched it -/

theorem dcDiffEffect_at {s : State} {body : Body} {c b : Nat} {t : Byte}
    (h : s.pos = some ⟨body, .dcSymbol c b t⟩) (size : BitVec 4) :
    dcDiffEffect size s = some (if size = 0#4 then dcFinish body c b 0 s
      else goto body (.dcBits c b size.toNat size.toNat 0) s) := by simp [dcDiffEffect, dcSymbolAt, h]

theorem dcIllegalEffect_at {s : State} {body : Body} {c b : Nat} {t : Byte}
    (h : s.pos = some ⟨body, .dcSymbol c b t⟩) (u : Byte) :
    dcIllegalEffect u s = some (takeFault errFormat dtDcSize u s) := by simp [dcIllegalEffect, dcSymbolAt, h]

theorem acEobEffect_at {s : State} {body : Body} {c b k : Nat} {t : Byte}
    (h : s.pos = some ⟨body, .acSymbol c b k t⟩) : acEobEffect s = some (blockDone body b s) := by
  simp [acEobEffect, acSymbolAt, h]

theorem acZrlEffect_at {s : State} {body : Body} {c b k : Nat} {t : Byte}
    (h : s.pos = some ⟨body, .acSymbol c b k t⟩) :
    acZrlEffect s = some (if 64 < k + 16 then takeFault errFormat dtAcOverrun 0xF0#8 s
      else acNext body c b (k + 16) s) := by simp [acZrlEffect, acSymbolAt, h]

theorem acRunsizeEffect_at {s : State} {body : Body} {c b k : Nat} {t : Byte}
    (h : s.pos = some ⟨body, .acSymbol c b k t⟩) (r size : BitVec 4) :
    acRunsizeEffect r size s = some (if 63 < k + r.toNat then takeFault errFormat dtAcOverrun (r ++ size) s
      else goto body (.acBits c b (k + r.toNat) size.toNat size.toNat 0) s) := by
  simp [acRunsizeEffect, acSymbolAt, h]

theorem acUndefEffect_at {s : State} {body : Body} {c b k : Nat} {t : Byte}
    (h : s.pos = some ⟨body, .acSymbol c b k t⟩) (r : BitVec 4) :
    acUndefEffect r s = some (takeFault errFormat dtAcUndef (r ++ 0#4) s) := by
  simp [acUndefEffect, acSymbolAt, h]

/-- A symbol's effect at the point that has matched it. -/
theorem moved_decodeDc {body : Body} {c b n : Nat} {u t : Byte} {s : State} (h : Running body s)
    (hpos : s.pos = some ⟨body, .dcSymbol c b u⟩) (hp : pointOk (.dcSymbol c b u) = true)
    (hf : bodyFits body (.dcSymbol c b u) = true) (hn : 2113 * (11 - b) + 2096 ≤ n) :
    ∃ v, symbolEffect (decodeDcSymbol t) s = some v ∧ Moved body n v := by
  simp only [pointOk, Bool.and_eq_true, decide_eq_true_eq] at hp
  simp only [Config.maxComponents, Config.slots] at hp
  unfold decodeDcSymbol
  split
  · refine ⟨_, dcDiffEffect_at hpos _, ?_⟩
    split
    · exact moved_dcFinish h hf hp.1 hp.2 (by omega)
    · next hz =>
      generalize hg : t.extractLsb' 0 4 = size at hz
      have h1 : 1 ≤ size.toNat := by
        rcases Nat.eq_zero_or_pos size.toNat with e | e
        · exact absurd (BitVec.eq_of_toNat_eq (by simpa using e)) hz
        · exact e
      have h2 := size.isLt
      have hf' : bodyFits body (.dcBits c b size.toNat size.toNat 0) = true := by
        cases body <;> simp_all [bodyFits]
      refine moved_goto h rfl ?_ hf' fun _ => by simp only [pointCost]; omega
      simp only [pointOk, Bool.and_eq_true, decide_eq_true_eq]
      simp only [Config.maxComponents, Config.slots]
      omega
  · exact ⟨_, dcIllegalEffect_at hpos _, moved_fault n _ _ _ h⟩

theorem moved_decodeAc {body : Body} {c b k n : Nat} {u t : Byte} {s : State} (h : Running body s)
    (hpos : s.pos = some ⟨body, .acSymbol c b k u⟩) (hp : pointOk (.acSymbol c b k u) = true)
    (hf : bodyFits body (.acSymbol c b k u) = true) (hn : 2113 * (11 - b) + 33 * (64 - k) - 16 ≤ n) :
    ∃ v, symbolEffect (decodeAcSymbol t) s = some v ∧ Moved body n v := by
  simp only [pointOk, Bool.and_eq_true, decide_eq_true_eq] at hp
  simp only [Config.maxComponents, Config.slots] at hp
  have hf1 : bodyFits body (.acSymbol c b 1 u) = true := by cases body <;> simp_all [bodyFits]
  unfold decodeAcSymbol
  split
  · exact ⟨_, acEobEffect_at hpos,
      moved_blockDone h hf (by omega) hp.1.1.2⟩
  · split
    · refine ⟨_, acZrlEffect_at hpos, ?_⟩
      split
      · exact moved_fault n _ _ _ h
      · exact moved_acNext h hf1 hp.1.1.1 hp.1.1.2 (by omega) (by omega)
    · split
      · exact ⟨_, acUndefEffect_at hpos _, moved_fault n _ _ _ h⟩
      · next hz =>
        refine ⟨_, acRunsizeEffect_at hpos _ _, ?_⟩
        split
        · exact moved_fault n _ _ _ h
        · generalize t.extractLsb' 4 4 = r at *
          generalize t.extractLsb' 0 4 = size at *
          have h1 : 1 ≤ size.toNat := by
            rcases Nat.eq_zero_or_pos size.toNat with e | e
            · exact absurd (BitVec.eq_of_toNat_eq (by simpa using e)) hz
            · exact e
          have h2 := size.isLt
          have hf' : bodyFits body (.acBits c b (k + r.toNat) size.toNat size.toNat 0) = true := by
            cases body <;> simp_all [bodyFits]
          refine moved_goto h rfl ?_ hf' fun _ => by simp only [pointCost]; omega
          simp only [pointOk, Bool.and_eq_true, decide_eq_true_eq]
          simp only [Config.maxComponents, Config.slots]
          omega

theorem moved_withRawByte {body : Body} {p : Point} {s : State} {n : Nat} {use : Byte → State → State}
    (h : Running body s) (hpos : s.pos = some ⟨body, p⟩) (hp : pointOk p = true) (hf : bodyFits body p = true)
    (hraw : pendOk { s with pend := some .raw, eos := false } = true)
    (huse : s.eos = true → Moved body n (use Config.fillByte s)) : Moved body n (withRawByte s use) := by
  unfold withRawByte
  split
  · next he => exact huse he
  · next he =>
    have he' : s.eos = false := by simpa using he
    refine ⟨⟨h.wf, h.bcnt, by simp [h.halt], ?_, ?_, ?_, cfgOk_of_cfg h.cfg, h.base⟩, ?_, ?_⟩
    · simp [posOk, hpos, h.state, hp, hf]
    · simp only [pendOk, hpos, he'] at hraw ⊢
      exact hraw
    · rcases bodyState_eq body with e | e <;> simp [loadOk, h.state, e]
    · intro hr; simp [runnable, hpos] at hr
    · rw [show ({ s with pend := some Pend.raw } : State).state = bodyState body from h.state]
      exact exits_self _

/-- The byte of a RawRead, at the points that read one. -/
theorem moved_rawByte {body : Body} {p : Point} {s : State} {n : Nat} (x : Byte) (h : Running body s)
    (hp : p = .rstFirst ∨ p = .rstSecond ∨ ∃ q, p = .scan q) (hf : bodyFits body p = true)
    (hn : pointCost p ≤ n) (hq : s.eos = true ∨ pointCost p < n) : Moved body n (rawByte ⟨body, p⟩ x s) := by
  rcases hp with rfl | rfl | ⟨q, rfl⟩
  · have hf' : bodyFits body .rstSecond = true := by cases body <;> simp_all [bodyFits]
    simp only [rawByte, pointCost] at *
    split
    · exact moved_goto h rfl rfl hf' fun _ => by simp only [pointCost]; omega
    · exact moved_fault n _ _ _ h
  · simp only [rawByte, pointCost] at *
    exact moved_checkMarker x h hf (by omega)
  · simp only [rawByte, pointCost] at *
    split
    · exact moved_fault n _ _ _ h
    · cases body with
      | resync fromRun =>
        unfold scanByte
        split
        · exact moved_resyncFound h (by omega)
        · refine moved_goto h rfl rfl rfl fun _ => ?_
          simp only [pointCost]
          simp_all
      | decDc => simp [bodyFits] at hf
      | decAc => simp [bodyFits] at hf
      | decBlk => simp [bodyFits] at hf
      | restart => simp [bodyFits] at hf
      | drive i => simp [bodyFits] at hf

/-! ### blockMove at each point -/

section
variable {s : State} {body : Body}

theorem blockMove_dcCode {c b len code : Nat} (h : s.pos = some ⟨body, .dcCode c b len code⟩) :
    blockMove s = withBit s fun bit t =>
      huffBit (dcTable t c) len code bit (fun sy => goto body (.dcSymbol c b sy))
        (fun len' code' => goto body (.dcCode c b len' code')) t := by unfold blockMove; rw [h]

theorem blockMove_acCode {c b k len code : Nat} (h : s.pos = some ⟨body, .acCode c b k len code⟩) :
    blockMove s = withBit s fun bit t =>
      huffBit (acTable t c) len code bit (fun sy => goto body (.acSymbol c b k sy))
        (fun len' code' => goto body (.acCode c b k len' code')) t := by unfold blockMove; rw [h]

theorem blockMove_dcBits {c b size left raw : Nat} (h : s.pos = some ⟨body, .dcBits c b size left raw⟩) :
    blockMove s = withBit s fun bit t => dcReceive body c b size left raw bit t := by unfold blockMove; rw [h]

theorem blockMove_acBits {c b k size left raw : Nat} (h : s.pos = some ⟨body, .acBits c b k size left raw⟩) :
    blockMove s = withBit s fun bit t => acReceive body c b k size left raw bit t := by unfold blockMove; rw [h]

theorem blockMove_dcSymbol {c b : Nat} {t : Byte} (h : s.pos = some ⟨body, .dcSymbol c b t⟩) :
    blockMove s = (symbolEffect (decodeDcSymbol t) s).getD s := by unfold blockMove; rw [h]

theorem blockMove_acSymbol {c b k : Nat} {t : Byte} (h : s.pos = some ⟨body, .acSymbol c b k t⟩) :
    blockMove s = (symbolEffect (decodeAcSymbol t) s).getD s := by unfold blockMove; rw [h]

theorem blockMove_rstFirst (h : s.pos = some ⟨body, .rstFirst⟩) :
    blockMove s = withRawByte s (rawByte ⟨body, .rstFirst⟩) := by unfold blockMove; rw [h]

theorem blockMove_rstSecond (h : s.pos = some ⟨body, .rstSecond⟩) :
    blockMove s = withRawByte s (rawByte ⟨body, .rstSecond⟩) := by unfold blockMove; rw [h]

theorem blockMove_scan {q : Bool} (h : s.pos = some ⟨body, .scan q⟩) :
    blockMove s = withRawByte s (rawByte ⟨body, .scan q⟩) := by unfold blockMove; rw [h]

theorem blockMove_nextMcu {i : Nat} {skip : Bool} (h : s.pos = some ⟨.drive i, .nextMcu skip⟩) :
    blockMove s = nextMcuStep i skip s := by unfold blockMove; rw [h]

end

/-- ONE MOVE: from a state that meets the invariant and can move, the block reaches a state that meets it, at a
lower cost while it can go on, with STATE along the arrows. -/
theorem moved_blockMove {s : State} (h : s.Inv) (hr : runnable s = true) :
    ∃ p, s.pos = some p ∧ Moved p.body (cost s) (blockMove s) := by
  cases hpos : s.pos with
  | none => simp [runnable, hpos] at hr
  | some p =>
    obtain ⟨body, pt⟩ := p
    have hd : s.pend = none := by
      simp only [runnable, hpos, Bool.and_eq_true, Option.isNone_iff_eq_none] at hr
      exact hr.1
    obtain ⟨hrun, hp, hf⟩ := running_of_inv h hpos hd
    refine ⟨_, rfl, ?_⟩
    have hcost : cost s = pointCost pt := by simp [cost, hpos]
    rw [hcost]
    change Running body s at hrun
    change pointOk pt = true at hp
    change bodyFits body pt = true at hf
    cases pt with
    | dcCode c b len code =>
      rw [blockMove_dcCode hpos]
      have hp' := hp
      simp only [pointOk, Bool.and_eq_true, decide_eq_true_eq] at hp'
      simp only [Config.maxComponents, Config.slots] at hp'
      refine moved_withBit hrun hpos hp hf (by simp [pendOk, hpos]) fun b' t ht => moved_huffBit ht ?_ ?_
      · intro sy
        have hf' : bodyFits body (.dcSymbol c b sy) = true := by cases body <;> simp_all [bodyFits]
        refine moved_goto ht rfl ?_ hf' fun _ => by simp only [pointCost]; omega
        simp only [pointOk, Bool.and_eq_true, decide_eq_true_eq] at hp ⊢
        exact hp.1
      · intro hl code'
        have hf' : bodyFits body (.dcCode c b (len + 1) code') = true := by cases body <;> simp_all [bodyFits]
        refine moved_goto ht rfl ?_ hf' fun _ => by simp only [pointCost]; omega
        simp only [pointOk, Bool.and_eq_true, decide_eq_true_eq] at hp ⊢
        exact ⟨hp.1, hl⟩
    | dcSymbol c b t =>
      rw [blockMove_dcSymbol hpos]
      obtain ⟨v, hv, hm⟩ := moved_decodeDc (t := t) hrun hpos hp hf (n := pointCost (.dcSymbol c b t))
        (by simp only [pointCost]; omega)
      rw [hv]; exact hm
    | dcBits c b size left raw =>
      rw [blockMove_dcBits hpos]
      have hp' := hp
      simp only [pointOk, Bool.and_eq_true, decide_eq_true_eq] at hp'
      simp only [Config.maxComponents, Config.slots] at hp'
      have hf' : bodyFits body (.dcSymbol c b 0#8) = true := by cases body <;> simp_all [bodyFits]
      exact moved_withBit hrun hpos hp hf (by simp [pendOk, hpos]) fun b' t ht =>
        moved_dcReceive ht hf' (by omega) (by omega) (by omega) (by omega) (by omega)
          (by simp only [pointCost]; omega)
    | acCode c b k len code =>
      rw [blockMove_acCode hpos]
      have hp' := hp
      simp only [pointOk, Bool.and_eq_true, decide_eq_true_eq] at hp'
      simp only [Config.maxComponents, Config.slots] at hp'
      refine moved_withBit hrun hpos hp hf (by simp [pendOk, hpos]) fun b' t ht => moved_huffBit ht ?_ ?_
      · intro sy
        have hf' : bodyFits body (.acSymbol c b k sy) = true := by cases body <;> simp_all [bodyFits]
        refine moved_goto ht rfl ?_ hf' fun _ => by simp only [pointCost]; omega
        simp only [pointOk, Bool.and_eq_true, decide_eq_true_eq] at hp ⊢
        exact hp.1
      · intro hl code'
        have hf' : bodyFits body (.acCode c b k (len + 1) code') = true := by cases body <;> simp_all [bodyFits]
        refine moved_goto ht rfl ?_ hf' fun _ => by simp only [pointCost]; omega
        simp only [pointOk, Bool.and_eq_true, decide_eq_true_eq] at hp ⊢
        exact ⟨hp.1, hl⟩
    | acSymbol c b k t =>
      rw [blockMove_acSymbol hpos]
      obtain ⟨v, hv, hm⟩ := moved_decodeAc (t := t) hrun hpos hp hf (n := pointCost (.acSymbol c b k t))
        (by simp only [pointCost]; omega)
      rw [hv]; exact hm
    | acBits c b k size left raw =>
      rw [blockMove_acBits hpos]
      have hp' := hp
      simp only [pointOk, Bool.and_eq_true, decide_eq_true_eq] at hp'
      simp only [Config.maxComponents, Config.slots] at hp'
      have hf' : bodyFits body (.acSymbol c b 1 0#8) = true := by cases body <;> simp_all [bodyFits]
      exact moved_withBit hrun hpos hp hf (by simp [pendOk, hpos]) fun b' t ht =>
        moved_acReceive ht hf' (by omega) (by omega) (by omega) (by omega) (by omega) (by omega) (by omega)
          (by simp only [pointCost]; omega)
    | rstFirst =>
      rw [blockMove_rstFirst hpos]
      exact moved_withRawByte hrun hpos hp hf (by simp [pendOk, hpos]) fun he =>
        moved_rawByte _ hrun (.inl rfl) hf (Nat.le_refl _) (.inl he)
    | rstSecond =>
      rw [blockMove_rstSecond hpos]
      exact moved_withRawByte hrun hpos hp hf (by simp [pendOk, hpos]) fun he =>
        moved_rawByte _ hrun (.inr (.inl rfl)) hf (Nat.le_refl _) (.inl he)
    | scan q =>
      rw [blockMove_scan hpos]
      exact moved_withRawByte hrun hpos hp hf (by simp [pendOk, hpos]) fun he =>
        moved_rawByte _ hrun (.inr (.inr ⟨q, rfl⟩)) hf (Nat.le_refl _) (.inl he)
    | nextMcu skip =>
      cases body with
      | drive i => rw [blockMove_nextMcu hpos]; exact moved_nextMcuStep hrun rfl (by simp [pointCost])
      | decDc => simp [bodyFits] at hf
      | decAc => simp [bodyFits] at hf
      | decBlk => simp [bodyFits] at hf
      | restart => simp [bodyFits] at hf
      | resync r => simp [bodyFits] at hf
    | emit => simp [runnable, hpos] at hr

/-! ## A whole run -/

/-- The invariant and a property that every move keeps hold after a run. -/
theorem settle_inv_induct {P : State → Prop}
    (hmove : ∀ s, s.Inv → runnable s = true → P s → P (blockMove s)) (n : Nat) (s : State) (hi : s.Inv)
    (hp : P s) : (settle n s).Inv ∧ P (settle n s) :=
  settle_induct (P := fun t => t.Inv ∧ P t)
    (fun t ht hr => by
      obtain ⟨p, -, hm⟩ := moved_blockMove ht.1 hr
      exact ⟨hm.inv, hmove t ht.1 hr ht.2⟩) n s ⟨hi, hp⟩

theorem inv_settle (n : Nat) {s : State} (h : s.Inv) : (settle n s).Inv :=
  (settle_inv_induct (P := fun _ => True) (fun _ _ _ _ => trivial) n s h trivial).1

/-- With more fuel than the cost, the run reaches its suspension point. -/
theorem runnable_settle {n : Nat} {s : State} (h : s.Inv) (hn : runnable s = true → cost s < n) :
    runnable (settle n s) = false := by
  induction n generalizing s with
  | zero =>
    by_cases hr : runnable s = true
    · exact absurd (hn hr) (by omega)
    · simpa [settle] using hr
  | succ n ih =>
    by_cases hr : runnable s = true
    · obtain ⟨p, -, hm⟩ := moved_blockMove h hr
      rw [settle_succ hr]
      refine ih hm.inv fun hr' => ?_
      have h1 := hm.cost hr'
      have h2 := hn hr
      omega
    · have hr' : runnable s = false := by simpa using hr
      rw [settle_of_not_runnable hr', hr']

/-- The cost of a state that meets the invariant is below the fuel of a run. -/
theorem cost_lt_moveBound {s : State} (h : s.Inv) : cost s < moveBound := by
  unfold cost moveBound
  split
  · decide
  · next p hp =>
    have hpos := h.2.2.2.1
    simp only [posOk, hp, Bool.and_eq_true] at hpos
    have hpt := hpos.1.2
    generalize p.point = pt at hpt
    cases pt <;> simp only [pointOk, Bool.and_eq_true, decide_eq_true_eq] at hpt <;>
      (try simp only [Config.maxComponents, Config.slots] at hpt) <;> simp only [pointCost] <;> omega

theorem Inv.tick {s : State} (h : s.Inv) : State.Inv { s with epoch := s.epoch + 1 } := h

theorem inv_runBlock {s : State} (h : s.Inv) : (runBlock s).Inv := inv_settle _ (Inv.tick h)

/-- THE BLOCK'S RUN ENDS: from a state that meets the invariant it reaches a suspension point. -/
theorem runnable_runBlock {s : State} (h : s.Inv) : runnable (runBlock s) = false :=
  runnable_settle (Inv.tick h) fun _ => cost_lt_moveBound (Inv.tick h)

/-- A run moves STATE along the arrows of the executing state. -/
theorem exits_runBlock {s : State} (h : s.Inv) : exits s.state (runBlock s).state = true := by
  have key := settle_inv_induct (P := fun t => exits s.state t.state = true) (fun t ht hr he => ?_) moveBound
    { s with epoch := s.epoch + 1 } (Inv.tick h) (exits_self _)
  · exact key.2
  · obtain ⟨p, hp, hm⟩ := moved_blockMove ht hr
    have hst : t.state = bodyState p.body := by
      have := ht.2.2.2.1
      simp only [posOk, hp, Bool.and_eq_true, beq_iff_eq] at this
      exact this.1.1
    have h2 := hm.exits
    rw [← hst] at h2
    revert he h2
    generalize s.state = a
    generalize t.state = b at *
    generalize (blockMove t).state = d
    rcases bodyState_eq p.body with e | e <;> rw [e] at hst <;> subst hst <;> cases a <;> cases d <;> decide

/-! ## A driver among an MCU's blocks -/

/-- The driver decodes an MCU's blocks or offers it: it is at no head of its loop and at no marker. -/
def inMcu (s : State) : Prop :=
  ∃ i pt, s.pos = some ⟨.drive i, pt⟩ ∧
    match pt with
    | .rstFirst => False
    | .rstSecond => False
    | .scan _ => False
    | .nextMcu _ => False
    | _ => True

/-- Among an MCU's blocks, or ended by a fault that enters ERROR. -/
def inMcuOrError (s : State) : Prop := (s.state = .run ∧ inMcu s) ∨ s.state = .error

theorem inMcuOrError_goto {i : Nat} {pt : Point} {s : State} (h : s.state = .run)
    (hp : match pt with
      | .rstFirst => False
      | .rstSecond => False
      | .scan _ => False
      | .nextMcu _ => False
      | _ => True) : inMcuOrError (goto (.drive i) pt s) :=
  .inl ⟨h, i, pt, rfl, hp⟩

theorem inMcuOrError_fault {e : BitVec 4} (he : e ≠ errSync) (d sy : Byte) (s : State) :
    inMcuOrError (takeFault e d sy s) := by
  right
  unfold takeFault
  rw [if_neg (fun h => he h.1)]
  rfl

theorem inMcuOrError_finishMcu (i : Nat) {s : State} (h : s.state = .run) : inMcuOrError (finishMcu i s) := by
  refine .inl ⟨?_, i, .emit, rfl, trivial⟩
  simp only [finishMcu, raiseInt_state, goto_state, assembleMcu]
  exact (idctAll_fields s).2.2.1.trans h

theorem inMcuOrError_blockFrom (i b : Nat) {s : State} (h : s.state = .run) : inMcuOrError (blockFrom i b s) := by
  unfold blockFrom
  split
  · exact inMcuOrError_goto h trivial
  · exact inMcuOrError_finishMcu i h

theorem inMcuOrError_withBit {s : State} {use : Bool → State → State} (h : inMcu s) (hr : s.state = .run)
    (huse : ∀ b t, t.state = .run → inMcuOrError (use b t)) : inMcuOrError (withBit s use) := by
  unfold withBit
  split
  · split
    · exact huse _ _ hr
    · exact .inl ⟨hr, h⟩
  · exact huse _ _ hr

theorem inMcuOrError_huffBit {T : HuffTable} {len code : Nat} {bit : Bool} {s : State}
    {matched : Byte → State → State} {more : Nat → Nat → State → State}
    (h1 : ∀ sy, inMcuOrError (matched sy s)) (h2 : ∀ l c, inMcuOrError (more l c s)) :
    inMcuOrError (huffBit T len code bit matched more s) := by
  unfold huffBit
  split
  · exact h1 _
  · split
    · exact inMcuOrError_fault (by decide) _ _ _
    · exact h2 _ _

theorem inMcuOrError_dcFinish {i c b : Nat} {d : Int} {s : State} (h : s.state = .run) :
    inMcuOrError (dcFinish (.drive i) c b d s) := by
  unfold dcFinish startAc
  exact inMcuOrError_goto h trivial

theorem inMcuOrError_acNext {i c b k : Nat} {s : State} (h : s.state = .run) :
    inMcuOrError (acNext (.drive i) c b k s) := by
  unfold acNext
  split
  · exact inMcuOrError_goto h trivial
  · exact inMcuOrError_blockFrom i (b + 1) h

/-- Among an MCU's blocks the driver stays there until it offers the MCU, or faults into ERROR. -/
theorem inMcuOrError_blockMove {s : State} (h : inMcu s) (hr : s.state = .run) : inMcuOrError (blockMove s) := by
  obtain ⟨i, pt, hpos, hpt⟩ := h
  have hin : inMcu s := ⟨i, pt, hpos, hpt⟩
  cases pt with
  | rstFirst => exact hpt.elim
  | rstSecond => exact hpt.elim
  | scan q => exact hpt.elim
  | nextMcu q => exact hpt.elim
  | emit => unfold blockMove; rw [hpos]; exact .inl ⟨hr, hin⟩
  | dcCode c b len code =>
    rw [blockMove_dcCode hpos]
    exact inMcuOrError_withBit hin hr fun _ t ht =>
      inMcuOrError_huffBit (fun _ => inMcuOrError_goto ht trivial) fun _ _ => inMcuOrError_goto ht trivial
  | acCode c b k len code =>
    rw [blockMove_acCode hpos]
    exact inMcuOrError_withBit hin hr fun _ t ht =>
      inMcuOrError_huffBit (fun _ => inMcuOrError_goto ht trivial) fun _ _ => inMcuOrError_goto ht trivial
  | dcBits c b size left raw =>
    rw [blockMove_dcBits hpos]
    refine inMcuOrError_withBit hin hr fun _ t ht => ?_
    unfold dcReceive
    split
    · exact inMcuOrError_dcFinish ht
    · exact inMcuOrError_goto ht trivial
  | acBits c b k size left raw =>
    rw [blockMove_acBits hpos]
    refine inMcuOrError_withBit hin hr fun _ t ht => ?_
    unfold acReceive
    split
    · exact inMcuOrError_acNext ht
    · exact inMcuOrError_goto ht trivial
  | dcSymbol c b t =>
    rw [blockMove_dcSymbol hpos]
    unfold decodeDcSymbol
    split
    · simp only [symbolEffect, dcDiffEffect_at hpos, Option.getD_some]
      split
      · exact inMcuOrError_dcFinish hr
      · exact inMcuOrError_goto hr trivial
    · simp only [symbolEffect, dcIllegalEffect_at hpos, Option.getD_some]
      exact inMcuOrError_fault (by decide) _ _ _
  | acSymbol c b k t =>
    rw [blockMove_acSymbol hpos]
    unfold decodeAcSymbol
    split
    · simp only [symbolEffect, acEobEffect_at hpos, Option.getD_some]
      exact inMcuOrError_blockFrom i (b + 1) hr
    · split
      · simp only [symbolEffect, acZrlEffect_at hpos, Option.getD_some]
        split
        · exact inMcuOrError_fault (by decide) _ _ _
        · exact inMcuOrError_acNext hr
      · split
        · simp only [symbolEffect, acUndefEffect_at hpos, Option.getD_some]
          exact inMcuOrError_fault (by decide) _ _ _
        · simp only [symbolEffect, acRunsizeEffect_at hpos, Option.getD_some]
          split
          · exact inMcuOrError_fault (by decide) _ _ _
          · exact inMcuOrError_goto hr trivial

/-- A run that begins among an MCU's blocks ends there or in ERROR. -/
theorem inMcuOrError_settle (n : Nat) {s : State} (hi : s.Inv) (h : inMcuOrError s) :
    inMcuOrError (settle n s) :=
  (settle_inv_induct (P := inMcuOrError) (fun t ht hr hp => by
    rcases hp with ⟨hs, hm⟩ | he
    · exact inMcuOrError_blockMove hm hs
    · have hpos := ht.2.2.2.1
      cases hp : t.pos with
      | none => simp [runnable, hp] at hr
      | some p =>
        simp only [posOk, hp, he, Bool.and_eq_true, beq_iff_eq] at hpos
        rcases bodyState_eq p.body with e | e <;> simp [e] at hpos) n s hi h).2

end Sys2Proof.Machine
end

