-- ==== Sys2Proof/Laws/Operands.lean ====
section
/-! SUPPORT. What a configuration that passes CFGCHK holds (44_driver R222), in arithmetic, and the geometry that
follows (43_color R203). -/

namespace Sys2Proof.Machine

/-- The facts CFGCHK leaves. -/
structure Accepted (s : State) : Prop where
  ncomp : ncomp s = 1 ∨ ncomp s = 3
  pixfmt : pixfmt s ≠ 3
  strategy : strategy s ≠ 3
  factors : ∀ c, c < Machine.ncomp s →
    (hFactor s c = 1 ∨ hFactor s c = 2) ∧ (vFactor s c = 1 ∨ vFactor s c = 2)
  chroma : ∀ c, c < Machine.ncomp s → hFactor s c ≤ hFactor s 0 ∧ vFactor s c ≤ vFactor s 0
  width : 0 < width s
  height : 0 < height s

theorem accepted_of_cfg {s : State} (h : cfgCheck s = none) : Accepted s := by
  unfold cfgCheck at h
  split at h
  · cases h
  next h1 =>
  split at h
  · cases h
  next h2 =>
  split at h
  · cases h
  next h3 =>
  split at h
  · cases h
  next h4 =>
  split at h
  · cases h
  next h5 =>
  simp only [Bool.not_eq_true', Bool.not_eq_false, Bool.or_eq_true, beq_iff_eq, not_or] at h1 h2 h3 h4 h5
  simp only [allComps, List.all_eq_true, List.mem_range, factorOk, Bool.and_eq_true, Bool.or_eq_true, beq_iff_eq,
    decide_eq_true_eq] at h3 h4
  refine ⟨h1, h2.1, h2.2, h3, fun c hc => ?_, by omega, by omega⟩
  rcases h4 c hc with rfl | h
  · exact ⟨Nat.le_refl _, Nat.le_refl _⟩
  · exact h

/-- An accepted configuration has at least one MCU (R203). -/
theorem nmcu_pos {s : State} (h : cfgCheck s = none) : 0 < nmcu s := by
  have ha := accepted_of_cfg h
  have hf := ha.factors 0 (by rcases ha.ncomp with e | e <;> omega)
  have h1 := ha.width
  have h2 := ha.height
  simp only [nmcu, nmcux, nmcuy, ceilDiv, mcuWidth, mcuHeight]
  refine Nat.mul_pos (Nat.div_pos ?_ ?_) (Nat.div_pos ?_ ?_) <;> omega

end Sys2Proof.Machine
end

