-- ==== Sys2Proof/Laws/PerInstr.lean ====
section
/-! SUPPORT. Statements about every instruction as syntax, one lemma per constructor. Family `Row`: the encoding
of a well-formed instruction lies in its own row of spec/opcode_table.json. -/

namespace Sys2Proof.Laws.Row

open Sys2Proof

/-- The space and the bits of a code, numbered as the opcode table numbers them: 32 bits a command word, 16 a
byte pair with the byte read first on top, 8 a symbol byte; the first component tells the DC symbols (0) from
the AC symbols (1), and is 2 for the pairs and 3 for the command words. -/
def bitsOf : Code → Nat × Nat
  | .cmd w => (3, w.toNat)
  | .pair a b => (2, 256 * a.toNat + b.toNat)
  | .dcSymbol t => (0, t.toNat)
  | .acSymbol t => (1, t.toNat)

/-- The space, the mask and the match value of an instruction's row. -/
def row : Instr → Nat × Nat × Nat
  | .nop => (3, 0xFFFFFFFF, 0x00000000)
  | .sreset => (3, 0xFFFFFFFF, 0x01000000)
  | .loadQt _ => (3, 0xFFFFFFFC, 0x10000000)
  | .loadHt _ _ => (3, 0xFFFFFFEC, 0x11000000)
  | .start => (3, 0xFFFFFFFF, 0x20000000)
  | .resync => (3, 0xFFFFFFFF, 0x21000000)
  | .decDc _ _ => (3, 0xFFFFFCF0, 0x30000000)
  | .decAc _ _ => (3, 0xFFFFFCF0, 0x31000000)
  | .decBlk _ _ => (3, 0xFFFFFCF0, 0x32000000)
  | .restart => (3, 0xFFFFFFFF, 0x33000000)
  | .idct _ _ => (3, 0xFFFFFCF0, 0x40000000)
  | .color => (3, 0xFFFFFFFF, 0x50000000)
  | .dcDiff _ => (0, 0xF0, 0x00)
  | .dcIllegal _ => (0, 0x00, 0x00)
  | .acEob => (1, 0xFF, 0x00)
  | .acZrl => (1, 0xFF, 0xF0)
  | .acRunsize _ _ => (1, 0x00, 0x00)
  | .acUndef _ => (1, 0x0F, 0x00)
  | .stuffFf00 => (2, 0xFFFF, 0xFF00)
  | .rstN _ => (2, 0xFFF8, 0xFFD0)
  | .markerOther _ => (2, 0xFF00, 0xFF00)

/-- A code lies in a row: it is of the row's space and its masked bits are the row's match value. -/
def InRow (r : Nat × Nat × Nat) (code : Code) : Prop :=
  (bitsOf code).1 = r.1 ∧ (bitsOf code).2 &&& r.2.1 = r.2.2

/-- The encoding of a well-formed instruction lies in its row. -/
def Statement (i : Instr) : Prop := i.wellFormed = true → InRow (row i) (encode i)

theorem nop : Statement .nop := fun _ => by unfold InRow; decide
theorem sreset : Statement .sreset := fun _ => by unfold InRow; decide
theorem loadQt (id : BitVec 2) : Statement (.loadQt id) := fun _ => by unfold InRow; revert id; decide
theorem loadHt (cls : Cls) (id : BitVec 2) : Statement (.loadHt cls id) := fun _ => by
  unfold InRow; cases cls <;> revert id <;> decide
theorem start : Statement .start := fun _ => by unfold InRow; decide
theorem resync : Statement .resync := fun _ => by unfold InRow; decide
theorem decDc (c : BitVec 2) (b : BitVec 4) : Statement (.decDc c b) := fun _ => by
  unfold InRow; revert c b; decide
theorem decAc (c : BitVec 2) (b : BitVec 4) : Statement (.decAc c b) := fun _ => by
  unfold InRow; revert c b; decide
theorem decBlk (c : BitVec 2) (b : BitVec 4) : Statement (.decBlk c b) := fun _ => by
  unfold InRow; revert c b; decide
theorem restart : Statement .restart := fun _ => by unfold InRow; decide
theorem idct (c : BitVec 2) (b : BitVec 4) : Statement (.idct c b) := fun _ => by
  unfold InRow; revert c b; decide
theorem color : Statement .color := fun _ => by unfold InRow; decide
theorem dcDiff (size : BitVec 4) : Statement (.dcDiff size) := fun _ => by unfold InRow; revert size; decide
theorem dcIllegal (t : Byte) : Statement (.dcIllegal t) := fun _ => ⟨rfl, Nat.and_zero _⟩
theorem acEob : Statement .acEob := fun _ => by unfold InRow; decide
theorem acZrl : Statement .acZrl := fun _ => by unfold InRow; decide
theorem acRunsize (r s : BitVec 4) : Statement (.acRunsize r s) := fun _ => ⟨rfl, Nat.and_zero _⟩
theorem acUndef (r : BitVec 4) : Statement (.acUndef r) := fun _ => by unfold InRow; revert r; decide
theorem stuffFf00 : Statement .stuffFf00 := fun _ => by unfold InRow; decide
theorem rstN (n : BitVec 3) : Statement (.rstN n) := fun _ => by unfold InRow; revert n; decide
theorem markerOther (b : Byte) : Statement (.markerOther b) := fun _ => by unfold InRow; revert b; decide

end Sys2Proof.Laws.Row
end

