-- ==== Sys2Proof/Laws/Steps.lean ====
section
/-! SUPPORT. What each whole operation does in one atomic step, said once: the command wrapper, taking a fault,
reset, DATA words, configuration writes, OUTRESP, register writes, bus writes and the source's answers. -/

namespace Sys2Proof.Machine

/-- What one atomic step does to a state that meets the invariant: the next state meets it, the block is at a
suspension point, and STATE took an arrow of R220 or the block was reset, which only the cause r does. -/
structure Stepped (r : Prop) (s t : State) : Prop where
  inv : t.Inv
  rest : runnable t = false
  arr : stepArrow s.state t.state = true ∨ (r ∧ AtReset t)

variable {r : Prop}

/-- A cause may be replaced by a weaker one. -/
theorem Stepped.mono {r' : Prop} {s t : State} (h : Stepped r s t) (hr : r → r') : Stepped r' s t :=
  ⟨h.inv, h.rest, h.arr.imp id fun ⟨h1, h2⟩ => ⟨hr h1, h2⟩⟩

theorem stepArrow_self (a : SeqState) : stepArrow a a = true := by cases a <;> rfl

theorem inv_int {s : State} (h : s.Inv) (x : BitVec 8) : State.Inv { s with intstat := x } := h
theorem run_int {s : State} (h : runnable s = false) (x : BitVec 8) : runnable { s with intstat := x } = false := h

/-- Setting INTSTAT bits alone. -/
theorem stepped_int {s : State} (h : s.Inv) (hr : runnable s = false) (x : BitVec 8) : Stepped r s { s with intstat := x } :=
  ⟨h, hr, .inl (stepArrow_self _)⟩

/-- Reset leaves the table of R280. -/
theorem atReset_resetBlock (s : State) : AtReset (resetBlock s) := by
  refine ⟨rfl, rfl, rfl, rfl, rfl, rfl, rfl, rfl, rfl, rfl, rfl, rfl, rfl, rfl, ?_, ?_, rfl, rfl, rfl, rfl, rfl, rfl, rfl, rfl, rfl, ?_, rfl, rfl, rfl, rfl, rfl, rfl, rfl, rfl, rfl, ?_, ?_, ?_, rfl, rfl⟩
  · intro q hq
    refine ⟨?_, fun k hk => ?_⟩
    · simp [resetBlock, State.reset, hq]
    · simp [resetBlock, State.reset, qtEntry, hq, hk]
  · intro cls id hid
    have : htIndex cls id < 8 := by cases cls <;> simp [htIndex] <;> omega
    refine ⟨by simp [resetBlock, State.reset, this], ?_⟩
    have he : huffTable (resetBlock s) cls id = HuffTable.empty := by
      simp [huffTable, resetBlock, State.reset, this]
    rw [he]
    refine ⟨rfl, fun j hj => by simp [HuffTable.empty, hj], fun len h1 h2 => ?_⟩
    have : len - 1 < 16 := by omega
    simp [HuffTable.empty, this]
  · intro c hc
    simp [predRead, resetBlock, State.reset, hc]
  · intro b k _ _; simp [resetBlock, State.reset, coefRead, Memory.read]
  · intro b k _ _; rfl
  · intro b _; rfl

/-- Reset. -/
theorem stepped_reset {s : State} (h : s.tjdBase % Config.windowBytes = 0) (s0 : State) (hr : r) :
    Stepped r s0 (resetBlock s) :=
  ⟨⟨rfl, show (0#4).toNat ≤ 8 by decide, (fun h => by simp [resetBlock, State.reset] at h), rfl, rfl, rfl, rfl, h⟩, rfl, .inr ⟨hr, atReset_resetBlock s⟩⟩

/-- With no command executing there is no position and no request. -/
theorem pos_none {s : State} (h : s.Inv) (hb : busy s = false) : s.pos = none ∧ s.pend = none := by
  have := h.2.2.2.1
  unfold posOk at this
  split at this
  · next hp =>
    simp only [Bool.and_eq_true, Bool.not_eq_true', Option.isNone_iff_eq_none] at this
    exact ⟨hp, this.2⟩
  · next p hp =>
    simp only [Bool.and_eq_true, beq_iff_eq] at this
    rcases bodyState_eq p.body with e | e <;> simp [busy, this.1.1, e] at hb

theorem busy_idle {s : State} (h : s.state = .idle) : busy s = false := by simp [busy, h]

/-- The command wrapper of R96-R98. -/
theorem stepped_issue {s : State} {ok : Bool} {acc : SeqState} {run : State → State} (h : s.Inv)
    (hr : runnable s = false) (hrun : ok = true → s.state = acc → Stepped r s (run s)) : Stepped r s (issue ok acc run s) := by
  unfold issue
  split
  · split
    · exact hrun ‹_› ‹_›
    · exact stepped_int h hr _
  · exact stepped_int h hr _

/-- A CFGCHK fault from IDLE. -/
theorem stepped_fault {s : State} (h : s.Inv) (hi : s.state = .idle) (d : Byte) :
    Stepped r s (takeFault errFormat d 0#8 s) := by
  have hne : ¬(errFormat = errSync ∧ (d = dtSyncNotFf ∨ d = dtSyncWrong)) := by
    rintro ⟨h, -⟩; exact absurd h (by decide)
  have hp := pos_none h (busy_idle hi)
  unfold takeFault
  simp only [if_neg hne]
  refine ⟨inv_ended h.1 h.2.1 (by simp) rfl rfl rfl rfl rfl h.2.2.2.2.2.2.2, rfl, .inl ?_⟩
  simp [hi]; rfl

/-- StepCommand (R224). -/
theorem stepped_step {s : State} {refuse : State → Bool} {body : State → State} (h : s.Inv)
    (hr : runnable s = false) (hi : s.state = .idle)
    (hb : cfgCheck s = none → refuse s = false → Stepped r s (body { s with state := .step })) :
    Stepped r s (stepCommand refuse body s) := by
  unfold stepCommand
  split
  · exact stepped_fault h hi _
  · split
    · exact stepped_int h hr _
    · next hc hrf => exact hb hc (by simpa using hrf)

/-- Entering STEP. -/
theorem running_step {s : State} {body : Body} (h : s.Inv) (hi : s.state = .idle) (hc : cfgCheck s = none)
   (hb : bodyState body = .step) : Running body { s with state := .step } := by
  have hp := pos_none h (busy_idle hi)
  refine ⟨h.1, h.2.1, ?_, hb.symm, hp.2, hc, h.2.2.2.2.2.2.2⟩
  show s.runhalt = false
  by_contra hh
  have := h.2.2.1 (by simpa using hh)
  rw [hi] at this; cases this

theorem exits_trans {a b c : SeqState} (h1 : exits a b = true) (h2 : exits b c = true) (ha : a = .step ∨ a = .run) : exits a c = true := by
  rcases ha with rfl | rfl <;> cases b <;> cases c <;> first | rfl | (simp [exits] at h1 h2)

/-- A run of the block from a state one of its moves has made. -/
theorem stepped_moved {s u : State} {body : Body} {n : Nat} (hm : Moved body n u)
    (hst : ∀ st, exits (bodyState body) st = true → stepArrow s.state st = true) : Stepped r s (runBlock u) := by
  refine ⟨inv_runBlock hm.inv, runnable_runBlock hm.inv, .inl (hst _ ?_)⟩
  exact exits_trans hm.exits (exits_runBlock hm.inv) (bodyState_eq body)

theorem idle_step_exits {s : State} (hi : s.state = .idle) (st : SeqState) (h : exits .step st = true) : stepArrow s.state st = true := by
  rw [hi]; cases st <;> first | rfl | (simp [exits] at h)

theorem fbOk {c : BitVec 2} {b : BitVec 4} (h : fbOperandsOk c b = true) : c.toNat < 3 ∧ b.toNat < 12 := by
  simp only [fbOperandsOk, Bool.and_eq_true, decide_eq_true_eq] at h; exact h

/-- A command that completes without suspending. -/
theorem stepped_complete {s u : State} (hi : s.state = .idle) {body : Body} (h : Running body u) (hb : bodyState body = .step) : Stepped r s (completeCommand u) := by
  have hm := moved_complete 0 h hb
  refine ⟨hm.inv, ?_, .inl ?_⟩
  · simp [runnable]
  · rw [hi]; rfl

/-- A decode command. -/
theorem stepped_decode {s : State} {body : Body} {bg : Body → Nat → Nat → State → State} (c : BitVec 2) (b : BitVec 4) (h : s.Inv)
    (hr : runnable s = false) (hb : bodyState body = .step)
    (hm : c.toNat < 3 → b.toNat < 12 → ∀ u, Running body u → Moved body 100000 (bg body c.toNat b.toNat u)) :
    Stepped r s (decodeCommand body bg c b s) := by
  unfold decodeCommand
  refine stepped_issue h hr fun hok hi => stepped_step h hr hi fun hc _ => ?_
  obtain ⟨h1, h2⟩ := fbOk hok
  exact stepped_moved (hm h1 h2 _ (running_step h hi hc hb)) (fun st he => idle_step_exits hi st (by rwa [hb] at he))

/-- Every command. -/
theorem stepped_exec_cmd {i : Instr} {s : State} (h : s.Inv) (hr : runnable s = false) (hc : isCommand i = true) :
    ∃ t, exec i s = .next t ∧ Stepped (i = .sreset) s t := by
  cases i <;> simp only [isCommand, encode] at hc <;> try (exact absurd hc (by decide))
  case nop => exact ⟨s, rfl, h, hr, .inl (stepArrow_self _)⟩
  case sreset => exact ⟨_, rfl, stepped_reset h.2.2.2.2.2.2.2 s rfl⟩
  case loadQt id =>
    refine ⟨_, rfl, stepped_issue h hr fun _ hi => ?_⟩
    have hp := pos_none h (busy_idle hi)
    refine ⟨inv_ended h.1 h.2.1 ?_ hp.1 hp.2 rfl rfl rfl h.2.2.2.2.2.2.2, not_runnable_of_pos hp.1, .inl ?_⟩
    · intro hh; have := h.2.2.1 hh; rw [hi] at this; cases this
    · simp [beginLoadQt, hi]; rfl
  case loadHt cls id =>
    refine ⟨_, rfl, stepped_issue h hr fun _ hi => ?_⟩
    have hp := pos_none h (busy_idle hi)
    refine ⟨inv_ended h.1 h.2.1 ?_ hp.1 hp.2 rfl rfl rfl h.2.2.2.2.2.2.2, not_runnable_of_pos hp.1, .inl ?_⟩
    · intro hh; have := h.2.2.1 hh; rw [hi] at this; cases this
    · simp [beginLoadHt, hi]; rfl
  case start =>
    refine ⟨_, rfl, stepped_issue h hr fun _ hi => ?_⟩
    split
    · exact stepped_fault h hi _
    · next hcf =>
      have hs := running_step (body := .restart) h hi hcf rfl
      have hrun : Running (.drive 0) (startInit s) :=
        ⟨hs.wf, hs.bcnt, hs.halt, rfl, hs.pend, (cfgCheck_of_setup (setupOf_startInit s)).trans hcf, hs.base⟩
      have hm := moved_goto (p := .nextMcu false) (n := 100000) hrun rfl rfl rfl (by simp [pointCost])
      refine ⟨inv_runBlock hm.inv, runnable_runBlock hm.inv, .inl ?_⟩
      have hn : 0 < nmcu s := nmcu_pos hcf
      have hb : runBlock (goto (.drive 0) (.nextMcu false) (startInit s)) = settle 65535 (blockMove { goto (.drive 0) (.nextMcu false) (startInit s) with epoch := s.epoch + 1 }) := by
        unfold runBlock moveBound
        rw [settle_succ (by simp [runnable, startInit, predClear]; exact hs.pend)]
        rfl
      have hP : inMcuOrError (blockMove { goto (.drive 0) (.nextMcu false) (startInit s) with epoch := s.epoch + 1 }) := by
        rw [blockMove_nextMcu (i := 0) (skip := false) rfl]
        unfold nextMcuStep
        have : 0 < nmcu { goto (.drive 0) (.nextMcu false) (startInit s) with epoch := s.epoch + 1 } := hn
        rw [if_pos this]
        exact inMcuOrError_blockFrom 0 0 rfl
      have hI : (blockMove { goto (.drive 0) (.nextMcu false) (startInit s) with epoch := s.epoch + 1 }).Inv := by
        obtain ⟨p, -, hm'⟩ := moved_blockMove (Inv.tick hm.inv) (by simp [runnable, startInit, predClear]; exact hs.pend)
        exact hm'.inv
      rcases inMcuOrError_settle 65535 hI hP with ⟨he, -⟩ | he
      · rw [hb, he, hi]; rfl
      · rw [hb, he, hi]; rfl
  case resync =>
    refine ⟨_, rfl, stepped_issue h hr fun _ hi => ?_⟩
    have hp := pos_none h (by simp [busy, hi])
    have hcf : cfgCheck s = none := by have := h.2.2.2.2.2.2.1; simpa [cfgOk, hi, busy] using this
    have hrun : Running (.resync s.runhalt) { s with state := if s.runhalt then .run else .step, runhalt := false } :=
      ⟨h.1, h.2.1, rfl, rfl, hp.2, hcf, h.2.2.2.2.2.2.2⟩
    refine stepped_moved (moved_resyncBegin (n := 100000) hrun (by omega)) fun st he => ?_
    rw [hi]
    cases hh : s.runhalt <;> rw [hh] at he <;> cases st <;> first | rfl | (simp [exits, bodyState] at he)
  case decDc c b =>
    refine ⟨_, rfl, stepped_decode c b h hr rfl fun h1 h2 u hu => moved_goto hu rfl ?_ rfl fun _ => by simp only [pointCost]; omega⟩
    simp [pointOk]; exact ⟨h1, h2⟩
  case decBlk c b =>
    refine ⟨_, rfl, stepped_decode c b h hr rfl fun h1 h2 u hu => moved_goto hu rfl ?_ rfl fun _ => by simp only [pointCost]; omega⟩
    simp [pointOk]; exact ⟨h1, h2⟩
  case decAc c b =>
    exact ⟨_, rfl, stepped_decode c b h hr rfl fun h1 h2 u hu => moved_startAc hu rfl h1 h2 (by omega)⟩
  case restart =>
    refine ⟨_, rfl, stepped_issue h hr fun _ hi => stepped_step h hr hi fun hc _ => ?_⟩
    have hs := running_step (body := .restart) h hi hc rfl
    exact stepped_moved (moved_restartCheck (n := 100000) hs rfl rfl (by omega)) (idle_step_exits hi)
  case idct c b =>
    refine ⟨_, rfl, stepped_issue h hr fun _ hi => stepped_step h hr hi fun hc _ => ?_⟩
    have hs := running_step (body := .restart) h hi hc rfl
    refine stepped_complete hi (body := .restart) (hs.of_eq (setupOf_idctBlock _ _ _) ?_ hs.bcnt rfl rfl hs.pend) rfl
    rw [idctBlock_mem]; exact wf_tileWrite _ _ h.1
  case color =>
    refine ⟨_, rfl, stepped_issue h hr fun _ hi => stepped_step h hr hi fun hc _ => ?_⟩
    have hs := running_step (body := .restart) h hi hc rfl
    refine stepped_complete hi (body := .restart) (hs.of_eq (setupOf_assembleMcu _) (wf_assembleMcu h.1) ?_ ?_ ?_ ?_) rfl
    all_goals simp only [assembleMcu]
    · exact hs.bcnt
    · exact hs.pend

theorem stepped_congr {s s' t : State} (h : Stepped r s t) (hs : s.state = s'.state) : Stepped r s' t :=
  ⟨h.inv, h.rest, by rw [← hs]; exact h.arr⟩

/-- A position is in the state of its body. -/
theorem pos_some {s : State} (h : s.Inv) {p : Pos} (hp : s.pos = some p) : s.state = bodyState p.body ∧ pointOk p.point = true ∧ bodyFits p.body p.point = true := by
  have := h.2.2.2.1
  simp only [posOk, hp, Bool.and_eq_true, beq_iff_eq] at this
  exact ⟨this.1.1, this.1.2, this.2⟩

/-- The state in which an answered request leaves the block. -/
theorem running_answered {s : State} (h : s.Inv) {p : Pos} (hp : s.pos = some p) : Running p.body { s with pend := none } := by
  obtain ⟨h1, h2, h3⟩ := pos_some h hp
  have hi : State.Inv { s with pend := none } := by
    refine ⟨h.1, h.2.1, h.2.2.1, ?_, ?_, h.2.2.2.2.2.1, h.2.2.2.2.2.2.1, h.2.2.2.2.2.2.2⟩
    · simp [posOk, hp, h1, h2, h3]
    · simp [pendOk]
  exact (running_of_inv hi hp rfl).1

theorem exits_arrow {s : State} {body : Body} (h : s.state = bodyState body) (st : SeqState) (he : exits (bodyState body) st = true) : stepArrow s.state st = true := by
  rw [h]
  rcases bodyState_eq body with e | e <;> rw [e] at he ⊢ <;> cases st <;> first | rfl | (simp [exits] at he)

/-- s with pend none, same position -/
theorem moved_same {s : State} {body : Body} {pt : Point} (hr : Running body s) (hp : s.pos = some ⟨body, pt⟩) (h2 : pointOk pt = true) (h3 : bodyFits body pt = true) : Moved body (100000 + pointCost pt) s := by
  have := moved_goto (n := 100000 + pointCost pt) hr rfl h2 h3 (by omega)
  have e : goto body pt s = s := by unfold goto; rw [← hp]
  rwa [e] at this

theorem stepped_running {s u : State} {p : Pos} (h : s.state = bodyState p.body) (hr : Running p.body u) (hp : u.pos = some p) (h2 : pointOk p.point = true) (h3 : bodyFits p.body p.point = true) : Stepped r s (runBlock u) :=
  stepped_moved (moved_same hr hp h2 h3) (exits_arrow h)

/-- A load of symbols in progress. -/
theorem loadOk_mid {u : State} {T : HuffTable} (h : u.state = .loadh) (ht : huffTable u u.ldcls u.ldid.toNat = T) (h1 : u.ldcnt.toNat < 16 + T.nval) (h2 : T.nval ≤ 256) : loadOk u = true := by
  simp only [loadOk, h, ht, Bool.or_eq_true, Bool.and_eq_true, decide_eq_true_eq]
  exact .inr ⟨h1, h2⟩

/-- Build keeps NVAL. -/
theorem buildFrom_nval (l : List Nat) (c p : Nat) (t : HuffTable) : (buildFrom l c p t).1.nval = t.nval := by
  induction l generalizing c p t with
  | nil => rfl
  | cons len l ih =>
    unfold buildFrom
    dsimp only
    split
    · rfl
    · rw [ih]

/-- The checks at the 16th BITS word (R123). -/
theorem stepped_finishBits {s u : State} (hst : s.state = .loadh) (hu : u.state = .loadh) (hc : u.ldcnt = 16#9)
    (h1 : u.mem.wf = true) (h2 : u.bcnt.toNat ≤ 8) (h3 : u.runhalt = false) (h4 : u.tjdBase % Config.windowBytes = 0)
    (h5 : u.pos = none) (h6 : u.pend = none) : Stepped r s (finishBits u) := by
  have fault : ∀ (w : State) d, w.mem = u.mem → w.bcnt = u.bcnt → w.tjdBase = u.tjdBase → Stepped r s (takeFault errFormat d 0#8 w) := by
    intro w d e1 e2 e3
    have hne : ¬(errFormat = errSync ∧ (d = dtSyncNotFf ∨ d = dtSyncWrong)) := by
      rintro ⟨h, -⟩; exact absurd h (by decide)
    unfold takeFault
    simp only [if_neg hne]
    refine ⟨inv_ended (by simp [e1, h1]) (by simp [e2, h2]) (by simp) rfl rfl rfl rfl rfl (by simp [e3, h4]), rfl, .inl ?_⟩
    simp [hst]; rfl
  have hlt : htIndex u.ldcls u.ldid.toNat < 8 := by
    have := u.ldid.isLt; cases u.ldcls <;> simp [htIndex] <;> omega
  unfold finishBits
  dsimp only
  split
  · exact fault _ _ rfl rfl rfl
  · next hle =>
    split
    · split
      · refine ⟨inv_ended h1 h2 (fun e => ?_) rfl rfl rfl rfl rfl h4, rfl, .inl ?_⟩
        · have e' : u.runhalt = true := e
          rw [h3] at e'; cases e'
        · simp [hst]; rfl
      · next hz =>
        have hk : (build { loadTable u with nval := bitsSum (loadTable u) }).1.nval = bitsSum (loadTable u) :=
          buildFrom_nval _ _ _ _
        generalize (build { loadTable u with nval := bitsSum (loadTable u) }).1 = T at hk
        refine ⟨inv_ended h1 h2 (fun e => ?_) h5 h6 ?_ ?_ ?_ h4, not_runnable_of_pos h5, .inl ?_⟩
        · have e' : u.runhalt = true := e
          rw [h3] at e'; cases e'
        · simp [busy, loadTableSet, hu]
        · refine loadOk_mid (T := T) hu ?_ ?_ (by omega)
          · simp [huffTable, loadTableSet, loadIndex, hlt]
          · show u.ldcnt.toNat < 16 + T.nval
            rw [hc, hk]
            show 16 < 16 + bitsSum (loadTable u)
            omega
        · simp [cfgOk, busy, loadTableSet, hu]
        · rw [hst, show (loadTableSet T u).state = .loadh from hu]; rfl
    · exact fault _ _ rfl rfl rfl

/-- A write to DATA. -/
theorem stepped_data {s : State} (h : s.Inv) (hr : runnable s = false) (v : Word) : Stepped r s (dataWrite v s) := by
  unfold dataWrite
  split
  · next hst =>
    have hp := pos_none h (by simp [busy, hst])
    have hl : s.ldcnt.toNat < 64 := by have := h.2.2.2.2.2.1; simpa [loadOk, hst] using this
    have hh : s.runhalt = true → False := fun e => by have := h.2.2.1 e; rw [hst] at this; cases this
    unfold dataWordQt
    dsimp only
    split
    · refine ⟨inv_ended h.1 h.2.1 (fun e => (hh e).elim) rfl rfl rfl rfl rfl h.2.2.2.2.2.2.2, rfl, .inl ?_⟩
      simp [hst]; rfl
    · next hn =>
      refine ⟨inv_ended h.1 h.2.1 (fun e => (hh e).elim) hp.1 hp.2 (by simp [busy, qtWrite, hst]) ?_ (by simp [cfgOk, busy, qtWrite, hst]) h.2.2.2.2.2.2.2, not_runnable_of_pos hp.1, .inl ?_⟩
      · simp only [loadOk, qtWrite, hst, decide_eq_true_eq]
        have : s.ldcnt + 1#9 ≠ 64#9 := hn
        bv_omega
      · exact stepArrow_self _
  · next hst =>
    have hp := pos_none h (by simp [busy, hst])
    have hl := h.2.2.2.2.2.1
    simp only [loadOk, hst, Bool.or_eq_true, Bool.and_eq_true, decide_eq_true_eq] at hl
    have hh : s.runhalt = true → False := fun e => by have := h.2.2.1 e; rw [hst] at this; cases this
    have base : ∀ u : State, u.mem = s.mem → u.bcnt = s.bcnt → u.runhalt = s.runhalt → u.tjdBase = s.tjdBase → u.pos = none → u.pend = none → busy u = false → loadOk u = true → cfgOk u = true → stepArrow s.state u.state = true → Stepped r s u := by
      intro u h1 h2 h3 h4 h5 h6 h7 h8 h9 h10
      exact ⟨inv_ended (h1 ▸ h.1) (h2 ▸ h.2.1) (fun e => (hh (h3 ▸ e)).elim) h5 h6 h7 h8 h9 (h4 ▸ h.2.2.2.2.2.2.2), not_runnable_of_pos h5, .inl h10⟩
    have fault : ∀ (u : State) d, u.mem = s.mem → u.bcnt = s.bcnt → u.tjdBase = s.tjdBase → Stepped r s (takeFault errFormat d 0#8 u) := by
      intro u d h1 h2 h3
      have hne : ¬(errFormat = errSync ∧ (d = dtSyncNotFf ∨ d = dtSyncWrong)) := by
        rintro ⟨h, -⟩; exact absurd h (by decide)
      unfold takeFault
      simp only [if_neg hne]
      refine ⟨inv_ended (by simp [h1, h.1]) (by simp [h2, h.2.1]) (by simp) rfl rfl rfl rfl rfl (by simp [h3, h.2.2.2.2.2.2.2]), rfl, .inl ?_⟩
      simp [hst]; rfl
    have compl : ∀ u : State, u.mem = s.mem → u.bcnt = s.bcnt → u.runhalt = s.runhalt → u.tjdBase = s.tjdBase → Stepped r s (completeCommand u) := by
      intro u h1 h2 h3 h4
      refine base _ h1 h2 h3 h4 rfl rfl rfl rfl rfl ?_
      rw [hst]; rfl
    have htab : ∀ (T : HuffTable) (c : BitVec 9), huffTable { loadTableSet T s with ldcnt := c } s.ldcls s.ldid.toNat = T := by
      intro T c
      have : htIndex s.ldcls s.ldid.toNat < 8 := by have := s.ldid.isLt; cases s.ldcls <;> simp [htIndex] <;> omega
      simp [huffTable, loadTableSet, loadIndex, this]
    split
    · next h16 =>
      unfold dataWordBits
      dsimp only
      split
      · next hc =>
        exact stepped_finishBits hst (u := { loadTableSet _ s with ldcnt := s.ldcnt + 1#9 }) hst hc h.1 h.2.1 (by show s.runhalt = false; by_contra e; exact hh (by simpa using e)) h.2.2.2.2.2.2.2 hp.1 hp.2
      · next hc =>
        refine base _ rfl rfl rfl rfl hp.1 hp.2 (by simp [busy, loadTableSet, hst]) ?_ (by simp [cfgOk, busy, loadTableSet, hst]) (stepArrow_self _)
        have : s.ldcnt + 1#9 ≠ 16#9 := hc
        have h2 : (s.ldcnt + 1#9).toNat < 16 := by bv_omega
        simp only [loadOk, loadTableSet, hst, Bool.or_eq_true, decide_eq_true_eq]
        exact .inl h2
    · next h16 =>
      unfold dataWordSymbol
      dsimp only
      split
      · exact compl _ rfl rfl rfl rfl
      · next hc =>
        refine base _ rfl rfl rfl rfl hp.1 hp.2 (by simp [busy, loadTableSet, hst]) ?_ (by simp [cfgOk, busy, loadTableSet, hst]) (stepArrow_self _)
        have hc' : (s.ldcnt + 1#9).toNat ≠ 16 + (loadTable s).nval := hc
        have hl2 := hl.resolve_left h16
        have e : huffTable s s.ldcls s.ldid.toNat = loadTable s := rfl
        rw [e] at hl2
        have h3 : (s.ldcnt + 1#9).toNat = s.ldcnt.toNat + 1 := by
          have := hl2.1; have := hl2.2
          bv_omega
        exact loadOk_mid (u := { loadTableSet _ s with ldcnt := s.ldcnt + 1#9 }) hst (htab _ _) (by show (s.ldcnt + 1#9).toNat < 16 + (loadTable s).nval; omega) hl2.2
  · exact stepped_int h hr _

/-- A configuration write (R49). -/
theorem stepped_config {s : State} (h : s.Inv) (hr : runnable s = false) {f : State → State}
    (hf : s.state = .idle → (f s).mem.wf = true ∧ (f s).bcnt = s.bcnt ∧ (f s).runhalt = s.runhalt ∧ (f s).state = s.state ∧ (f s).pos = s.pos ∧ (f s).pend = s.pend ∧ (f s).tjdBase = s.tjdBase) :
    Stepped r s (configWrite f s) := by
  unfold configWrite
  split
  · next hi =>
    obtain ⟨h1, h2, h3, h4, h5, h6, h7⟩ := hf hi
    have hp := pos_none h (busy_idle hi)
    refine ⟨inv_ended h1 (h2 ▸ h.2.1) (fun e => ?_) (h5.trans hp.1) (h6.trans hp.2) (by simp [busy, h4, hi]) (by simp [loadOk, h4, hi]) (by simp [cfgOk, busy, h4, hi]) (h7 ▸ h.2.2.2.2.2.2.2), not_runnable_of_pos (h5.trans hp.1), .inl ?_⟩
    · rw [h3] at e; rw [h4]; exact h.2.2.1 e
    · rw [h4]; exact stepArrow_self _
  · exact stepped_int h hr _

/-- A write to OUTRESP (R229). -/
theorem stepped_outresp {s : State} (h : s.Inv) (hr : runnable s = false) (v : Word) : Stepped r s (outrespWrite v s) := by
  unfold outrespWrite
  split
  · next i hpos =>
    have hps := pos_some h hpos
    have hpend : s.pend = none := by
      have := h.2.2.2.2.1
      unfold pendOk at this
      rw [hpos] at this
      cases hp : s.pend with
      | none => rfl
      | some q => rw [hp] at this; cases q <;> simp at this
    have hrun := (running_of_inv h hpos hpend).1
    split
    · have hrun' : Running (.drive i) { s with rstctr := if s.rstint = 0#16 then s.rstctr else s.rstctr - 1#16 } :=
        hrun.of_eq rfl hrun.wf hrun.bcnt rfl rfl hrun.pend
      exact stepped_moved (body := .drive i) (n := 100000) (moved_goto (body' := .drive (i+1)) hrun' rfl rfl rfl (by simp [pointCost])) (exits_arrow hps.1)
    · split
      · refine ⟨inv_ended h.1 h.2.1 (fun e => ?_) rfl rfl rfl rfl rfl h.2.2.2.2.2.2.2, rfl, .inl ?_⟩
        · have e' : s.runhalt = true := e
          rw [hrun.halt] at e'; cases e'
        · rw [hps.1]; rfl
      · exact stepped_int h hr _
  · exact stepped_int h hr _

theorem stepped_ite {s a b : State} {c : Prop} [Decidable c] (h1 : c → Stepped r s a) (h2 : ¬c → Stepped r s b) : Stepped r s (if c then a else b) := by
  split
  · exact h1 ‹_›
  · exact h2 ‹_›

/-- A write to any register but CMD. -/
theorem stepped_register {s : State} (h : s.Inv) (hr : runnable s = false) (off : Nat) (v : Word) : Stepped r s (registerWrite off v s) := by
  unfold registerWrite
  refine stepped_ite (fun _ => stepped_data h hr v) fun _ => ?_
  refine stepped_ite (fun _ => ⟨h, hr, .inl (stepArrow_self _)⟩) fun _ => ?_
  refine stepped_ite (fun _ => ⟨h, hr, .inl (stepArrow_self _)⟩) fun _ => ?_
  iterate 8
    refine stepped_ite (fun _ => stepped_config h hr fun _ => ⟨h.1, rfl, rfl, rfl, rfl, rfl, rfl⟩) fun _ => ?_
  refine stepped_ite (fun _ => stepped_outresp h hr v) fun _ => ?_
  refine stepped_ite (fun _ => stepped_config h hr fun _ => ⟨wf_coefWrite _ _ _ h.1, rfl, rfl, rfl, rfl, rfl, rfl⟩) fun _ => ?_
  exact ⟨h, hr, .inl (stepArrow_self _)⟩

/-- What an agent's step leaves to do is `Stepped` once it has run. -/
def FStepped (r : Prop) (s : State) : Fetched → Prop
  | .settled t => Stepped r s t
  | .instr i t => ∃ u, exec i t = .next u ∧ Stepped r s u

/-- A bus write. -/
theorem fstepped_host {s : State} (h : s.Inv) (hr : runnable s = false) (addr w : Nat) (v : Word) :
    FStepped (addr = s.tjdBase + 0x004 ∧ w = 4 ∧ v = 0x01000000#32) s (hostWrite addr w v s) := by
  have hi : State.Inv { s with reply := some ⟨0#32, false⟩ } := h
  have hr' : runnable { s with reply := some ⟨0#32, false⟩ } = false := hr
  unfold hostWrite
  split
  · exact ⟨h, hr, .inl (stepArrow_self _)⟩
  · next off hoff =>
    split
    · next hok =>
      dsimp only
      split
      · next h4 =>
        unfold cmdWrite
        split
        · next i hd =>
          obtain ⟨t, h1, h2⟩ := stepped_exec_cmd hi hr' (isCommand_of_decodeCmd hd)
          refine ⟨t, h1, Stepped.mono (stepped_congr (s' := s) h2 rfl) fun e => ?_⟩
          subst e
          simp only [accessOk, Bool.and_eq_true, beq_iff_eq] at hok
          have ha : addr = s.tjdBase + off := by
            simp only [offsetOf] at hoff
            split at hoff <;> simp at hoff
            omega
          exact ⟨h4 ▸ ha, hok.1.1, word_of_sreset hd⟩
        · exact stepped_congr (stepped_int hi hr' _) rfl
      · exact stepped_congr (stepped_register hi hr' _ _) rfl
    · exact ⟨h, hr, .inl (stepArrow_self _)⟩

theorem stepped_err {s u : State} {p : Pos} (h : s.Inv) (hp : s.pos = some p) (hu : Running p.body u) (e : BitVec 4) (d sy : Byte) :
    Stepped r s (takeFault e d sy u) := by
  have hm := moved_fault 0 e d sy hu
  exact ⟨hm.inv, by simp [runnable], .inl (exits_arrow (pos_some h hp).1 _ hm.exits)⟩

/-- An answer of the source. -/
theorem fstepped_source {s : State} (h : s.Inv) (hr : runnable s = false) : FStepped r s (sourceAnswer s) := by
  unfold sourceAnswer
  split
  · exact ⟨h, hr, .inl (stepArrow_self _)⟩
  · exact ⟨h, hr, .inl (stepArrow_self _)⟩
  · next pd a rest hpd hin =>
    have hpk := h.2.2.2.2.1
    have hex : ∃ p, s.pos = some p := by
      cases hpos : s.pos with
      | none => simp [pendOk, hpd, hpos] at hpk
      | some p => exact ⟨p, rfl⟩
    obtain ⟨p, hpos⟩ := hex
    · obtain ⟨h1, h2, h3⟩ := pos_some h hpos
      have hrun := running_answered h hpos
      have hrun' : ∀ f : State, setupOf { f with input := s.input } = setupOf s → f.mem = s.mem → f.bcnt.toNat ≤ 8 → f.runhalt = s.runhalt → f.state = s.state → f.pend = none → Running p.body f := by
        intro f e1 e2 e3 e4 e5 e6
        exact ⟨e2 ▸ hrun.wf, e3, e4.trans hrun.halt, e5.trans hrun.state, e6, (cfgCheck_of_setup (s := s) (t := { f with input := s.input }) e1).trans hrun.cfg, (congrArg (· % Config.windowBytes) (tjdBase_of_setup e1)).trans hrun.base⟩
      dsimp only
      split
      · -- ierr
        show Stepped r s (takeFault _ _ _ _)
        have := stepped_err (r := r) h hpos (hrun' { s with input := rest, pend := none } rfl rfl h.2.1 rfl rfl rfl) errInput dtInputErr 0#8
        exact this
      · exact stepped_running h1 (hrun' { s with input := rest, eos := true, pend := none } rfl rfl h.2.1 rfl rfl rfl) hpos h2 h3
      · next x =>
        split
        · next haw =>
          -- the pair
          have key : ∃ u, afterFf x { s with input := rest, bytecnt := s.bytecnt + 1#32 } = some u ∧ Stepped r s (runBlock u) := by
            unfold awaitsAfterFf at haw
            unfold afterFf
            split
            · split
              · exact ⟨_, rfl, stepped_running h1 (hrun' _ rfl rfl (show (8#4).toNat ≤ 8 by decide) rfl rfl rfl) hpos h2 h3⟩
              · exact ⟨_, rfl, stepped_running h1 (hrun' _ rfl rfl (show (8#4).toNat ≤ 8 by decide) rfl rfl rfl) hpos h2 h3⟩
            · next body heq hraw =>
              have e0 : p = ⟨body, .rstSecond⟩ := by have := hpos.symm.trans heq; injection this
              subst e0
              exact ⟨_, rfl, stepped_moved (moved_rawByte (n := 100000) x (hrun' { s with input := rest, bytecnt := s.bytecnt + 1#32, pend := none } rfl rfl h.2.1 rfl rfl rfl) (.inr (.inl rfl)) h3 (by simp [pointCost]) (.inr (by simp [pointCost]))) (exits_arrow h1)⟩
            · next body heq hraw =>
              have e0 : p = ⟨body, .scan true⟩ := by have := hpos.symm.trans heq; injection this
              subst e0
              exact ⟨_, rfl, stepped_moved (moved_rawByte (n := 100000) x (hrun' { s with input := rest, bytecnt := s.bytecnt + 1#32, pend := none } rfl rfl h.2.1 rfl rfl rfl) (.inr (.inr ⟨true, rfl⟩)) h3 (by simp [pointCost]) (.inr (by simp [pointCost]))) (exits_arrow h1)⟩
            · exfalso
              next g1 g2 g3 =>
                split at haw
                · next q hq hd => exact g1 _ hq hd
                · next body heq hraw => exact g2 body heq hraw
                · next body heq hraw => exact g3 body heq hraw
                · cases haw
          obtain ⟨u, hu, hs⟩ := key
          refine ⟨runBlock u, ?_, hs⟩
          unfold decodeAfterFf
          split
          · next hx => subst hx; simp [exec, execStuffFf00, runSymbol, hu]
          · split
            · next hx =>
              have := rstByte_eq hx
              simp only [exec, execRstN, runSymbol, this, hu]
            · simp [exec, execMarkerOther, runSymbol, hu]
        · next haw =>
          show Stepped r s (runBlock (firstByte x _))
          unfold firstByte
          split
          · next q hq hd =>
            split
            · have hpp : pendOk s = true := hpk
              have hu : State.Inv { s with input := rest, bytecnt := s.bytecnt + 1#32, pend := some .dataSecond } := by
                refine ⟨h.1, h.2.1, h.2.2.1, ?_, ?_, h.2.2.2.2.2.1, h.2.2.2.2.2.2.1, h.2.2.2.2.2.2.2⟩
                · simp [posOk, hpos, h1, h2, h3]
                · have hd' : s.pend = some .dataFirst := hd
                  simp only [pendOk, hpos, hd'] at hpp ⊢
                  exact hpp
              refine ⟨inv_runBlock hu, runnable_runBlock hu, .inl ?_⟩
              have hru : runnable { s with input := rest, bytecnt := s.bytecnt + 1#32, pend := some .dataSecond, epoch := s.epoch + 1 } = false := by
                simp [runnable, hpos]
              have : runBlock { s with input := rest, bytecnt := s.bytecnt + 1#32, pend := some .dataSecond } = { s with input := rest, bytecnt := s.bytecnt + 1#32, pend := some .dataSecond, epoch := s.epoch + 1 } :=
                settle_of_not_runnable hru _
              rw [this]
              exact stepArrow_self _
            · exact stepped_running h1 (hrun' _ rfl rfl (show (8#4).toNat ≤ 8 by decide) rfl rfl rfl) hpos h2 h3
          · next q hq hraw =>
            have e0 : p = q := by have := hpos.symm.trans hq; injection this
            subst e0
            have hraw' : s.pend = some .raw := hraw
            obtain ⟨body, pt⟩ := p
            refine stepped_moved (moved_rawByte (body := body) (n := 100000) x (hrun' { s with input := rest, bytecnt := s.bytecnt + 1#32, pend := none } rfl rfl h.2.1 rfl rfl rfl) ?_ h3 ?_ ?_) (exits_arrow h1)
            · simp only [pendOk, hpos, hraw'] at hpk
              cases pt <;> simp at hpk <;> simp
            · simp only [pendOk, hpos, hraw'] at hpk
              cases pt <;> simp at hpk <;> simp [pointCost]
            · simp only [pendOk, hpos, hraw'] at hpk
              cases pt <;> simp at hpk <;> simp [pointCost]
          · next g1 g2 =>
            exfalso
            cases hq : s.pend with
            | none => rw [hq] at hpd; cases hpd
            | some q =>
              cases q with
              | dataFirst => exact g1 _ hpos hq
              | raw => exact g2 _ hpos hq
              | dataSecond => 
                apply haw
                unfold awaitsAfterFf
                show (match s.pos, s.pend with
                  | some _, some .dataSecond => true
                  | some ⟨_, .rstSecond⟩, some .raw => true
                  | some ⟨_, .scan true⟩, some .raw => true
                  | _, _ => false) = true
                rw [hpos, hq]

end Sys2Proof.Machine
end

