-- ==== Sys2Proof/Tests/Slice0.lean ====
section
/-! SUPPORT. The model's own tests: the ill-formed terms that WellFormed refuses, words written out from the
encoding tables, single steps with the results of spec/95_test_vectors.md, and a state that meets the
hypotheses of each statement. -/

namespace Sys2Proof.Tests

open Sys2Proof Sys2Proof.Machine

/-! ## Helpers: Setup S of 95_test_vectors, section 2 -/

/-- A Huffman table given its counts and symbols, built by 40_tables R125. -/
def table (counts symbols : List Byte) : HuffTable :=
  let t : HuffTable := { HuffTable.empty with
    bits := Vector.ofFn fun j => counts[j.val]?.getD 0#8
    huffval := Vector.ofFn fun j => symbols[j.val]?.getD 0#8 }
  (build { t with nval := bitsSum t }).1

/-- The DC table of section 2. -/
def dcTestTable : HuffTable := table [0, 3, 1, 1, 1] [0, 1, 2, 3, 4, 5]

/-- The AC table of section 2. -/
def acTestTable : HuffTable := table [0, 2, 2, 2, 1, 1] [0x01, 0x00, 0x02, 0x11, 0xF0, 0x21, 0x03, 0x10]

/-- Setup S: one component, 8×8, GRAY8, QT entries 1. -/
def setupS : State :=
  { State.reset with
    cfg0 := 0x21#11, cfg1 := 0x5#30, size := 0x00080008#32
    qt := Vector.replicate 4 (Vector.replicate 64 1#16), qtv := Vector.replicate 4 true
    ht := #v[dcTestTable, dcTestTable, dcTestTable, dcTestTable, acTestTable, acTestTable, acTestTable, acTestTable]
    htv := Vector.replicate 8 true }

/-- Setup S with one byte in the cursor, not yet used. -/
def buffered (x : Byte) : State := { setupS with cbits := x, bcnt := 8#4 }

/-- Setup S with a command executing, at a point. -/
def executing (body : Body) (point : Point) (s : State) : State :=
  { s with state := bodyState body, pos := some ⟨body, point⟩ }

/-- The next state of an outcome, or the state given. -/
def nextOr (s : State) : Host.Outcome State Fault Refusal → State
  | .next t => t
  | .fault _ => s
  | .refused _ => s

/-- The state an instruction leaves from s. -/
def after (i : Instr) (s : State) : State := nextOr s (exec i s)

/-- The state an instruction placed by its table word leaves after one step from reset. -/
def firstStep (nbits w : Nat) : State := nextOr State.reset (step (State.reset.withFetchWord nbits w))

/-! ## WellFormed: an ill-formed term for each check -/

theorem test_component3_illFormed : Instr.wellFormed (.decDc 3#2 0#4) = false := by decide
theorem test_slot12_illFormed : Instr.wellFormed (.idct 0#2 12#4) = false := by decide
theorem test_decAc_illFormed : Instr.wellFormed (.decAc 0#2 15#4) = false := by decide
theorem test_decBlk_illFormed : Instr.wellFormed (.decBlk 3#2 11#4) = false := by decide
theorem test_dcIllegal15_illFormed : Instr.wellFormed (.dcIllegal 15#8) = false := by decide
theorem test_runsize0_illFormed : Instr.wellFormed (.acRunsize 2#4 0#4) = false := by decide
theorem test_undef0_illFormed : Instr.wellFormed (.acUndef 0#4) = false := by decide
theorem test_undef15_illFormed : Instr.wellFormed (.acUndef 15#4) = false := by decide
theorem test_marker00_illFormed : Instr.wellFormed (.markerOther 0#8) = false := by decide
theorem test_markerD7_illFormed : Instr.wellFormed (.markerOther 0xD7#8) = false := by decide

/-! ## Decoding: words written out from R91-R94 and R102-R105 -/

theorem test_decode_nop : decodeCmd 0b00000000_000000000000000000000000#32 = .ok .nop := by rfl
theorem test_decode_sreset : decodeCmd 0b00000001_000000000000000000000000#32 = .ok .sreset := by rfl
theorem test_decode_loadQt : decodeCmd 0b00010000_0000000000000000000_0_00_11#32 = .ok (.loadQt 3#2) := by rfl
theorem test_decode_loadHt_ac : decodeCmd 0b00010001_0000000000000000000_1_00_10#32 = .ok (.loadHt .ac 2#2) := by rfl
theorem test_decode_loadHt_dc : decodeCmd 0b00010001_0000000000000000000_0_00_01#32 = .ok (.loadHt .dc 1#2) := by rfl
theorem test_decode_start : decodeCmd 0b00100000_000000000000000000000000#32 = .ok .start := by rfl
theorem test_decode_resync : decodeCmd 0b00100001_000000000000000000000000#32 = .ok .resync := by rfl
theorem test_decode_decDc : decodeCmd 0b00110000_00000000000000_01_0000_1011#32 = .ok (.decDc 1#2 11#4) := by rfl
theorem test_decode_decAc : decodeCmd 0b00110001_00000000000000_10_0000_0101#32 = .ok (.decAc 2#2 5#4) := by rfl
theorem test_decode_decBlk : decodeCmd 0b00110010_00000000000000_10_0000_1011#32 = .ok (.decBlk 2#2 11#4) := by rfl
theorem test_decode_restart : decodeCmd 0b00110011_000000000000000000000000#32 = .ok .restart := by rfl
theorem test_decode_idct : decodeCmd 0b01000000_00000000000000_00_0000_0111#32 = .ok (.idct 0#2 7#4) := by rfl
theorem test_decode_color : decodeCmd 0b01010000_000000000000000000000000#32 = .ok .color := by rfl
theorem test_decode_dcDiff : decodeDcSymbol 0b0000_1011#8 = .dcDiff 11#4 := by decide
theorem test_decode_dcIllegal : decodeDcSymbol 0b0001_0000#8 = .dcIllegal 16#8 := by decide
theorem test_decode_acEob : decodeAcSymbol 0b0000_0000#8 = .acEob := by decide
theorem test_decode_acZrl : decodeAcSymbol 0b1111_0000#8 = .acZrl := by decide
theorem test_decode_acRunsize : decodeAcSymbol 0b1111_0001#8 = .acRunsize 15#4 1#4 := by decide
theorem test_decode_acUndef : decodeAcSymbol 0b1110_0000#8 = .acUndef 14#4 := by decide
theorem test_decode_stuff : decodePair 0xFF#8 0x00#8 = .ok .stuffFf00 := by rfl
theorem test_decode_rst5 : decodePair 0xFF#8 0b11010_101#8 = .ok (.rstN 5#3) := by rfl
theorem test_decode_markerD8 : decodePair 0xFF#8 0xD8#8 = .ok (.markerOther 0xD8#8) := by rfl
theorem test_decode_dataPair : decodePair 0xFE#8 0xD0#8 = .error .notMarkerPair := by rfl

/-- The table of 95_test_vectors section 8.1. -/
theorem test_decode_malformed :
    decodeCmd 0x02000000#32 = .error .reservedOpcode ∧ decodeCmd 0xFF000000#32 = .error .reservedOpcode
      ∧ decodeCmd 0x00000001#32 = .error .mustBeZero ∧ decodeCmd 0x01000100#32 = .error .mustBeZero
      ∧ decodeCmd 0x10000010#32 = .error .loadQtClass ∧ decodeCmd 0x10000004#32 = .error .mustBeZero
      ∧ decodeCmd 0x11000020#32 = .error .mustBeZero ∧ decodeCmd 0x11000100#32 = .error .mustBeZero
      ∧ decodeCmd 0x30000300#32 = .error .componentOutOfRange ∧ decodeCmd 0x3000000C#32 = .error .slotOutOfRange
      ∧ decodeCmd 0x31000010#32 = .error .mustBeZero ∧ decodeCmd 0x40000400#32 = .error .mustBeZero
      ∧ decodeCmd 0x20000001#32 = .error .mustBeZero ∧ decodeCmd 0x50800000#32 = .error .mustBeZero :=
  ⟨rfl, rfl, rfl, rfl, rfl, rfl, rfl, rfl, rfl, rfl, rfl, rfl, rfl, rfl⟩

/-! ## Single steps -/

/-- Section 8.6: NOP, placed as the first instruction, sets no INTSTAT bit and leaves STATUS 0. -/
theorem test_nop_step : (firstStep 32 0x00000000).intstat = 0#8 ∧ statusWord (firstStep 32 0x00000000) = 0#32
    ∧ (firstStep 32 0x00000000).reply = some ⟨0#32, false⟩ := by decide

/-- Section 8.6: SRESET from ERROR. -/
theorem test_sreset : (after .sreset { setupS with state := .error, err := 3#4, pixlen := 64#10 }).state = .idle
    ∧ (after .sreset { setupS with state := .error, err := 3#4, pixlen := 64#10 }).err = 0#4
    ∧ (after .sreset { setupS with state := .error, err := 3#4, pixlen := 64#10 }).pixlen = 0#10 := by decide

/-- T1: STATUS 0x00000001. -/
theorem test_loadQt_step : statusWord (firstStep 32 0x10000002) = 0x00000001#32 := by decide

/-- T15: the valid bit clears at once and STATE is LOADH. -/
theorem test_loadHt : statusWord (after (.loadHt .dc 0#2) setupS) = 0x00000002#32
    ∧ tblstatWord (after (.loadHt .dc 0#2) setupS) = 0x00000FEF#32 := by decide

/-- T3: the high half of a DATA word is ignored, and the 64th word completes the load. -/
theorem test_dataQt : qtEntry (registerWrite 0x008 0x00012345#32
      { State.reset with state := .loadq, ldid := 2#2, ldcnt := 63#9 }) 2 63 = 0x2345#16
    ∧ contentsAt 0x01C (registerWrite 0x008 0x00012345#32
      { State.reset with state := .loadq, ldid := 2#2, ldcnt := 63#9 }) = 0x00000004#32 := by decide

/-- T9: three codes of length 1 over-subscribe. -/
theorem test_dataHt_oversub : errinfoWord (registerWrite 0x008 0#32
      { State.reset with
        state := .loadh, ldcnt := 15#9
        ht := State.reset.ht.setIfInBounds 0 { HuffTable.empty with bits := HuffTable.empty.bits.setIfInBounds 0 3#8 } })
    = 0x00000011#32 := by decide

/-- Section 2: the derived fields of the DC test table. -/
theorem test_build_dc : (dcTestTable.mincode.toList.take 5).map BitVec.toNat = [0, 0, 6, 14, 30]
    ∧ dcTestTable.maxcode.toList.take 6 = [-1, 2, 6, 14, 30, -1]
    ∧ (dcTestTable.valptr.toList.take 5).map BitVec.toNat = [0, 0, 3, 4, 5] := by decide

/-- Section 8.4: CFGCHK's order, check 1 before check 5. -/
theorem test_cfg_order : cfgCheck { setupS with cfg0 := 0x20#11, size := 0#32 } = some 0x01#8
    ∧ cfgCheck { setupS with cfg1 := 0x7#30 } = some 0x02#8 := by decide

/-- P6: START with no table loaded is CFG_QT. -/
theorem test_start_noTable : errinfoWord (after .start { setupS with qtv := Vector.replicate 4 false }) = 0x00000004#32
    ∧ statusWord (after .start { setupS with qtv := Vector.replicate 4 false }) = 0x00000107#32 := by decide

/-- START from an empty cursor suspends in RUN with INWAIT = 1 (10_state R25). -/
theorem test_start_waits : statusWord (after .start setupS) = 0x00000054#32 := by decide

set_option maxRecDepth 20000 in
/-- D3: diff -1. -/
theorem test_decDc : predRead (after (.decDc 0#2 0#4) { buffered 0x5F#8 with pred := #v[5#16, 0#16, 0#16] }) 0 = 4#16
    ∧ (after (.decDc 0#2 0#4) { buffered 0x5F#8 with pred := #v[5#16, 0#16, 0#16] }).bcnt = 5#4 := by decide

set_option maxRecDepth 20000 in
/-- D7: the sum wraps. -/
theorem test_decDc_wraps :
    contentsAt 0x038 (after (.decDc 0#2 0#4) { buffered 0x7F#8 with pred := #v[32767#16, 0#16, 0#16] })
      = 0xFFFF8000#32 := by decide

set_option maxRecDepth 20000 in
/-- A1: position 1 becomes 1. -/
theorem test_decAc : coefRead (after (.decAc 0#2 0#4) (buffered 0x2F#8)).mem 0 1 = 1#16
    ∧ (after (.decAc 0#2 0#4) (buffered 0x2F#8)).bcnt = 3#4 := by decide

set_option maxRecDepth 20000 in
/-- A13: the old entry is cleared. -/
theorem test_decAc_clears :
    coefRead (after (.decAc 0#2 0#4) { buffered 0x7F#8 with mem := coefWrite [] 0 5 9#16 }).mem 0 5 = 0#16 := by decide

set_option maxRecDepth 20000 in
/-- The DC code 01 with raw 1 (+1), then EOB (01): section 2's tables by hand. -/
theorem test_decBlk : coefRead (after (.decBlk 0#2 0#4) (buffered 0b01101111#8)).mem 0 0 = 1#16
    ∧ (after (.decBlk 0#2 0#4) (buffered 0b01101111#8)).bcnt = 3#4 := by decide

/-- R9: a pending RST0 is the expected marker. -/
theorem test_restart_pending :
    rststatWord (after .restart { setupS with rstint := 4#16, mp := true, marker := 0xD0#8 }) = 0x00010004#32 := by decide

/-- A wrong pending marker: SYNC_WRONG as in R4. -/
theorem test_restart_wrong : errinfoWord (after .restart { setupS with mp := true, marker := 0xD1#8 }) = 0x0000D141#32
    ∧ statusWord (after .restart { setupS with mp := true, marker := 0xD1#8 }) = 0x00000405#32 := by decide

/-- Y5: the pending RST1 is used. -/
theorem test_resync : rststatWord (after .resync
      { setupS with state := .syncHalt, rstint := 4#16, mp := true, marker := 0xD1#8, err := 4#4 }) = 0x00020004#32
    ∧ statusWord (after .resync
      { setupS with state := .syncHalt, rstint := 4#16, mp := true, marker := 0xD1#8, err := 4#4 }) = 0#32 := by decide

/-- P4, step 2: resume at MCU 2 after one lost interval, in RUN. -/
theorem test_resync_run : (after .resync
      { setupS with
        size := 0x00080020#32, state := .syncHalt, runhalt := true, rstint := 1#16, mp := true, marker := 0xD1#8
        mcux := 1#16 }).mcux = 2#16 := by decide

/-- Y6: RESYNC in IDLE is ignored. -/
theorem test_resync_idle : (after .resync setupS).intstat = 0x40#8 ∧ statusWord (after .resync setupS) = 0#32 := by decide

set_option maxRecDepth 20000 in
/-- I9: row 0 of a single horizontal frequency. -/
theorem test_idct_row :
    (List.range 8).map (fun x => (tileRead (after (.idct 0#2 0#4) { setupS with mem := coefWrite [] 0 1 16#16 }).mem 0 x).toNat)
      = [131, 130, 130, 129, 127, 126, 126, 125] := by decide

set_option maxRecDepth 20000 in
/-- I10: the same block at 1/2; entries 4..7 read 0. -/
theorem test_idct_half :
    (List.range 8).map (fun x => (tileRead (after (.idct 0#2 0#4)
      { setupS with cfg0 := 0x25#11, mem := coefWrite [] 0 1 16#16 }).mem 0 x).toNat)
      = [131, 129, 127, 125, 0, 0, 0, 0] := by decide

set_option maxRecDepth 20000 in
/-- Section 6.2: COLOR with no IDCT is 64 zero bytes. -/
theorem test_color_empty : (after .color setupS).pixlen = 64#10
    ∧ contentsAt 0x050 (after .color setupS) = 0x00070007#32 := by decide

/-- Section 6.2: a position outside the grid is refused. -/
theorem test_color_refused : (after .color { setupS with mcux := 1#16 }).intstat = 0x80#8
    ∧ (after .color { setupS with mcux := 1#16 }).right = 0#16 := by decide

/-- Section 6.1: the worked row 152, 108, 158. -/
theorem test_convert : ycbcrToRgb 152#8 108#8 158#8 = ⟨194, 137, 117⟩
    ∧ rgb565 ⟨194, 137, 117⟩ = 0xC44E#16 := by decide

/-- D1: S = 0 leaves the predictor's value. -/
theorem test_dcDiff0 : coefRead (after (.dcDiff 0#4)
    (executing .decDc (.dcSymbol 0 0 0#8) { setupS with pred := #v[5#16, 0#16, 0#16] })).mem 0 0 = 5#16 := by decide

/-- D4: S = 2 with the raw bits 01 is -2. -/
theorem test_dcDiff2 : contentsAt 0x038 (after (.dcDiff 2#4)
    (executing .decDc (.dcSymbol 0 0 2#8) { setupS with cbits := 0x9F#8, bcnt := 6#4 })) = 0xFFFFFFFE#32 := by decide

/-- D11: DC_SIZE with the symbol. -/
theorem test_dcIllegal :
    errinfoWord (after (.dcIllegal 0x13#8) (executing .decDc (.dcSymbol 0 0 0x13#8) setupS)) = 0x00001320#32 := by decide

/-- A12: EOB completes DEC_AC. -/
theorem test_acEob : statusWord (after .acEob (executing .decAc (.acSymbol 0 0 1 0#8) setupS)) = 0#32
    ∧ (after .acEob (executing .decAc (.acSymbol 0 0 1 0#8) setupS)).intstat = 0x10#8 := by decide

/-- A4: the fourth ZRL, at k = 49, overruns. -/
theorem test_acZrl_overrun :
    errinfoWord (after .acZrl (executing .decAc (.acSymbol 0 0 49 0xF0#8) setupS)) = 0x0000F022#32 := by decide

/-- A10: a ZRL at k = 48 ends the block. -/
theorem test_acZrl_ends :
    statusWord (after .acZrl (executing .decAc (.acSymbol 0 0 48 0xF0#8) setupS)) = 0#32 := by decide

/-- A7: 03 with the raw bits 011 is -4. -/
theorem test_acRunsize : coefRead (after (.acRunsize 0#4 3#4)
    (executing .decAc (.acSymbol 0 0 1 3#8) { setupS with cbits := 0b011#8, bcnt := 3#4 })).mem 0 1 = 0xFFFC#16 := by
  decide

/-- R158 (e): 0xF1 at k = 49 overruns before any bit. -/
theorem test_acRunsize_overrun : errinfoWord (after (.acRunsize 15#4 1#4)
      (executing .decAc (.acSymbol 0 0 49 0xF1#8) { setupS with bcnt := 2#4 })) = 0x0000F122#32
    ∧ (after (.acRunsize 15#4 1#4)
      (executing .decAc (.acSymbol 0 0 49 0xF1#8) { setupS with bcnt := 2#4 })).bcnt = 2#4 := by decide

/-- A11: AC_UNDEF. -/
theorem test_acUndef :
    errinfoWord (after (.acUndef 1#4) (executing .decAc (.acSymbol 0 0 1 0x10#8) setupS)) = 0x00001021#32 := by decide

/-- M1: FF 00 is one data byte FF; two of its bits complete the raw field 11111. -/
theorem test_stuff : predRead (after .stuffFf00
      { executing .decDc (.dcBits 0 0 5 2 7) setupS with pend := some .dataSecond }) 0 = 31#16
    ∧ cursorWord (after .stuffFf00
      { executing .decDc (.dcBits 0 0 5 2 7) setupS with pend := some .dataSecond }) = 0x0000FF06#32 := by decide

/-- M2: FF D3 makes the marker pending and the fill byte supplies the bits. -/
theorem test_rstN_data : cursorWord (after (.rstN 3#3)
    { executing .decDc (.dcBits 0 0 5 2 7) setupS with pend := some .dataSecond }) = 0xD301FF06#32 := by decide

/-- R1: FF D0 completes RESTART. -/
theorem test_rstN_restart : rststatWord (after (.rstN 0#3)
    { executing .restart .rstSecond { setupS with rstint := 4#16 } with pend := some .raw }) = 0x00010004#32 := by decide

/-- R6: FF D9 is SYNC_WRONG. -/
theorem test_markerOther : errinfoWord (after (.markerOther 0xD9#8)
    { executing .restart .rstSecond setupS with pend := some .raw }) = 0x0000D941#32 := by decide

/-- M3: a repeated FF is a marker. -/
theorem test_markerOther_ff : cursorWord (after (.markerOther 0xFF#8)
    { executing .decDc (.dcBits 0 0 5 2 7) setupS with pend := some .dataSecond }) = 0xFF01FF06#32 := by decide

/-- Section 8.3: an unmapped read is a bus error. -/
theorem test_busError : (nextOr setupS (step { setupS with agenda := [.busRead 0x05C 4] })).reply = some ⟨0#32, true⟩ := by
  decide

/-- The ID register (R21). -/
theorem test_readId : (nextOr setupS (step { setupS with agenda := [.busRead 0x000 4] })).reply
    = some ⟨0x544A4431#32, false⟩ := by decide

/-- Section 4.1: extend. -/
theorem test_extend : extend 0 11 = -2047 ∧ extend 1023 11 = -1024 ∧ extend 1024 11 = 1024 ∧ extend 16383 15 = -16384 := by
  decide

/-- K5 and P5: OUTRESP. -/
theorem test_outresp : statusWord (registerWrite 0x058 3#32 (executing (.drive 0) .emit setupS)) = 0x00000034#32
    ∧ statusWord (registerWrite 0x058 2#32 (executing (.drive 0) .emit setupS)) = 0x00000708#32 := by decide

/-- Q5: a masked source. -/
theorem test_irq_masked : irq { State.reset with intstat := 0x02#8, inten := 0x01#8 } = false := by decide

/-! ## Witnesses: a state and operands that meet the hypotheses of each statement -/

theorem test_witness_EncodeThenDecode : Instr.wellFormed (.decBlk 2#2 11#4) = true
    ∧ Instr.wellFormed (.dcIllegal 16#8) = true ∧ Instr.wellFormed (.acUndef 14#4) = true
    ∧ Instr.wellFormed (.markerOther 0xD8#8) = true ∧ Instr.wellFormed (.markerOther 0xCF#8) = true := by decide

theorem test_witness_DecodeThenEncode : decodeCode (.cmd 0x3200020B#32) = .ok (.decBlk 2#2 11#4)
    ∧ decodeCode (.pair 0xFF#8 0xFF#8) = .ok (.markerOther 0xFF#8) := ⟨rfl, rfl⟩

theorem test_witness_MalformedWordsRefused :
    MalformedWord 0x02000000#32 ∧ MalformedWord 0x00000001#32 ∧ MalformedWord 0x10000010#32
      ∧ MalformedWord 0x30000300#32 ∧ MalformedWord 0x3000000C#32 := by
  refine ⟨?_, ?_, ?_, ?_, ?_⟩ <;> (unfold MalformedWord isFbOpcode mustBeZeroMask mapOpcodes; decide)

theorem test_witness_UnacceptedCommandsIgnored :
    ¬MalformedWord 0x20000000#32 ∧ acceptedIn .start .run = false ∧ acceptedIn .resync .idle = false := by
  unfold MalformedWord isFbOpcode mustBeZeroMask mapOpcodes; decide

theorem test_witness_StepRunsDecoded_command :
    runnable { State.reset with agenda := [.busWrite (State.reset.tjdBase + 0x004) 4 0x3200020B#32] } = false
      ∧ decodeCmd 0x3200020B#32 = .ok (.decBlk 2#2 11#4) := ⟨rfl, rfl⟩

theorem test_witness_StepRunsDecoded_symbols :
    (executing .decDc (.dcSymbol 0 0 5#8) setupS).pend = none
      ∧ (executing .decDc (.dcSymbol 0 0 5#8) setupS).pos = some ⟨.decDc, .dcSymbol 0 0 5#8⟩
      ∧ (executing .decAc (.acSymbol 0 0 1 5#8) setupS).pend = none
      ∧ (executing .decAc (.acSymbol 0 0 1 5#8) setupS).pos = some ⟨.decAc, .acSymbol 0 0 1 5#8⟩
      ∧ runnable (executing .decAc (.acSymbol 0 0 1 5#8) setupS) = true
      ∧ symbolAt (executing .decAc (.acSymbol 0 0 1 5#8) setupS) = some (.acRunsize 0#4 5#4) := by decide

theorem test_witness_StepRunsDecoded_pair : awaitsAfterFf
    { executing .restart .rstSecond setupS with pend := some .raw, agenda := [.source], input := [.byte 0xD0#8] } = true := by
  decide

theorem test_witness_StepRunsDecoded_register : runnable { State.reset with agenda := [.busWrite 0x1BFC 4 7#32] } = false
    ∧ isMappedOffset 0x1BFC ∧ 0x1BFC % 4 = 0 := by unfold isMappedOffset isConfigOffset isReadOnlyOffset; decide

theorem test_witness_BadAccessRefused : runnable { State.reset with agenda := [.busRead 0x05C 4] } = false
    ∧ ¬isMappedOffset 0x05C ∧ ¬isMappedOffset 0x1C00 ∧ ¬isMappedOffset 0x3300 ∧ ¬isMappedOffset 0x3FFC
    ∧ 0x002 % 4 ≠ 0 ∧ isMappedOffset 0x058 := by
  refine ⟨?_, ?_, ?_, ?_, ?_, ?_, ?_⟩ <;> (try unfold isMappedOffset isConfigOffset isReadOnlyOffset) <;> decide

theorem test_witness_ReadsHaveNoEffect_draw :
    let s := { executing .decDc (.dcCode 0 0 0 0) setupS with pend := some .dataFirst, agenda := [.busRead 0x32FC 4] }
    runnable s = false ∧ isMappedOffset 0x32FC ∧ s.state = .step ∧ outwait s = false := by
  unfold isMappedOffset isConfigOffset isReadOnlyOffset; decide

theorem test_witness_ReadsHaveNoEffect_contents :
    let s := { executing (.drive 0) .emit setupS with agenda := [.busRead 0x3000 4] }
    runnable s = false ∧ isMappedOffset 0x3000 ∧ ¬(outwait s = false) := by
  unfold isMappedOffset isConfigOffset isReadOnlyOffset; decide

theorem test_witness_RegisterFields : State.Inv { executing .decDc (.dcCode 0 0 0 0) setupS with pend := some .dataFirst }
    ∧ State.Inv (executing (.drive 0) .emit setupS) := by decide

theorem test_witness_ConfigurationOnlyInIdle : isConfigOffset 0x1BFC ∧ isConfigOffset 0x20 ∧ isReadOnlyOffset 0x32FC
    ∧ isReadOnlyOffset 0x00 ∧ (executing (.drive 0) .emit setupS).state ≠ .idle := by
  unfold isConfigOffset isReadOnlyOffset; decide

theorem test_witness_ConfigurationReadBack : State.reset.state = .idle ∧ State.reset.mem.wf = true := by decide

theorem test_witness_ResetState : runnable { setupS with agenda := [.hwReset] } = false := by decide

theorem test_witness_NopDoesNothing : (1#32 : Word).extractLsb' 24 8 = 0#8 ∧ (1#32 : Word) ≠ 0#32 := by decide

theorem test_witness_LoadsBegin : State.reset.state = .idle := by decide

theorem test_witness_QuantWords :
    ({ State.reset with state := .loadq, ldcnt := 63#9 } : State).ldcnt.toNat = 63
      ∧ ({ State.reset with state := .loadq } : State).ldcnt.toNat < 63 := by decide

/-- The table of a load with the counts given. -/
def counts (l : List Byte) : HuffTable := { HuffTable.empty with bits := Vector.ofFn fun j => l[j.val]?.getD 0#8 }

theorem test_witness_CountWords_tooMany : ({ State.reset with state := .loadh, ldcnt := 15#9 } : State).ldcnt.toNat = 15
    ∧ 256 < bitsSum (counts [0, 0, 0, 0, 0, 0, 0, 200, 0, 0, 0, 0, 0, 0, 0, 57]) := by decide

theorem test_witness_CountWords_oversubscribed : bitsSum (counts [2, 3]) ≤ 256
    ∧ 2 ^ 2 < firstCode (counts [2, 3]) 2 + bitsAt (counts [2, 3]) 2 := by decide

theorem test_witness_CountWords_fits : ∀ len ∈ List.range' 1 16,
    firstCode (counts [1, 1, 1, 1, 1, 1, 1, 1, 1, 1, 1, 1, 1, 1, 1, 1]) len
        + bitsAt (counts [1, 1, 1, 1, 1, 1, 1, 1, 1, 1, 1, 1, 1, 1, 1, 1]) len ≤ 2 ^ len := by decide

theorem test_witness_SymbolWords :
    let s := { State.reset with
      state := .loadh, ldcnt := 17#9, ht := State.reset.ht.setIfInBounds 0 { counts [2] with nval := 2 } }
    16 ≤ s.ldcnt.toNat ∧ s.ldcnt.toNat < 16 + (loadTable s).nval ∧ (loadTable s).nval ≤ 256 := by decide

theorem test_witness_BuildRecurrence : bitsSum dcTestTable ≤ 256 ∧ (build dcTestTable).2 = true
    ∧ (build (counts [3])).2 = false := by decide

theorem test_witness_CanonicalCodesDecode : bitsSum dcTestTable ≤ 256 ∧ (build dcTestTable).2 = true
    ∧ 2 < bitsAt dcTestTable 2 ∧ 0 < bitsAt dcTestTable 5 := by decide

theorem test_witness_TablesOnlyInLoads : State.reset.state ≠ .loadq ∧ State.reset.state ≠ .loadh
    ∧ (executing (.drive 0) .emit setupS).state = .run
    ∧ step (executing (.drive 0) .emit setupS) = .next (executing (.drive 0) .emit setupS) :=
  ⟨by decide, by decide, rfl, rfl⟩

/-- The two resets to come of `Resets`, in a state of each statement that names them. -/
theorem test_witness_Resets :
    Resets { executing (.drive 0) .emit setupS with agenda := [.hwReset] }
      ∧ Resets { setupS with state := .error, agenda := [.busWrite 0x004 4 0x01000000#32] }
      ∧ State.Inv { executing (.drive 0) .emit setupS with agenda := [.hwReset] }
      ∧ State.Inv { setupS with state := .error, agenda := [.busWrite 0x004 4 0x01000000#32] } :=
  ⟨⟨rfl, [], .inl rfl⟩, ⟨rfl, [], .inr rfl⟩, by decide, by decide⟩

theorem test_witness_ExtendValue : 16383 < 2 ^ (15 - 1) ∧ 2 ^ (15 - 1) ≤ 16384 ∧ 32767 < 2 ^ 15 := by decide

theorem test_witness_SourceAnswers_data :
    let s := { executing .decDc (.dcCode 0 0 0 0) setupS with
      pend := some .dataFirst, agenda := [.source], input := [.byte 0xFF#8] }
    s.pos = some ⟨.decDc, .dcCode 0 0 0 0⟩ ∧ s.agenda = [.source] ∧ s.pend = some .dataFirst
      ∧ s.input = [.byte 0xFF#8] := by decide

theorem test_witness_SourceAnswers_end :
    let s := { executing .decDc (.dcCode 0 0 0 0) setupS with
      pend := some .dataFirst, agenda := [.source], input := [.eos, .ierr] }
    s.pend ≠ none ∧ s.input = .eos :: [.ierr] := by decide

theorem test_witness_SourceAnswers_raw :
    let s := { executing .restart .rstFirst setupS with
      pend := some .raw, agenda := [.source], input := [.byte 0xFE#8] }
    s.pos = some ⟨.restart, .rstFirst⟩ ∧ s.pend = some .raw ∧ s.eos = false := by decide

theorem test_witness_SourceAnswers_scan :
    let s := { executing (.resync true) (.scan false) setupS with
      pend := some .raw, agenda := [.source], input := [.byte 0x12#8] }
    s.pos = some ⟨.resync true, .scan false⟩ ∧ s.agenda = [.source] ∧ s.pend = some .raw ∧ s.eos = false
      ∧ s.input = [.byte 0x12#8] := by decide

theorem test_witness_SourceAnswers_ended :
    let s := fun body point => { executing body point setupS with
      pend := some .raw, agenda := [.source], input := [.eos] }
    (s (.drive 1) .rstFirst).pos = some ⟨.drive 1, .rstFirst⟩ ∧ (s .restart .rstSecond).pos = some ⟨.restart, .rstSecond⟩
      ∧ (s (.resync false) (.scan true)).pos = some ⟨.resync false, .scan true⟩
      ∧ (s .restart .rstSecond).pend = some .raw ∧ (s .restart .rstSecond).input = [.eos] := by decide

set_option maxRecDepth 20000 in
theorem test_witness_DecDcCompletes :
    let s := buffered 0x5F#8
    s.state = .idle ∧ s.pend = none ∧ cfgCheck s = none ∧ (0#2 : BitVec 2).toNat < ncomp s
      ∧ huffPrefix (dcTable s 0) (bufferedBits s) = some (1#8, [false, true, true, true, true, true]) := by decide

set_option maxRecDepth 20000 in
theorem test_witness_DecAcCompletes :
    let s := buffered 0x2F#8
    cfgCheck s = none ∧ acBlockRef (acTable s 0) 0 64 1 (coefClear s.mem 0 1 63) (bufferedBits s)
      = some (coefWrite [] 0 1 1#16, [true, true, true]) := by decide

set_option maxRecDepth 20000 in
theorem test_witness_DecBlkCompletes :
    let s := buffered 0b01101111#8
    huffPrefix (dcTable s 0) (bufferedBits s) = some (1#8, [true, false, true, true, true, true])
      ∧ acBlockRef (acTable s 0) 0 64 1 (coefClear (coefWrite s.mem 0 0 1#16) 0 1 63) [false, true, true, true, true]
        = some (coefWrite [] 0 0 1#16, [true, true, true]) := by decide

theorem test_witness_DecodesOnEmptyCursor :
    setupS.state = .idle ∧ setupS.pend = none ∧ cfgCheck setupS = none ∧ (0#2 : BitVec 2).toNat < ncomp setupS
      ∧ setupS.bcnt = 0#4 ∧ setupS.mp = false ∧ setupS.eos = false
      ∧ ∀ len ∈ List.range' 1 16, huffMatch (dcTable { setupS with eos := true } 0) len (2 ^ len - 1) = none := by
  decide

theorem test_witness_DcDiffEffect :
    let s := executing .decDc (.dcSymbol 0 0 8#8) (buffered 0xA5#8)
    s.pend = none ∧ s.pos = some ⟨.decDc, .dcSymbol 0 0 8#8⟩ ∧ (8#4 : BitVec 4).toNat ≤ s.bcnt.toNat := by decide

theorem test_witness_DcDiffEffect_zero :
    let s := executing .decBlk (.dcSymbol 0 0 0#8) setupS
    s.pend = none ∧ s.pos = some ⟨.decBlk, .dcSymbol 0 0 0#8⟩ ∧ Body.decBlk ≠ .decDc := by decide

theorem test_witness_IllegalSymbolsFault :
    (executing .decDc (.dcSymbol 0 0 0x13#8) setupS).pos = some ⟨.decDc, .dcSymbol 0 0 0x13#8⟩
      ∧ (executing .decAc (.acSymbol 0 0 1 0x10#8) setupS).pos = some ⟨.decAc, .acSymbol 0 0 1 0x10#8⟩ := by decide

theorem test_witness_AcEobZrlEffect :
    let s := executing (.drive 0) (.acSymbol 0 0 47 0#8) { setupS with cfg1 := 0x6#30 }
    s.pend = none ∧ s.pos = some ⟨.drive 0, .acSymbol 0 0 47 0#8⟩ ∧ 0 + 1 < slotCount s ∧ slotCount s ≤ 1 + 1
      ∧ 47 + 16 < 64 ∧ 48 + 16 = 64 ∧ 64 < 49 + 16 := by decide

/-- A colour MCU of H0 = 2, V0 = 1 at its last slot, and the same for COLOR. -/
def colourS : State := { setupS with cfg0 := 0x03#11, cfg1 := 0x00501406#30, size := 0x00080010#32 }

theorem test_witness_AcEobZrlEffect_lastSlot :
    let s := executing (.drive 0) (.acSymbol 2 3 5 0#8) colourS
    s.pend = none ∧ s.pos = some ⟨.drive 0, .acSymbol 2 3 5 0#8⟩ ∧ slotCount s ≤ 3 + 1 ∧ s.mem.wf = true
      ∧ cfgCheck s = none ∧ s.mcux.toNat < nmcux s ∧ s.mcuy.toNat < nmcuy s := by decide

theorem test_witness_AcRunsizeEffect :
    let s := executing .decAc (.acSymbol 0 0 62 0x13#8) { setupS with bcnt := 3#4 }
    s.pend = none ∧ s.pos = some ⟨.decAc, .acSymbol 0 0 62 0x13#8⟩ ∧ (3#4 : BitVec 4) ≠ 0#4
      ∧ 62 + (1#4 : BitVec 4).toNat = 63 ∧ 63 < 62 + (2#4 : BitVec 4).toNat ∧ 62 + (0#4 : BitVec 4).toNat < 63
      ∧ 3#4 = s.bcnt ∧ s.mp = false ∧ s.eos = false := by decide

theorem test_witness_PairsInData :
    let s := { executing .decDc (.dcBits 0 0 5 2 7) setupS with pend := some .dataSecond }
    s.pos = some ⟨.decDc, .dcBits 0 0 5 2 7⟩ ∧ s.pend = some .dataSecond ∧ (0xD9#8 : Byte) ≠ 0#8 := by decide

theorem test_witness_PairsInMarkerReads :
    let s := { executing .restart .rstSecond setupS with pend := some .raw }
    let u := { executing (.resync false) (.scan true) setupS with pend := some .raw }
    s.pend = some .raw ∧ s.eos = false ∧ s.pos = some ⟨.restart, .rstSecond⟩ ∧ u.pos = some ⟨.resync false, .scan true⟩
      ∧ isRstByte 0xCF#8 = false ∧ isRstByte 0xD8#8 = false := by decide

theorem test_witness_PairsInMarkerReads_driver :
    let s := { executing (.drive 1) .rstSecond setupS with pend := some .raw }
    s.pend = some .raw ∧ s.eos = false ∧ s.pos = some ⟨.drive 1, .rstSecond⟩ ∧ cfgCheck s = none := by decide

/-- Four MCUs, RSTINT 1, halted in MCU 1: RST1 resumes at MCU 2, and RST3 is past the last. -/
theorem test_witness_PairsInMarkerReads_resume :
    let s := { executing (.resync true) (.scan true)
        { setupS with size := 0x00080020#32, rstint := 1#16, mcux := 1#16 } with
      pend := some .raw }
    s.pend = some .raw ∧ s.eos = false ∧ s.pos = some ⟨.resync true, .scan true⟩ ∧ nmcu s = 4
      ∧ s.mcuy.toNat * nmcux s + s.mcux.toNat + (1#3 - s.rstnext).toNat * s.rstint.toNat = 2
      ∧ s.mcuy.toNat * nmcux s + s.mcux.toNat + (3#3 - s.rstnext).toNat * s.rstint.toNat = 4
      ∧ s.bcnt = 0#4 ∧ s.mp = false ∧ cfgCheck s = none := by decide

theorem test_witness_StraySymbolsStop : State.reset.pos = none ∧ awaitsAfterFf State.reset = false := by decide

theorem test_witness_RestartOutcome : setupS.state = .idle ∧ setupS.pend = none ∧ cfgCheck setupS = none := by decide

theorem test_witness_ResyncFromStep :
    let s := { setupS with state := .syncHalt, mp := true, marker := 0xD7#8 }
    s.state = .syncHalt ∧ s.runhalt = false ∧ s.pend = none ∧ s.mp = true ∧ s.marker = 0x1A#5 ++ 7#3 := by decide

theorem test_witness_ResyncFromStep_scan :
    let s := { setupS with state := .syncHalt, mp := true, marker := 0xFF#8 }
    let u := { setupS with state := .syncHalt, eos := true }
    s.state = .syncHalt ∧ s.runhalt = false ∧ s.pend = none ∧ s.mp = true ∧ isRstByte s.marker = false
      ∧ s.eos = false ∧ u.state = .syncHalt ∧ u.runhalt = false ∧ u.pend = none ∧ u.mp = false ∧ u.eos = true := by
  decide

theorem test_witness_ResyncFromRun :
    let s := { setupS with
      size := 0x00080020#32, state := .syncHalt, runhalt := true, rstint := 1#16, mp := true, marker := 0xD1#8
      mcux := 1#16 }
    s.state = .syncHalt ∧ s.runhalt = true ∧ s.pend = none ∧ s.mp = true ∧ s.marker = 0x1A#5 ++ 1#3
      ∧ s.eos = false ∧ cfgCheck s = none ∧ nmcu s = 4
      ∧ s.mcuy.toNat * nmcux s + s.mcux.toNat + (1#3 - s.rstnext).toNat * s.rstint.toNat = 2 := by decide

theorem test_witness_ResyncFromRun_done :
    let s := { setupS with
      size := 0x00080020#32, state := .syncHalt, runhalt := true, rstint := 1#16, mp := true, marker := 0xD3#8
      mcux := 1#16 }
    nmcu s ≤ s.mcuy.toNat * nmcux s + s.mcux.toNat + (3#3 - s.rstnext).toNat * s.rstint.toNat := by decide

theorem test_witness_ResyncFromRun_scan :
    let s := { setupS with state := .syncHalt, runhalt := true, mp := true, marker := 0xD9#8 }
    let u := { setupS with state := .syncHalt, runhalt := true, eos := true }
    s.state = .syncHalt ∧ s.runhalt = true ∧ s.pend = none ∧ s.mp = true ∧ isRstByte s.marker = false
      ∧ s.eos = false ∧ u.state = .syncHalt ∧ u.runhalt = true ∧ u.pend = none ∧ u.mp = false ∧ u.eos = true := by
  decide

theorem test_witness_IdctSamples : setupS.state = .idle ∧ setupS.mem.wf = true ∧ cfgCheck setupS = none
    ∧ (0#2 : BitVec 2).toNat < ncomp setupS ∧ (11#4 : BitVec 4).toNat < 12 := by decide

theorem test_witness_ColorAssembles : setupS.state = .idle ∧ setupS.mem.wf = true ∧ cfgCheck setupS = none
    ∧ setupS.mcux.toNat < nmcux setupS ∧ setupS.mcuy.toNat < nmcuy setupS := by decide

theorem test_witness_ColorAssembles_colour : colourS.state = .idle ∧ colourS.mem.wf = true ∧ cfgCheck colourS = none
    ∧ colourS.mcux.toNat < nmcux colourS ∧ colourS.mcuy.toNat < nmcuy colourS ∧ ncomp colourS = 3
    ∧ bytesPerPixel colourS = 3 := by decide

theorem test_witness_RectanglesTile : cfgCheck { setupS with size := 0x000A0014#32 } = none
    ∧ nmcu { setupS with size := 0x000A0014#32 } = 6 := by decide

/-- Section 8.4: a configuration for each check of R222, in order. -/
theorem test_witness_CfgCheckOrder :
    cfgCheck { setupS with cfg0 := 0x20#11 } = some 0x01#8 ∧ cfgCheck { setupS with cfg0 := 0x22#11 } = some 0x01#8
      ∧ cfgCheck { setupS with cfg0 := 0x31#11 } = some 0x07#8 ∧ cfgCheck { setupS with cfg0 := 0x321#11 } = some 0x07#8
      ∧ cfgCheck { setupS with cfg1 := 0x4#30 } = some 0x02#8
      ∧ cfgCheck { setupS with cfg0 := 0x23#11, cfg1 := 0x00501405#30 } = none
      ∧ cfgCheck { setupS with cfg0 := 0x23#11, cfg1 := 0x00501805#30 } = some 0x03#8
      ∧ cfgCheck { setupS with size := 0x00080000#32 } = some 0x06#8
      ∧ cfgCheck { setupS with cfg1 := 0x15#30, qtv := #v[true, false, false, false] } = some 0x04#8
      ∧ cfgCheck { setupS with htv := #v[false, true, true, true, true, true, true, true] } = some 0x05#8 := by decide

theorem test_witness_CfgFaultsFirst : cfgCheck { setupS with cfg0 := 0x31#11 } = some 0x07#8
    ∧ Instr.wellFormed (.idct 0#2 0#4) = true ∧ isCommand (.idct 0#2 0#4) = true
    ∧ acceptedIn (.idct 0#2 0#4) .idle = true := by decide

theorem test_witness_OperandsRefused : cfgCheck setupS = none ∧ ncomp setupS ≤ (1#2 : BitVec 2).toNat
    ∧ nmcux { setupS with mcux := 1#16 } ≤ ({ setupS with mcux := 1#16 } : State).mcux.toNat := by decide

theorem test_witness_StartBegins : setupS.state = .idle ∧ setupS.pend = none ∧ cfgCheck setupS = none
    ∧ setupS.bcnt = 0#4 ∧ setupS.mp = false ∧ setupS.eos = false := by decide

theorem test_witness_OutrespWrites : outwait setupS = false
    ∧ (executing (.drive 0) .emit setupS).pos = some ⟨.drive 0, .emit⟩ ∧ (executing (.drive 0) .emit setupS).pend = none
    ∧ nmcu (executing (.drive 0) .emit setupS) ≤ 0 + 1 := by decide

theorem test_witness_NextMcuRestart :
    let s := executing (.drive 1) (.nextMcu false) { setupS with size := 0x00080010#32, rstint := 1#16 }
    s.pend = none ∧ s.pos = some ⟨.drive 1, .nextMcu false⟩ ∧ cfgCheck s = none ∧ 1 < nmcu s := by decide

theorem test_witness_SetupKept : ∃ t, exec .restart setupS = .next t := ⟨_, rfl⟩

theorem test_witness_StepCommandFrames : State.Inv setupS ∧ setupS.state = .idle
    ∧ (∃ t, exec (.decDc 0#2 0#4) setupS = .next t) ∧ (∃ t, exec (.decAc 0#2 0#4) setupS = .next t)
    ∧ (∃ t, exec (.decBlk 0#2 0#4) setupS = .next t) ∧ ∃ t, exec .restart setupS = .next t :=
  ⟨by decide, by decide, ⟨_, rfl⟩, ⟨_, rfl⟩, ⟨_, rfl⟩, ⟨_, rfl⟩⟩

theorem test_witness_DriverFrames : State.Inv setupS ∧ (∃ t, exec .start setupS = .next t)
    ∧ ∃ t, exec .resync { setupS with state := .syncHalt } = .next t := ⟨by decide, ⟨_, rfl⟩, ⟨_, rfl⟩⟩

theorem test_witness_SymbolFrames : State.Inv (executing .decDc (.dcSymbol 0 0 5#8) setupS)
    ∧ isCommand (.dcDiff 5#4) = false ∧ ∃ t, exec (.dcDiff 5#4) (executing .decDc (.dcSymbol 0 0 5#8) setupS) = .next t :=
  ⟨by decide, by decide, ⟨_, rfl⟩⟩

theorem test_witness_StepKeepsInv : State.Inv setupS := by decide

theorem test_witness_StepsEndAtSuspension : State.Inv setupS ∧ ∃ t, step setupS = .next t := ⟨by decide, ⟨_, rfl⟩⟩

theorem test_witness_StateTransitions : State.Inv { setupS with agenda := [.busWrite 0x004 4 0x20000000#32] }
    ∧ ∃ t, step { setupS with agenda := [.busWrite 0x004 4 0x20000000#32] } = .next t := ⟨by decide, ⟨_, rfl⟩⟩

theorem test_witness_TerminalStates : State.Inv { setupS with state := .error, agenda := [.busWrite 0x058 4 1#32] }
    ∧ terminal .error = true ∧ terminal .done = true ∧ terminal .cancelled = true
    ∧ ∃ t, step { setupS with state := .error, agenda := [.busWrite 0x058 4 1#32] } = .next t :=
  ⟨by decide, by decide, by decide, by decide, ⟨_, rfl⟩⟩

theorem test_witness_StrategyIndependence : (2#2 : BitVec 2) ≠ 3#2 ∧ strategy setupS ≠ 3 := by decide

end Sys2Proof.Tests
end

section
/-! PROOFS. One whole step of the machine, and that it keeps the invariant (O55, O56). -/

namespace Sys2Proof.Machine

/-! ## The step from a block that can go on by itself -/

/-- A stream symbol runs as its effect, followed by the block's run. -/
theorem exec_symbol {i : Instr} (h : isCommand i = false) (s : State) :
    exec i s = runSymbol (symbolEffect i s) := by
  cases i
  case dcDiff | dcIllegal | acEob | acZrl | acRunsize | acUndef | stuffFf00 | rstN | markerOther => rfl
  all_goals cases h

/-- What the block has matched is a stream symbol. -/
theorem isCommand_of_symbolAt {s : State} {i : Instr} (h : symbolAt s = some i) : isCommand i = false := by
  unfold symbolAt at h
  split at h
  · obtain rfl := Option.some.inj h
    unfold decodeDcSymbol
    split <;> rfl
  · obtain rfl := Option.some.inj h
    unfold decodeAcSymbol
    split
    · rfl
    split
    · rfl
    split <;> rfl
  · cases h

/-- At a matched symbol the next move of the block is the symbol's effect. -/
theorem blockMove_symbolAt {s : State} {i : Instr} (h : symbolAt s = some i) :
    blockMove s = (symbolEffect i s).getD s := by
  unfold symbolAt at h
  split at h
  · next hpos => obtain rfl := Option.some.inj h; exact blockMove_dcSymbol hpos
  · next hpos => obtain rfl := Option.some.inj h; exact blockMove_acSymbol hpos
  · cases h

/-- A symbol the block has matched has an effect: the machine does not stop at it. -/
theorem symbolEffect_of_symbolAt {s : State} {i : Instr} (h : symbolAt s = some i) :
    ∃ t, symbolEffect i s = some t := by
  unfold symbolAt at h
  split at h
  · next hpos =>
    obtain rfl := Option.some.inj h
    unfold decodeDcSymbol
    split
    · exact ⟨_, dcDiffEffect_at hpos _⟩
    · exact ⟨_, dcIllegalEffect_at hpos _⟩
  · next hpos =>
    obtain rfl := Option.some.inj h
    unfold decodeAcSymbol
    split
    · exact ⟨_, acEobEffect_at hpos⟩
    split
    · exact ⟨_, acZrlEffect_at hpos⟩
    split
    · exact ⟨_, acUndefEffect_at hpos _⟩
    · exact ⟨_, acRunsizeEffect_at hpos _ _⟩
  · cases h

/-- A matched symbol runs as one move of the block, followed by its run to the next suspension point. -/
theorem exec_symbolAt_eq_blockMove {s : State} {i : Instr} (h : symbolAt s = some i) :
    exec i s = .next (runBlock (blockMove s)) := by
  obtain ⟨t, ht⟩ := symbolEffect_of_symbolAt h
  rw [exec_symbol (isCommand_of_symbolAt h), blockMove_symbolAt h, ht]
  rfl

/-- The next step of a block that can go on by itself is a run of the block, after the move of the symbol it has
matched if it has matched one (20_memory R76). -/
theorem step_of_runnable {s : State} (hr : runnable s = true) :
    step s = .next (runBlock s) ∨ step s = .next (runBlock (blockMove s)) := by
  unfold step fetchNext
  rw [if_pos hr]
  cases hi : symbolAt s with
  | none => exact .inl rfl
  | some i => exact .inr (exec_symbolAt_eq_blockMove hi)

/-- A block that can go on by itself is at a position whose body has its STATE, and moves from there. -/
theorem pos_of_runnable {s : State} (h : s.Inv) (hr : runnable s = true) :
    ∃ p, s.pos = some p ∧ s.state = bodyState p.body ∧ Moved p.body (cost s) (blockMove s) := by
  obtain ⟨p, hp, hm⟩ := moved_blockMove h hr
  exact ⟨p, hp, (pos_some h hp).1, hm⟩

/-- A block that can go on by itself steps to its next suspension point. -/
theorem stepped_of_runnable {r : Prop} {s : State} (h : s.Inv) (hr : runnable s = true) :
    ∃ t, step s = .next t ∧ Stepped r s t := by
  obtain ⟨p, hp, hst, hm⟩ := pos_of_runnable h hr
  rcases step_of_runnable hr with e | e
  · exact ⟨_, e, inv_runBlock h, runnable_runBlock h,
      .inl (exits_arrow hst _ (hst ▸ exits_runBlock h))⟩
  · exact ⟨_, e, stepped_moved hm (exits_arrow hst)⟩

/-! ## The step of an agent -/

/-- What is fetched runs. -/
def runFetched : Fetched → Host.Outcome State Fault Refusal
  | .instr i t => exec i t
  | .settled t => .next t

/-- The next step of a block at rest is the next agent's. -/
theorem step_of_agent {s : State} {ev : Event} {rest : List Event} (hr : runnable s = false)
    (ha : s.agenda = ev :: rest) : step s = runFetched (agentStep ev { s with agenda := rest }) := by
  simp only [step, fetchNext, hr, ha, Bool.false_eq_true, if_false]
  rfl

/-- A block at rest with no agent's step to come stays as it is. -/
theorem step_of_no_agent {s : State} (hr : runnable s = false) (ha : s.agenda = []) : step s = .next s := by
  simp only [step, fetchNext, hr, ha, Bool.false_eq_true, if_false]

/-- A fetched thing that is `FStepped` gives a next state that is `Stepped`. -/
theorem FStepped.run {r : Prop} {s : State} {f : Fetched} (h : FStepped r s f) :
    ∃ t, runFetched f = .next t ∧ Stepped r s t := by
  cases f with
  | instr i t => exact h
  | settled t => exact ⟨t, rfl, h⟩

/-- A host read changes the bus response alone. -/
theorem hostRead_eq (addr width : Nat) (s : State) :
    hostRead addr width s = { s with reply := (hostRead addr width s).reply } := by
  unfold hostRead
  split
  · rfl
  · split <;> rfl

/-- The step of any agent. -/
theorem fstepped_agentStep {s : State} (h : s.Inv) (hr : runnable s = false) (ev : Event) :
    FStepped (ev = .hwReset ∨ ev = .busWrite (s.tjdBase + 0x004) 4 0x01000000#32) s (agentStep ev s) := by
  cases ev with
  | busRead addr width =>
    show Stepped _ s (hostRead addr width s)
    rw [hostRead_eq]
    exact ⟨h, hr, .inl (stepArrow_self _)⟩
  | busWrite addr width v =>
    have hw := fstepped_host h hr addr width v
    revert hw
    show _ → FStepped _ s (hostWrite addr width v s)
    have hcause : addr = s.tjdBase + 0x004 ∧ width = 4 ∧ v = 0x01000000#32 →
        Event.busWrite addr width v = .hwReset
          ∨ Event.busWrite addr width v = .busWrite (s.tjdBase + 0x004) 4 0x01000000#32 := by
      rintro ⟨rfl, rfl, rfl⟩; exact .inr rfl
    cases hostWrite addr width v s with
    | instr i t => exact fun ⟨u, hu, hs⟩ => ⟨u, hu, hs.mono hcause⟩
    | settled t => exact fun hs => hs.mono hcause
  | source => exact fstepped_source h hr
  | hwReset =>
    obtain ⟨-, -, -, -, -, -, -, hbase⟩ := h
    exact stepped_reset hbase s (.inl rfl)

/-! ## Every step -/

/-- ONE STEP: from a state that meets the invariant the machine answers a next state that meets it, at a suspension
point, with STATE along an arrow of R220 or the block reset by one of the two events that reset it. -/
theorem step_next_stepped {s : State} (h : s.Inv) : ∃ t, step s = .next t ∧ Stepped (Resets s) s t := by
  by_cases hr : runnable s = true
  · exact stepped_of_runnable h hr
  · have hrest : runnable s = false := by simpa using hr
    cases ha : s.agenda with
    | nil => exact ⟨s, step_of_no_agent hrest ha, h, hrest, .inl (stepArrow_self _)⟩
    | cons ev rest =>
      obtain ⟨t, ht, hs⟩ :=
        (fstepped_agentStep (s := { s with agenda := rest }) h hrest ev).run
      refine ⟨t, (step_of_agent hrest ha).trans ht, Stepped.mono (stepped_congr hs rfl) ?_⟩
      rintro (rfl | rfl)
      · exact ⟨hrest, rest, .inl ha⟩
      · exact ⟨hrest, rest, .inr ha⟩

/-- Settles O56: a step is a run of the block or an agent's step, and each is `Stepped`. -/
theorem stepKeepsInv : Obligations.StepKeepsInv := by
  intro s h
  obtain ⟨t, ht, hs⟩ := step_next_stepped h
  exact ⟨t, ht, hs.inv⟩

/-- Settles O55: each conjunct of the invariant is evaluated at the reset state. -/
theorem invAtReset : Obligations.InvAtReset := by
  unfold Obligations.InvAtReset
  decide

end Sys2Proof.Machine
end

section
/-! PROOFS. What no instruction but a load and SRESET changes (O51). -/

namespace Sys2Proof.Machine

/-- The setup of t and what stands outside the block are those of s; the block may have made steps. -/
def KeepsSetup (s t : State) : Prop := ∃ e, setupOf t = setupOf { s with epoch := e }

namespace KeepsSetup
variable {s t u : State}

theorem of_setupOf (h : setupOf t = setupOf s) : KeepsSetup s t := ⟨s.epoch, h⟩

/-- The block's run counts one step and keeps the rest. -/
theorem runBlock (h : setupOf u = setupOf s) : KeepsSetup s (Machine.runBlock u) :=
  ⟨s.epoch + 1, (setupOf_runBlock u).trans (congrArg (fun p : Setup => { p with epoch := p.epoch + 1 }) h)⟩

theorem issue {ok : Bool} {acc : SeqState} {run : State → State} (h : KeepsSetup s (run s)) :
    KeepsSetup s (Machine.issue ok acc run s) := by
  unfold Machine.issue
  split
  · split
    · exact h
    · exact of_setupOf (setupOf_cmdIgnored s)
  · exact of_setupOf (setupOf_cmdError s)

theorem stepCommand {refuse : State → Bool} {body : State → State}
    (h : KeepsSetup s (body { s with state := .step })) : KeepsSetup s (Machine.stepCommand refuse body s) := by
  unfold Machine.stepCommand
  split
  · exact of_setupOf (setupOf_takeFault _ _ _ s)
  · split
    · exact of_setupOf (setupOf_cmdError s)
    · exact h

/-- A decode command keeps the setup where its beginning does. -/
theorem decodeCommand {body : Body} {bg : Body → Nat → Nat → State → State} {c : BitVec 2} {b : BitVec 4}
    (h : ∀ u, setupOf (bg body c.toNat b.toNat u) = setupOf u) :
    KeepsSetup s (Machine.decodeCommand body bg c b s) :=
  issue (stepCommand (runBlock (h _)))

theorem runSymbol {i : Instr} (h : Machine.runSymbol (symbolEffect i s) = .next t) : KeepsSetup s t := by
  cases he : symbolEffect i s with
  | none => rw [he] at h; cases h
  | some u =>
    rw [he] at h
    cases h
    exact runBlock (setupOf_symbolEffect he)

end KeepsSetup

/-- Every instruction but the loads and SRESET keeps the setup. -/
theorem exec_keepsSetup {i : Instr} {s t : State} (h : exec i s = .next t) (hreset : i ≠ .sreset)
    (hqt : ∀ id, i ≠ .loadQt id) (hht : ∀ cls id, i ≠ .loadHt cls id) : KeepsSetup s t := by
  cases hc : isCommand i with
  | false => exact KeepsSetup.runSymbol ((exec_symbol hc s).symm.trans h)
  | true =>
    cases i with
    | nop => cases h; exact .of_setupOf rfl
    | sreset => exact absurd rfl hreset
    | loadQt id => exact absurd rfl (hqt id)
    | loadHt cls id => exact absurd rfl (hht cls id)
    | start =>
      cases h
      refine .issue ?_
      split
      · exact .of_setupOf (setupOf_takeFault _ _ _ s)
      · exact .runBlock rfl
    | resync => cases h; exact .issue (.runBlock (setupOf_resyncBegin _ _))
    | decDc c b => cases h; exact .decodeCommand (setupOf_startDc _ _ _)
    | decAc c b => cases h; exact .decodeCommand (setupOf_startAc _ _ _)
    | decBlk c b => cases h; exact .decodeCommand (setupOf_startDc _ _ _)
    | restart => cases h; exact .issue (.stepCommand (.runBlock (setupOf_restartCheck _ _)))
    | idct c b => cases h; exact .issue (.stepCommand (.of_setupOf (setupOf_idctBlock b.toNat (qSel s c.toNat) _)))
    | color => cases h; exact .issue (.stepCommand (.of_setupOf (setupOf_assembleMcu _)))
    | _ => cases hc

/-- The setup projection holds the setup and what stands outside the block. -/
theorem sameSetup_of_setupOf {s t : State} (h : setupOf t = setupOf s) : SameSetup s t ∧ SameOutside s t :=
  ⟨⟨cfg0_of_setup h, cfg1_of_setup h, size_of_setup h, rstint_of_setup h, inten_of_setup h, qt_of_setup h,
      qtv_of_setup h, ht_of_setup h, htv_of_setup h, ldcls_of_setup h, ldid_of_setup h, ldcnt_of_setup h,
      tjdBase_of_setup h⟩,
    agenda_of_setup h, input_of_setup h, freshInputs_of_setup h, reply_of_setup h⟩

/-- Settles O51: every instruction but the loads and SRESET keeps the setup projection. -/
theorem setupKept : Obligations.SetupKept := by
  intro i s t h hreset hqt hht
  obtain ⟨e, hk⟩ := exec_keepsSetup h hreset hqt hht
  have hsame := sameSetup_of_setupOf hk
  exact hsame

end Sys2Proof.Machine
end

section
/-! PROOFS. The register space: the fields of every word read (O9), what each register write does (O10-O12). -/

namespace Sys2Proof.Machine

/-! ## Fields of words built by appending and widening -/

/-- The low part of a widened field is the field. -/
theorem extractLsb'_setWidth_low {n : Nat} (x : BitVec n) (w : Nat) (h : n ≤ w) :
    (x.setWidth w).extractLsb' 0 n = x := by
  rw [BitVec.extractLsb'_setWidth_of_le (by omega), BitVec.extractLsb'_eq_self]

/-- The bits above a widened field are 0. -/
theorem extractLsb'_setWidth_high {n : Nat} (x : BitVec n) (w m : Nat) :
    (x.setWidth w).extractLsb' n m = 0#m := by
  apply BitVec.eq_of_getLsbD_eq
  intro i hi
  simp [BitVec.getLsbD_extractLsb', BitVec.getLsbD_setWidth]

/-- The bits of the valid flags' nibble. -/
theorem getLsbD_nibbleOf {n : Nat} (v : Vector Bool n) (o : Nat) {j : Nat} (hj : j < 4) :
    (nibbleOf v o).getLsbD j = v[o + j]?.getD false := by
  unfold nibbleOf
  simp only [BitVec.getLsbD_append]
  interval_cases j <;> simp

/-! ## The words -/

/-- STATUS (R25). -/
theorem statusWord_fields (s : State) :
    (statusWord s).extractLsb' 0 4 = stateCode s.state ∧ (statusWord s).getLsbD 4 = busy s
      ∧ (statusWord s).getLsbD 5 = outwait s ∧ (statusWord s).getLsbD 6 = inwait s
      ∧ (statusWord s).getLsbD 7 = s.runhalt ∧ (statusWord s).extractLsb' 8 4 = s.err
      ∧ (statusWord s).extractLsb' 12 20 = 0#20 := by
  unfold statusWord
  simp only [BitVec.extractLsb'_append_eq_ite, BitVec.getLsbD_append]
  simp

theorem busy_iff (s : State) : busy s = true ↔ s.state = .step ∨ s.state = .run := by
  unfold busy
  split <;> simp_all

theorem outwait_iff (s : State) : outwait s = true ↔ ∃ i, s.pos = some ⟨.drive i, .emit⟩ := by
  unfold outwait
  split
  · next i h => simp [h]
  · next h => simpa using h

theorem inwait_iff (s : State) : inwait s = true ↔ s.pend ≠ none := by
  unfold inwait
  cases s.pend <;> simp

/-- ERRINFO (R26). -/
theorem errinfoWord_fields (s : State) :
    (errinfoWord s).extractLsb' 0 8 = s.detail ∧ (errinfoWord s).extractLsb' 8 8 = s.sym
      ∧ (errinfoWord s).extractLsb' 16 16 = 0#16 := by
  unfold errinfoWord
  simp only [BitVec.extractLsb'_append_eq_ite]
  simp

/-- TBLSTAT (R29). -/
theorem tblstatWord_fields (s : State) :
    (∀ q, q < 4 → (tblstatWord s).getLsbD q = s.qtv[q]?.getD false)
      ∧ (∀ j, j < 8 → (tblstatWord s).getLsbD (4 + j) = s.htv[j]?.getD false)
      ∧ (tblstatWord s).extractLsb' 12 20 = 0#20 := by
  unfold tblstatWord
  simp only [BitVec.extractLsb'_append_eq_ite, BitVec.getLsbD_append]
  refine ⟨fun q hq => ?_, fun j hj => ?_, by simp⟩
  · rw [if_pos hq, getLsbD_nibbleOf _ _ hq, Nat.zero_add]
  · rw [if_neg (by omega), Nat.add_sub_cancel_left]
    split
    · next h4 => rw [getLsbD_nibbleOf _ _ h4, Nat.zero_add]
    · next h4 => rw [if_pos (by omega), getLsbD_nibbleOf _ _ (by omega), Nat.add_sub_cancel' (by omega)]

/-- CURSOR (R34). -/
theorem cursorWord_fields (s : State) :
    (cursorWord s).extractLsb' 0 4 = s.bcnt ∧ (cursorWord s).extractLsb' 8 8 = s.cbits
      ∧ (cursorWord s).getLsbD 16 = s.mp ∧ (cursorWord s).getLsbD 17 = s.eos
      ∧ (cursorWord s).extractLsb' 24 8 = s.marker ∧ (cursorWord s).extractLsb' 4 4 = 0#4
      ∧ (cursorWord s).extractLsb' 18 6 = 0#6 := by
  unfold cursorWord
  simp only [BitVec.extractLsb'_append_eq_ite, BitVec.getLsbD_append]
  simp

/-- RSTSTAT (R36). -/
theorem rststatWord_fields (s : State) :
    (rststatWord s).extractLsb' 0 16 = s.rstctr ∧ (rststatWord s).extractLsb' 16 3 = s.rstnext
      ∧ (rststatWord s).extractLsb' 19 13 = 0#13 := by
  unfold rststatWord
  simp only [BitVec.extractLsb'_append_eq_ite]
  simp

/-- The bytes of a PIX word, little-endian (R66). -/
theorem pixWord_byte (s : State) (i : Nat) {z : Nat} (hz : z < 4) :
    (pixWord s i).extractLsb' (8 * z) 8 = pixRead s.mem (4 * i + z) := by
  unfold pixWord
  simp only [BitVec.extractLsb'_append_eq_ite]
  interval_cases z <;> simp

/-! ## The windows -/

/-- Past the registers a read is of a window. -/
theorem contentsAt_window {off : Nat} (h : 0x58 ≤ off) (s : State) :
    contentsAt off s =
      if inCoef off then
        (coefRead s.mem ((off - 0x1000) / 4 / 64) ((off - 0x1000) / 4 % 64)).signExtend 32
      else if inTile off then
        (tileRead s.mem ((off - 0x2000) / 4 / 64) ((off - 0x2000) / 4 % 64)).setWidth 32
      else if inPix off then pixWord s ((off - 0x3000) / 4)
      else 0#32 := by
  unfold contentsAt
  iterate 20 rw [if_neg (by omega)]

/-- Past the registers a write is to the COEF window, or has no effect. -/
theorem registerWrite_window {off : Nat} (h : 0x58 < off) (v : Word) (s : State) :
    registerWrite off v s =
      if inCoef off then
        configWrite (fun t => { t with
          mem := coefWrite t.mem ((off - 0x1000) / 4 / 64) ((off - 0x1000) / 4 % 64) (v.extractLsb' 0 16) }) s
      else s := by
  unfold registerWrite
  iterate 12 rw [if_neg (by omega)]

section
variable {b k : Nat} (hb : b < 12) (hk : k < 64)
include hb hk

theorem coefOffset_window : inCoef (0x1000 + 4 * (64 * b + k)) = true := by
  simp only [inCoef, Bool.and_eq_true, decide_eq_true_eq]
  omega

theorem contentsAt_coef (s : State) :
    contentsAt (0x1000 + 4 * (64 * b + k)) s = (coefRead s.mem b k).signExtend 32 := by
  rw [contentsAt_window (by omega), if_pos (coefOffset_window hb hk),
    show (0x1000 + 4 * (64 * b + k) - 0x1000) / 4 / 64 = b by omega,
    show (0x1000 + 4 * (64 * b + k) - 0x1000) / 4 % 64 = k by omega]

theorem registerWrite_coef (v : Word) (s : State) :
    registerWrite (0x1000 + 4 * (64 * b + k)) v s =
      configWrite (fun t => { t with mem := coefWrite t.mem b k (v.extractLsb' 0 16) }) s := by
  rw [registerWrite_window (by omega), if_pos (coefOffset_window hb hk),
    show (0x1000 + 4 * (64 * b + k) - 0x1000) / 4 / 64 = b by omega,
    show (0x1000 + 4 * (64 * b + k) - 0x1000) / 4 % 64 = k by omega]

theorem contentsAt_tile (s : State) :
    contentsAt (0x2000 + 4 * (64 * b + k)) s = (tileRead s.mem b k).setWidth 32 := by
  have hc : ¬inCoef (0x2000 + 4 * (64 * b + k)) = true := by
    simp only [inCoef, Bool.and_eq_true, decide_eq_true_eq]; omega
  have ht : inTile (0x2000 + 4 * (64 * b + k)) = true := by
    simp only [inTile, Bool.and_eq_true, decide_eq_true_eq]; omega
  rw [contentsAt_window (by omega), if_neg hc, if_pos ht,
    show (0x2000 + 4 * (64 * b + k) - 0x2000) / 4 / 64 = b by omega,
    show (0x2000 + 4 * (64 * b + k) - 0x2000) / 4 % 64 = k by omega]

end

theorem contentsAt_pix {i : Nat} (hi : i < 192) (s : State) : contentsAt (0x3000 + 4 * i) s = pixWord s i := by
  have hc : ¬inCoef (0x3000 + 4 * i) = true := by
    simp only [inCoef, Bool.and_eq_true, decide_eq_true_eq]; omega
  have ht : ¬inTile (0x3000 + 4 * i) = true := by
    simp only [inTile, Bool.and_eq_true, decide_eq_true_eq]; omega
  have hp : inPix (0x3000 + 4 * i) = true := by
    simp only [inPix, Bool.and_eq_true, decide_eq_true_eq]; omega
  rw [contentsAt_window (by omega), if_neg hc, if_neg ht, if_pos hp,
    show (0x3000 + 4 * i - 0x3000) / 4 = i by omega]

/-- PRED[c] reads back sign-extended (R35). -/
theorem contentsAt_pred (s : State) {c : Nat} (hc : c < 3) :
    contentsAt (0x038 + 4 * c) s = (predRead s c).signExtend 32 := by
  interval_cases c <;> rfl

/-- Settles O9: each word's fields, word by word. -/
theorem registerFields : Obligations.RegisterFields := by
  rintro s ⟨-, -, hhalt, -⟩
  obtain ⟨hstate, hbusy, houtwait, hinwait, hrunhalt, herr, hstatus0⟩ := statusWord_fields s
  obtain ⟨hdetail, hsym, herrinfo0⟩ := errinfoWord_fields s
  obtain ⟨hqtv, hhtv, htblstat0⟩ := tblstatWord_fields s
  obtain ⟨hbcnt, hcbits, hmp, heos, hmarker, hcursor4, hcursor18⟩ := cursorWord_fields s
  obtain ⟨hrstctr, hrstnext, hrststat0⟩ := rststatWord_fields s
  refine ⟨rfl, hstate, (Bool.eq_iff_iff.1 hbusy).trans (busy_iff s),
    (Bool.eq_iff_iff.1 houtwait).trans (outwait_iff s), (Bool.eq_iff_iff.1 hinwait).trans (inwait_iff s),
    hrunhalt, hhalt, herr, hstatus0, hdetail, hsym, herrinfo0,
    extractLsb'_setWidth_low s.intstat 32 (by decide), extractLsb'_setWidth_high s.intstat 32 24,
    extractLsb'_setWidth_low s.inten 32 (by decide), extractLsb'_setWidth_high s.inten 32 24,
    rfl, rfl, rfl,
    extractLsb'_setWidth_low s.cfg0 32 (by decide), extractLsb'_setWidth_high s.cfg0 32 21,
    extractLsb'_setWidth_low s.cfg1 32 (by decide), extractLsb'_setWidth_high s.cfg1 32 2,
    rfl,
    extractLsb'_setWidth_low s.rstint 32 (by decide), extractLsb'_setWidth_high s.rstint 32 16,
    BitVec.extractLsb'_append_eq_right (a := s.mcuy), BitVec.extractLsb'_append_eq_left (a := s.mcuy),
    fun c hc => ?_,
    hqtv, hhtv, htblstat0, hbcnt, hcbits, hmp, heos, hmarker, rfl, hcursor4, hcursor18,
    hrstctr, hrstnext, hrststat0,
    BitVec.extractLsb'_append_eq_right (a := s.top), BitVec.extractLsb'_append_eq_left (a := s.top),
    BitVec.extractLsb'_append_eq_right (a := s.bottom), BitVec.extractLsb'_append_eq_left (a := s.bottom),
    extractLsb'_setWidth_low s.pixlen 32 (by decide), extractLsb'_setWidth_high s.pixlen 32 22,
    fun b k hb hk => ?_, fun b n hb hn => ?_, fun i z hi hz => ?_⟩
  · rw [contentsAt_pred s hc, BitVec.toInt_signExtend_of_le (by decide)]
  · rw [contentsAt_coef hb hk, BitVec.toInt_signExtend_of_le (by decide)]
  · rw [contentsAt_tile hb hn, BitVec.toNat_setWidth_of_le (by decide)]
  · rw [contentsAt_pix hi, pixWord_byte s i hz]

end Sys2Proof.Machine
end

section
/-! PROOFS. What a register write does, by the kind of its offset (O10-O12), and the steps of a terminal state
(O59). -/

namespace Sys2Proof.Machine

/-! ## Configuration writes -/

/-- Outside IDLE a configuration write sets CMDIGN alone (R49). -/
theorem configWrite_not_idle {s : State} (h : s.state ≠ .idle) (f : State → State) :
    configWrite f s = ignored s := if_neg h

/-- In IDLE a configuration write takes effect. -/
theorem configWrite_idle {s : State} (h : s.state = .idle) (f : State → State) : configWrite f s = f s := if_pos h

section
variable (v : Word) (s : State)

theorem registerWrite_cfg0 :
    registerWrite 0x020 v s = configWrite (fun t => { t with cfg0 := v.extractLsb' 0 11 }) s := rfl

theorem registerWrite_cfg1 :
    registerWrite 0x024 v s = configWrite (fun t => { t with cfg1 := v.extractLsb' 0 30 }) s := rfl

theorem registerWrite_size : registerWrite 0x028 v s = configWrite (fun t => { t with size := v }) s := rfl

theorem registerWrite_rstint :
    registerWrite 0x02C v s = configWrite (fun t => { t with rstint := v.extractLsb' 0 16 }) s := rfl

theorem registerWrite_mcupos :
    registerWrite 0x030 v s =
      configWrite (fun t => { t with mcux := v.extractLsb' 0 16, mcuy := v.extractLsb' 16 16 }) s := rfl

theorem registerWrite_pred {c : Nat} (hc : c < 3) :
    registerWrite (0x038 + 4 * c) v s = configWrite (fun t => predWrite t c (v.extractLsb' 0 16)) s := by
  interval_cases c <;> rfl

end

/-- A write to a location of R49 is a configuration write. -/
theorem registerWrite_of_config {off : Nat} (h : isConfigOffset off) (v : Word) (s : State) :
    ∃ f, registerWrite off v s = configWrite f s := by
  rcases h with rfl | rfl | rfl | rfl | rfl | rfl | rfl | rfl | ⟨hlo, hhi⟩
  · exact ⟨_, registerWrite_cfg0 v s⟩
  · exact ⟨_, registerWrite_cfg1 v s⟩
  · exact ⟨_, registerWrite_size v s⟩
  · exact ⟨_, registerWrite_rstint v s⟩
  · exact ⟨_, registerWrite_mcupos v s⟩
  · exact ⟨_, registerWrite_pred v s (c := 0) (by decide)⟩
  · exact ⟨_, registerWrite_pred v s (c := 1) (by decide)⟩
  · exact ⟨_, registerWrite_pred v s (c := 2) (by decide)⟩
  have hc : inCoef off = true := by
    simp only [inCoef, Bool.and_eq_true, decide_eq_true_eq]; exact ⟨hlo, hhi⟩
  exact ⟨_, (registerWrite_window (by omega) v s).trans (if_pos hc)⟩

/-- A write to a read-only location has no effect. -/
theorem registerWrite_of_readOnly {off : Nat} (h : isReadOnlyOffset off) (v : Word) (s : State) :
    registerWrite off v s = s := by
  have window : 0x1C00 ≤ off → registerWrite off v s = s := fun hoff => by
    have hc : ¬inCoef off = true := by simp only [inCoef, Bool.and_eq_true, decide_eq_true_eq]; omega
    exact (registerWrite_window (by omega) v s).trans (if_neg hc)
  rcases h with rfl | rfl | rfl | rfl | rfl | rfl | rfl | rfl | rfl | rfl | ⟨hlo, -⟩ | ⟨hlo, -⟩
  iterate 10 rfl
  · exact window (by omega)
  · exact window (by omega)

/-- Settles O10: every location of R49 is written by a configuration write, and the read-only ones by none. -/
theorem configurationOnlyInIdle : Obligations.ConfigurationOnlyInIdle := by
  intro s off v
  refine ⟨fun hoff hidle => ?_, fun hoff => registerWrite_of_readOnly hoff v s, rfl, rfl⟩
  obtain ⟨f, hf⟩ := registerWrite_of_config hoff v s
  exact hf.trans (configWrite_not_idle hidle f)

/-- Settles O12, bit by bit. -/
theorem intstatWriteOneToClear : Obligations.IntstatWriteOneToClear := by
  intro s v
  refine ⟨fun i hi => ?_, rfl⟩
  show (s.intstat &&& ~~~(v.extractLsb' 0 8)).getLsbD i = _
  simp [hi]

/-! ## Read-back -/

/-- The low bits of a word, widened again, are the word under their mask. -/
theorem setWidth_extractLsb'_low (v : Word) (n : Nat) :
    (v.extractLsb' 0 n).setWidth 32 = v &&& BitVec.ofNat 32 (2 ^ n - 1) := by
  apply BitVec.eq_of_getLsbD_eq
  intro i hi
  simp only [BitVec.getLsbD_setWidth, BitVec.getLsbD_extractLsb', BitVec.getLsbD_and, BitVec.getLsbD_ofNat, hi,
    Nat.testBit_two_pow_sub_one, Nat.zero_add, decide_true, Bool.true_and]
  exact Bool.and_comm _ _

/-- A word is its high half before its low half. -/
theorem word_halves (v : Word) : v.extractLsb' 16 16 ++ v.extractLsb' 0 16 = v :=
  BitVec.extractLsb'_append_extractLsb' (w := 16) (len := 16)

/-- The high half of a word is its quotient by 2^16. -/
theorem extractLsb'_high_half (v : Word) : (v.extractLsb' 16 16).toNat = v.toNat / 65536 := by
  have := v.isLt
  rw [BitVec.extractLsb'_toNat, Nat.shiftRight_eq_div_pow]
  omega

/-- A predictor after it is written. -/
theorem predRead_predWrite (s : State) {c : Nat} (hc : c < 3) (v : Half) : predRead (predWrite s c v) c = v := by
  simp [predRead, predWrite, hc]

/-- Settles O11: each write takes effect by `configWrite_idle`, and the location reads the field it stored. -/
theorem configurationReadBack : Obligations.ConfigurationReadBack := by
  intro s v h
  have hcfg0 := (registerWrite_cfg0 v s).trans (configWrite_idle h _)
  have hcfg1 := (registerWrite_cfg1 v s).trans (configWrite_idle h _)
  have hsize := (registerWrite_size v s).trans (configWrite_idle h _)
  have hrstint := (registerWrite_rstint v s).trans (configWrite_idle h _)
  have hmcupos := (registerWrite_mcupos v s).trans (configWrite_idle h _)
  have hpred {c : Nat} (hc : c < 3) := (registerWrite_pred v s hc).trans (configWrite_idle h _)
  have hcoef {b k : Nat} (hb : b < 12) (hk : k < 64) := (registerWrite_coef hb hk v s).trans (configWrite_idle h _)
  refine ⟨hcfg0, ?_, hcfg1, ?_, hsize, ?_, ?_, ?_, hrstint, ?_, hmcupos, ?_, fun c hc => ⟨hpred hc, ?_⟩,
    fun b k hb hk => ?_, fun hwf b k hb hk => ⟨?_, fun a hlo hhi => ?_⟩⟩
  · rw [hcfg0]; exact setWidth_extractLsb'_low v 11
  · rw [hcfg1]; exact setWidth_extractLsb'_low v 30
  · rw [hsize]; rfl
  · rw [hsize]; exact BitVec.extractLsb'_toNat 0 16 v
  · rw [hsize]; exact extractLsb'_high_half v
  · rw [hrstint]; exact setWidth_extractLsb'_low v 16
  · rw [hmcupos]; exact word_halves v
  · rw [hpred hc, contentsAt_pred _ hc, predRead_predWrite s hc]
  · rw [hcoef hb hk]
  · rw [hcoef hb hk, contentsAt_coef hb hk]
    exact congrArg _ ((coefRead_coefWrite hwf hk hk _).trans (if_pos ⟨rfl, rfl⟩))
  · rw [hcoef hb hk]
    exact (read_coefWrite hwf b k _ a).trans ((if_neg hhi).trans (if_neg hlo))

end Sys2Proof.Machine
end

section
/-! PROOFS. The steps of a terminal state (O59). -/

namespace Sys2Proof.Machine

/-- What a write of v to a register other than CMD can do: a DATA word, an answer to Emit, a configuration write, new
interrupt bits and enables, or nothing. -/
inductive WriteEffect (v : Word) (s : State) : State → Prop
  | data : WriteEffect v s (dataWrite v s)
  | outresp : WriteEffect v s (outrespWrite v s)
  | config (f : State → State) : WriteEffect v s (configWrite f s)
  | interrupts (pending enabled : BitVec 8) : WriteEffect v s { s with intstat := pending, inten := enabled }
  | nothing : WriteEffect v s s

theorem writeEffect_ite {v : Word} {s a b : State} {c : Prop} [Decidable c] (ha : WriteEffect v s a)
    (hb : WriteEffect v s b) : WriteEffect v s (if c then a else b) := by
  split
  · exact ha
  · exact hb

theorem writeEffect_registerWrite (off : Nat) (v : Word) (s : State) : WriteEffect v s (registerWrite off v s) := by
  unfold registerWrite
  refine writeEffect_ite .data ?_
  refine writeEffect_ite (.interrupts _ s.inten) ?_
  refine writeEffect_ite (.interrupts s.intstat _) ?_
  iterate 8 refine writeEffect_ite (.config _) ?_
  refine writeEffect_ite .outresp ?_
  exact writeEffect_ite (.config _) .nothing

/-! ## What a terminal state keeps -/

/-- t is s but for its interrupt bits and enables and what stands outside the block. -/
def ResultKept (s t : State) : Prop :=
  ∃ agenda reply pending enabled,
    t = { s with agenda := agenda, reply := reply, intstat := pending, inten := enabled }

theorem ResultKept.frame {s t : State} (h : ResultKept s t) :
    t.state = s.state ∧ SameFault s t ∧ SameCursor s t ∧ SameProgress s t ∧ SameRect s t ∧ t.pred = s.pred
      ∧ t.mem = s.mem := by
  obtain ⟨_, _, _, _, rfl⟩ := h
  exact ⟨rfl, ⟨rfl, rfl, rfl, rfl⟩, ⟨rfl, rfl, rfl, rfl, rfl, rfl⟩, ⟨rfl, rfl, rfl, rfl⟩,
    ⟨rfl, rfl, rfl, rfl, rfl⟩, rfl, rfl⟩

theorem resultKept_reply (s : State) (r : Option BusReply) : ResultKept s { s with reply := r } :=
  ⟨s.agenda, r, s.intstat, s.inten, rfl⟩

theorem resultKept_refl (s : State) : ResultKept s s := resultKept_reply s s.reply

theorem resultKept_intstat (s : State) (x : BitVec 8) : ResultKept s { s with intstat := x } :=
  ⟨s.agenda, s.reply, x, s.inten, rfl⟩

theorem resultKept_cmdError (s : State) : ResultKept s (cmdError s) := resultKept_intstat s _
theorem resultKept_cmdIgnored (s : State) : ResultKept s (cmdIgnored s) := resultKept_intstat s _

/-- What comes after the agenda's entry is taken and the bus has answered. -/
theorem ResultKept.of_taken {s t : State} {rest : List Event} (h : ResultKept { s with agenda := rest } t) :
    ResultKept s t := h

theorem ResultKept.of_replied {s t : State} {r : Option BusReply} (h : ResultKept { s with reply := r } t) :
    ResultKept s t := h

/-! ## The steps of a terminal state -/

section
variable {s : State} (h : terminal s.state = true)
include h

/-- A command of IDLE or SYNC_HALT is not accepted in a terminal state. -/
theorem resultKept_issue {ok : Bool} {acc : SeqState} {run : State → State} (hacc : terminal acc = false) :
    ResultKept s (issue ok acc run s) := by
  have hne : s.state ≠ acc := by rintro rfl; simp [h] at hacc
  unfold issue
  rw [if_neg hne]
  split
  · exact resultKept_cmdIgnored s
  · exact resultKept_cmdError s

theorem dataWrite_terminal (v : Word) : dataWrite v s = cmdIgnored s := by
  unfold dataWrite
  split
  · next hq => simp [hq, terminal] at h
  · next hq => simp [hq, terminal] at h
  · rfl

/-- A register write to a terminal state. -/
theorem resultKept_registerWrite (hpos : s.pos = none) (off : Nat) (v : Word) :
    ResultKept s (registerWrite off v s) := by
  have heffect := writeEffect_registerWrite off v s
  generalize registerWrite off v s = t at heffect
  cases heffect with
  | data => rw [dataWrite_terminal h]; exact resultKept_cmdIgnored s
  | outresp => unfold outrespWrite; rw [hpos]; exact resultKept_cmdIgnored s
  | config f =>
    have hidle : s.state ≠ .idle := fun e => by simp [e, terminal] at h
    rw [configWrite_not_idle hidle]
    exact resultKept_cmdIgnored s
  | interrupts x y => exact ⟨s.agenda, s.reply, x, y, rfl⟩
  | nothing => exact resultKept_refl s

/-- A command other than SRESET in a terminal state. -/
theorem resultKept_exec {i : Instr} (hc : isCommand i = true) (hreset : i ≠ .sreset) {t : State}
    (ht : exec i s = .next t) : ResultKept s t := by
  cases i with
  | nop => cases ht; exact resultKept_refl s
  | sreset => exact absurd rfl hreset
  | loadQt | loadHt | start | resync | decDc | decAc | decBlk | restart | idct | color =>
    cases ht; exact resultKept_issue h rfl
  | _ => cases hc

/-- A write to CMD in a terminal state: the SRESET word, or the result is kept. -/
theorem cmdWrite_terminal {v : Word} {t : State} (ht : runFetched (cmdWrite v s) = .next t) :
    (v = 0x01000000#32 ∧ AtReset t) ∨ ResultKept s t := by
  unfold cmdWrite at ht
  split at ht
  · next i hd =>
    by_cases hreset : i = .sreset
    · subst hreset
      cases ht
      exact .inl ⟨word_of_sreset hd, atReset_resetBlock s⟩
    · exact .inr (resultKept_exec h (isCommand_of_decodeCmd hd) hreset ht)
  · cases ht; exact .inr (resultKept_cmdError s)

end

/-- The address of an access inside the window. -/
theorem addr_of_offsetOf {s : State} {addr off : Nat} (h : offsetOf s addr = some off) : addr = s.tjdBase + off := by
  unfold offsetOf at h
  split at h
  · have := Option.some.inj h; omega
  · cases h

/-- The event that resets the block. -/
def resetEvent (s : State) (ev : Event) : Prop :=
  ev = .hwReset ∨ ev = .busWrite (s.tjdBase + 0x004) 4 0x01000000#32

/-- A host write to a terminal state: the SRESET word, or the result is kept. -/
theorem hostWrite_terminal {s t : State} (h : terminal s.state = true) (hpos : s.pos = none) (addr width : Nat)
    (v : Word) (ht : runFetched (hostWrite addr width v s) = .next t) :
    (resetEvent s (.busWrite addr width v) ∧ AtReset t) ∨ ResultKept s t := by
  unfold hostWrite at ht
  split at ht
  · cases ht; exact .inr (resultKept_reply s _)
  next off hoff =>
  split at ht
  · next hok =>
    simp only [accessOk, Bool.and_eq_true, beq_iff_eq] at hok
    obtain ⟨⟨hwidth, -⟩, -⟩ := hok
    dsimp only at ht
    split at ht
    · next hcmd =>
      rcases cmdWrite_terminal (s := { s with reply := some ⟨0#32, false⟩ }) h ht with ⟨hv, hreset⟩ | hkept
      · exact .inl ⟨.inr (by rw [addr_of_offsetOf hoff, hcmd, hwidth, hv]), hreset⟩
      · exact .inr hkept.of_replied
    · cases ht
      exact .inr (resultKept_registerWrite (s := { s with reply := some ⟨0#32, false⟩ }) h hpos off v).of_replied
  · cases ht; exact .inr (resultKept_reply s _)

/-- An agent's step in a terminal state: a reset, or the result is kept. -/
theorem agentStep_terminal {s t : State} (h : terminal s.state = true) (hpos : s.pos = none) (hpend : s.pend = none)
    (ev : Event) (ht : runFetched (agentStep ev s) = .next t) :
    (resetEvent s ev ∧ AtReset t) ∨ ResultKept s t := by
  cases ev with
  | busRead addr width =>
    cases ht
    rw [hostRead_eq]
    exact .inr (resultKept_reply s _)
  | busWrite addr width v => exact hostWrite_terminal h hpos addr width v ht
  | source =>
    simp only [agentStep, sourceAnswer, hpend] at ht
    cases ht
    exact .inr (resultKept_refl s)
  | hwReset => cases ht; exact .inl ⟨.inl rfl, atReset_resetBlock s⟩

/-- No command executes in a terminal state. -/
theorem terminal_rest {s : State} (hi : s.Inv) (h : terminal s.state = true) : s.pos = none ∧ s.pend = none := by
  refine pos_none hi ?_
  unfold busy
  split
  · next e => simp [e, terminal] at h
  · next e => simp [e, terminal] at h
  · rfl

/-- Settles O59: in a terminal state only agents move, and each of their steps is a reset or keeps the result. -/
theorem terminalStates : Obligations.TerminalStates := by
  intro s t hi h ht
  obtain ⟨hpos, hpend⟩ := terminal_rest hi h
  have hrest := not_runnable_of_pos hpos
  cases ha : s.agenda with
  | nil =>
    have := (step_of_no_agent hrest ha).symm.trans ht
    cases this
    exact .inr (resultKept_refl s).frame
  | cons ev rest =>
    rw [step_of_agent hrest ha] at ht
    rcases agentStep_terminal (s := { s with agenda := rest }) h hpos hpend ev ht with ⟨hev, hreset⟩ | hkept
    · refine .inl ⟨⟨hrest, rest, ?_⟩, hreset⟩
      rcases hev with rfl | rfl
      · exact .inl ha
      · exact .inr ha
    · exact .inr hkept.of_taken.frame

end Sys2Proof.Machine
end

section
/-! PROOFS. Noninterference of STRATEGY and LUT9 (O60): each operation of the block commutes with replacing those
bits of CFG0, because none but CFGCHK reads them, and CFGCHK finds every legal STRATEGY alike. -/

namespace Sys2Proof.Machine

/-! ## The second byte of a pair -/

section
variable {s : State} {p : Pos}

/-- The points at which a pair's second byte is read. -/
theorem awaitsAfterFf_cases (h : awaitsAfterFf s = true) :
    (∃ p, s.pos = some p ∧ s.pend = some .dataSecond)
      ∨ ∃ p, (p.point = .rstSecond ∨ p.point = .scan true) ∧ s.pos = some p ∧ s.pend = some .raw := by
  unfold awaitsAfterFf at h
  split at h
  · next p hpos hpend => exact .inl ⟨p, hpos, hpend⟩
  · next body hpos hpend => exact .inr ⟨⟨body, .rstSecond⟩, .inl rfl, hpos, hpend⟩
  · next body hpos hpend => exact .inr ⟨⟨body, .scan true⟩, .inr rfl, hpos, hpend⟩
  · cases h

theorem awaitsAfterFf_data (hpos : s.pos = some p) (hpend : s.pend = some .dataSecond) :
    awaitsAfterFf s = true := by
  simp only [awaitsAfterFf, hpos, hpend]

theorem awaitsAfterFf_rstSecond {body : Body} (hpos : s.pos = some ⟨body, .rstSecond⟩)
    (hpend : s.pend = some .raw) : awaitsAfterFf s = true := by
  simp only [awaitsAfterFf, hpos, hpend]

theorem awaitsAfterFf_scan {body : Body} (hpos : s.pos = some ⟨body, .scan true⟩)
    (hpend : s.pend = some .raw) : awaitsAfterFf s = true := by
  simp only [awaitsAfterFf, hpos, hpend]

/-- Where no second byte is awaited, a pair has no effect. -/
theorem afterFf_eq_none {y : Byte} (h : awaitsAfterFf s = false) : afterFf y s = none := by
  have hnot : awaitsAfterFf s ≠ true := by rw [h]; exact Bool.false_ne_true
  unfold afterFf
  split
  · next hpos hpend => exact absurd (awaitsAfterFf_data hpos hpend) hnot
  · next hpos hpend => exact absurd (awaitsAfterFf_rstSecond hpos hpend) hnot
  · next hpos hpend => exact absurd (awaitsAfterFf_scan hpos hpend) hnot
  · rfl

/-- The second byte of a pair in FetchDataByte (R144). -/
theorem afterFf_data {y : Byte} (hpos : s.pos = some p) (hpend : s.pend = some .dataSecond) :
    afterFf y s = some (if y = 0x00#8 then loadByte 0xFF#8 s
      else loadByte Config.fillByte { s with mp := true, marker := y }) := by
  unfold afterFf
  split
  · split <;> rfl
  · next h => rw [hpend] at h; cases h
  · next h => rw [hpend] at h; cases h
  · next h _ _ => exact (h p hpos hpend).elim

/-- The second byte of a pair in RestartCheck and ResyncScan (R160, R165). -/
theorem afterFf_raw {y : Byte} (hpoint : p.point = .rstSecond ∨ p.point = .scan true) (hpos : s.pos = some p)
    (hpend : s.pend = some .raw) : afterFf y s = some (rawByte p y { s with pend := none }) := by
  obtain ⟨body, point⟩ := p
  unfold afterFf
  split
  · next h => rw [hpend] at h; cases h
  · next h _ => rw [hpos] at h; cases h; rfl
  · next h _ => rw [hpos] at h; cases h; rfl
  · next _ hrst hscan =>
    rcases hpoint with rfl | rfl
    · exact (hrst body hpos hpend).elim
    · exact (hscan body hpos hpend).elim

end

section
variable {k : BitVec 2} {lut9 : Bool}

/-! ## What the replaced bits leave unchanged -/

/-- The bits of CFG0 below STRATEGY. -/
theorem withStrategy_cfg0_field {start len : Nat} (h : start + len ≤ 8) (s : State) :
    (withStrategy k lut9 s).cfg0.extractLsb' start len = s.cfg0.extractLsb' start len :=
  (BitVec.extractLsb'_append_eq_of_add_le h).trans (BitVec.extractLsb'_extractLsb'_of_le h)

theorem withStrategy_cfg0_bit {i : Nat} (h : i < 8) (s : State) :
    (withStrategy k lut9 s).cfg0.getLsbD i = s.cfg0.getLsbD i := by
  show (BitVec.ofBool lut9 ++ k ++ s.cfg0.extractLsb' 0 8).getLsbD i = _
  rw [BitVec.getLsbD_append, if_pos h]
  simp [h]

@[simp] theorem ncomp_withStrategy (s : State) : ncomp (withStrategy k lut9 s) = ncomp s :=
  congrArg BitVec.toNat (withStrategy_cfg0_field (by decide) s)
@[simp] theorem scale_withStrategy (s : State) : scale (withStrategy k lut9 s) = scale s :=
  congrArg BitVec.toNat (withStrategy_cfg0_field (by decide) s)
@[simp] theorem pixfmt_withStrategy (s : State) : pixfmt (withStrategy k lut9 s) = pixfmt s :=
  congrArg BitVec.toNat (withStrategy_cfg0_field (by decide) s)
@[simp] theorem rgbOrder_withStrategy (s : State) : rgbOrder (withStrategy k lut9 s) = rgbOrder s :=
  withStrategy_cfg0_bit (by decide) s
@[simp] theorem r565Be_withStrategy (s : State) : r565Be (withStrategy k lut9 s) = r565Be s :=
  withStrategy_cfg0_bit (by decide) s

/-- The STRATEGY field is the one replaced. -/
theorem strategy_withStrategy (s : State) : strategy (withStrategy k lut9 s) = k.toNat := by
  show ((BitVec.ofBool lut9 ++ k ++ s.cfg0.extractLsb' 0 8).extractLsb' 8 2).toNat = _
  rw [BitVec.extractLsb'_append_eq_of_le (by decide)]
  exact congrArg BitVec.toNat BitVec.extractLsb'_append_eq_right

/-- CFGCHK accepts every legal STRATEGY. -/
theorem cfgCheck_withStrategy {s : State} (hk : k ≠ 3#2) (hs : strategy s ≠ 3) :
    cfgCheck (withStrategy k lut9 s) = cfgCheck s := by
  have hk' : k.toNat ≠ 3 := fun e => hk (BitVec.eq_of_toNat_eq e)
  have hstrategy : (strategy (withStrategy k lut9 s) == 3) = (strategy s == 3) := by
    rw [strategy_withStrategy, beq_eq_false_iff_ne.2 hk', beq_eq_false_iff_ne.2 hs]
  simp only [cfgCheck, allComps, hstrategy, ncomp_withStrategy, pixfmt_withStrategy]
  rfl

/-! ## The MCU's geometry and contents -/

@[simp] theorem slotCount_withStrategy (s : State) : slotCount (withStrategy k lut9 s) = slotCount s :=
  congrArg (slotBase s) (ncomp_withStrategy s)

@[simp] theorem blockSize_withStrategy (s : State) : blockSize (withStrategy k lut9 s) = blockSize s :=
  congrArg (8 >>> ·) (scale_withStrategy s)

@[simp] theorem scaledMcuWidth_withStrategy (s : State) :
    scaledMcuWidth (withStrategy k lut9 s) = scaledMcuWidth s :=
  congrArg (mcuWidth s >>> ·) (scale_withStrategy s)

@[simp] theorem scaledMcuHeight_withStrategy (s : State) :
    scaledMcuHeight (withStrategy k lut9 s) = scaledMcuHeight s :=
  congrArg (mcuHeight s >>> ·) (scale_withStrategy s)

@[simp] theorem scaledWidth_withStrategy (s : State) : scaledWidth (withStrategy k lut9 s) = scaledWidth s :=
  congrArg (fun n => ceilDiv (width s) (2 ^ n)) (scale_withStrategy s)

@[simp] theorem scaledHeight_withStrategy (s : State) : scaledHeight (withStrategy k lut9 s) = scaledHeight s :=
  congrArg (fun n => ceilDiv (height s) (2 ^ n)) (scale_withStrategy s)

@[simp] theorem rectLeft_withStrategy (s : State) : rectLeft (withStrategy k lut9 s) = rectLeft s :=
  congrArg (s.mcux.toNat * ·) (scaledMcuWidth_withStrategy s)

@[simp] theorem rectTop_withStrategy (s : State) : rectTop (withStrategy k lut9 s) = rectTop s :=
  congrArg (s.mcuy.toNat * ·) (scaledMcuHeight_withStrategy s)

@[simp] theorem rectRight_withStrategy (s : State) : rectRight (withStrategy k lut9 s) = rectRight s := by
  simp [rectRight]

@[simp] theorem rectBottom_withStrategy (s : State) : rectBottom (withStrategy k lut9 s) = rectBottom s := by
  simp [rectBottom]

@[simp] theorem sampleFor_withStrategy (s : State) (c i j : Nat) :
    sampleFor (withStrategy k lut9 s) c i j = sampleFor s c i j := by
  simp only [sampleFor, blockSize_withStrategy]
  rfl

@[simp] theorem pixelBytes_withStrategy (s : State) (i j : Nat) :
    pixelBytes (withStrategy k lut9 s) i j = pixelBytes s i j := by
  simp [pixelBytes, pixelRgb]

@[simp] theorem rectBytes_withStrategy (s : State) : rectBytes (withStrategy k lut9 s) = rectBytes s := by
  simp [rectBytes, rectRows, rectCols]

@[simp] theorem idctSamples_withStrategy (s : State) (b q : Nat) :
    idctSamples (withStrategy k lut9 s) b q = idctSamples s b q := by
  simp only [idctSamples, blockSize_withStrategy]
  rfl

/-! ## The operations commute with the replacement -/

/-- A branch on what the replacement leaves unchanged. -/
theorem withStrategy_ite {c : Prop} [Decidable c] {a b a' b' : State} (ha : c → withStrategy k lut9 a = a')
    (hb : ¬c → withStrategy k lut9 b = b') : withStrategy k lut9 (if c then a else b) = if c then a' else b' := by
  split
  · exact ha ‹_›
  · exact hb ‹_›

/-- A store to a buffer. -/
theorem withStrategy_setMem (m : Memory) (s : State) :
    withStrategy k lut9 { s with mem := m } = { withStrategy k lut9 s with mem := m } := rfl

@[simp] theorem mem_withStrategy (s : State) : (withStrategy k lut9 s).mem = s.mem := rfl

theorem withStrategy_takeFault (e : BitVec 4) (d sy : Byte) (s : State) :
    withStrategy k lut9 (takeFault e d sy s) = takeFault e d sy (withStrategy k lut9 s) :=
  withStrategy_ite (fun _ => rfl) fun _ => rfl

theorem withStrategy_idctBlock (b q : Nat) (s : State) :
    withStrategy k lut9 (idctBlock b q s) = idctBlock b q (withStrategy k lut9 s) := by
  simp only [idctBlock, idctSamples_withStrategy, withStrategy_setMem, mem_withStrategy]

theorem withStrategy_idctAll (s : State) :
    withStrategy k lut9 (idctAll s) = idctAll (withStrategy k lut9 s) := by
  unfold idctAll
  rw [slotCount_withStrategy]
  exact (List.foldl_hom _ fun t b => (withStrategy_idctBlock b _ t).symm).symm

theorem withStrategy_assembleMcu (s : State) :
    withStrategy k lut9 (assembleMcu s) = assembleMcu (withStrategy k lut9 s) := by
  simp only [assembleMcu, rectBytes_withStrategy, rectLeft_withStrategy, rectTop_withStrategy,
    rectRight_withStrategy, rectBottom_withStrategy]
  rfl

theorem withStrategy_finishMcu (i : Nat) (s : State) :
    withStrategy k lut9 (finishMcu i s) = finishMcu i (withStrategy k lut9 s) := by
  unfold finishMcu
  rw [← withStrategy_idctAll, ← withStrategy_assembleMcu]
  rfl

theorem withStrategy_blockFrom (i b : Nat) (s : State) :
    withStrategy k lut9 (blockFrom i b s) = blockFrom i b (withStrategy k lut9 s) := by
  unfold blockFrom
  rw [slotCount_withStrategy]
  exact withStrategy_ite (fun _ => rfl) fun _ => withStrategy_finishMcu i s

theorem withStrategy_afterRestart (body : Body) (s : State) :
    withStrategy k lut9 (afterRestart body s) = afterRestart body (withStrategy k lut9 s) := by
  cases body with
  | drive i => exact withStrategy_blockFrom i 0 s
  | _ => rfl

theorem withStrategy_checkMarker (body : Body) (x : Byte) (s : State) :
    withStrategy k lut9 (checkMarker body x s) = checkMarker body x (withStrategy k lut9 s) :=
  withStrategy_ite (fun _ => withStrategy_afterRestart _ _) fun _ => withStrategy_takeFault _ _ _ _

theorem withStrategy_restartCheck (body : Body) (s : State) :
    withStrategy k lut9 (restartCheck body s) = restartCheck body (withStrategy k lut9 s) :=
  withStrategy_ite (fun _ => withStrategy_checkMarker _ _ _) fun _ => rfl

theorem withStrategy_nextMcuStep (i : Nat) (skip : Bool) (s : State) :
    withStrategy k lut9 (nextMcuStep i skip s) = nextMcuStep i skip (withStrategy k lut9 s) :=
  withStrategy_ite
    (fun _ => withStrategy_ite (fun _ => withStrategy_restartCheck _ _) fun _ => withStrategy_blockFrom _ _ _)
    fun _ => rfl

theorem withStrategy_resyncFound (fromRun : Bool) (n : BitVec 3) (s : State) :
    withStrategy k lut9 (resyncFound fromRun n s) = resyncFound fromRun n (withStrategy k lut9 s) :=
  withStrategy_ite (fun _ => withStrategy_ite (fun _ => rfl) fun _ => rfl) fun _ => rfl

theorem withStrategy_resyncBegin (fromRun : Bool) (s : State) :
    withStrategy k lut9 (resyncBegin fromRun s) = resyncBegin fromRun (withStrategy k lut9 s) :=
  withStrategy_ite (fun _ => withStrategy_resyncFound _ _ _) fun _ => rfl

theorem withStrategy_scanByte (body : Body) (prevFf : Bool) (x : Byte) (s : State) :
    withStrategy k lut9 (scanByte body prevFf x s) = scanByte body prevFf x (withStrategy k lut9 s) :=
  withStrategy_ite (fun _ => withStrategy_resyncFound _ _ _) fun _ => rfl

theorem withStrategy_rawByte (p : Pos) (x : Byte) (s : State) :
    withStrategy k lut9 (rawByte p x s) = rawByte p x (withStrategy k lut9 s) := by
  obtain ⟨body, point⟩ := p
  cases point with
  | rstFirst => exact withStrategy_ite (fun _ => rfl) fun _ => withStrategy_takeFault _ _ _ _
  | rstSecond => exact withStrategy_checkMarker _ _ _
  | scan prevFf =>
    exact withStrategy_ite (fun _ => withStrategy_takeFault _ _ _ _) fun _ => withStrategy_scanByte _ _ _ _
  | _ => rfl

/-! ### Bits and codes -/

theorem withStrategy_withBit (s : State) {use : Bool → State → State}
    (h : ∀ bit t, withStrategy k lut9 (use bit t) = use bit (withStrategy k lut9 t)) :
    withStrategy k lut9 (withBit s use) = withBit (withStrategy k lut9 s) use :=
  withStrategy_ite (fun _ => withStrategy_ite (fun _ => h _ _) fun _ => rfl) fun _ => h _ _

theorem withStrategy_withRawByte (s : State) {use : Byte → State → State}
    (h : ∀ x t, withStrategy k lut9 (use x t) = use x (withStrategy k lut9 t)) :
    withStrategy k lut9 (withRawByte s use) = withRawByte (withStrategy k lut9 s) use :=
  withStrategy_ite (fun _ => h _ _) fun _ => rfl

theorem withStrategy_huffBit (T : HuffTable) (len code : Nat) (bit : Bool) {matched : Byte → State → State}
    {more : Nat → Nat → State → State} (s : State)
    (hmatched : ∀ sy, withStrategy k lut9 (matched sy s) = matched sy (withStrategy k lut9 s))
    (hmore : ∀ l c, withStrategy k lut9 (more l c s) = more l c (withStrategy k lut9 s)) :
    withStrategy k lut9 (huffBit T len code bit matched more s)
      = huffBit T len code bit matched more (withStrategy k lut9 s) := by
  unfold huffBit
  split
  · exact hmatched _
  · exact withStrategy_ite (fun _ => withStrategy_takeFault _ _ _ _) fun _ => hmore _ _

theorem withStrategy_blockDone (body : Body) (b : Nat) (s : State) :
    withStrategy k lut9 (blockDone body b s) = blockDone body b (withStrategy k lut9 s) := by
  cases body with
  | drive i => exact withStrategy_blockFrom i (b + 1) s
  | _ => rfl

theorem withStrategy_startAc (body : Body) (c b : Nat) (s : State) :
    withStrategy k lut9 (startAc body c b s) = startAc body c b (withStrategy k lut9 s) := by
  simp only [startAc, ← withStrategy_setMem, mem_withStrategy]
  rfl

theorem withStrategy_dcFinish (body : Body) (c b : Nat) (diff : Int) (s : State) :
    withStrategy k lut9 (dcFinish body c b diff s) = dcFinish body c b diff (withStrategy k lut9 s) := by
  cases body with
  | decDc => rfl
  | _ => exact withStrategy_startAc _ _ _ _

theorem withStrategy_acNext (body : Body) (c b n : Nat) (s : State) :
    withStrategy k lut9 (acNext body c b n s) = acNext body c b n (withStrategy k lut9 s) :=
  withStrategy_ite (fun _ => rfl) fun _ => withStrategy_blockDone _ _ _

theorem withStrategy_dcReceive (body : Body) (c b size left raw : Nat) (bit : Bool) (s : State) :
    withStrategy k lut9 (dcReceive body c b size left raw bit s)
      = dcReceive body c b size left raw bit (withStrategy k lut9 s) :=
  withStrategy_ite (fun _ => withStrategy_dcFinish _ _ _ _ _) fun _ => rfl

theorem withStrategy_acReceive (body : Body) (c b n size left raw : Nat) (bit : Bool) (s : State) :
    withStrategy k lut9 (acReceive body c b n size left raw bit s)
      = acReceive body c b n size left raw bit (withStrategy k lut9 s) :=
  withStrategy_ite (fun _ => withStrategy_acNext _ _ _ _ _) fun _ => rfl

/-! ### Symbols -/

/-- An effect at a place that the replacement leaves unchanged. -/
theorem withStrategy_map {α : Type} (place : Option α) {f g : α → State}
    (h : ∀ a, withStrategy k lut9 (f a) = g a) : (place.map f).map (withStrategy k lut9) = place.map g := by
  cases place with
  | none => rfl
  | some a => exact congrArg some (h a)

theorem withStrategy_afterFf (y : Byte) (s : State) :
    (afterFf y s).map (withStrategy k lut9) = afterFf y (withStrategy k lut9 s) := by
  cases hawaits : awaitsAfterFf s with
  | false =>
    have hawaits' : awaitsAfterFf (withStrategy k lut9 s) = false := hawaits
    rw [afterFf_eq_none hawaits, afterFf_eq_none hawaits']
    rfl
  | true =>
    rcases awaitsAfterFf_cases hawaits with ⟨p, hpos, hpend⟩ | ⟨p, hp, hpos, hpend⟩
    · rw [afterFf_data hpos hpend, afterFf_data (s := withStrategy k lut9 s) hpos hpend]
      exact congrArg some (withStrategy_ite (fun _ => rfl) fun _ => rfl)
    · rw [afterFf_raw hp hpos hpend, afterFf_raw (s := withStrategy k lut9 s) hp hpos hpend]
      exact congrArg some (withStrategy_rawByte _ _ _)

theorem withStrategy_symbolEffect (i : Instr) (s : State) :
    (symbolEffect i s).map (withStrategy k lut9) = symbolEffect i (withStrategy k lut9 s) := by
  cases i with
  | dcDiff size =>
    exact withStrategy_map (dcSymbolAt s) fun _ =>
      withStrategy_ite (fun _ => withStrategy_dcFinish _ _ _ _ _) fun _ => rfl
  | dcIllegal t => exact withStrategy_map (dcSymbolAt s) fun _ => withStrategy_takeFault _ _ _ _
  | acEob => exact withStrategy_map (acSymbolAt s) fun _ => withStrategy_blockDone _ _ _
  | acZrl =>
    exact withStrategy_map (acSymbolAt s) fun _ =>
      withStrategy_ite (fun _ => withStrategy_takeFault _ _ _ _) fun _ => withStrategy_acNext _ _ _ _ _
  | acRunsize r sz =>
    exact withStrategy_map (acSymbolAt s) fun _ =>
      withStrategy_ite (fun _ => withStrategy_takeFault _ _ _ _) fun _ => rfl
  | acUndef r => exact withStrategy_map (acSymbolAt s) fun _ => withStrategy_takeFault _ _ _ _
  | stuffFf00 => exact withStrategy_afterFf _ _
  | rstN n => exact withStrategy_afterFf _ _
  | markerOther b => exact withStrategy_afterFf _ _
  | _ => rfl

theorem withStrategy_symbolEffect_getD (i : Instr) (s : State) :
    withStrategy k lut9 ((symbolEffect i s).getD s)
      = (symbolEffect i (withStrategy k lut9 s)).getD (withStrategy k lut9 s) := by
  rw [← withStrategy_symbolEffect]
  cases symbolEffect i s <;> rfl

/-! ### A run of the block -/

theorem withStrategy_blockMove (s : State) :
    withStrategy k lut9 (blockMove s) = blockMove (withStrategy k lut9 s) := by
  cases hpos : s.pos with
  | none =>
    have hpos' : (withStrategy k lut9 s).pos = none := hpos
    unfold blockMove
    rw [hpos, hpos']
  | some p =>
    obtain ⟨body, point⟩ := p
    have hpos' : (withStrategy k lut9 s).pos = some ⟨body, point⟩ := hpos
    cases point with
    | dcCode c b len code =>
      rw [blockMove_dcCode hpos, blockMove_dcCode hpos']
      exact withStrategy_withBit s fun _ t =>
        withStrategy_huffBit (dcTable t c) _ _ _ t (fun _ => rfl) fun _ _ => rfl
    | acCode c b n len code =>
      rw [blockMove_acCode hpos, blockMove_acCode hpos']
      exact withStrategy_withBit s fun _ t =>
        withStrategy_huffBit (acTable t c) _ _ _ t (fun _ => rfl) fun _ _ => rfl
    | dcBits c b size left raw =>
      rw [blockMove_dcBits hpos, blockMove_dcBits hpos']
      exact withStrategy_withBit s fun _ _ => withStrategy_dcReceive _ _ _ _ _ _ _ _
    | acBits c b n size left raw =>
      rw [blockMove_acBits hpos, blockMove_acBits hpos']
      exact withStrategy_withBit s fun _ _ => withStrategy_acReceive _ _ _ _ _ _ _ _ _
    | dcSymbol c b t =>
      rw [blockMove_dcSymbol hpos, blockMove_dcSymbol hpos']
      exact withStrategy_symbolEffect_getD _ s
    | acSymbol c b n t =>
      rw [blockMove_acSymbol hpos, blockMove_acSymbol hpos']
      exact withStrategy_symbolEffect_getD _ s
    | rstFirst =>
      rw [blockMove_rstFirst hpos, blockMove_rstFirst hpos']
      exact withStrategy_withRawByte s (withStrategy_rawByte _)
    | rstSecond =>
      rw [blockMove_rstSecond hpos, blockMove_rstSecond hpos']
      exact withStrategy_withRawByte s (withStrategy_rawByte _)
    | scan prevFf =>
      rw [blockMove_scan hpos, blockMove_scan hpos']
      exact withStrategy_withRawByte s (withStrategy_rawByte _)
    | nextMcu skip =>
      cases body with
      | drive i =>
        rw [blockMove_nextMcu hpos, blockMove_nextMcu hpos']
        exact withStrategy_nextMcuStep i skip s
      | _ => unfold blockMove; rw [hpos, hpos']
    | emit => unfold blockMove; rw [hpos, hpos']

theorem withStrategy_settle (n : Nat) (s : State) :
    withStrategy k lut9 (settle n s) = settle n (withStrategy k lut9 s) := by
  induction n generalizing s with
  | zero => rfl
  | succ n ih =>
    refine withStrategy_ite (fun _ => ?_) fun _ => rfl
    rw [ih, withStrategy_blockMove]

theorem withStrategy_runBlock (s : State) :
    withStrategy k lut9 (runBlock s) = runBlock (withStrategy k lut9 s) :=
  withStrategy_settle moveBound _

/-! ### Commands -/

theorem withStrategy_completeCommand (s : State) :
    withStrategy k lut9 (completeCommand s) = completeCommand (withStrategy k lut9 s) := rfl

theorem withStrategy_issue (ok : Bool) (acc : SeqState) {run : State → State} {s : State}
    (h : withStrategy k lut9 (run s) = run (withStrategy k lut9 s)) :
    withStrategy k lut9 (issue ok acc run s) = issue ok acc run (withStrategy k lut9 s) :=
  withStrategy_ite (fun _ => withStrategy_ite (fun _ => h) fun _ => rfl) fun _ => rfl

theorem withStrategy_runSymbol (i : Instr) (s : State) :
    runSymbol (symbolEffect i (withStrategy k lut9 s))
      = mapNext (withStrategy k lut9) (runSymbol (symbolEffect i s)) := by
  rw [← withStrategy_symbolEffect]
  cases symbolEffect i s with
  | none => rfl
  | some t => exact congrArg Host.Outcome.next (withStrategy_runBlock t).symm

section
variable {s : State} (hk : k ≠ 3#2) (hs : strategy s ≠ 3)
include hk hs

theorem withStrategy_stepCommand {refuse : State → Bool} {body : State → State}
    (hrefuse : refuse (withStrategy k lut9 s) = refuse s)
    (hbody : ∀ t, withStrategy k lut9 (body t) = body (withStrategy k lut9 t)) :
    withStrategy k lut9 (stepCommand refuse body s) = stepCommand refuse body (withStrategy k lut9 s) := by
  unfold stepCommand
  rw [cfgCheck_withStrategy hk hs, hrefuse]
  split
  · exact withStrategy_takeFault _ _ _ s
  · exact withStrategy_ite (fun _ => rfl) fun _ => hbody _

theorem withStrategy_decodeCommand (body : Body) {bg : Body → Nat → Nat → State → State} (c : BitVec 2)
    (b : BitVec 4) (h : ∀ t, withStrategy k lut9 (bg body c.toNat b.toNat t)
      = bg body c.toNat b.toNat (withStrategy k lut9 t)) :
    withStrategy k lut9 (decodeCommand body bg c b s) = decodeCommand body bg c b (withStrategy k lut9 s) :=
  withStrategy_issue _ _ (withStrategy_stepCommand hk hs
    (congrArg (fun n => decide (n ≤ c.toNat)) (ncomp_withStrategy s))
    fun t => (withStrategy_runBlock _).trans (congrArg runBlock (h t)))

/-- Every command but SRESET commutes with the replacement. -/
theorem exec_command_withStrategy {i : Instr} (hc : isCommand i = true) (hreset : i ≠ .sreset) :
    exec i (withStrategy k lut9 s) = mapNext (withStrategy k lut9) (exec i s) := by
  have hunconfigured (c : BitVec 2) :
      compUnconfigured c (withStrategy k lut9 s) = compUnconfigured c s :=
    congrArg (fun n => decide (n ≤ c.toNat)) (ncomp_withStrategy s)
  cases i with
  | nop => rfl
  | sreset => exact absurd rfl hreset
  | loadQt id =>
    refine congrArg Host.Outcome.next (Eq.symm ?_)
    exact withStrategy_issue true .idle rfl
  | loadHt cls id =>
    refine congrArg Host.Outcome.next (Eq.symm ?_)
    exact withStrategy_issue true .idle rfl
  | start =>
    refine congrArg Host.Outcome.next (Eq.symm ?_)
    refine withStrategy_issue true .idle ?_
    rw [cfgCheck_withStrategy hk hs]
    split
    · exact withStrategy_takeFault _ _ _ s
    · exact withStrategy_runBlock _
  | resync =>
    refine congrArg Host.Outcome.next (Eq.symm ?_)
    refine withStrategy_issue true .syncHalt ?_
    exact (withStrategy_runBlock _).trans (congrArg runBlock (withStrategy_resyncBegin _ _))
  | decDc c b =>
    refine congrArg Host.Outcome.next (Eq.symm ?_)
    exact withStrategy_decodeCommand hk hs .decDc c b fun _ => rfl
  | decAc c b =>
    refine congrArg Host.Outcome.next (Eq.symm ?_)
    exact withStrategy_decodeCommand hk hs .decAc c b (withStrategy_startAc _ _ _)
  | decBlk c b =>
    refine congrArg Host.Outcome.next (Eq.symm ?_)
    exact withStrategy_decodeCommand hk hs .decBlk c b fun _ => rfl
  | restart =>
    refine congrArg Host.Outcome.next (Eq.symm ?_)
    refine withStrategy_issue true .idle (withStrategy_stepCommand hk hs rfl fun t => ?_)
    exact (withStrategy_runBlock _).trans (congrArg runBlock (withStrategy_restartCheck _ t))
  | idct c b =>
    refine congrArg Host.Outcome.next (Eq.symm ?_)
    refine withStrategy_issue _ .idle (withStrategy_stepCommand hk hs (hunconfigured c) fun t => ?_)
    exact (withStrategy_completeCommand _).trans
      (congrArg completeCommand (withStrategy_idctBlock b.toNat (qSel t c.toNat) t))
  | color =>
    refine congrArg Host.Outcome.next (Eq.symm ?_)
    refine withStrategy_issue true .idle (withStrategy_stepCommand hk hs rfl fun t => ?_)
    exact (withStrategy_completeCommand _).trans (congrArg completeCommand (withStrategy_assembleMcu t))
  | _ => cases hc

/-- Every instruction but SRESET commutes with the replacement. -/
theorem exec_withStrategy {i : Instr} (hreset : i ≠ .sreset) :
    exec i (withStrategy k lut9 s) = mapNext (withStrategy k lut9) (exec i s) := by
  cases hc : isCommand i with
  | false => rw [exec_symbol hc, exec_symbol hc]; exact withStrategy_runSymbol i s
  | true => exact exec_command_withStrategy hk hs hc hreset

end

end

/-- Settles O60: every operation of the block commutes with replacing STRATEGY and LUT9. -/
theorem strategyIndependence : Obligations.StrategyIndependence := fun _ _ _ hk hs =>
  ⟨fun _ => exec_withStrategy hk hs, (withStrategy_runBlock _).symm⟩

end Sys2Proof.Machine
end

section
/-! PROOFS. After every step the block is at rest (O57) and STATE has moved along the table of R220 (O58). -/

namespace Sys2Proof.Machine

/-- Every next state of a step is `Stepped`. -/
theorem stepped_of_step {s t : State} (h : s.Inv) (ht : step s = .next t) : Stepped (Resets s) s t := by
  obtain ⟨u, hu, hs⟩ := step_next_stepped h
  cases hu.symm.trans ht
  exact hs

/-- Settles O57: a step of the invariant ends with the block at rest. -/
theorem stepsEndAtSuspension : Obligations.StepsEndAtSuspension := fun _ _ h ht => (stepped_of_step h ht).rest

/-- Settles O58: a step of the invariant takes STATE along an arrow, or one of the two reset events resets the block. -/
theorem stateTransitions : Obligations.StateTransitions := fun _ _ h ht => (stepped_of_step h ht).arr

end Sys2Proof.Machine
end

section
/-! PROOFS. The host's accesses: which are refused (O7) and what a read gives (O8). -/

namespace Sys2Proof.Machine

/-! ## Offsets and accesses -/

/-- An access inside the window of the block has its offset. -/
theorem offsetOf_window (s : State) {off : Nat} (h : off < 0x4000) : offsetOf s (s.tjdBase + off) = some off := by
  have hw : s.tjdBase + off < s.tjdBase + Config.windowBytes := Nat.add_lt_add_left h _
  rw [offsetOf, if_pos ⟨Nat.le_add_right _ _, hw⟩, Nat.add_sub_cancel_left]

section
variable {off : Nat}

/-- On word boundaries the bus maps the offsets of R62. -/
theorem mapped_iff (h : off % 4 = 0) : mapped off = true ↔ isMappedOffset off := by
  simp only [mapped, inCoef, inTile, inPix, Bool.or_eq_true, Bool.and_eq_true, decide_eq_true_eq,
    isMappedOffset, isConfigOffset, isReadOnlyOffset]
  omega

/-- The accesses the bus accepts (R63). -/
theorem accessOk_iff {width : Nat} : accessOk off width = true ↔ width = 4 ∧ off % 4 = 0 ∧ isMappedOffset off := by
  simp only [accessOk, Bool.and_eq_true, beq_iff_eq, and_assoc]
  exact and_congr_right fun _ => and_congr_right fun h => mapped_iff h

theorem isMappedOffset.lt_window (h : isMappedOffset off) : off < 0x4000 := by
  simp only [isMappedOffset, isConfigOffset, isReadOnlyOffset] at h
  omega

/-- The mapped offsets of the three buffer windows, RECTLT, RECTRB and PIXLEN (R68). -/
theorem isBufferWord_iff (h : isMappedOffset off) :
    isBufferWord off = true ↔ (0x1000 ≤ off ∧ off < 0x3300) ∨ off = 0x4C ∨ off = 0x50 ∨ off = 0x54 := by
  simp only [isMappedOffset, isConfigOffset, isReadOnlyOffset] at h
  simp only [isBufferWord, inCoef, inTile, inPix, Bool.or_eq_true, Bool.and_eq_true, decide_eq_true_eq, beq_iff_eq]
  omega

/-! ## What the bus does -/

variable (s : State)

/-- A refused read, like a refused write, answers the bus error alone (R63). -/
theorem hostRead_refused {width : Nat} (hoff : off < 0x4000) (hok : accessOk off width = false) :
    hostRead (s.tjdBase + off) width s = { s with reply := some ⟨0#32, true⟩ } := by
  simp only [hostRead, offsetOf_window s hoff, hok, Bool.false_eq_true, if_false]

theorem hostWrite_refused {width : Nat} (hoff : off < 0x4000) (hok : accessOk off width = false) (v : Word) :
    hostWrite (s.tjdBase + off) width v s = .settled { s with reply := some ⟨0#32, true⟩ } := by
  simp only [hostWrite, offsetOf_window s hoff, hok, Bool.false_eq_true, if_false]

variable (hmap : isMappedOffset off) (halign : off % 4 = 0)
include hmap halign

theorem accessOk_word : accessOk off 4 = true := accessOk_iff.2 ⟨rfl, halign, hmap⟩

theorem hostRead_word : hostRead (s.tjdBase + off) 4 s = { s with reply := some ⟨readAt off s, false⟩ } := by
  simp only [hostRead, offsetOf_window s hmap.lt_window, accessOk_word hmap halign, if_true]

/-- A write to a mapped word other than CMD takes its effect (R69). -/
theorem hostWrite_register (hcmd : off ≠ 0x004) (v : Word) :
    hostWrite (s.tjdBase + off) 4 v s = .settled (registerWrite off v { s with reply := some ⟨0#32, false⟩ }) := by
  simp only [hostWrite, offsetOf_window s hmap.lt_window, accessOk_word hmap halign, if_true, if_neg hcmd]

omit hmap halign

/-- A write to CMD runs the instruction its word decodes to (R98). -/
theorem hostWrite_command {w : Word} {i : Instr} (hd : decodeCmd w = .ok i) :
    hostWrite (s.tjdBase + 0x004) 4 w s = .instr i { s with reply := some ⟨0#32, false⟩ } := by
  have hok : accessOk 0x004 4 = true := rfl
  simp only [hostWrite, offsetOf_window s (off := 0x004) (by decide), hok, if_true, cmdWrite, hd]

/-! ## What a read gives -/

/-- What R68 leaves free: a buffer word while a command runs with no rectangle offered. -/
theorem readsFree_iff (hmap : isMappedOffset off) :
    (isBufferWord off && busy s && !outwait s) = true ↔
      (s.state = .step ∨ s.state = .run) ∧ outwait s = false
        ∧ ((0x1000 ≤ off ∧ off < 0x3300) ∨ off = 0x4C ∨ off = 0x50 ∨ off = 0x54) := by
  simp only [Bool.and_eq_true, Bool.not_eq_true', isBufferWord_iff hmap, busy_iff]
  tauto

end

/-- Settles O7: an access outside `accessOk` is answered by the bus error. -/
theorem badAccessRefused : Obligations.BadAccessRefused := by
  intro s rest off width v hrest hoff hbad
  have hok : accessOk off width = false := by
    rw [← Bool.not_eq_true, accessOk_iff]
    tauto
  refine ⟨fun ha => ?_, fun ha => ?_⟩
  · rw [step_of_agent hrest ha]
    exact congrArg Host.Outcome.next (hostRead_refused { s with agenda := rest } hoff hok)
  · rw [step_of_agent hrest ha]
    exact congrArg runFetched (hostWrite_refused { s with agenda := rest } hoff hok v)

/-- Settles O8: a read of a mapped word answers `readAt`, which is free exactly where R68 says so. -/
theorem readsHaveNoEffect : Obligations.ReadsHaveNoEffect := by
  intro s rest off hrest hmap halign ha
  have hstep : step s = .next { s with agenda := rest, reply := some ⟨readAt off s, false⟩ } :=
    (step_of_agent hrest ha).trans
      (congrArg Host.Outcome.next (hostRead_word { s with agenda := rest } hmap halign))
  rw [hstep, ← readsFree_iff s hmap, readAt]
  refine ⟨fun hfree => ?_, fun hfixed => ?_⟩
  · rw [if_pos hfree]
  · rw [if_neg hfixed]

end Sys2Proof.Machine
end

section
/-! PROOFS. The answers of the input source (O25). -/

namespace Sys2Proof.Machine

/-! ## Faults -/

/-- A fault that is no failed restart check enters ERROR (R256). -/
theorem takeFault_eq_inError {e : BitVec 4} {d : Byte} (h : ¬(e = errSync ∧ (d = dtSyncNotFf ∨ d = dtSyncWrong)))
    (sy : Byte) (s : State) : takeFault e d sy s = inError e d sy s := if_neg h

/-- A failed restart check enters SYNC_HALT (R256). -/
theorem takeFault_eq_inSyncHalt {d : Byte} (h : d = dtSyncNotFf ∨ d = dtSyncWrong) (sy : Byte) (s : State) :
    takeFault errSync d sy s = inSyncHalt d sy (s.state == .run) s := if_pos ⟨rfl, h⟩

/-! ## What an answer does -/

/-- The source's event and a byte of its stream are taken; BYTECNT counts the byte (R72). -/
def byteTaken (rest : List Event) (more : List Answer) (s : State) : State :=
  { s with agenda := rest, input := more, bytecnt := s.bytecnt + 1#32 }

section
variable {s : State} {more : List Answer}

/-- A block that waits for the source does not move. -/
theorem not_runnable_of_pend (h : s.pend ≠ none) : runnable s = false := by
  unfold runnable
  split
  · rfl
  · rw [Option.isNone_eq_false_iff.2 (Option.isSome_iff_ne_none.2 h), Bool.false_and]

theorem sourceAnswer_eos (hpend : s.pend ≠ none) (hin : s.input = .eos :: more) :
    sourceAnswer s = .settled (runBlock { s with input := more, eos := true, pend := none }) := by
  obtain ⟨q, hq⟩ := Option.ne_none_iff_exists'.1 hpend
  simp only [sourceAnswer, hq, hin]

theorem sourceAnswer_ierr (hpend : s.pend ≠ none) (hin : s.input = .ierr :: more) :
    sourceAnswer s = .settled (takeFault errInput dtInputErr 0#8 { s with input := more }) := by
  obtain ⟨q, hq⟩ := Option.ne_none_iff_exists'.1 hpend
  simp only [sourceAnswer, hq, hin]

/-- A byte is the second of a pair, or it is not (R144). -/
theorem sourceAnswer_byte {x : Byte} (hpend : s.pend ≠ none) (hin : s.input = .byte x :: more) :
    sourceAnswer s =
      if awaitsAfterFf s then .instr (decodeAfterFf x) { s with input := more, bytecnt := s.bytecnt + 1#32 }
      else .settled (runBlock (firstByte x { s with input := more, bytecnt := s.bytecnt + 1#32 })) := by
  unfold sourceAnswer
  split
  · next h => exact absurd h hpend
  · next h => cases hin.symm.trans h
  · next h => cases hin.symm.trans h; rfl

/-- The first byte of FetchDataByte: 0xFF asks for the byte after it (R144). -/
theorem firstByte_data {p : Pos} (hpos : s.pos = some p) (hpend : s.pend = some .dataFirst) (x : Byte) :
    firstByte x s = if x = 0xFF#8 then waiting .dataSecond s else loadByte x s := by
  unfold firstByte
  split
  · rfl
  · next h => cases hpend.symm.trans h
  · next h _ => exact (h p hpos hpend).elim

/-- The byte of a RawRead (R145). -/
theorem firstByte_raw {p : Pos} (hpos : s.pos = some p) (hpend : s.pend = some .raw) (x : Byte) :
    firstByte x s = rawByte p x { s with pend := none } := by
  simp only [firstByte, hpos, hpend]

/-- Only the second read of FetchDataByte and the reads after 0xFF await the second byte of a pair. -/
theorem not_awaitsAfterFf_data (hpend : s.pend = some .dataFirst) : awaitsAfterFf s = false := by
  by_contra h
  rcases awaitsAfterFf_cases (Bool.not_eq_false _ ▸ h) with ⟨_, _, h⟩ | ⟨_, _, _, h⟩ <;> cases hpend.symm.trans h

theorem not_awaitsAfterFf_raw {p : Pos} (hpos : s.pos = some p) (hpend : s.pend = some .raw)
    (hpoint : p.point ≠ .rstSecond ∧ p.point ≠ .scan true) : awaitsAfterFf s = false := by
  by_contra h
  rcases awaitsAfterFf_cases (Bool.not_eq_false _ ▸ h) with ⟨_, _, h⟩ | ⟨q, hq, h, _⟩
  · cases hpend.symm.trans h
  · cases hpos.symm.trans h
    exact hq.elim hpoint.1 hpoint.2

/-! ### The step that takes an answer -/

variable {rest : List Event} (ha : s.agenda = .source :: rest) (hpend : s.pend ≠ none)
include ha hpend

theorem step_of_source : step s = runFetched (sourceAnswer { s with agenda := rest }) :=
  step_of_agent (not_runnable_of_pend hpend) ha

theorem step_eos (hin : s.input = .eos :: more) :
    step s = .next (runBlock { s with agenda := rest, input := more, eos := true, pend := none }) :=
  (step_of_source ha hpend).trans (congrArg runFetched (sourceAnswer_eos (s := { s with agenda := rest }) hpend hin))

theorem step_ierr (hin : s.input = .ierr :: more) :
    step s = .next (takeFault errInput dtInputErr 0#8 { s with agenda := rest, input := more }) :=
  (step_of_source ha hpend).trans (congrArg runFetched (sourceAnswer_ierr (s := { s with agenda := rest }) hpend hin))

theorem step_firstByte {x : Byte} (hin : s.input = .byte x :: more) (haw : awaitsAfterFf s = false) :
    step s = .next (runBlock (firstByte x (byteTaken rest more s))) :=
  (step_of_source ha hpend).trans (congrArg runFetched
    ((sourceAnswer_byte (s := { s with agenda := rest }) hpend hin).trans (if_neg (Bool.eq_false_iff.1 haw))))

/-- The byte after 0xFF runs as the instruction the pair decodes to (R144). -/
theorem step_secondByte {y : Byte} (hin : s.input = .byte y :: more) (haw : awaitsAfterFf s = true) :
    step s = exec (decodeAfterFf y) (byteTaken rest more s) :=
  (step_of_source ha hpend).trans (congrArg runFetched
    ((sourceAnswer_byte (s := { s with agenda := rest }) hpend hin).trans (if_pos haw)))

end

/-! ## The run after an answer -/

section
variable {s : State} {body : Body} {point : Point}

/-- The first byte of a restart check (R160). -/
theorem rawByte_rstFirst (body : Body) (x : Byte) (s : State) :
    rawByte ⟨body, .rstFirst⟩ x s =
      if x = 0xFF#8 then atPoint body .rstSecond s else inSyncHalt 0x40#8 x (s.state == .run) s :=
  if_congr Iff.rfl rfl (takeFault_eq_inSyncHalt (.inl rfl) x s)

/-- A byte of a recovery scan that does not come after 0xFF (R165). -/
theorem rawByte_scan (heos : s.eos = false) (body : Body) (x : Byte) :
    rawByte ⟨body, .scan false⟩ x s = atPoint body (.scan (x == 0xFF#8)) s := if_neg (Bool.eq_false_iff.1 heos)

theorem rawByte_scan_ended (heos : s.eos = true) (body : Body) (q : Bool) (x : Byte) :
    rawByte ⟨body, .scan q⟩ x s = inError 4#4 0x42#8 0#8 s :=
  (if_pos heos).trans (takeFault_eq_inError (by decide) _ _)

/-- A block at a point other than Emit goes on once nothing is outstanding. -/
theorem runnable_at (hpos : s.pos = some ⟨body, point⟩) (hpend : s.pend = none) (h : point ≠ .emit) :
    runnable s = true := by
  simpa [runnable, hpos, hpend] using h

/-- A run is its first move where that brings the block to rest. -/
theorem runBlock_of_move {t : State} (hr : runnable s = true) (hmove : blockMove (tick s) = t)
    (hrest : runnable t = false) : runBlock s = t := by
  have hone : settle 1 (tick s) = t := (settle_succ (s := tick s) hr 0).trans hmove
  exact (runBlock_of_settle (k := 1) (by decide) ((congrArg runnable hone).trans hrest)).trans hone

/-! ### RawRead -/

/-- The points of RawRead: the two of a restart check and the one of a recovery scan. -/
theorem blockMove_rawRead (hpoint : point = .rstFirst ∨ point = .rstSecond ∨ ∃ q, point = .scan q)
    (hpos : s.pos = some ⟨body, point⟩) : blockMove s = withRawByte s (rawByte ⟨body, point⟩) := by
  rcases hpoint with rfl | rfl | ⟨q, rfl⟩
  · exact blockMove_rstFirst hpos
  · exact blockMove_rstSecond hpos
  · exact blockMove_scan hpos

theorem withRawByte_open (heos : s.eos = false) (use : Byte → State → State) :
    withRawByte s use = waiting .raw s := if_neg (Bool.eq_false_iff.1 heos)

theorem withRawByte_ended (heos : s.eos = true) (use : Byte → State → State) :
    withRawByte s use = use Config.fillByte s := if_pos heos

/-- A RawRead before end of stream suspends the block (R145). -/
theorem runBlock_rawRead (hpoint : point = .rstFirst ∨ point = .rstSecond ∨ ∃ q, point = .scan q)
    (hpos : s.pos = some ⟨body, point⟩) (hpend : s.pend = none) (heos : s.eos = false) :
    runBlock s = tick (waiting .raw s) := by
  have hemit : point ≠ .emit := by
    rintro rfl
    simp at hpoint
  have hmove : blockMove (tick s) = tick (waiting .raw s) :=
    (blockMove_rawRead (s := tick s) hpoint hpos).trans (withRawByte_open (s := tick s) heos _)
  exact runBlock_of_move (runnable_at hpos hpend hemit) hmove (not_runnable_of_pend (Option.some_ne_none Pend.raw))

/-- No restart marker is the fill byte: a restart check that reads it fails (R160). -/
theorem checkMarker_fill (body : Body) (s : State) :
    checkMarker body Config.fillByte s =
      inSyncHalt 0x41#8 0xFF#8 (s.state == .run) { s with mp := true, marker := 0xFF#8 } := by
  have hne : ∀ n : BitVec 3, Config.fillByte ≠ 0xD0#8 + n.setWidth 8 := by decide
  rw [checkMarker, if_neg (hne _)]
  exact takeFault_eq_inSyncHalt (.inr rfl) _ _

/-- The second read of a restart check after end of stream. -/
theorem blockMove_rstSecond_ended (hpos : s.pos = some ⟨body, .rstSecond⟩) (heos : s.eos = true) :
    blockMove s = inSyncHalt 0x41#8 0xFF#8 (s.state == .run) { s with mp := true, marker := 0xFF#8 } :=
  (blockMove_rstSecond hpos).trans ((withRawByte_ended heos _).trans (checkMarker_fill body s))

/-- A restart check that meets end of stream is SYNC_WRONG with the fill byte (R160): the first read takes the fill
byte for the 0xFF of the marker, the second for its number. -/
theorem runBlock_restartCheck_ended (hpoint : point = .rstFirst ∨ point = .rstSecond)
    (hpos : s.pos = some ⟨body, point⟩) (hpend : s.pend = none) (heos : s.eos = true) :
    runBlock s = tick (inSyncHalt 0x41#8 0xFF#8 (s.state == .run) { s with mp := true, marker := 0xFF#8 }) := by
  rcases hpoint with rfl | rfl
  · have hfirst : blockMove (tick s) = goto body .rstSecond (tick s) :=
      (blockMove_rstFirst (s := tick s) hpos).trans (withRawByte_ended (s := tick s) heos _)
    have hsecond := blockMove_rstSecond_ended (goto_pos body .rstSecond (tick s)) heos
    have htwo : settle 2 (tick s) = blockMove (goto body .rstSecond (tick s)) := by
      rw [settle_succ (s := tick s) (runnable_at (s := tick s) hpos hpend (by simp)), hfirst]
      exact settle_succ (runnable_at (goto_pos body .rstSecond (tick s)) hpend (by simp)) 0
    have hend := htwo.trans hsecond
    exact (runBlock_of_settle (k := 2) (by decide) (congrArg runnable hend)).trans hend
  · exact runBlock_of_move (runnable_at hpos hpend (by simp))
      (blockMove_rstSecond_ended (s := tick s) hpos heos) rfl

/-- A recovery scan that meets end of stream is RESYNC_EOS (R165). -/
theorem runBlock_scan_ended {q : Bool} (hpos : s.pos = some ⟨body, .scan q⟩) (hpend : s.pend = none)
    (heos : s.eos = true) : runBlock s = tick (inError 4#4 0x42#8 0#8 s) := by
  have hmove : blockMove (tick s) = tick (inError 4#4 0x42#8 0#8 s) :=
    (blockMove_scan (s := tick s) hpos).trans
      ((withRawByte_ended (s := tick s) heos _).trans (rawByte_scan_ended (s := tick s) heos body q _))
  exact runBlock_of_move (runnable_at hpos hpend (by simp)) hmove rfl

end

/-- Settles O25: the source's answer, then the run of the block from the point it was read at. -/
theorem sourceAnswers : Obligations.SourceAnswers := by
  rintro s ⟨body, point⟩ rest more hpos ha
  have hout : ∀ {q}, s.pend = some q → s.pend ≠ none := fun h => by simp [h]
  refine ⟨fun hq x hin => ?_, step_eos ha, fun hq hin => ?_, fun hq he hp x hin => ?_, fun hq he hp x hin => ?_,
    fun hq hp hin => ?_, fun hq q hp hin => ?_⟩
  · rw [step_firstByte ha (hout hq) hin (not_awaitsAfterFf_data hq),
      firstByte_data (s := byteTaken rest more s) hpos hq]
    split
    · exact congrArg _ (runBlock_rest (not_runnable_of_pend (Option.some_ne_none Pend.dataSecond)))
    · rfl
  · rw [step_ierr ha hq hin, takeFault_eq_inError (by decide)]
    rfl
  · obtain rfl : point = .rstFirst := hp
    rw [step_firstByte ha (hout hq) hin (not_awaitsAfterFf_raw hpos hq (by simp)),
      firstByte_raw (s := byteTaken rest more s) hpos hq, rawByte_rstFirst]
    split
    · exact congrArg _ (runBlock_rawRead (body := body) (.inr (.inl rfl)) rfl rfl he)
    · exact congrArg _ (runBlock_rest rfl)
  · obtain rfl : point = .scan false := hp
    rw [step_firstByte ha (hout hq) hin (not_awaitsAfterFf_raw hpos hq (by simp)),
      firstByte_raw (s := byteTaken rest more s) hpos hq,
      rawByte_scan (s := { byteTaken rest more s with pend := none }) he]
    exact congrArg _ (runBlock_rawRead (body := body) (.inr (.inr ⟨_, rfl⟩)) rfl rfl he)
  · rw [step_eos ha (hout hq) hin]
    exact congrArg _ (runBlock_restartCheck_ended hp hpos rfl rfl)
  · obtain rfl : point = .scan q := hp
    rw [step_eos ha (hout hq) hin]
    exact congrArg _ (runBlock_scan_ended hpos rfl rfl)

end Sys2Proof.Machine
end

section
/-! PROOFS. A step runs the instruction that what it fetches decodes to (O6). -/

namespace Sys2Proof.Machine

/-- The block goes first where it has matched a symbol, and runs it (R76). -/
theorem step_of_symbolAt {s : State} {i : Instr} (hr : runnable s = true) (hi : symbolAt s = some i) :
    step s = exec i s := by
  simp only [step, fetchNext, hr, hi, if_true]

/-- Settles O6: the step of the host, of the block at a symbol, and of the source. -/
theorem stepRunsDecoded : Obligations.StepRunsDecoded := by
  refine ⟨fun s rest w i hrest ha hd => ?_, fun s body c b t hpend hpos => ?_, fun s body c b k t hpend hpos => ?_,
    fun s rest y more haw ha hin => ?_, fun s rest off v hrest hmap halign hcmd ha => ?_,
    fun s i _ hi => exec_symbolAt_eq_blockMove hi⟩
  · rw [step_of_agent hrest ha]
    exact congrArg runFetched (hostWrite_command { s with agenda := rest } hd)
  · exact step_of_symbolAt (runnable_at hpos hpend (by simp)) (by simp only [symbolAt, hpos])
  · exact step_of_symbolAt (runnable_at hpos hpend (by simp)) (by simp only [symbolAt, hpos])
  · have hpend : s.pend ≠ none := by
      rcases awaitsAfterFf_cases haw with ⟨_, _, h⟩ | ⟨_, _, _, h⟩ <;> simp [h]
    exact step_secondByte ha hpend hin haw
  · rw [step_of_agent hrest ha]
    exact congrArg runFetched (hostWrite_register { s with agenda := rest } hmap halign hcmd v)

end Sys2Proof.Machine
end

section
/-! PROOFS. The encodings: decoding an encoding gives the instruction back (O1, O3), and whatever decodes is well
formed and has that one encoding (O2). -/

namespace Sys2Proof

/-! ## The fields of an encoded word (R91-R93) -/

section
variable (opc : BitVec 8) (cls : Cls) (id c : BitVec 2) (b : BitVec 4)

@[simp] theorem opcode_encodeF0 : (encodeF0 opc).extractLsb' 24 8 = opc := BitVec.extractLsb'_append_eq_left

@[simp] theorem opcode_encodeFT : (encodeFT opc cls id).extractLsb' 24 8 = opc := by
  rw [encodeFT]
  iterate 4 rw [BitVec.extractLsb'_append_eq_of_le (by decide)]
  exact BitVec.extractLsb'_eq_self

@[simp] theorem opcode_encodeFB : (encodeFB opc c b).extractLsb' 24 8 = opc := by
  rw [encodeFB]
  iterate 4 rw [BitVec.extractLsb'_append_eq_of_le (by decide)]
  exact BitVec.extractLsb'_eq_self

/-- CLS is bit 4 and ID bits [1:0] of a word of format FT; its other operand bits are 0. -/
theorem fields_encodeFT : (encodeFT opc cls id).extractLsb' 5 19 = 0#19 ∧ (encodeFT opc cls id).extractLsb' 2 2 = 0#2
    ∧ (encodeFT opc cls id).extractLsb' 4 1 = clsBit cls ∧ (encodeFT opc cls id).extractLsb' 0 2 = id := by
  refine ⟨?_, ?_, ?_, BitVec.extractLsb'_append_eq_right⟩ <;> rw [encodeFT]
  · iterate 3 rw [BitVec.extractLsb'_append_eq_of_le (by decide)]
    exact BitVec.extractLsb'_append_eq_right
  · rw [BitVec.extractLsb'_append_eq_of_le (by decide)]
    exact BitVec.extractLsb'_append_eq_right
  · iterate 2 rw [BitVec.extractLsb'_append_eq_of_le (by decide)]
    exact BitVec.extractLsb'_append_eq_right

/-- C is bits [9:8] and B bits [3:0] of a word of format FB; its other operand bits are 0. -/
theorem fields_encodeFB : (encodeFB opc c b).extractLsb' 10 14 = 0#14 ∧ (encodeFB opc c b).extractLsb' 4 4 = 0#4
    ∧ (encodeFB opc c b).extractLsb' 8 2 = c ∧ (encodeFB opc c b).extractLsb' 0 4 = b := by
  refine ⟨?_, ?_, ?_, BitVec.extractLsb'_append_eq_right⟩ <;> rw [encodeFB]
  · iterate 3 rw [BitVec.extractLsb'_append_eq_of_le (by decide)]
    exact BitVec.extractLsb'_append_eq_right
  · rw [BitVec.extractLsb'_append_eq_of_le (by decide)]
    exact BitVec.extractLsb'_append_eq_right
  · iterate 2 rw [BitVec.extractLsb'_append_eq_of_le (by decide)]
    exact BitVec.extractLsb'_append_eq_right

theorem clsOfBit_clsBit : (if clsBit cls = 1#1 then Cls.ac else Cls.dc) = cls := by cases cls <;> rfl

/-! ### Each format's decoder undoes its encoder -/

theorem decodeF0_encodeF0 (i : Instr) : decodeF0 (encodeF0 opc) i = .ok i :=
  decodeF0_eq_ok.2 ⟨BitVec.extractLsb'_append_eq_right, rfl⟩

theorem decodeFT_encodeFT (k : Cls → BitVec 2 → Except Malformed Instr) :
    decodeFT (encodeFT opc cls id) k = k cls id := by
  obtain ⟨hhigh, hlow, hcls, hid⟩ := fields_encodeFT opc cls id
  rw [decodeFT, if_pos ⟨hhigh, hlow⟩, hcls, hid, clsOfBit_clsBit]

theorem decodeFB_encodeFB {c : BitVec 2} {b : BitVec 4} (h : fbOperandsOk c b = true)
    (k : BitVec 2 → BitVec 4 → Instr) : decodeFB (encodeFB opc c b) k = .ok (k c b) := by
  obtain ⟨hhigh, hlow, hc, hb⟩ := fields_encodeFB opc c b
  exact decodeFB_eq_ok.2 ⟨⟨hhigh, hlow⟩, by rw [hc, hb]; exact h, by rw [hc, hb]⟩

end

/-! ### The fields of a word give it back -/

section
variable {w : Word}

theorem encodeF0_fields (h : w.extractLsb' 0 24 = 0#24) : encodeF0 (w.extractLsb' 24 8) = w := by
  rw [encodeF0, ← h]
  exact BitVec.extractLsb'_append_extractLsb' (w := 8) (len := 24)

theorem encodeFT_fields (hhigh : w.extractLsb' 5 19 = 0#19) (hlow : w.extractLsb' 2 2 = 0#2) {cls : Cls}
    (hcls : clsBit cls = w.extractLsb' 4 1) : encodeFT (w.extractLsb' 24 8) cls (w.extractLsb' 0 2) = w := by
  rw [encodeFT, ← hhigh, ← hlow, hcls]
  iterate 4 rw [BitVec.extractLsb'_append_extractLsb'_eq_extractLsb' (by decide)]
  exact BitVec.extractLsb'_eq_self

theorem encodeFB_fields (hhigh : w.extractLsb' 10 14 = 0#14) (hlow : w.extractLsb' 4 4 = 0#4) :
    encodeFB (w.extractLsb' 24 8) (w.extractLsb' 8 2) (w.extractLsb' 0 4) = w := by
  rw [encodeFB, ← hhigh, ← hlow]
  iterate 4 rw [BitVec.extractLsb'_append_extractLsb'_eq_extractLsb' (by decide)]
  exact BitVec.extractLsb'_eq_self

/-- The CLS bit of the class read from a CLS bit is that bit. -/
theorem clsBit_clsOfBit (x : BitVec 1) : clsBit (if x = 1#1 then .ac else .dc) = x := by
  revert x
  decide

end

/-! ## The opcode map by format (R94) -/

/-- The opcodes of format F0. -/
def f0Opcodes : List (BitVec 8) := [0x00#8, 0x01#8, 0x20#8, 0x21#8, 0x33#8, 0x50#8]

/-- What a command word of an opcode decodes to, by the opcode's row of R94: the row's format, and the instructions
its words encode. -/
inductive DecodedByFormat (opc : BitVec 8) (w : Word) : Except Malformed Instr → Prop
  | f0 (i : Instr) (hopc : opc ∈ f0Opcodes) (hwf : i.wellFormed = true) (henc : encode i = .cmd (encodeF0 opc)) :
    DecodedByFormat opc w (decodeF0 w i)
  | loadQt (hopc : opc = 0x10#8) : DecodedByFormat opc w
      (decodeFT w fun cls id => if cls = .ac then .error .loadQtClass else .ok (.loadQt id))
  | loadHt (hopc : opc = 0x11#8) : DecodedByFormat opc w (decodeFT w fun cls id => .ok (.loadHt cls id))
  | fb (k : BitVec 2 → BitVec 4 → Instr) (hopc : Machine.isFbOpcode opc)
      (hk : ∀ c b, (k c b).wellFormed = fbOperandsOk c b ∧ encode (k c b) = .cmd (encodeFB opc c b)) :
    DecodedByFormat opc w (decodeFB w k)
  | reserved (hopc : opc ∉ Machine.mapOpcodes) : DecodedByFormat opc w (.error .reservedOpcode)

section
variable {opc o : BitVec 8} {w : Word}

/-- An entry of the map and the entries after it. -/
theorem DecodedByFormat.ite {x y : Except Malformed Instr} (hx : DecodedByFormat o w x)
    (hy : opc ≠ o → DecodedByFormat opc w y) : DecodedByFormat opc w (if opc = o then x else y) := by
  split
  · next h => exact h ▸ hx
  · next h => exact hy h

end

theorem decodeCmd_byFormat (w : Word) : DecodedByFormat (w.extractLsb' 24 8) w (decodeCmd w) := by
  unfold decodeCmd
  dsimp only
  generalize w.extractLsb' 24 8 = opc
  refine .ite (.f0 .nop (by decide) rfl rfl) fun h00 => ?_
  refine .ite (.f0 .sreset (by decide) rfl rfl) fun h01 => ?_
  refine .ite (.loadQt rfl) fun h10 => ?_
  refine .ite (.loadHt rfl) fun h11 => ?_
  refine .ite (.f0 .start (by decide) rfl rfl) fun h20 => ?_
  refine .ite (.f0 .resync (by decide) rfl rfl) fun h21 => ?_
  refine .ite (.fb .decDc (.inl rfl) fun _ _ => ⟨rfl, rfl⟩) fun h30 => ?_
  refine .ite (.fb .decAc (.inr (.inl rfl)) fun _ _ => ⟨rfl, rfl⟩) fun h31 => ?_
  refine .ite (.fb .decBlk (.inr (.inr (.inl rfl))) fun _ _ => ⟨rfl, rfl⟩) fun h32 => ?_
  refine .ite (.f0 .restart (by decide) rfl rfl) fun h33 => ?_
  refine .ite (.fb .idct (.inr (.inr (.inr rfl))) fun _ _ => ⟨rfl, rfl⟩) fun h40 => ?_
  refine .ite (.f0 .color (by decide) rfl rfl) fun h50 => .reserved ?_
  simp [Machine.mapOpcodes, *]

/-! ## Commands -/

/-- A decoded command is well formed, and the word is its encoding (R96). -/
theorem decodeCmd_sound {w : Word} {i : Instr} (h : decodeCmd w = .ok i) :
    i.wellFormed = true ∧ encode i = .cmd w := by
  have hform := decodeCmd_byFormat w
  rw [h] at hform
  generalize hr : Except.ok i = r at hform
  cases hform with
  | f0 j hopc hwf henc =>
    obtain ⟨hzero, rfl⟩ := decodeF0_eq_ok.1 hr.symm
    exact ⟨hwf, henc.trans (congrArg Code.cmd (encodeF0_fields hzero))⟩
  | loadQt hopc =>
    obtain ⟨⟨hhigh, hlow⟩, hk⟩ := decodeFT_eq_ok.1 hr.symm
    split at hk
    · cases hk
    · next hcls =>
      cases hk
      have hdc := clsBit_clsOfBit (w.extractLsb' 4 1)
      rw [if_neg hcls] at hdc
      exact ⟨rfl, congrArg Code.cmd (hopc ▸ encodeFT_fields hhigh hlow hdc)⟩
  | loadHt hopc =>
    obtain ⟨⟨hhigh, hlow⟩, hk⟩ := decodeFT_eq_ok.1 hr.symm
    cases hk
    exact ⟨rfl, congrArg Code.cmd (hopc ▸ encodeFT_fields hhigh hlow (clsBit_clsOfBit _))⟩
  | fb k hopc hk =>
    obtain ⟨⟨hhigh, hlow⟩, hok, rfl⟩ := decodeFB_eq_ok.1 hr.symm
    obtain ⟨hwf, henc⟩ := hk (w.extractLsb' 8 2) (w.extractLsb' 0 4)
    exact ⟨hwf.trans hok, henc.trans (congrArg Code.cmd (encodeFB_fields hhigh hlow))⟩
  | reserved hopc => cases hr

/-! ## Commands: the decoder after the encoder -/

theorem decodeCmd_encode {i : Instr} {w : Word} (hwf : i.wellFormed = true) (hw : encode i = .cmd w) :
    decodeCmd w = .ok i := by
  cases i with
  | nop | sreset | start | resync | restart | color =>
    cases hw
    simp [decodeCmd, decodeF0_encodeF0]
  | loadQt | loadHt =>
    cases hw
    simp [decodeCmd, decodeFT_encodeFT]
  | decDc | decAc | decBlk | idct =>
    cases hw
    simp [decodeCmd, decodeFB_encodeFB _ hwf]
  | _ => cases hw

/-! ## Stream symbols -/

/-- A byte is its high nibble before its low nibble. -/
theorem byte_nibbles (t : Byte) : t.extractLsb' 4 4 ++ t.extractLsb' 0 4 = t :=
  BitVec.extractLsb'_append_extractLsb' (w := 4) (len := 4)

/-- The high nibble of a byte is not 0 from 16 on. -/
theorem highNibble_eq_zero_iff (t : Byte) : t.extractLsb' 4 4 = 0#4 ↔ t.toNat < 16 := by
  have := t.isLt
  rw [← BitVec.toNat_inj, BitVec.extractLsb'_toNat, Nat.shiftRight_eq_div_pow]
  simp only [BitVec.toNat_ofNat]
  omega

theorem isRstByte_append (n : BitVec 3) : isRstByte (0x1A#5 ++ n) = true :=
  beq_iff_eq.2 BitVec.extractLsb'_append_eq_left

/-- A DC symbol byte is well formed and is its own encoding (R104). -/
theorem decodeDcSymbol_sound (t : Byte) :
    (decodeDcSymbol t).wellFormed = true ∧ encode (decodeDcSymbol t) = .dcSymbol t := by
  unfold decodeDcSymbol
  split
  · next h => exact ⟨rfl, congrArg Code.dcSymbol (by rw [← h]; exact byte_nibbles t)⟩
  · next h => exact ⟨decide_eq_true (Nat.not_lt.1 ((highNibble_eq_zero_iff t).not.1 h)), rfl⟩

/-- An AC symbol byte is well formed and is its own encoding (R105). -/
theorem decodeAcSymbol_sound (t : Byte) :
    (decodeAcSymbol t).wellFormed = true ∧ encode (decodeAcSymbol t) = .acSymbol t := by
  unfold decodeAcSymbol
  split
  · next h => exact ⟨rfl, congrArg Code.acSymbol h.symm⟩
  split
  · next h => exact ⟨rfl, congrArg Code.acSymbol h.symm⟩
  next hEob hZrl =>
  split
  · next h =>
    have hbyte : t.extractLsb' 4 4 ++ 0#4 = t := by rw [← h]; exact byte_nibbles t
    refine ⟨?_, congrArg Code.acSymbol hbyte⟩
    simp only [Instr.wellFormed, Bool.and_eq_true, bne_iff_ne]
    exact ⟨fun h0 => hEob (by rw [← hbyte, h0]; rfl), fun h15 => hZrl (by rw [← hbyte, h15]; rfl)⟩
  · next h => exact ⟨bne_iff_ne.2 h, congrArg Code.acSymbol (byte_nibbles t)⟩

/-- The second byte of a pair is well formed, and the pair is its encoding (R102). -/
theorem decodeAfterFf_sound (y : Byte) :
    (decodeAfterFf y).wellFormed = true ∧ encode (decodeAfterFf y) = .pair 0xFF#8 y := by
  unfold decodeAfterFf
  split
  · next h => exact ⟨rfl, congrArg (Code.pair 0xFF#8) h.symm⟩
  next h0 =>
  split
  · next h => exact ⟨rfl, congrArg (Code.pair 0xFF#8) (rstByte_eq h)⟩
  · next h => exact ⟨by simpa [Instr.wellFormed] using ⟨h0, Bool.eq_false_iff.2 h⟩, rfl⟩

theorem decodeDcSymbol_dcDiff (size : BitVec 4) : decodeDcSymbol (0#4 ++ size) = .dcDiff size := by
  have hlow : (0#4 ++ size : Byte).extractLsb' 0 4 = size := BitVec.extractLsb'_append_eq_right
  rw [decodeDcSymbol, if_pos BitVec.extractLsb'_append_eq_left, hlow]

theorem decodeDcSymbol_dcIllegal {t : Byte} (h : 16 ≤ t.toNat) : decodeDcSymbol t = .dcIllegal t :=
  if_neg fun h0 => Nat.not_lt.2 h ((highNibble_eq_zero_iff t).1 h0)

/-- A symbol byte of run r and size s, for the values neither EOB nor ZRL has. -/
theorem decodeAcSymbol_append {r s : BitVec 4} (h : s ≠ 0#4 ∨ (r ≠ 0#4 ∧ r ≠ 15#4)) :
    decodeAcSymbol (r ++ s) = if s = 0#4 then .acUndef r else .acRunsize r s := by
  have hhigh : (r ++ s : Byte).extractLsb' 4 4 = r := BitVec.extractLsb'_append_eq_left
  have hlow : (r ++ s : Byte).extractLsb' 0 4 = s := BitVec.extractLsb'_append_eq_right
  have hEob : (r ++ s : Byte) ≠ 0x00#8 := by
    intro e
    rw [e] at hhigh hlow
    exact h.elim (· hlow.symm) (·.1 hhigh.symm)
  have hZrl : (r ++ s : Byte) ≠ 0xF0#8 := by
    intro e
    rw [e] at hhigh hlow
    exact h.elim (· hlow.symm) (·.2 hhigh.symm)
  rw [decodeAcSymbol, if_neg hEob, if_neg hZrl, hhigh, hlow]

theorem decodeAfterFf_rstN (n : BitVec 3) : decodeAfterFf (0x1A#5 ++ n) = .rstN n := by
  have hne : (0x1A#5 ++ n : Byte) ≠ 0x00#8 := fun e => absurd (e ▸ isRstByte_append n) (by decide)
  have hlow : (0x1A#5 ++ n : Byte).extractLsb' 0 3 = n := BitVec.extractLsb'_append_eq_right
  rw [decodeAfterFf, if_neg hne, if_pos (isRstByte_append n), hlow]

/-- Settles O1: the decoder of each space undoes the encoder of each of its rows. -/
theorem encodeThenDecode : Obligations.EncodeThenDecode := by
  intro i hwf
  cases i with
  | dcDiff size => exact congrArg Except.ok (decodeDcSymbol_dcDiff size)
  | dcIllegal t => exact congrArg Except.ok (decodeDcSymbol_dcIllegal (of_decide_eq_true hwf))
  | acEob => rfl
  | acZrl => rfl
  | acRunsize r s =>
    have hs : s ≠ 0#4 := bne_iff_ne.1 hwf
    exact congrArg Except.ok ((decodeAcSymbol_append (.inl hs)).trans (if_neg hs))
  | acUndef r =>
    simp only [Instr.wellFormed, Bool.and_eq_true, bne_iff_ne] at hwf
    exact congrArg Except.ok (decodeAcSymbol_append (s := 0#4) (.inr hwf))
  | stuffFf00 => rfl
  | rstN n => exact congrArg Except.ok (decodeAfterFf_rstN n)
  | markerOther y =>
    simp only [Instr.wellFormed, Bool.and_eq_true, bne_iff_ne, Bool.not_eq_true'] at hwf
    obtain ⟨h0, hrst⟩ := hwf
    exact congrArg Except.ok ((if_neg h0).trans (if_neg (Bool.eq_false_iff.1 hrst)))
  | _ => exact decodeCmd_encode hwf rfl

/-- Settles O2: whatever the decoder of a space accepts is well formed, and the code is its encoding. -/
theorem decodeThenEncode : Obligations.DecodeThenEncode := by
  intro code i h
  cases code with
  | cmd w => exact decodeCmd_sound h
  | dcSymbol t => cases h; exact decodeDcSymbol_sound t
  | acSymbol t => cases h; exact decodeAcSymbol_sound t
  | pair first second =>
    simp only [decodeCode, decodePair] at h
    split at h
    · next hff => cases h; exact hff ▸ decodeAfterFf_sound second
    · cases h

/-- Settles O3: each word is the encoding of the instruction named, so O1 decodes it. -/
theorem decodedWords : Obligations.DecodedWords :=
  ⟨encodeThenDecode .nop rfl, encodeThenDecode .sreset rfl, encodeThenDecode (.loadQt 2#2) rfl,
    encodeThenDecode (.loadHt .ac 1#2) rfl, encodeThenDecode .start rfl, encodeThenDecode .resync rfl,
    encodeThenDecode (.decBlk 2#2 9#4) rfl, encodeThenDecode (.idct 1#2 11#4) rfl, encodeThenDecode .color rfl,
    encodeThenDecode (.dcDiff 15#4) rfl, encodeThenDecode (.dcIllegal 0x13#8) rfl, encodeThenDecode .acEob rfl,
    encodeThenDecode .acZrl rfl, encodeThenDecode (.acRunsize 2#4 1#4) rfl, encodeThenDecode (.acUndef 1#4) rfl,
    encodeThenDecode .stuffFf00 rfl, encodeThenDecode (.rstN 7#3) rfl, encodeThenDecode (.markerOther 0xD9#8) rfl⟩

end Sys2Proof
end

section
/-! PROOFS. A write to CMD: the malformed words (O4) and the commands the current STATE does not accept (O5). -/

namespace Sys2Proof.Machine

/-! ## R96 by format -/

/-- The bits start, …, start + len - 1 of a word. -/
def fieldMask (start len : Nat) : Word := (BitVec.allOnes len).setWidth 32 <<< start

/-- A field is 0 where the word has no bit under its mask. -/
theorem and_fieldMask_eq_zero (w : Word) (start len : Nat) :
    w &&& fieldMask start len = 0#32 ↔ w.extractLsb' start len = 0#len := by
  constructor
  · intro h
    apply BitVec.eq_of_getLsbD_eq
    intro j hj
    have hbit := congrArg (·.getLsbD (start + j)) h
    by_cases hw : start + j < 32
    · have : j < 32 := by omega
      simpa [fieldMask, hj, hw, this] using hbit
    · simp [BitVec.getLsbD_of_ge w _ (Nat.not_lt.1 hw)]
  · intro h
    apply BitVec.eq_of_getLsbD_eq
    intro i hi
    by_cases hin : start ≤ i ∧ i - start < len
    · have hbit : w.getLsbD i = false := by
        simpa [hin, Nat.add_sub_cancel' hin.1] using congrArg (·.getLsbD (i - start)) h
      rw [BitVec.getLsbD_and, hbit, Bool.false_and, BitVec.getLsbD_zero]
    · have hmask : (fieldMask start len).getLsbD i = false := by
        simp only [fieldMask, BitVec.getLsbD_shiftLeft, BitVec.getLsbD_setWidth, BitVec.getLsbD_allOnes]
        grind
      rw [BitVec.getLsbD_and, hmask, Bool.and_false, BitVec.getLsbD_zero]

/-- Two fields are 0 where the word has no bit under their masks. -/
theorem and_fieldMasks_eq_zero (w : Word) (start len start' len' : Nat) :
    w &&& (fieldMask start len ||| fieldMask start' len') = 0#32 ↔
      w.extractLsb' start len = 0#len ∧ w.extractLsb' start' len' = 0#len' := by
  rw [BitVec.and_or_distrib_left, BitVec.or_eq_zero_iff, and_fieldMask_eq_zero, and_fieldMask_eq_zero]

section
variable {w : Word}

/-- No opcode of format F0 is of another format. -/
theorem f0Opcodes_facts {opc : BitVec 8} (h : opc ∈ f0Opcodes) :
    opc ∈ mapOpcodes ∧ mustBeZeroMask opc = fieldMask 0 24 ∧ opc ≠ 0x10#8 ∧ ¬isFbOpcode opc := by
  simp only [f0Opcodes, List.mem_cons, List.not_mem_nil, or_false] at h
  unfold isFbOpcode
  rcases h with rfl | rfl | rfl | rfl | rfl | rfl <;> decide

theorem isFbOpcode_facts {opc : BitVec 8} (h : isFbOpcode opc) :
    opc ∈ mapOpcodes ∧ mustBeZeroMask opc = (fieldMask 10 14 ||| fieldMask 4 4) ∧ opc ≠ 0x10#8 := by
  rcases h with rfl | rfl | rfl | rfl <;> decide

/-! ### The cases of R96 for the opcodes of each format -/

theorem malformedWord_f0 (h : w.extractLsb' 24 8 ∈ f0Opcodes) : MalformedWord w ↔ w.extractLsb' 0 24 ≠ 0#24 := by
  obtain ⟨hmap, hmask, hqt, hfb⟩ := f0Opcodes_facts h
  simp only [MalformedWord, hmap, hmask, hqt, hfb, and_fieldMask_eq_zero, ne_eq, not_true_eq_false, false_and,
    false_or, or_false]

theorem malformedWord_loadQt (h : w.extractLsb' 24 8 = 0x10#8) :
    MalformedWord w ↔ ¬(w.extractLsb' 5 19 = 0#19 ∧ w.extractLsb' 2 2 = 0#2) ∨ w.extractLsb' 4 1 = 1#1 := by
  have hmap : 0x10#8 ∈ mapOpcodes := by decide
  have hmask : mustBeZeroMask 0x10#8 = (fieldMask 5 19 ||| fieldMask 2 2) := by decide
  have hfb : ¬isFbOpcode 0x10#8 := by unfold isFbOpcode; decide
  simp only [MalformedWord, h, hmap, hmask, hfb, and_fieldMasks_eq_zero, BitVec.getLsbD_eq_extractLsb', beq_iff_eq,
    ne_eq, not_true_eq_false, true_and, false_and, false_or, or_false]

theorem malformedWord_loadHt (h : w.extractLsb' 24 8 = 0x11#8) :
    MalformedWord w ↔ ¬(w.extractLsb' 5 19 = 0#19 ∧ w.extractLsb' 2 2 = 0#2) := by
  have hmap : 0x11#8 ∈ mapOpcodes := by decide
  have hmask : mustBeZeroMask 0x11#8 = (fieldMask 5 19 ||| fieldMask 2 2) := by decide
  have hqt : 0x11#8 ≠ 0x10#8 := by decide
  have hfb : ¬isFbOpcode 0x11#8 := by unfold isFbOpcode; decide
  simp only [MalformedWord, h, hmap, hmask, hqt, hfb, and_fieldMasks_eq_zero, ne_eq, not_true_eq_false, false_and,
    false_or, or_false]

theorem malformedWord_fb (h : isFbOpcode (w.extractLsb' 24 8)) :
    MalformedWord w ↔ ¬(w.extractLsb' 10 14 = 0#14 ∧ w.extractLsb' 4 4 = 0#4)
      ∨ ¬fbOperandsOk (w.extractLsb' 8 2) (w.extractLsb' 0 4) = true := by
  obtain ⟨hmap, hmask, hqt⟩ := isFbOpcode_facts h
  have hrange : ¬fbOperandsOk (w.extractLsb' 8 2) (w.extractLsb' 0 4) = true ↔
      (w.extractLsb' 8 2).toNat = 3 ∨ 12 ≤ (w.extractLsb' 0 4).toNat := by
    have := (w.extractLsb' 8 2).isLt
    simp only [fbOperandsOk, Bool.and_eq_true, decide_eq_true_eq]
    simp only [Config.maxComponents, Config.slots]
    omega
  simp only [MalformedWord, hmap, hmask, hqt, h, and_fieldMasks_eq_zero, hrange, ne_eq, not_true_eq_false, true_and,
    false_and, false_or]

end

/-- The malformed words are those that decode to no instruction (R96). -/
theorem malformedWord_iff (w : Word) : MalformedWord w ↔ ¬∃ i, decodeCmd w = .ok i := by
  have hform := decodeCmd_byFormat w
  generalize decodeCmd w = r at hform
  cases hform with
  | f0 i hopc =>
    rw [malformedWord_f0 hopc]
    simp only [decodeF0_eq_ok, exists_and_left, exists_eq', and_true, ne_eq]
  | loadQt hopc =>
    rw [malformedWord_loadQt hopc]
    by_cases hcls : w.extractLsb' 4 1 = 1#1 <;> simp [decodeFT_eq_ok, hcls]
  | loadHt hopc =>
    rw [malformedWord_loadHt hopc]
    simp [decodeFT_eq_ok]
  | fb k hopc =>
    rw [malformedWord_fb hopc, ← not_and_or]
    simp only [decodeFB_eq_ok, exists_and_left, exists_eq', and_true]
  | reserved hopc => exact iff_of_true (.inl hopc) (by simp)

/-- Settles O4: the words of R96 are those without a decoding, and a CMD write of such a word only raises CMDERR. -/
theorem malformedWordsRefused : Obligations.MalformedWordsRefused := by
  refine fun w => ⟨malformedWord_iff w, fun hbad s => ?_⟩
  unfold cmdWrite
  split
  · next i hd => exact absurd ⟨i, hd⟩ ((malformedWord_iff w).1 hbad)
  · rfl

/-! ## Acceptance by state (R97) -/

/-- A command with good operands, in a state that does not accept it. -/
theorem issue_not_accepted {ok : Bool} {acc : SeqState} {s : State} (hok : ok = true) (hacc : s.state ≠ acc)
    (run : State → State) : issue ok acc run s = ignored s :=
  (if_pos hok).trans (if_neg hacc)

/-- A well-formed command that the current STATE does not accept sets CMDIGN alone. -/
theorem exec_not_accepted {i : Instr} {s : State} (hc : isCommand i = true) (hwf : i.wellFormed = true)
    (hacc : acceptedIn i s.state = false) : exec i s = .next (ignored s) := by
  cases i with
  | nop | sreset => cases hacc
  | resync | loadQt | loadHt | start | restart | color =>
    exact congrArg Host.Outcome.next (issue_not_accepted rfl (beq_eq_false_iff_ne.1 hacc) _)
  | decDc | decAc | decBlk | idct =>
    exact congrArg Host.Outcome.next (issue_not_accepted hwf (beq_eq_false_iff_ne.1 hacc) _)
  | _ => cases hc

/-- Settles O5: a word that is not malformed decodes to a well-formed command, which `issue` ignores. -/
theorem unacceptedCommandsIgnored : Obligations.UnacceptedCommandsIgnored := by
  intro w s hgood
  obtain ⟨i, hd⟩ := not_not.1 ((malformedWord_iff w).not.1 hgood)
  obtain ⟨hwf, -⟩ := decodeCmd_sound hd
  have hc := isCommand_of_decodeCmd hd
  exact ⟨i, hd, hc, by simp only [cmdWrite, hd], exec_not_accepted hc hwf⟩

end Sys2Proof.Machine
end

section
/-! PROOFS. The tables change in loads only (O23). -/

namespace Sys2Proof.Machine

/-- The tables and their valid bits (R41, R42). -/
def SameTables (s t : State) : Prop := t.qt = s.qt ∧ t.qtv = s.qtv ∧ t.ht = s.ht ∧ t.htv = s.htv

section
variable {s t : State}

theorem sameTables_refl (s : State) : SameTables s s := ⟨rfl, rfl, rfl, rfl⟩

theorem sameTables_of_setupOf (h : setupOf t = setupOf s) : SameTables s t :=
  ⟨qt_of_setup h, qtv_of_setup h, ht_of_setup h, htv_of_setup h⟩

theorem KeepsSetup.sameTables (h : KeepsSetup s t) : SameTables s t :=
  let ⟨e, he⟩ := h
  sameTables_of_setupOf (s := { s with epoch := e }) he

theorem SameTables.trans {u : State} (h : SameTables s t) (h' : SameTables t u) : SameTables s u := by
  obtain ⟨hqt, hqtv, hht, hhtv⟩ := h'
  rw [SameTables, hqt, hqtv, hht, hhtv]
  exact h

/-- A run of the block keeps the tables. -/
theorem SameTables.runBlock (h : SameTables s t) : SameTables s (Machine.runBlock t) :=
  h.trans (sameTables_of_setupOf (s := { t with epoch := t.epoch + 1 }) (setupOf_runBlock t))

/-! ## Writes and commands outside a load and outside IDLE -/

/-- A DATA word outside a load sets CMDIGN alone (R128). -/
theorem dataWrite_outside_load (hq : s.state ≠ .loadq) (hh : s.state ≠ .loadh) (v : Word) :
    dataWrite v s = ignored s := by
  unfold dataWrite
  split
  · next h => exact absurd h hq
  · next h => exact absurd h hh
  · rfl

theorem keepsSetup_outrespWrite (v : Word) (s : State) : KeepsSetup s (outrespWrite v s) := by
  unfold outrespWrite
  split
  · next i _ =>
    split
    · exact .runBlock (setupOf_continueDrive i s)
    split
    · exact .of_setupOf (setupOf_cancelDrive s)
    · exact .of_setupOf (setupOf_cmdError s)
  · exact .of_setupOf (setupOf_cmdIgnored s)

/-! ## The source's answers -/

theorem setupOf_firstByte (x : Byte) (s : State) : setupOf (firstByte x s) = setupOf s := by
  unfold firstByte
  split
  · split
    · rfl
    · exact setupOf_loadByte x s
  · exact setupOf_rawByte _ x _
  · rfl

/-- A byte pair is a stream symbol (R102). -/
theorem isCommand_decodeAfterFf (y : Byte) : isCommand (decodeAfterFf y) = false := by
  obtain ⟨-, henc⟩ := decodeAfterFf_sound y
  simp only [isCommand, henc]

/-- Whatever the source answers, the tables are kept. -/
theorem sourceAnswer_tables (ht : runFetched (sourceAnswer s) = .next t) : SameTables s t := by
  unfold sourceAnswer at ht
  split at ht
  · cases ht; exact sameTables_refl s
  · cases ht; exact sameTables_refl s
  next a rest _ hin =>
  dsimp only at ht
  split at ht
  · cases ht; exact sameTables_of_setupOf (s := { s with input := rest }) (setupOf_takeFault _ _ _ _)
  · cases ht; exact SameTables.runBlock (sameTables_refl s)
  next x =>
  have htaken : SameTables s { s with input := rest, bytecnt := s.bytecnt + 1#32 } := sameTables_refl s
  split at ht
  · exact htaken.trans (KeepsSetup.runSymbol ((exec_symbol (isCommand_decodeAfterFf x) _).symm.trans ht)).sameTables
  · cases ht; exact (htaken.trans (sameTables_of_setupOf (setupOf_firstByte x _))).runBlock

/-- The states in which the tables are constant: neither a load nor IDLE, where a load begins. -/
structure TablesFixed (s : State) : Prop where
  idle : s.state ≠ .idle
  loadq : s.state ≠ .loadq
  loadh : s.state ≠ .loadh

variable (h : TablesFixed s)
include h

/-- Every register write. -/
theorem sameTables_registerWrite (off : Nat) (v : Word) : SameTables s (registerWrite off v s) := by
  have heffect := writeEffect_registerWrite off v s
  generalize registerWrite off v s = u at heffect
  cases heffect with
  | data => rw [dataWrite_outside_load h.loadq h.loadh]; exact sameTables_refl s
  | outresp => exact (keepsSetup_outrespWrite v s).sameTables
  | config f => rw [configWrite_not_idle h.idle]; exact sameTables_refl s
  | interrupts x y => exact sameTables_refl s
  | nothing => exact sameTables_refl s

/-- Every instruction but SRESET; the loads are accepted in IDLE only. -/
theorem sameTables_exec {i : Instr} (hreset : i ≠ .sreset) (ht : exec i s = .next t) : SameTables s t := by
  cases i with
  | loadQt id =>
    cases (exec_not_accepted (i := .loadQt id) rfl rfl (beq_eq_false_iff_ne.2 h.idle)).symm.trans ht
    exact sameTables_refl s
  | loadHt cls id =>
    cases (exec_not_accepted (i := .loadHt cls id) rfl rfl (beq_eq_false_iff_ne.2 h.idle)).symm.trans ht
    exact sameTables_refl s
  | _ => exact (exec_keepsSetup ht hreset nofun nofun).sameTables

/-! ## The agents' steps -/

/-- A write to CMD: the SRESET word, or the tables are kept. -/
theorem cmdWrite_tables {v : Word} (ht : runFetched (cmdWrite v s) = .next t) :
    (v = 0x01000000#32 ∧ AtReset t) ∨ SameTables s t := by
  unfold cmdWrite at ht
  split at ht
  · next i hd =>
    by_cases hreset : i = .sreset
    · subst hreset
      cases ht
      exact .inl ⟨word_of_sreset hd, atReset_resetBlock s⟩
    · exact .inr (sameTables_exec h hreset ht)
  · cases ht
    exact .inr (sameTables_refl s)

omit h in
/-- What a host write can do: answer alone, run a word written to CMD, or write another register. -/
theorem hostWrite_cases (addr width : Nat) (v : Word) (s : State) :
    (∃ r, hostWrite addr width v s = .settled { s with reply := r })
      ∨ ∃ r, (addr = s.tjdBase + 0x004 ∧ width = 4 ∧ hostWrite addr width v s = cmdWrite v { s with reply := r })
        ∨ ∃ off, hostWrite addr width v s = .settled (registerWrite off v { s with reply := r }) := by
  unfold hostWrite
  split
  · exact .inl ⟨_, rfl⟩
  next off hoff =>
  split
  · next hok =>
    obtain ⟨hwidth, -, -⟩ := accessOk_iff.1 hok
    dsimp only
    split
    · next hcmd => exact .inr ⟨_, .inl ⟨hcmd ▸ addr_of_offsetOf hoff, hwidth, rfl⟩⟩
    · exact .inr ⟨_, .inr ⟨off, rfl⟩⟩
  · exact .inl ⟨_, rfl⟩

/-- A host write: the SRESET word to CMD, or the tables are kept. -/
theorem hostWrite_tables (addr width : Nat) (v : Word) (ht : runFetched (hostWrite addr width v s) = .next t) :
    (resetEvent s (.busWrite addr width v) ∧ AtReset t) ∨ SameTables s t := by
  have hreply (r : Option BusReply) : TablesFixed { s with reply := r } := ⟨h.idle, h.loadq, h.loadh⟩
  obtain ⟨r, e⟩ | ⟨r, ⟨haddr, hwidth, e⟩ | ⟨off, e⟩⟩ := hostWrite_cases addr width v s <;> rw [e] at ht
  · cases ht
    exact .inr (sameTables_refl s)
  · refine (cmdWrite_tables (hreply r) ht).imp ?_ id
    rintro ⟨rfl, hreset⟩
    exact ⟨.inr (by rw [haddr, hwidth]), hreset⟩
  · cases ht
    exact .inr (sameTables_registerWrite (hreply r) off v)

/-- An agent's step: a reset, or the tables are kept. -/
theorem agentStep_tables (ev : Event) (ht : runFetched (agentStep ev s) = .next t) :
    (resetEvent s ev ∧ AtReset t) ∨ SameTables s t := by
  cases ev with
  | busRead addr width =>
    cases ht
    rw [hostRead_eq]
    exact .inr (sameTables_refl s)
  | busWrite addr width v => exact hostWrite_tables h addr width v ht
  | source => exact .inr (sourceAnswer_tables ht)
  | hwReset => cases ht; exact .inl ⟨.inl rfl, atReset_resetBlock s⟩

/-- A step: a reset, or the tables are kept. -/
theorem step_tables (ht : step s = .next t) : SameTables s t ∨ (Resets s ∧ AtReset t) := by
  by_cases hr : runnable s = true
  · left
    rcases step_of_runnable hr with e | e <;> cases e.symm.trans ht
    · exact (sameTables_refl s).runBlock
    · exact (sameTables_of_setupOf (setupOf_blockMove s)).runBlock
  · have hrest : runnable s = false := by simpa using hr
    cases ha : s.agenda with
    | nil => cases (step_of_no_agent hrest ha).symm.trans ht; exact .inl (sameTables_refl s)
    | cons ev rest =>
      rw [step_of_agent hrest ha] at ht
      rcases agentStep_tables (s := { s with agenda := rest }) ⟨h.idle, h.loadq, h.loadh⟩ ev ht with
        ⟨hev, hreset⟩ | hkept
      · refine .inr ⟨⟨hrest, rest, ?_⟩, hreset⟩
        rcases hev with rfl | rfl
        · exact .inl ha
        · exact .inr ha
      · exact .inl hkept

end

/-- Settles O23: outside IDLE and the loads a step keeps the tables or is one of the two resets. -/
theorem tablesOnlyInLoads : Obligations.TablesOnlyInLoads := by
  refine ⟨fun s v hq hh => dataWrite_outside_load hq hh v, fun s t hst ht => step_tables ?_ ht⟩
  rcases hst with e | e | e <;> exact ⟨by simp [e], by simp [e], by simp [e]⟩

end Sys2Proof.Machine
end

section
/-! PROOFS. The stream symbols at the points that read them: the DC difference (O30), a byte pair in data (O34), and
the stop where nothing reads a symbol (O36). -/

namespace Sys2Proof.Machine

/-! ## Receive over buffered bits (R147, R148) -/

section
variable {s : State}

/-- The value of a bit string received after `raw`, first bit most significant (R148): `bitsValue` from 0. -/
def receivedValue (raw : Nat) (bs : List Bool) : Nat := bs.foldl (fun v b => 2 * v + b.toNat) raw

/-- The next buffered bit is consumed. -/
def bitTaken (s : State) : State := { s with bcnt := s.bcnt - 1#4 }

theorem bcnt_toNat_ne_zero (h : s.bcnt ≠ 0#4) : s.bcnt.toNat ≠ 0 := fun h0 => h (BitVec.eq_of_toNat_eq h0)

theorem bcnt_ne_zero {n : Nat} (h : n + 1 ≤ s.bcnt.toNat) : s.bcnt ≠ 0#4 := fun h0 => by simp [h0] at h

theorem bitTaken_bcnt (h : s.bcnt ≠ 0#4) : (bitTaken s).bcnt.toNat = s.bcnt.toNat - 1 := by
  unfold bitTaken
  bv_omega

/-- NextBit takes the first of the buffered bits. -/
theorem withBit_buffered (h : s.bcnt ≠ 0#4) (use : Bool → State → State) :
    withBit s use = use (s.cbits.getLsbD (s.bcnt.toNat - 1)) (bitTaken s) := if_neg h

theorem bufferedBits_cons (h : s.bcnt ≠ 0#4) :
    bufferedBits s = s.cbits.getLsbD (s.bcnt.toNat - 1) :: bufferedBits (bitTaken s) := by
  obtain ⟨n, hn⟩ := Nat.exists_eq_add_one_of_ne_zero (bcnt_toNat_ne_zero h)
  rw [bufferedBits, bufferedBits, bitTaken_bcnt h, hn, List.range_succ_eq_map, List.map_cons, List.map_map]
  refine congrArg _ (List.map_congr_left fun j _ => ?_)
  exact congrArg s.cbits.getLsbD (by omega)

/-- A decode goes on from the state before its point, which its end replaces. -/
theorem dcFinish_goto (body : Body) (c b : Nat) (diff : Int) (p : Point) (s : State) :
    dcFinish body c b diff (goto body p s) = dcFinish body c b diff s := by
  cases body <;> rfl

section
variable {body : Body} {c b size : Nat}

/-- Receive takes one of several bits to come from the buffered ones. -/
theorem blockMove_dcBits_buffered {n raw : Nat} (h : s.bcnt ≠ 0#4) :
    blockMove (goto body (.dcBits c b size (n + 1 + 1) raw) s) =
      goto body (.dcBits c b size (n + 1) (2 * raw + (s.cbits.getLsbD (s.bcnt.toNat - 1)).toNat)) (bitTaken s) := by
  rw [blockMove_dcBits (goto_pos _ _ s), withBit_buffered (s := goto _ _ s) h]
  exact if_neg (by omega)

/-- Receive takes its last bit from the buffered ones. -/
theorem blockMove_dcBits_last {raw : Nat} (h : s.bcnt ≠ 0#4) :
    blockMove (goto body (.dcBits c b size 1 raw) s) =
      dcFinish body c b (extend (2 * raw + (s.cbits.getLsbD (s.bcnt.toNat - 1)).toNat) size) (bitTaken s) := by
  rw [blockMove_dcBits (goto_pos _ _ s), withBit_buffered (s := goto _ _ s) h]
  exact (if_pos le_rfl).trans (dcFinish_goto body c b _ _ (bitTaken s))

/-- Receive over buffered bits: the bits still to receive complete the difference, and the decode ends with it. -/
theorem settle_dcBits (n : Nat) : ∀ {s : State} {raw : Nat}, s.pend = none → n + 1 ≤ s.bcnt.toNat →
    settle (n + 1) (goto body (.dcBits c b size (n + 1) raw) s) =
      dcFinish body c b (extend (receivedValue raw ((bufferedBits s).take (n + 1))) size)
        { s with bcnt := s.bcnt - BitVec.ofNat 4 (n + 1) } := by
  induction n with
  | zero =>
    intro s raw hpend hbits
    have hne := bcnt_ne_zero hbits
    rw [settle_succ (runnable_at (goto_pos _ _ s) hpend (by simp)), blockMove_dcBits_last hne, bufferedBits_cons hne]
    rfl
  | succ n ih =>
    intro s raw hpend hbits
    have hne := bcnt_ne_zero hbits
    have hleft : n + 1 ≤ (bitTaken s).bcnt.toNat := by rw [bitTaken_bcnt hne]; omega
    have hcount : s.bcnt - BitVec.ofNat 4 (n + 1 + 1) = (bitTaken s).bcnt - BitVec.ofNat 4 (n + 1) := by
      rw [bitTaken, BitVec.ofNat_add, sub_sub, add_comm]
    rw [settle_succ (runnable_at (goto_pos _ _ s) hpend (by simp)), blockMove_dcBits_buffered hne,
      bufferedBits_cons hne, hcount]
    exact ih (s := bitTaken s) hpend hleft

end

/-! ## The DC symbol of size S -/

/-- DEC_DC ends with the sum in PRED[c] and COEF[b][0] (R151, R152). -/
theorem dcFinish_decDc {c : Nat} {diff : Int} {s : State} {v : Half} (hv : v = s16 ((predRead s c).toInt + diff))
    (b : Nat) : dcFinish .decDc c b diff s =
      completed { s with pred := s.pred.setIfInBounds c v, mem := coefWrite s.mem b 0 v } := by
  subst hv
  rfl

/-- Any other body goes on with DecodeAC; a difference of 0 leaves the predictor's value. -/
theorem dcFinish_startAc {body : Body} (hbody : body ≠ .decDc) (c b : Nat) (s : State) :
    dcFinish body c b 0 s = startAc body c b { s with
      pred := s.pred.setIfInBounds c (predRead s c), mem := coefWrite s.mem b 0 (predRead s c) } := by
  have hv : s16 ((predRead s c).toInt + 0) = predRead s c := by rw [add_zero, s16, BitVec.ofInt_toInt]
  unfold dcFinish
  rw [hv]
  cases body with
  | decDc => exact absurd rfl hbody
  | _ => rfl

/-- The DC symbol of size S at the point that has matched it (R151). -/
theorem exec_dcDiff {body : Body} {c b : Nat} {t : Byte} (hpos : s.pos = some ⟨body, .dcSymbol c b t⟩)
    (size : BitVec 4) : exec (.dcDiff size) s = .next (runBlock
      (if size = 0#4 then dcFinish body c b 0 s else goto body (.dcBits c b size.toNat size.toNat 0) s)) := by
  rw [exec_symbol rfl, symbolEffect, dcDiffEffect_at hpos]
  rfl

/-- In DEC_DC with the S bits buffered the symbol completes the command. -/
theorem exec_dcDiff_buffered {c b : Nat} {t : Byte} {size : BitVec 4}
    (hpos : s.pos = some ⟨.decDc, .dcSymbol c b t⟩) (hpend : s.pend = none) (hbits : size.toNat ≤ s.bcnt.toNat)
    {v : Half}
    (hv : v = s16 ((predRead s c).toInt + extend (bitsValue ((bufferedBits s).take size.toNat)) size.toNat)) :
    exec (.dcDiff size) s = .next (tick (completed { s with
      bcnt := s.bcnt - size, pred := s.pred.setIfInBounds c v, mem := coefWrite s.mem b 0 v })) := by
  rw [exec_dcDiff hpos]
  split
  · next h0 =>
    subst h0
    have hrun := congrArg runBlock (dcFinish_decDc (diff := 0) hv b)
    rw [hrun, BitVec.sub_zero, runBlock_rest rfl]
    rfl
  · next hne =>
    obtain ⟨n, hn⟩ := Nat.exists_eq_add_one_of_ne_zero (fun h0 => hne (BitVec.eq_of_toNat_eq h0) : size.toNat ≠ 0)
    have hsettle := settle_dcBits (body := .decDc) (c := c) (b := b) (size := size.toNat) n (s := tick s) (raw := 0)
      hpend (hn ▸ hbits)
    rw [← hn, BitVec.ofNat_toNat, BitVec.setWidth_eq] at hsettle
    have hrun := hsettle.trans (dcFinish_decDc (s := { tick s with bcnt := s.bcnt - size }) hv b)
    have hfew : size.toNat ≤ moveBound := size.isLt.le.trans (by decide)
    exact congrArg _ ((runBlock_of_settle hfew (congrArg runnable hrun)).trans hrun)

end

/-! ## A byte pair in data -/

/-- The pair of a second byte y runs as that byte's effect in FetchDataByte (R144). -/
theorem exec_pair_data {i : Instr} {y : Byte} {s : State} {p : Pos} (hi : symbolEffect i s = afterFf y s)
    (hc : isCommand i = false) (hpos : s.pos = some p) (hpend : s.pend = some .dataSecond) :
    exec i s = .next (runBlock (if y = 0x00#8 then loadByte 0xFF#8 s
      else loadByte Config.fillByte { s with mp := true, marker := y })) := by
  rw [exec_symbol hc, hi, afterFf_data hpos hpend]
  rfl

/-- Settles O34: the second byte of the pair, 0 for the stuffed byte and never 0 for a marker. -/
theorem pairsInData : Obligations.PairsInData := by
  intro s p hpos hpend
  have hrst : ∀ n : BitVec 3, (0x1A#5 ++ n : Byte) ≠ 0x00#8 := by decide
  refine ⟨?_, fun n => ?_, fun b hb => ?_⟩
  · rw [exec_pair_data (y := 0x00#8) rfl rfl hpos hpend, if_pos rfl]
    rfl
  · rw [exec_pair_data (y := 0x1A#5 ++ n) rfl rfl hpos hpend, if_neg (hrst n)]
    rfl
  · rw [exec_pair_data (y := b) rfl rfl hpos hpend, if_neg hb]
    rfl

/-! ## Where nothing reads a symbol (log 13) -/

section
variable {s : State}

theorem dcSymbolAt_eq_none (h : ∀ body c b t, s.pos ≠ some ⟨body, .dcSymbol c b t⟩) : dcSymbolAt s = none := by
  unfold dcSymbolAt
  split
  · next hpos => exact absurd hpos (h _ _ _ _)
  · rfl

theorem acSymbolAt_eq_none (h : ∀ body c b k t, s.pos ≠ some ⟨body, .acSymbol c b k t⟩) : acSymbolAt s = none := by
  unfold acSymbolAt
  split
  · next hpos => exact absurd hpos (h _ _ _ _ _)
  · rfl

/-- A symbol without an effect stops the model. -/
theorem exec_stray {i : Instr} (hc : isCommand i = false) (he : symbolEffect i s = none) :
    exec i s = .fault .strayStreamSymbol := by
  rw [exec_symbol hc, he]
  rfl

/-- A symbol whose effect needs a place stops the model where there is none. -/
theorem exec_misplaced {α : Type} {i : Instr} {place : Option α} {f : α → State} (hplace : place = none)
    (hc : isCommand i = false) (he : symbolEffect i s = place.map f) : exec i s = .fault .strayStreamSymbol :=
  exec_stray hc (he.trans (congrArg (Option.map f) hplace))

end

/-- Settles O36: a symbol has no effect where the block is at no point of its kind. -/
theorem straySymbolsStop : Obligations.StraySymbolsStop := by
  intro s
  refine ⟨fun hdc => ?_, fun hac => ?_, fun haw => ?_⟩
  · have hat := dcSymbolAt_eq_none hdc
    exact ⟨fun size => exec_misplaced hat rfl rfl, fun t => exec_misplaced hat rfl rfl⟩
  · have hat := acSymbolAt_eq_none hac
    exact ⟨exec_misplaced hat rfl rfl, exec_misplaced hat rfl rfl, fun r size => exec_misplaced hat rfl rfl,
      fun r => exec_misplaced hat rfl rfl⟩
  · exact ⟨exec_stray rfl (afterFf_eq_none haw), fun n => exec_stray rfl (afterFf_eq_none haw),
      fun b => exec_stray rfl (afterFf_eq_none haw)⟩

end Sys2Proof.Machine

/-! The model's own `dcDiffEffect` holds that name in the namespace of the machine. -/

namespace Sys2Proof
open Machine

/-- Settles O30: the symbol of size S by `exec_dcDiff`, its bits already buffered by `exec_dcDiff_buffered`. -/
theorem dcDiffEffect : Obligations.DcDiffEffect := by
  intro s body c b t size hpend hpos
  refine ⟨fun hne => ?_, fun h0 hbody => ?_, fun hbody hbits v hv => ?_⟩
  · rw [exec_dcDiff hpos, if_neg hne]
    rfl
  · rw [exec_dcDiff hpos, if_pos h0, dcFinish_startAc hbody]
    rfl
  · subst hbody
    exact exec_dcDiff_buffered hpos hpend hbits hv

end Sys2Proof
end

section
/-! PROOFS. The canonical code of R125: Build by lengths (O21), and that every code of a built table decodes to its own
symbol (O22). -/

namespace Sys2Proof.Machine

/-! ## The recurrence of R125 -/

section
variable {t u : HuffTable}

theorem firstCode_succ (t : HuffTable) {len : Nat} (h : 1 ≤ len) :
    firstCode t (len + 1) = 2 * (firstCode t len + bitsAt t len) := by
  obtain ⟨n, rfl⟩ := Nat.exists_eq_add_of_le' h
  rfl

theorem firstIndex_succ (t : HuffTable) {len : Nat} (h : 1 ≤ len) :
    firstIndex t (len + 1) = firstIndex t len + bitsAt t len := by
  obtain ⟨n, rfl⟩ := Nat.exists_eq_add_of_le' h
  rfl

theorem bitsAt_congr (h : u.bits = t.bits) : bitsAt u = bitsAt t := by
  funext len
  rw [bitsAt, h, bitsAt]

/-- The recurrence reads the counts alone. -/
theorem firstCode_congr (h : u.bits = t.bits) (len : Nat) : firstCode u len = firstCode t len := by
  induction len with
  | zero => rfl
  | succ n ih =>
    rcases Nat.eq_zero_or_pos n with rfl | hn
    · rfl
    · rw [firstCode_succ u hn, firstCode_succ t hn, ih, bitsAt_congr h]

/-- The symbol index of a length is the number of shorter codes. -/
theorem firstIndex_eq_sum (t : HuffTable) (n : Nat) :
    firstIndex t (n + 1) = ((List.range n).map fun j => bitsAt t (j + 1)).sum := by
  induction n with
  | zero => rfl
  | succ n ih => rw [firstIndex_succ t (Nat.le_add_left 1 n), ih, List.range_succ, List.map_append, List.sum_append,
      List.map_singleton, List.sum_singleton]

/-- The sum of all counts is the symbol index after length 16. -/
theorem firstIndex_seventeen (t : HuffTable) : firstIndex t 17 = bitsSum t := firstIndex_eq_sum t 16

theorem firstIndex_le_bitsSum (t : HuffTable) {len : Nat} (h : len ≤ 17) : firstIndex t len ≤ bitsSum t := by
  have hmono : Monotone (firstIndex t) := by
    refine monotone_nat_of_le_succ fun n => ?_
    rcases Nat.eq_zero_or_pos n with rfl | hn
    · exact le_rfl
    · exact (firstIndex_succ t hn).symm ▸ Nat.le_add_right _ _
  exact firstIndex_seventeen t ▸ hmono h

/-- The codes of a length lie beyond every continuation of a shorter one. -/
theorem firstCode_beyond (t : HuffTable) {len : Nat} (h : 1 ≤ len) (n : Nat) :
    2 ^ (n + 1) * (firstCode t len + bitsAt t len) ≤ firstCode t (len + n + 1) := by
  induction n with
  | zero => exact (firstCode_succ t h).ge
  | succ n ih =>
    rw [firstCode_succ t (by omega : 1 ≤ len + (n + 1)), pow_succ']
    exact (Nat.mul_assoc _ _ _).le.trans (Nat.mul_le_mul_left 2 (ih.trans (Nat.le_add_right _ _)))

end

/-! ## Build, length by length -/

/-- Whether no length from `len` on, `n` of them, over-subscribes its code space (R125). -/
def Fits (t : HuffTable) (len n : Nat) : Prop :=
  ∀ l, len ≤ l → l < len + n → firstCode t l + bitsAt t l ≤ 2 ^ l

theorem fits_succ {t : HuffTable} {len n : Nat} :
    Fits t len (n + 1) ↔ firstCode t len + bitsAt t len ≤ 2 ^ len ∧ Fits t (len + 1) n := by
  refine ⟨fun h => ⟨h len le_rfl (by omega), fun l h1 h2 => h l (by omega) (by omega)⟩, fun ⟨h0, h⟩ l h1 h2 => ?_⟩
  rcases Nat.eq_or_lt_of_le h1 with rfl | hlt
  · exact h0
  · exact h l hlt (by omega)

/-- MAXCODE of a length by R125. -/
def lastCode (code n : Nat) : Int := if 0 < n then ((code + n : Nat) : Int) - 1 else -1

/-- The code bounds of a length are entered in the table (R125). -/
def enterLength (len code p : Nat) (t : HuffTable) : HuffTable :=
  { t with
    mincode := t.mincode.setIfInBounds (len - 1) (BitVec.ofNat 17 code)
    valptr := t.valptr.setIfInBounds (len - 1) (BitVec.ofNat 9 p)
    maxcode := t.maxcode.setIfInBounds (len - 1) (lastCode code (bitsAt t len)) }

/-- Build stops at an over-subscribed length, whose MAXCODE it does not write. -/
theorem buildFrom_cons_over {len code p : Nat} {lens : List Nat} {t : HuffTable} (h : 2 ^ len < code + bitsAt t len) :
    buildFrom (len :: lens) code p t = ({ enterLength len code p t with maxcode := t.maxcode }, false) := if_pos h

theorem buildFrom_cons_fits {len code p : Nat} {lens : List Nat} {t : HuffTable} (h : code + bitsAt t len ≤ 2 ^ len) :
    buildFrom (len :: lens) code p t =
      buildFrom lens (2 * (code + bitsAt t len)) (p + bitsAt t len) (enterLength len code p t) :=
  if_neg (Nat.not_lt.2 h)

/-- Build writes the derived fields alone, whether it succeeds or fails. -/
theorem buildFrom_keeps (lens : List Nat) (code p : Nat) (t : HuffTable) :
    (buildFrom lens code p t).1.bits = t.bits ∧ (buildFrom lens code p t).1.huffval = t.huffval := by
  induction lens generalizing code p t with
  | nil => exact ⟨rfl, rfl⟩
  | cons len lens ih =>
    rcases Nat.lt_or_ge (2 ^ len) (code + bitsAt t len) with h | h
    · rw [buildFrom_cons_over h]
      exact ⟨rfl, rfl⟩
    · rw [buildFrom_cons_fits h]
      exact ih _ _ (enterLength len code p t)

/-- MINCODE, VALPTR and MAXCODE of a length. -/
def boundsAt (t : HuffTable) (len : Nat) : Option (BitVec 17) × Option (BitVec 9) × Option Int :=
  (t.mincode[len - 1]?, t.valptr[len - 1]?, t.maxcode[len - 1]?)

theorem boundsAt_enterLength_same {len : Nat} (h1 : 1 ≤ len) (h16 : len ≤ 16) (code p : Nat) (t : HuffTable) :
    boundsAt (enterLength len code p t) len =
      (some (BitVec.ofNat 17 code), some (BitVec.ofNat 9 p), some (lastCode code (bitsAt t len))) := by
  have : len - 1 < 16 := by omega
  simp [boundsAt, enterLength, this]

theorem boundsAt_enterLength_other {len l : Nat} (h1 : 1 ≤ l) (hlt : l < len) (code p : Nat) (t : HuffTable) :
    boundsAt (enterLength len code p t) l = boundsAt t l := by
  have : len - 1 ≠ l - 1 := by omega
  simp [boundsAt, enterLength, Vector.getElem?_setIfInBounds_ne this]

theorem boundsAt_stopped_other {len l : Nat} (h1 : 1 ≤ l) (hlt : l < len) (code p : Nat) (t : HuffTable) :
    boundsAt { enterLength len code p t with maxcode := t.maxcode } l = boundsAt t l := by
  have : len - 1 ≠ l - 1 := by omega
  simp [boundsAt, enterLength, Vector.getElem?_setIfInBounds_ne this]

/-- Build does not touch the lengths before those it is given. -/
theorem boundsAt_buildFrom_before {l : Nat} (hl : 1 ≤ l) (n : Nat) : ∀ {len : Nat} (code p : Nat) (t : HuffTable),
    l < len → boundsAt (buildFrom (List.range' len n) code p t).1 l = boundsAt t l := by
  induction n with
  | zero => exact fun _ _ _ _ => rfl
  | succ n ih =>
    intro len code p t hlt
    rw [List.range'_succ]
    rcases Nat.lt_or_ge (2 ^ len) (code + bitsAt t len) with h | h
    · rw [buildFrom_cons_over h]
      exact boundsAt_stopped_other hl hlt code p t
    · rw [buildFrom_cons_fits h, ih _ _ _ (by omega), boundsAt_enterLength_other hl hlt]

/-- Build over the lengths from `len` on, from the recurrence's code and index there: it succeeds exactly where they
fit, and then each of them has the recurrence's bounds. -/
theorem buildFrom_spec {t : HuffTable} (n : Nat) : ∀ {len : Nat} (u : HuffTable), u.bits = t.bits → 1 ≤ len →
    len + n ≤ 17 →
    ((buildFrom (List.range' len n) (firstCode t len) (firstIndex t len) u).2 = true ↔ Fits t len n)
    ∧ (Fits t len n → ∀ l, len ≤ l → l < len + n →
      boundsAt (buildFrom (List.range' len n) (firstCode t len) (firstIndex t len) u).1 l =
        (some (BitVec.ofNat 17 (firstCode t l)), some (BitVec.ofNat 9 (firstIndex t l)),
          some (lastCode (firstCode t l) (bitsAt t l)))) := by
  induction n with
  | zero => exact fun _ _ _ _ => ⟨iff_of_true rfl fun l h1 h2 => by omega, fun _ l h1 h2 => by omega⟩
  | succ n ih =>
    intro len u hbits h1 h17
    have hcount : bitsAt u len = bitsAt t len := congrFun (bitsAt_congr hbits) len
    rw [List.range'_succ, fits_succ]
    rcases Nat.lt_or_ge (2 ^ len) (firstCode t len + bitsAt t len) with hover | hfits
    · rw [buildFrom_cons_over (hcount ▸ hover)]
      exact ⟨by simp [hover], fun ⟨h, _⟩ => absurd h (Nat.not_le.2 hover)⟩
    · rw [buildFrom_cons_fits (hcount ▸ hfits), hcount, ← firstCode_succ t h1, ← firstIndex_succ t h1]
      obtain ⟨hok, hbounds⟩ := ih (len := len + 1) (enterLength len (firstCode t len) (firstIndex t len) u) hbits
        (by omega) (by omega)
      refine ⟨by simp [hok, hfits], fun ⟨_, hrest⟩ l hle hlt => ?_⟩
      rcases Nat.eq_or_lt_of_le hle with rfl | hgt
      · rw [boundsAt_buildFrom_before h1 n _ _ _ (Nat.lt_succ_self _),
          boundsAt_enterLength_same h1 (by omega), hcount]
      · exact hbounds hrest l hgt (by omega)

/-! ## Build -/

section
variable {t : HuffTable}

theorem build_succeeds_iff_fits (t : HuffTable) : (build t).2 = true ↔ Fits t 1 16 :=
  (buildFrom_spec 16 t rfl le_rfl (by decide)).1

theorem build_bits (t : HuffTable) : (build t).1.bits = t.bits := (buildFrom_keeps _ _ _ t).1

theorem build_huffval (t : HuffTable) : (build t).1.huffval = t.huffval := (buildFrom_keeps _ _ _ t).2

theorem build_nval (t : HuffTable) : (build t).1.nval = t.nval := buildFrom_nval _ _ _ t

/-- Build succeeds exactly where no length over-subscribes its code space (R125). -/
theorem build_succeeds_iff (t : HuffTable) :
    (build t).2 = true ↔ ∀ len, 1 ≤ len → len ≤ 16 → firstCode t len + bitsAt t len ≤ 2 ^ len :=
  (build_succeeds_iff_fits t).trans ⟨fun h len h1 h16 => h len h1 (by omega), fun h len h1 h17 => h len h1 (by omega)⟩

section
variable (hok : (build t).2 = true) {len : Nat} (h1 : 1 ≤ len) (h16 : len ≤ 16)
include hok h1 h16

theorem boundsAt_build : boundsAt (build t).1 len =
    (some (BitVec.ofNat 17 (firstCode t len)), some (BitVec.ofNat 9 (firstIndex t len)),
      some (lastCode (firstCode t len) (bitsAt t len))) :=
  (buildFrom_spec 16 t rfl le_rfl (by decide)).2 ((build_succeeds_iff_fits t).1 hok) len h1 (by omega)

/-- The codes of a built table fit the 17 bits of MINCODE. -/
theorem build_mincode : ((build t).1.mincode[len - 1]?.getD 0#17).toNat = firstCode t len := by
  have hfits := (build_succeeds_iff t).1 hok len h1 h16
  have hpow : (2 : Nat) ^ len ≤ 2 ^ 16 := Nat.pow_le_pow_right (by decide) h16
  have hsome : (build t).1.mincode[len - 1]? = some (BitVec.ofNat 17 (firstCode t len)) :=
    congrArg Prod.fst (boundsAt_build hok h1 h16)
  rw [hsome, Option.getD_some, BitVec.toNat_ofNat, Nat.mod_eq_of_lt (by omega)]

/-- The symbol indices of a table of at most 256 symbols fit the 9 bits of VALPTR. -/
theorem build_valptr (hsum : bitsSum t ≤ 256) :
    ((build t).1.valptr[len - 1]?.getD 0#9).toNat = firstIndex t len := by
  have hle := firstIndex_le_bitsSum t (len := len) (by omega)
  have hsome : (build t).1.valptr[len - 1]? = some (BitVec.ofNat 9 (firstIndex t len)) :=
    congrArg (·.2.1) (boundsAt_build hok h1 h16)
  rw [hsome, Option.getD_some, BitVec.toNat_ofNat, Nat.mod_eq_of_lt (by omega)]

theorem build_maxcode : (build t).1.maxcode[len - 1]? = some (lastCode (firstCode t len) (bitsAt t len)) :=
  congrArg (·.2.2) (boundsAt_build hok h1 h16)

/-- A built table matches exactly the codes below the end of a length's code space (R126); that a code is not below
MINCODE, HuffDecode does not check. -/
theorem huffMatch_build (hsum : bitsSum t ≤ 256) (code : Nat) : huffMatch (build t).1 len code =
    if 0 < bitsAt t len ∧ code < firstCode t len + bitsAt t len then
      some (t.huffval[firstIndex t len + code - firstCode t len]?.getD 0#8)
    else none := by
  unfold huffMatch
  simp only [build_mincode hok h1 h16, build_valptr hok h1 h16 hsum, build_maxcode hok h1 h16, build_huffval,
    Option.getD_some]
  refine if_congr ?_ rfl rfl
  unfold lastCode
  split <;> omega

end

end

/-- Settles O21: the success condition, the fields kept, and the bounds of every length. -/
theorem buildRecurrence : Obligations.BuildRecurrence := by
  intro t hsum
  refine ⟨build_succeeds_iff t, fun hok => ⟨build_bits t, build_huffval t, build_nval t, fun len h1 h16 => ?_⟩⟩
  exact ⟨build_mincode hok h1 h16, build_valptr hok h1 h16 hsum, by rw [build_maxcode hok h1 h16]; rfl⟩

/-! ## Bit strings of codes -/

theorem codeBits_length (len code : Nat) : (codeBits len code).length = len := by simp [codeBits]

theorem codeBits_succ (len code : Nat) : codeBits (len + 1) code = codeBits len (code / 2) ++ [code.testBit 0] := by
  simp only [codeBits, List.range_succ, List.map_append, List.map_singleton, Nat.add_sub_cancel, Nat.sub_self]
  refine congrArg (· ++ _) (List.map_congr_left fun j hj => ?_)
  have : len - j = len - 1 - j + 1 := by have := List.mem_range.1 hj; omega
  rw [this, Nat.testBit_succ]

/-- The value of a code's bit string. -/
theorem bitsValue_codeBits (len : Nat) : ∀ {code : Nat}, code < 2 ^ len → bitsValue (codeBits len code) = code := by
  induction len with
  | zero => exact fun h => (Nat.lt_one_iff.1 h).symm
  | succ len ih =>
    intro code h
    have hhalf : code / 2 < 2 ^ len := by rw [pow_succ] at h; omega
    have hvalue := ih hhalf
    rw [bitsValue] at hvalue
    rw [bitsValue, codeBits_succ, List.foldl_append, hvalue, List.foldl_cons, List.foldl_nil, Nat.toNat_testBit]
    omega

/-- The first bits of a code. -/
theorem take_codeBits (len n code : Nat) : (codeBits (len + n) code).take len = codeBits len (code / 2 ^ n) := by
  induction n generalizing code with
  | zero => rw [Nat.add_zero, pow_zero, Nat.div_one, List.take_of_length_le (codeBits_length _ _).le]
  | succ n ih =>
    rw [← Nat.add_assoc, codeBits_succ, List.take_append_of_le_length (by rw [codeBits_length]; omega), ih,
      Nat.div_div_eq_div_mul, pow_succ']

/-- HuffDecode gives the symbol of the first length that matches. -/
theorem huffPrefix_of_first_match {t : HuffTable} {bs : List Bool} {n : Nat} {sy : Byte} (hn : n < bs.length)
    (hmatch : huffMatch t (n + 1) (bitsValue (bs.take (n + 1))) = some sy)
    (hshorter : ∀ j, j < n → huffMatch t (j + 1) (bitsValue (bs.take (j + 1))) = none) :
    huffPrefix t bs = some (sy, bs.drop (n + 1)) := by
  obtain ⟨m, hm⟩ := Nat.exists_eq_add_of_lt hn
  have hnone : ((List.range n).findSome? fun j =>
      (huffMatch t (j + 1) (bitsValue (bs.take (j + 1)))).map fun sy => (sy, bs.drop (j + 1))) = none :=
    List.findSome?_eq_none_iff.2 fun j hj => by rw [hshorter j (List.mem_range.1 hj), Option.map_none]
  rw [huffPrefix, hm, Nat.add_assoc, List.range_add, List.findSome?_append, hnone, Option.none_or,
    List.range_succ_eq_map, List.map_cons, List.findSome?_cons, Nat.add_zero, hmatch, Option.map_some]

/-- Settles O22: a code's own length matches it, and no shorter one does, because its first bits lie beyond the codes of
every shorter length. -/
theorem canonicalCodesDecode : Obligations.CanonicalCodesDecode := by
  intro t len i rest hsum hok h1 h16 hi
  have hfits := (build_succeeds_iff t).1 hok len h1 h16
  generalize hcode : firstCode t len + i = code
  have hlt : code < 2 ^ len := by omega
  have hprefix : ∀ l m, l + m = len → bitsValue ((codeBits len code ++ rest).take l) = code / 2 ^ m := by
    rintro l m rfl
    rw [List.take_append_of_le_length (by rw [codeBits_length]; omega), take_codeBits]
    refine bitsValue_codeBits l (Nat.div_lt_of_lt_mul ?_)
    rwa [← pow_add, Nat.add_comm m l]
  have hown : huffMatch (build t).1 (len - 1 + 1) (bitsValue ((codeBits len code ++ rest).take (len - 1 + 1))) =
      some (t.huffval[firstIndex t len + i]?.getD 0#8) := by
    rw [Nat.sub_add_cancel h1, hprefix len 0 rfl, pow_zero, Nat.div_one, huffMatch_build hok h1 h16 hsum,
      if_pos (by omega), show firstIndex t len + code - firstCode t len = firstIndex t len + i by omega]
  have hshorter : ∀ j, j < len - 1 →
      huffMatch (build t).1 (j + 1) (bitsValue ((codeBits len code ++ rest).take (j + 1))) = none := by
    intro j hj
    obtain ⟨m, hm⟩ := Nat.exists_eq_add_of_lt (by omega : j + 1 < len)
    have hbeyond := firstCode_beyond t (Nat.le_add_left 1 j) m
    have hcover : firstCode t (j + 1) + bitsAt t (j + 1) ≤ code / 2 ^ (m + 1) :=
      (Nat.le_div_iff_mul_le (by positivity)).2 (by rw [← hm] at hbeyond; rw [Nat.mul_comm]; omega)
    rw [hprefix (j + 1) (m + 1) (by omega), huffMatch_build hok (by omega) (by omega) hsum, if_neg (by omega)]
  have hlen : len - 1 < (codeBits len code ++ rest).length := by
    rw [List.length_append, codeBits_length]
    omega
  rw [huffPrefix_of_first_match hlen hown hshorter, Nat.sub_add_cancel h1]
  exact congrArg (fun l => some (_, l)) (List.drop_left' (codeBits_length len code))

end Sys2Proof.Machine
end

section
/-! PROOFS. The table loads: how they begin (O17), the DATA words of a LOAD_QT (O18), and the counts and symbols of a
LOAD_HT (O19, O20). -/

namespace Sys2Proof.Machine

/-- Settles O17: the load commands in the state that accepts them. -/
theorem loadsBegin : Obligations.LoadsBegin := by
  intro s hidle
  exact ⟨fun id => congrArg _ (if_pos hidle), fun id => congrArg _ (if_pos hidle), fun id => congrArg _ (if_pos hidle)⟩

/-! ## The count of words -/

section
variable {s : State}

/-- LDCNT counts a word, its 9 bits wide enough for every load. -/
theorem ldcnt_succ (h : s.ldcnt.toNat < 511) : (s.ldcnt + 1#9).toNat = s.ldcnt.toNat + 1 := by bv_omega

theorem ldcnt_succ_eq_iff {n : Nat} (h : s.ldcnt.toNat < 511) (hn : n < 511) :
    s.ldcnt + 1#9 = BitVec.ofNat 9 (n + 1) ↔ s.ldcnt.toNat = n := by
  rw [← BitVec.toNat_inj, ldcnt_succ h, BitVec.toNat_ofNat, Nat.mod_eq_of_lt (by omega)]
  omega

/-! ## LOAD_QT -/

/-- An entry after QT[q][k] has been written. -/
theorem qtEntry_qtWrite {q k : Nat} (hq : q < 4) (hk : k < 64) (v : Half) (s : State) (i j : Nat) :
    qtEntry (qtWrite s q k v) i j = if i = q ∧ j = k then v else qtEntry s i j := by
  unfold qtEntry qtWrite
  by_cases hi : i = q
  · subst hi
    by_cases hj : j = k
    · subst hj
      simp [hq, hk]
    · simp [hq, hj, Vector.getElem?_setIfInBounds_ne (Ne.symm hj)]
  · simp [hi, Vector.getElem?_setIfInBounds_ne (Ne.symm hi)]

theorem registerWrite_loadq (h : s.state = .loadq) (v : Word) : registerWrite 0x008 v s = dataWordQt v s := by
  show dataWrite v s = _
  rw [dataWrite, h]

theorem registerWrite_loadh (h : s.state = .loadh) (v : Word) :
    registerWrite 0x008 v s = if s.ldcnt.toNat < 16 then dataWordBits v s else dataWordSymbol v s := by
  show dataWrite v s = _
  rw [dataWrite, h]

end

/-- Settles O18: the entry written is that of `qtWrite`, and the count tells the last word from the others. -/
theorem quantWords : Obligations.QuantWords := by
  intro s v hst hcnt
  refine ⟨(qtWrite s s.ldid.toNat s.ldcnt.toNat (v.extractLsb' 0 16)).qt, fun i k _ _ => ?_, fun hlt => ?_,
    fun hlast => ?_⟩
  · exact qtEntry_qtWrite s.ldid.isLt hcnt _ s i k
  · have hne : s.ldcnt + 1#9 ≠ 64#9 := (ldcnt_succ_eq_iff (by omega) (by decide)).not.2 hlt.ne
    rw [registerWrite_loadq hst]
    exact if_neg hne
  · have heq : s.ldcnt + 1#9 = 64#9 := (ldcnt_succ_eq_iff (by omega) (by decide)).2 hlast
    rw [registerWrite_loadq hst, ← heq]
    exact if_pos heq

/-! ## LOAD_HT -/

section
variable {s : State}

theorem loadIndex_lt (s : State) : loadIndex s < 8 := by
  have := s.ldid.isLt
  unfold loadIndex htIndex
  cases s.ldcls <;> simp only <;> omega

/-- The table being loaded, after it has been replaced and the count has gone on. -/
theorem loadTable_set (T : HuffTable) (n : BitVec 9) (s : State) :
    loadTable { loadTableSet T s with ldcnt := n } = T := by
  have := loadIndex_lt s
  unfold loadIndex at this
  simp [loadTable, huffTable, loadTableSet, loadIndex, this]

/-- Of two replacements of the table being loaded the second stays. -/
theorem loadTableSet_set (T U : HuffTable) (n : BitVec 9) (s : State) :
    loadTableSet U { loadTableSet T s with ldcnt := n } = { loadTableSet U s with ldcnt := n } := by
  simp [loadTableSet, loadIndex]

/-- The checks and the construction at the 16th count (R123), once the table's counts are all in. -/
theorem finishBits_set (T : HuffTable) (n : BitVec 9) (s : State) :
    finishBits { loadTableSet T s with ldcnt := n } =
      if 256 < bitsSum T then
        inError 1#4 0x10#8 0#8 { loadTableSet { T with nval := bitsSum T } s with ldcnt := n }
      else if (build { T with nval := bitsSum T }).2 then
        if bitsSum T = 0 then
          completed { loadTableSet (build { T with nval := bitsSum T }).1 s with
            ldcnt := n, htv := s.htv.setIfInBounds (loadIndex s) true }
        else { loadTableSet (build { T with nval := bitsSum T }).1 s with ldcnt := n }
      else inError 1#4 0x11#8 0#8 { loadTableSet (build { T with nval := bitsSum T }).1 s with ldcnt := n } := by
  unfold finishBits
  simp only [loadTable_set, loadTableSet_set]
  rfl

end

/-- Settles O19: before the 16th count the table alone; at the 16th the cases of `finishBits_set`, and Build's success
by `build_succeeds_iff`. -/
theorem countWords : Obligations.CountWords := by
  intro s v T hst hcnt hT
  have hword : registerWrite 0x008 v s = if s.ldcnt + 1#9 = 16#9
      then finishBits { loadTableSet T s with ldcnt := s.ldcnt + 1#9 }
      else { loadTableSet T s with ldcnt := s.ldcnt + 1#9 } := by
    rw [registerWrite_loadh hst, if_pos hcnt, hT]
    rfl
  have hlast : s.ldcnt.toNat = 15 → registerWrite 0x008 v s = finishBits { loadTableSet T s with ldcnt := 16#9 } := by
    intro h15
    have heq : s.ldcnt + 1#9 = 16#9 := (ldcnt_succ_eq_iff (by omega) (by decide)).2 h15
    rw [hword, if_pos heq, heq]
  have hbuild : (build { T with nval := bitsSum T }).2 = true ↔
      ∀ len, 1 ≤ len → len ≤ 16 → firstCode T len + bitsAt T len ≤ 2 ^ len := by
    have hcode := firstCode_congr (t := T) (u := { T with nval := bitsSum T }) rfl
    have hcount := bitsAt_congr (t := T) (u := { T with nval := bitsSum T }) rfl
    simp only [build_succeeds_iff, hcode, hcount]
  refine ⟨fun hlt => ?_, fun h15 hmany => ?_, fun h15 hsum hover => ?_, fun h15 hsum hfits => ?_⟩
  · rw [hword, if_neg ((ldcnt_succ_eq_iff (by omega) (by decide)).not.2 hlt.ne)]
  · rw [hlast h15, finishBits_set, if_pos hmany]
  · obtain ⟨len, h1, h16, hlen⟩ := hover
    have hfail : ¬(build { T with nval := bitsSum T }).2 = true := fun h => Nat.not_lt.2 (hbuild.1 h len h1 h16) hlen
    exact ⟨_, by rw [hlast h15, finishBits_set, if_neg (Nat.not_lt.2 hsum), if_neg hfail]⟩
  · rw [hlast h15, finishBits_set, if_neg (Nat.not_lt.2 hsum), if_pos (hbuild.2 hfits)]
    split
    · next h0 => rw [h0]
    · rfl

/-- Settles O20: the symbol is stored, and the count tells the last word from the others. -/
theorem symbolWords : Obligations.SymbolWords := by
  intro s v T hst h16 hcnt hnval hT
  have hword : registerWrite 0x008 v s = if (s.ldcnt + 1#9).toNat = 16 + (loadTable s).nval
      then completeLoadHt { loadTableSet T s with ldcnt := s.ldcnt + 1#9 }
      else { loadTableSet T s with ldcnt := s.ldcnt + 1#9 } := by
    rw [registerWrite_loadh hst, if_neg (Nat.not_lt.2 h16), hT]
    rfl
  rw [hword, ldcnt_succ (by omega)]
  rfl

end Sys2Proof.Machine
end

section
/-! PROOFS. The decode commands on the cursor's bits: HuffDecode over buffered bits, DEC_DC (O26), DEC_AC (O27), and all
three on an empty cursor (O29). -/

namespace Sys2Proof.Machine

/-! ## HuffDecode bit by bit (40_tables R126) -/

/-- HuffDecode over a bit string with `len` bits of value `code` read before it: the symbol and the bits left. -/
def huffScan (t : HuffTable) : Nat → Nat → List Bool → Option (Byte × List Bool)
  | _, _, [] => none
  | len, code, bit :: bs =>
    match huffMatch t (len + 1) (2 * code + bit.toNat) with
    | some sy => some (sy, bs)
    | none => huffScan t (len + 1) (2 * code + bit.toNat) bs

section
variable {t : HuffTable} {len code : Nat} {bit : Bool}

theorem huffScan_match {sy : Byte} (h : huffMatch t (len + 1) (2 * code + bit.toNat) = some sy) (bs : List Bool) :
    huffScan t len code (bit :: bs) = some (sy, bs) := by
  rw [huffScan, h]

theorem huffScan_more (h : huffMatch t (len + 1) (2 * code + bit.toNat) = none) (bs : List Bool) :
    huffScan t len code (bit :: bs) = huffScan t (len + 1) (2 * code + bit.toNat) bs := by
  rw [huffScan, h]

/-- Reading bit by bit finds the first length whose bits match. -/
theorem huffScan_eq_findSome? (t : HuffTable) (bs : List Bool) : ∀ len code, huffScan t len code bs =
    (List.range bs.length).findSome? fun j =>
      (huffMatch t (len + j + 1) (receivedValue code (bs.take (j + 1)))).map fun sy => (sy, bs.drop (j + 1)) := by
  induction bs with
  | nil => exact fun _ _ => rfl
  | cons bit bs ih =>
    intro len code
    have hfirst : receivedValue code ((bit :: bs).take (0 + 1)) = 2 * code + bit.toNat := rfl
    rw [List.length_cons, List.range_succ_eq_map, List.findSome?_cons, List.findSome?_map, hfirst, Nat.add_zero]
    cases h : huffMatch t (len + 1) (2 * code + bit.toNat) with
    | some sy => exact huffScan_match h bs
    | none =>
      rw [huffScan_more h, ih]
      refine congrArg (List.findSome? · _) (funext fun j => ?_)
      rw [Nat.add_assoc len 1 j, Nat.add_comm 1 j]
      rfl

theorem huffScan_eq_huffPrefix (t : HuffTable) (bs : List Bool) : huffScan t 0 0 bs = huffPrefix t bs := by
  rw [huffScan_eq_findSome?, huffPrefix]
  simp only [Nat.zero_add]
  rfl

theorem huffScan_length {bs left : List Bool} {sy : Byte} : ∀ {len code}, huffScan t len code bs = some (sy, left) →
    left.length < bs.length := by
  induction bs with
  | nil => exact fun h => nomatch h
  | cons bit bs ih =>
    intro len code h
    cases hm : huffMatch t (len + 1) (2 * code + bit.toNat) with
    | some u =>
      rw [huffScan_match hm, Option.some.injEq, Prod.mk.injEq] at h
      rw [← h.2]
      exact Nat.lt_succ_self _
    | none =>
      rw [huffScan_more hm] at h
      exact (ih h).trans (Nat.lt_succ_self _)

/-! ## One bit of a code -/

section
variable {matched : Byte → State → State} {more : Nat → Nat → State → State}

theorem huffBit_match {sy : Byte} (h : huffMatch t (len + 1) (2 * code + bit.toNat) = some sy) (s : State) :
    huffBit t len code bit matched more s = matched sy s := by
  rw [huffBit, h]

theorem huffBit_more (h : huffMatch t (len + 1) (2 * code + bit.toNat) = none) (hlen : len + 1 < 16) (s : State) :
    huffBit t len code bit matched more s = more (len + 1) (2 * code + bit.toNat) s := by
  rw [huffBit, h]
  exact if_neg (Nat.not_le.2 hlen)

/-- The 16th bit without a match is HUFFMAN_DECODE_ERROR (R126). -/
theorem huffBit_fails (h : huffMatch t (len + 1) (2 * code + bit.toNat) = none) (hlen : 16 ≤ len + 1) (s : State) :
    huffBit t len code bit matched more s = inError 3#4 0x30#8 0#8 s := by
  rw [huffBit, h]
  exact (if_pos hlen).trans (takeFault_eq_inError (by decide) _ _)

end

end

/-- What the points of a DC code and of an AC code have in common: `point len code` is HuffDecode with `len` bits read,
`symbol t` the point that has matched t, and `table` gives the table in use. -/
structure ReadsCode (table : State → HuffTable) (body : Body) (point : Nat → Nat → Point) (symbol : Byte → Point) :
    Prop where
  move : ∀ s len code, blockMove (goto body (point len code) s) = withBit (goto body (point len code) s) fun bit t =>
    huffBit (table t) len code bit (fun sy => goto body (symbol sy)) (fun len' code' => goto body (point len' code')) t
  table_eq : ∀ s t, setupOf t = setupOf s → table t = table s
  ne_emit : ∀ len code, point len code ≠ .emit

theorem huffTable_of_setup {s t : State} (h : setupOf t = setupOf s) (cls : Cls) (id : Nat) :
    huffTable t cls id = huffTable s cls id := by
  rw [huffTable, ht_of_setup h, huffTable]

theorem readsCode_dc (body : Body) (c b : Nat) :
    ReadsCode (dcTable · c) body (.dcCode c b) (.dcSymbol c b) where
  move s _ _ := blockMove_dcCode (goto_pos _ _ s)
  table_eq s t h := by rw [dcTable, dcTable, dcSel, dcSel, cfg1_of_setup h, huffTable_of_setup h]
  ne_emit _ _ h := nomatch h

theorem readsCode_ac (body : Body) (c b k : Nat) :
    ReadsCode (acTable · c) body (.acCode c b k) (.acSymbol c b k) where
  move s _ _ := blockMove_acCode (goto_pos _ _ s)
  table_eq s t h := by rw [acTable, acTable, acSel, acSel, cfg1_of_setup h, huffTable_of_setup h]
  ne_emit _ _ h := nomatch h

/-- The cursor with `n` bits left. -/
def withLeft (n : Nat) (s : State) : State := { s with bcnt := BitVec.ofNat 4 n }

theorem bufferedBits_length (s : State) : (bufferedBits s).length = s.bcnt.toNat := by
  simp [bufferedBits]

theorem withLeft_bufferedBits (s : State) : withLeft (bufferedBits s).length s = s := by
  rw [bufferedBits_length, withLeft, BitVec.ofNat_toNat, BitVec.setWidth_eq]

section
variable {table : State → HuffTable} {body : Body} {point : Nat → Nat → Point} {symbol : Byte → Point}
  (hr : ReadsCode table body point symbol)
include hr

namespace ReadsCode

theorem table_bitTaken (s : State) (p : Point) : table (bitTaken (goto body p s)) = table s := hr.table_eq _ _ rfl

theorem runnable {s : State} (hpend : s.pend = none) (len code : Nat) :
    Machine.runnable (goto body (point len code) s) = true :=
  runnable_at (goto_pos _ _ s) hpend (hr.ne_emit len code)

/-- A bit of the cursor enters the code. -/
theorem blockMove_buffered {s : State} (h : s.bcnt ≠ 0#4) (len code : Nat) :
    blockMove (goto body (point len code) s) =
      huffBit (table s) len code (s.cbits.getLsbD (s.bcnt.toNat - 1)) (fun sy => goto body (symbol sy))
        (fun len' code' => goto body (point len' code')) (bitTaken (goto body (point len code) s)) := by
  rw [hr.move, withBit_buffered (s := goto _ _ s) h, hr.table_bitTaken]
  rfl

/-- HuffDecode over buffered bits: one move a bit, up to the symbol. -/
theorem settle_huffScan (bs : List Bool) : ∀ {s : State} {len code : Nat} {sy : Byte} {left : List Bool},
    s.pend = none → bufferedBits s = bs → len + bs.length < 16 → huffScan (table s) len code bs = some (sy, left) →
    settle (bs.length - left.length) (goto body (point len code) s) = goto body (symbol sy) (withLeft left.length s)
      ∧ bufferedBits (withLeft left.length s) = left := by
  induction bs with
  | nil => exact fun _ _ _ h => nomatch h
  | cons bit bs ih =>
    intro s len code sy left hpend hbits hlen hscan
    have hne : s.bcnt ≠ 0#4 := by
      refine bcnt_ne_zero (n := bs.length) ?_
      rw [← bufferedBits_length, hbits, List.length_cons]
    rw [bufferedBits_cons hne, List.cons.injEq] at hbits
    obtain ⟨hbit, hrest⟩ := hbits
    have hmove := hr.blockMove_buffered hne len code
    rw [hbit] at hmove
    rw [List.length_cons] at hlen ⊢
    cases hm : huffMatch (table s) (len + 1) (2 * code + bit.toNat) with
    | some u =>
      rw [huffScan_match hm, Option.some.injEq, Prod.mk.injEq] at hscan
      obtain ⟨rfl, rfl⟩ := hscan
      have hcursor : withLeft bs.length s = bitTaken s := by rw [← hrest]; exact withLeft_bufferedBits (bitTaken s)
      rw [Nat.add_sub_cancel_left, settle_succ (hr.runnable hpend _ _), hmove, huffBit_match hm, hcursor]
      exact ⟨rfl, hrest⟩
    | none =>
      rw [huffScan_more hm] at hscan
      have hshort := huffScan_length hscan
      rw [Nat.sub_add_comm hshort.le, settle_succ (hr.runnable hpend _ _), hmove, huffBit_more hm (by omega)]
      exact ih (s := bitTaken s) hpend hrest (by omega) (hr.table_eq s (bitTaken s) rfl ▸ hscan)

/-- HuffDecode from its first bit, with the whole code buffered. -/
theorem settle_huffPrefix {s : State} {sy : Byte} {left : List Bool} (hpend : s.pend = none)
    (h : huffPrefix (table s) (bufferedBits s) = some (sy, left)) :
    settle (s.bcnt.toNat - left.length) (goto body (point 0 0) s) = goto body (symbol sy) (withLeft left.length s)
      ∧ bufferedBits (withLeft left.length s) = left := by
  have hlen : 0 + (bufferedBits s).length < 16 := by
    have := s.bcnt.isLt
    rw [bufferedBits_length]
    omega
  rw [← bufferedBits_length]
  exact hr.settle_huffScan _ hpend rfl hlen ((huffScan_eq_huffPrefix _ _).trans h)

/-! ## HuffDecode on an empty cursor -/

/-- With neither marker pending nor end of stream the first bit suspends the block (R144, R147). -/
theorem runBlock_empty {s : State} (hpend : s.pend = none) (h0 : s.bcnt = 0#4) (hmp : s.mp = false)
    (heos : s.eos = false) (len code : Nat) :
    runBlock (goto body (point len code) s) = tick (waiting .dataFirst (atPoint body (point len code) s)) := by
  refine runBlock_of_move (hr.runnable hpend _ _) ?_ (not_runnable_of_pend (Option.some_ne_none Pend.dataFirst))
  refine (hr.move (tick s) len code).trans ((if_pos h0).trans (if_neg ?_))
  simp [tick, hmp, heos]

end ReadsCode

end

/-- The cursor on fill bits with `n` of them still to be read, a byte of them at a time. -/
def OnFill (n : Nat) (s : State) : Prop :=
  s.bcnt = BitVec.ofNat 4 (n % 8) ∧ (s.bcnt ≠ 0#4 → s.cbits = Config.fillByte) ∧ (s.mp || s.eos) = true

/-- A fill bit has been read and `n` more are to be read. -/
def fillTaken (n : Nat) (s : State) : State := { s with cbits := Config.fillByte, bcnt := BitVec.ofNat 4 (n % 8) }

theorem OnFill.taken {n : Nat} {s : State} (h : OnFill (n + 1) s) : OnFill n (fillTaken n s) :=
  ⟨rfl, fun _ => rfl, h.2.2⟩

/-- On fill bits NextBit gives 1 (R142, R147). -/
theorem withBit_onFill {n : Nat} {s : State} (h : OnFill (n + 1) s) (use : Bool → State → State) :
    withBit s use = use true (fillTaken n s) := by
  obtain ⟨hcnt, hbits, hfill⟩ := h
  have hsmall : (n + 1) % 8 < 8 := Nat.mod_lt _ (by decide)
  have hnat : s.bcnt.toNat = (n + 1) % 8 := by rw [hcnt, BitVec.toNat_ofNat]; omega
  by_cases h0 : s.bcnt = 0#4
  · have hseven : n % 8 = 7 := by rw [h0] at hnat; simp at hnat; omega
    rw [withBit, if_pos h0, if_pos hfill, fillTaken, hseven]
    rfl
  · have hpos := bcnt_toNat_ne_zero h0
    have hbit : ∀ i < 8, Config.fillByte.getLsbD i = true := by decide
    have hleft : s.bcnt - 1#4 = BitVec.ofNat 4 (n % 8) :=
      BitVec.eq_of_toNat_eq ((bitTaken_bcnt h0).trans (by rw [hnat, BitVec.toNat_ofNat]; omega))
    rw [withBit, if_neg h0, hbits h0, hbit _ (by omega), fillTaken, hleft, ← hbits h0]

/-- A 1-bit after a code of 1-bits. -/
theorem doubled_ones (len : Nat) : 2 * (2 ^ len - 1) + true.toNat = 2 ^ (len + 1) - 1 := by
  have := Nat.one_le_two_pow (n := len)
  rw [pow_succ, Bool.toNat_true]
  omega

section
variable {table : State → HuffTable} {body : Body} {point : Nat → Nat → Point} {symbol : Byte → Point}

/-- A fill bit enters the code. -/
theorem ReadsCode.blockMove_onFill (hr : ReadsCode table body point symbol) {n : Nat} {s : State}
    (h : OnFill (n + 1) s) (len code : Nat) : blockMove (goto body (point len code) s) =
      huffBit (table s) len code true (fun sy => goto body (symbol sy))
        (fun len' code' => goto body (point len' code')) (fillTaken n (goto body (point len code) s)) := by
  rw [hr.move, withBit_onFill (s := goto _ _ s) h, hr.table_eq s (fillTaken n (goto _ _ s)) rfl]

/-- On fill bits a table without a code of 1-bits alone fails at the 16th bit (R126, R146). -/
theorem ReadsCode.settle_onFill (hr : ReadsCode table body point symbol) (n : Nat) : ∀ {s : State} {len : Nat},
    s.pend = none → OnFill (n + 1) s → len + n + 1 = 16 →
    (∀ l, len < l → l ≤ 16 → huffMatch (table s) l (2 ^ l - 1) = none) →
    settle (n + 1) (goto body (point len (2 ^ len - 1)) s) = inError 3#4 0x30#8 0#8 (fillTaken 0 s) := by
  induction n with
  | zero =>
    intro s len hpend hfill hlen hnone
    have hno : huffMatch (table s) (len + 1) (2 * (2 ^ len - 1) + true.toNat) = none :=
      doubled_ones len ▸ hnone (len + 1) (by omega) (by omega)
    rw [settle_succ (hr.runnable hpend _ _), hr.blockMove_onFill hfill, huffBit_fails hno (by omega)]
    rfl
  | succ n ih =>
    intro s len hpend hfill hlen hnone
    have hno : huffMatch (table s) (len + 1) (2 * (2 ^ len - 1) + true.toNat) = none :=
      doubled_ones len ▸ hnone (len + 1) (by omega) (by omega)
    rw [settle_succ (hr.runnable hpend _ _), hr.blockMove_onFill hfill, huffBit_more hno (by omega),
      doubled_ones]
    exact ih (s := fillTaken (n + 1) s) hpend (hfill.taken) (by omega)
      fun l h1 h16 => hr.table_eq s (fillTaken (n + 1) s) rfl ▸ hnone l (by omega) h16

end

/-! ## A decode command that is accepted -/

/-- A run is its first k moves where they bring the block to rest. -/
theorem runBlock_of_moves {k : Nat} {s t : State} (hk : k ≤ moveBound) (h : settle k (tick s) = t)
    (hrest : runnable t = false) : runBlock s = t :=
  (runBlock_of_settle hk ((congrArg runnable h).trans hrest)).trans h

section
variable {s : State} {c : BitVec 2} {b : BitVec 4}

theorem ncomp_le (s : State) : ncomp s ≤ 3 := Nat.le_of_lt_succ (s.cfg0.extractLsb' 0 2).isLt

/-- In IDLE, with a legal configuration and operands, the body runs in STEP (R224). -/
theorem decodeCommand_accepted (hidle : s.state = .idle) (hcfg : cfgCheck s = none) (hc : c.toNat < ncomp s)
    (hb : b.toNat < 12) (body : Body) (begin' : Body → Nat → Nat → State → State) :
    decodeCommand body begin' c b s = runBlock (begin' body c.toNat b.toNat { s with state := .step }) := by
  have hok : fbOperandsOk c b = true :=
    Bool.and_eq_true_iff.2 ⟨decide_eq_true (hc.trans_le (ncomp_le s)), decide_eq_true hb⟩
  have hconf : compUnconfigured c s = false := decide_eq_false (Nat.not_le.2 hc)
  simp [decodeCommand, issue, stepCommand, hok, hidle, hcfg, hconf]

end

/-- Settles O29: the first PortRead by `runBlock_empty` at the first point of each body, the fault after the 16 fill
bits by `settle_onFill`. -/
theorem decodesOnEmptyCursor : Obligations.DecodesOnEmptyCursor := by
  intro s c b hidle hpend hcfg hc hb h0
  have haccept := decodeCommand_accepted hidle hcfg hc hb
  refine ⟨fun hmp heos => ⟨?_, ?_, ?_⟩, fun hfill hnone => ?_⟩
  · exact congrArg _ ((haccept .decDc startDc).trans
      ((readsCode_dc .decDc _ _).runBlock_empty (s := { s with state := .step }) hpend h0 hmp heos 0 0))
  · exact congrArg _ ((haccept .decBlk startDc).trans
      ((readsCode_dc .decBlk _ _).runBlock_empty (s := { s with state := .step }) hpend h0 hmp heos 0 0))
  · exact congrArg _ ((haccept .decAc startAc).trans
      ((readsCode_ac .decAc _ _ 1).runBlock_empty
        (s := { s with state := .step, mem := coefClear s.mem b.toNat 1 63 }) hpend h0 hmp heos 0 0))
  · have hon : OnFill 16 s := ⟨h0, fun h => absurd h0 h, by simpa using hfill⟩
    have hsettle := (readsCode_dc .decDc c.toNat b.toNat).settle_onFill 15 (s := tick { s with state := .step })
      (len := 0) hpend hon rfl hnone
    have hrun := runBlock_of_moves (s := startDc .decDc c.toNat b.toNat { s with state := .step }) (by decide)
      hsettle rfl
    have hcursor : fillTaken 0 s = { s with cbits := 0xFF#8 } := by rw [fillTaken, ← h0]; rfl
    exact congrArg _ ((haccept .decDc startDc).trans (hrun.trans (congrArg (tick ∘ inError 3#4 0x30#8 0#8) hcursor)))

/-! ## The DC difference on buffered bits -/

/-- Consuming bits of the cursor drops them from the front. -/
theorem bufferedBits_withLeft {s : State} {n : Nat} (h : n ≤ s.bcnt.toNat) :
    bufferedBits (withLeft (s.bcnt.toNat - n) s) = (bufferedBits s).drop n := by
  have hcnt : (withLeft (s.bcnt.toNat - n) s).bcnt.toNat = s.bcnt.toNat - n := by
    have := s.bcnt.isLt
    rw [withLeft, BitVec.toNat_ofNat]
    omega
  refine List.ext_getElem (by simp [bufferedBits_length, hcnt]) fun i h1 h2 => ?_
  simp only [bufferedBits, hcnt, List.getElem_drop, List.getElem_map, List.getElem_range]
  exact congrArg s.cbits.getLsbD (by omega)

theorem sub_bcnt_eq_withLeft {s : State} {n : Nat} (h : n ≤ s.bcnt.toNat) :
    { s with bcnt := s.bcnt - BitVec.ofNat 4 n } = withLeft (s.bcnt.toNat - n) s := by
  have hcnt : s.bcnt - BitVec.ofNat 4 n = BitVec.ofNat 4 (s.bcnt.toNat - n) := by
    have := s.bcnt.isLt
    apply BitVec.eq_of_toNat_eq
    simp only [BitVec.toNat_sub, BitVec.toNat_ofNat]
    omega
  rw [withLeft, hcnt]

section
variable {body : Body} {c b : Nat} {s : State}

/-- A DC symbol of a legal size is that size (R104, R151). -/
theorem decodeDcSymbol_size {t : Byte} (h : t.toNat ≤ 15) : decodeDcSymbol t = .dcDiff (BitVec.ofNat 4 t.toNat) := by
  have hlow : t.extractLsb' 0 4 = BitVec.ofNat 4 t.toNat := by
    apply BitVec.eq_of_toNat_eq
    rw [BitVec.extractLsb'_toNat, Nat.shiftRight_zero, BitVec.toNat_ofNat]
  rw [decodeDcSymbol, if_pos ((highNibble_eq_zero_iff t).2 (by omega)), hlow]

/-- A DC symbol with its additional bits buffered ends DecodeDC with the difference they give (R151). -/
theorem settle_dcSymbol {t : Byte} (hpend : s.pend = none) (ht : t.toNat ≤ 15) (hbits : t.toNat ≤ s.bcnt.toNat) :
    settle (t.toNat + 1) (goto body (.dcSymbol c b t) s) =
      dcFinish body c b (extend (bitsValue ((bufferedBits s).take t.toNat)) t.toNat)
        (withLeft (s.bcnt.toNat - t.toNat) s) := by
  have hmove : blockMove (goto body (.dcSymbol c b t) s) =
      if BitVec.ofNat 4 t.toNat = 0#4 then dcFinish body c b 0 s
      else goto body (.dcBits c b (BitVec.ofNat 4 t.toNat).toNat (BitVec.ofNat 4 t.toNat).toNat 0) s := by
    rw [blockMove_dcSymbol (goto_pos _ _ s), decodeDcSymbol_size ht, symbolEffect,
      dcDiffEffect_at (goto_pos _ _ s), dcFinish_goto]
    rfl
  have hsize : (BitVec.ofNat 4 t.toNat).toNat = t.toNat := by rw [BitVec.toNat_ofNat]; omega
  rw [settle_succ (runnable_at (goto_pos _ _ s) hpend (by simp)), hmove, ← sub_bcnt_eq_withLeft hbits, hsize]
  split
  · next h0 =>
    have hz : t.toNat = 0 := hsize.symm.trans (congrArg BitVec.toNat h0)
    rw [hz, BitVec.sub_zero]
    rfl
  · next hne =>
    obtain ⟨n, hn⟩ := Nat.exists_eq_add_one_of_ne_zero (fun h0 => hne (congrArg _ h0) : t.toNat ≠ 0)
    rw [hn]
    exact settle_dcBits n hpend (hn ▸ hbits)

/-- DecodeDC on buffered bits: the moves for the code, the symbol and its additional bits. -/
theorem settle_decodeDc {sy : Byte} {left : List Bool} (hpend : s.pend = none)
    (hcode : huffPrefix (dcTable s c) (bufferedBits s) = some (sy, left)) (hsize : sy.toNat ≤ 15)
    (hbits : sy.toNat ≤ left.length) :
    settle (s.bcnt.toNat - left.length + (sy.toNat + 1)) (goto body (.dcCode c b 0 0) s) =
      dcFinish body c b (extend (bitsValue (left.take sy.toNat)) sy.toNat) (withLeft (left.length - sy.toNat) s) := by
  obtain ⟨hsettle, hleft⟩ := (readsCode_dc body c b).settle_huffPrefix hpend hcode
  have hcnt : (withLeft left.length s).bcnt.toNat = left.length := by rw [← bufferedBits_length, hleft]
  rw [settle_add, hsettle, settle_dcSymbol (s := withLeft left.length s) hpend hsize (by omega), hleft, hcnt]
  rfl

end

/-- Settles O26: the moves of `settle_decodeDc`, at most 31, complete the command. -/
theorem decDcCompletes : Obligations.DecDcCompletes := by
  intro s c b sy left v hidle hpend hcfg hc hb hcode hsize hbits hv
  have hsettle := settle_decodeDc (body := .decDc) (b := b.toNat) (s := tick { s with state := .step }) hpend hcode
    hsize hbits
  have hend := hsettle.trans (dcFinish_decDc (s := withLeft _ (tick { s with state := .step })) hv b.toNat)
  have hfew : s.bcnt.toNat - left.length + (sy.toNat + 1) ≤ moveBound := by
    have := s.bcnt.isLt
    unfold moveBound
    omega
  have hrun := runBlock_of_moves (s := startDc .decDc c.toNat b.toNat { s with state := .step }) hfew hend rfl
  exact congrArg _ ((decodeCommand_accepted hidle hcfg hc hb .decDc startDc).trans hrun)

/-! ## An AC block on buffered bits -/

/-- The coefficient that the first `size` bits of a string give (R150, R154). -/
def coefValue (bs : List Bool) (size : Nat) : Half := s16 (extend (bitsValue (bs.take size)) size)

/-- COEF[b][k] has been written, with `n` bits left in the cursor. -/
def coefTaken (b k n : Nat) (v : Half) (s : State) : State := { withLeft n s with mem := coefWrite s.mem b k v }

section
variable {body : Body} (hbody : ∀ i, body ≠ .drive i) {c b k size : Nat} {s : State}

section
include hbody

/-- Outside the driver the end of a block completes the command (R157, R159). -/
theorem blockDone_step (b : Nat) (s : State) : blockDone body b s = completed s := by
  cases body with
  | drive i => exact absurd rfl (hbody i)
  | _ => rfl

/-- DecodeAC goes on from the state before its point, which it replaces. -/
theorem acNext_goto (c b k : Nat) (p : Point) (s : State) :
    acNext body c b k (goto body p s) = acNext body c b k s := by
  unfold acNext
  rw [blockDone_step hbody, blockDone_step hbody]
  rfl

/-- Receive takes its last bit from the buffered ones. -/
theorem blockMove_acBits_last {raw : Nat} (h : s.bcnt ≠ 0#4) :
    blockMove (goto body (.acBits c b k size 1 raw) s) =
      acNext body c b (k + 1) { bitTaken s with
        mem := coefWrite s.mem b k (s16 (extend (2 * raw + (s.cbits.getLsbD (s.bcnt.toNat - 1)).toNat) size)) } := by
  rw [blockMove_acBits (goto_pos _ _ s), withBit_buffered (s := goto _ _ s) h, acReceive, if_pos le_rfl]
  exact acNext_goto hbody c b (k + 1) (.acBits c b k size 1 raw) { bitTaken s with mem := _ }

end

/-- Receive takes one of several bits to come from the buffered ones. -/
theorem blockMove_acBits_buffered {n raw : Nat} (h : s.bcnt ≠ 0#4) :
    blockMove (goto body (.acBits c b k size (n + 1 + 1) raw) s) =
      goto body (.acBits c b k size (n + 1) (2 * raw + (s.cbits.getLsbD (s.bcnt.toNat - 1)).toNat)) (bitTaken s) := by
  rw [blockMove_acBits (goto_pos _ _ s), withBit_buffered (s := goto _ _ s) h]
  exact if_neg (by omega)

section
include hbody

/-- Receive over buffered bits: the bits still to receive complete the coefficient of position k. -/
theorem settle_acBits (n : Nat) : ∀ {s : State} {raw : Nat}, s.pend = none → n + 1 ≤ s.bcnt.toNat →
    settle (n + 1) (goto body (.acBits c b k size (n + 1) raw) s) =
      acNext body c b (k + 1) { s with
        bcnt := s.bcnt - BitVec.ofNat 4 (n + 1)
        mem := coefWrite s.mem b k (s16 (extend (receivedValue raw ((bufferedBits s).take (n + 1))) size)) } := by
  induction n with
  | zero =>
    intro s raw hpend hbits
    have hne := bcnt_ne_zero hbits
    rw [settle_succ (runnable_at (goto_pos _ _ s) hpend (by simp)), blockMove_acBits_last hbody hne,
      bufferedBits_cons hne]
    rfl
  | succ n ih =>
    intro s raw hpend hbits
    have hne := bcnt_ne_zero hbits
    have hleft : n + 1 ≤ (bitTaken s).bcnt.toNat := by rw [bitTaken_bcnt hne]; omega
    have hcount : s.bcnt - BitVec.ofNat 4 (n + 1 + 1) = (bitTaken s).bcnt - BitVec.ofNat 4 (n + 1) := by
      rw [bitTaken, BitVec.ofNat_add, sub_sub, add_comm]
    rw [settle_succ (runnable_at (goto_pos _ _ s) hpend (by simp)), blockMove_acBits_buffered hne,
      bufferedBits_cons hne, hcount]
    exact ih (s := bitTaken s) hpend hleft

/-! ### The AC symbols (R156) -/

/-- EOB ends the block. -/
theorem blockMove_acSymbol_eob : blockMove (goto body (.acSymbol c b k 0x00#8) s) = completed s := by
  rw [blockMove_acSymbol (goto_pos _ _ s), show decodeAcSymbol 0x00#8 = .acEob from rfl, symbolEffect,
    acEobEffect_at (goto_pos _ _ s), blockDone_step hbody]
  rfl

/-- ZRL inside the block passes sixteen positions. -/
theorem blockMove_acSymbol_zrl (hk : k + 16 ≤ 64) :
    blockMove (goto body (.acSymbol c b k 0xF0#8) s) = acNext body c b (k + 16) s := by
  rw [blockMove_acSymbol (goto_pos _ _ s), show decodeAcSymbol 0xF0#8 = .acZrl from rfl, symbolEffect,
    acZrlEffect_at (goto_pos _ _ s), if_neg (Nat.not_lt.2 hk), acNext_goto hbody]
  rfl

omit hbody in
/-- A symbol byte with a size of 1 or more is a run and a size (R105). -/
theorem decodeAcSymbol_runsize {t : Byte} (h : t.toNat % 16 ≠ 0) :
    decodeAcSymbol t = .acRunsize (BitVec.ofNat 4 (t.toNat / 16)) (BitVec.ofNat 4 (t.toNat % 16)) := by
  have hhigh : t.extractLsb' 4 4 = BitVec.ofNat 4 (t.toNat / 16) := by
    apply BitVec.eq_of_toNat_eq
    rw [BitVec.extractLsb'_toNat, BitVec.toNat_ofNat, Nat.shiftRight_eq_div_pow]
  have hlow : t.extractLsb' 0 4 = BitVec.ofNat 4 (t.toNat % 16) := by
    apply BitVec.eq_of_toNat_eq
    rw [BitVec.extractLsb'_toNat, Nat.shiftRight_zero, BitVec.toNat_ofNat]
    omega
  have hne : BitVec.ofNat 4 (t.toNat % 16) ≠ 0#4 := fun e => by
    have := congrArg BitVec.toNat e
    rw [BitVec.toNat_ofNat] at this
    exact h (by simpa using this)
  have hEob : t ≠ 0x00#8 := by rintro rfl; exact h rfl
  have hZrl : t ≠ 0xF0#8 := by rintro rfl; exact h rfl
  rw [decodeAcSymbol, if_neg hEob, if_neg hZrl, hhigh, hlow, if_neg hne]

/-- A run and a size inside the block, with its additional bits buffered, write the coefficient after the run. -/
theorem settle_acSymbol_runsize {t : Byte} (hpend : s.pend = none) (hsize : t.toNat % 16 ≠ 0)
    (hrun : k + t.toNat / 16 ≤ 63) (hbits : t.toNat % 16 ≤ s.bcnt.toNat) :
    settle (t.toNat % 16 + 1) (goto body (.acSymbol c b k t) s) =
      acNext body c b (k + t.toNat / 16 + 1) (coefTaken b (k + t.toNat / 16) (s.bcnt.toNat - t.toNat % 16)
        (coefValue (bufferedBits s) (t.toNat % 16)) s) := by
  have hr : (BitVec.ofNat 4 (t.toNat / 16)).toNat = t.toNat / 16 := by
    have := t.isLt
    rw [BitVec.toNat_ofNat]
    omega
  have hs : (BitVec.ofNat 4 (t.toNat % 16)).toNat = t.toNat % 16 := by rw [BitVec.toNat_ofNat]; omega
  have hmove : blockMove (goto body (.acSymbol c b k t) s) =
      goto body (.acBits c b (k + t.toNat / 16) (t.toNat % 16) (t.toNat % 16) 0) s := by
    rw [blockMove_acSymbol (goto_pos _ _ s), decodeAcSymbol_runsize hsize, symbolEffect,
      acRunsizeEffect_at (goto_pos _ _ s), hr, hs, if_neg (Nat.not_lt.2 hrun)]
    rfl
  rw [settle_succ (runnable_at (goto_pos _ _ s) hpend (by simp)), hmove, coefTaken, coefValue,
    ← sub_bcnt_eq_withLeft hbits]
  obtain ⟨n, hn⟩ := Nat.exists_eq_add_one_of_ne_zero hsize
  rw [hn]
  exact settle_acBits hbody n hpend (hn ▸ hbits)

end

/-! ### The whole block -/

/-- The code at position k, with its bits buffered, leads to its symbol. -/
theorem settle_acCode {sy : Byte} {rest : List Bool} (hpend : s.pend = none) (hk : k ≤ 63)
    (hcode : huffPrefix (acTable s c) (bufferedBits s) = some (sy, rest)) (n : Nat) :
    settle (s.bcnt.toNat - rest.length + n) (acNext body c b k s) =
      settle n (goto body (.acSymbol c b k sy) (withLeft rest.length s)) := by
  have hnext : acNext body c b k s = goto body (.acCode c b k 0 0) s := if_pos hk
  rw [hnext, settle_add, ((readsCode_ac body c b k).settle_huffPrefix hpend hcode).1]

/-- What the reference block does with its next symbol, where it ends without a fault (R154, R156): past position 63 it
has ended; else the symbol is EOB, a ZRL inside the block, or a run and a size with their bits at hand. -/
theorem acBlockRef_cases {t : HuffTable} {b fuel k : Nat} {m : Memory} {bs : List Bool} {r : Memory × List Bool}
    (h : acBlockRef t b (fuel + 1) k m bs = some r) :
    (63 < k ∧ r = (m, bs)) ∨ k ≤ 63 ∧ ∃ sy left, huffPrefix t bs = some (sy, left) ∧
      ((sy = 0x00#8 ∧ r = (m, left)) ∨ (sy = 0xF0#8 ∧ k + 16 ≤ 64 ∧ acBlockRef t b fuel (k + 16) m left = some r)
        ∨ (sy.toNat % 16 ≠ 0 ∧ k + sy.toNat / 16 ≤ 63 ∧ sy.toNat % 16 ≤ left.length ∧
          acBlockRef t b fuel (k + sy.toNat / 16 + 1)
            (coefWrite m b (k + sy.toNat / 16) (coefValue left (sy.toNat % 16)))
            (left.drop (sy.toNat % 16)) = some r)) := by
  rw [acBlockRef] at h
  split at h
  · next hk => exact .inl ⟨hk, (Option.some.inj h).symm⟩
  next hk =>
  refine .inr ⟨Nat.not_lt.1 hk, ?_⟩
  split at h
  · cases h
  next sy left hcode =>
  refine ⟨sy, left, hcode, ?_⟩
  split at h
  · next hEob => exact .inl ⟨hEob, (Option.some.inj h).symm⟩
  split at h
  · next hZrl =>
    split at h
    · cases h
    · next hfits => exact .inr (.inl ⟨hZrl, Nat.not_lt.1 hfits, h⟩)
  dsimp only at h
  split at h
  · cases h
  · next hlegal =>
    rw [not_or, not_or, Nat.not_lt, Nat.not_lt] at hlegal
    obtain ⟨hsize, hrun, hbits⟩ := hlegal
    exact .inr (.inr ⟨hsize, hrun, hbits, h⟩)

include hbody in
/-- DecodeAC from position k, with the rest of the block buffered, ends the command in at most two moves a bit. -/
theorem settle_acBlock (fuel : Nat) : ∀ {s : State} {k : Nat} {m : Memory} {left : List Bool}, s.pend = none →
    acBlockRef (acTable s c) b fuel k s.mem (bufferedBits s) = some (m, left) →
    ∃ n ≤ 2 * s.bcnt.toNat, settle n (acNext body c b k s) = completed { withLeft left.length s with mem := m } := by
  induction fuel with
  | zero => exact fun _ h => nomatch h
  | succ fuel ih =>
    intro s k m left hpend href
    rcases acBlockRef_cases href with ⟨hk, hend⟩ | ⟨hk, sy, rest, hcode, hsymbol⟩
    · cases hend
      refine ⟨0, Nat.zero_le _, ?_⟩
      rw [withLeft_bufferedBits]
      exact (if_neg (Nat.not_le.2 hk)).trans (blockDone_step hbody b s)
    have hrest := ((readsCode_ac body c b k).settle_huffPrefix hpend hcode).2
    have hcnt : (withLeft rest.length s).bcnt.toNat = rest.length := by rw [← bufferedBits_length, hrest]
    have hshort := huffScan_length ((huffScan_eq_huffPrefix _ _).trans hcode)
    rw [bufferedBits_length] at hshort
    have hgo : runnable (goto body (.acSymbol c b k sy) (withLeft rest.length s)) = true :=
      runnable_at (goto_pos _ _ _) hpend (by simp)
    rcases hsymbol with ⟨rfl, hend⟩ | ⟨rfl, hfits, hnext⟩ | ⟨hsize, hrun, hbits, hnext⟩
    · cases hend
      refine ⟨s.bcnt.toNat - left.length + 1, by omega, ?_⟩
      rw [settle_acCode hpend hk hcode, settle_succ hgo, blockMove_acSymbol_eob hbody]
      rfl
    · obtain ⟨n, hn, hend⟩ := ih (s := withLeft rest.length s) hpend (hrest.symm ▸ hnext)
      refine ⟨s.bcnt.toNat - rest.length + (n + 1), by omega, ?_⟩
      rw [settle_acCode hpend hk hcode, settle_succ hgo, blockMove_acSymbol_zrl hbody hfits, hend]
      rfl
    · have hdrop := bufferedBits_withLeft (hcnt.symm ▸ hbits)
      have hstep := settle_acSymbol_runsize hbody (c := c) (b := b) (s := withLeft rest.length s) hpend hsize hrun
        (hcnt.symm ▸ hbits)
      rw [hrest, hcnt] at hdrop hstep
      have hcnt' := congrArg List.length hdrop
      rw [bufferedBits_length, List.length_drop] at hcnt'
      obtain ⟨n, hn, hend⟩ := ih (s := coefTaken b (k + sy.toNat / 16) (rest.length - sy.toNat % 16)
        (coefValue rest (sy.toNat % 16)) (withLeft rest.length s)) hpend (hdrop.symm ▸ hnext)
      have hn' : n ≤ 2 * (rest.length - sy.toNat % 16) := hcnt' ▸ hn
      refine ⟨s.bcnt.toNat - rest.length + (sy.toNat % 16 + 1 + n), by omega, ?_⟩
      rw [settle_acCode hpend hk hcode, settle_add, hstep, hend]
      rfl

end

/-- DecodeAC begins at position 1 with the coefficients cleared (R154). -/
theorem startAc_eq_acNext (body : Body) (c b : Nat) (s : State) :
    startAc body c b s = acNext body c b 1 { s with mem := coefClear s.mem b 1 63 } := by
  rw [acNext, if_pos (by decide), startAc]

/-- Settles O27: the moves of `settle_acBlock`, at most 30, complete the command. -/
theorem decAcCompletes : Obligations.DecAcCompletes := by
  intro s c b m left hidle hpend hcfg hc hb href
  have haccept := decodeCommand_accepted hidle hcfg hc hb .decAc startAc
  rw [startAc_eq_acNext] at haccept
  generalize coefClear s.mem b.toNat 1 63 = m0 at href haccept
  obtain ⟨n, hn, hsettle⟩ := settle_acBlock (body := .decAc) (fun i h => nomatch h) 64
    (s := tick { s with state := .step, mem := m0 }) hpend href
  have hfew : n ≤ moveBound := by
    have hn' : n ≤ 2 * s.bcnt.toNat := hn
    have := s.bcnt.isLt
    unfold moveBound
    omega
  have hrun := runBlock_of_moves (s := acNext .decAc c.toNat b.toNat 1 { s with state := .step, mem := m0 }) hfew
    hsettle rfl
  exact congrArg _ (haccept.trans hrun)

end Sys2Proof.Machine
end

section
/-! PROOFS. The value of an additional-bits field (O24), the symbols that are no legal ones (O31), DEC_BLK on buffered
bits (O28), and a run and size at the point that has matched it (O33). -/

namespace Sys2Proof.Machine

/-! ## Extend (41_entropy R150) -/

theorem extend_zero (raw : Nat) : extend raw 0 = 0 := rfl

section
variable {raw n : Nat} (h : raw < 2 ^ (n + 1))
include h

/-- The top bit of a field of n + 1 bits tells the halves of its range apart. -/
theorem testBit_top : raw.testBit n = true ↔ 2 ^ n ≤ raw := by
  rw [Nat.testBit_eq_decide_div_mod_eq, decide_eq_true_iff,
    Nat.mod_eq_of_lt (Nat.div_lt_of_lt_mul (by rwa [← pow_succ]))]
  have hpos : 0 < 2 ^ n := Nat.two_pow_pos n
  rw [pow_succ] at h
  rw [Nat.div_eq_iff hpos]
  omega

theorem extend_low (hlow : raw < 2 ^ n) : extend raw (n + 1) = (raw : Int) - (2 ^ (n + 1) - 1) := by
  have htop : ¬raw.testBit n = true := by rw [testBit_top h]; omega
  rw [extend, if_neg (Nat.succ_ne_zero n), Nat.add_sub_cancel, if_neg htop]

theorem extend_high (hhigh : 2 ^ n ≤ raw) : extend raw (n + 1) = (raw : Int) := by
  rw [extend, if_neg (Nat.succ_ne_zero n), Nat.add_sub_cancel, if_pos ((testBit_top h).2 hhigh)]

end

/-- A value of a field of at most 15 bits is a 16-bit value. -/
theorem s16_toInt {v : Int} (hlow : -2 ^ 15 ≤ v) (hhigh : v < 2 ^ 15) : (s16 v).toInt = v := by
  rw [s16, BitVec.toInt_ofInt, Int.bmod_def]
  split <;> omega

/-- Settles O24: the two halves of the range by the field's top bit. -/
theorem extendValue : Obligations.ExtendValue := by
  refine ⟨extend_zero 0, fun raw size h1 h15 hraw => ?_⟩
  obtain ⟨n, rfl⟩ := Nat.exists_eq_add_of_le' h1
  rw [Nat.add_sub_cancel]
  have hbound : (2 : Int) ^ n ≤ 2 ^ 14 := pow_le_pow_right₀ (by decide) (by omega)
  have hsucc : (2 : Int) ^ (n + 1) = 2 * 2 ^ n := pow_succ' 2 n
  have hraw' : (raw : Int) < 2 ^ (n + 1) := by exact_mod_cast hraw
  have hcast : ((2 ^ n : Nat) : Int) = 2 ^ n := by norm_cast
  refine ⟨fun hlow => ?_, fun hhigh => ?_, ?_⟩
  · rw [extend_low hraw hlow]
    omega
  · rw [extend_high hraw hhigh]
    omega
  · rcases Nat.lt_or_ge raw (2 ^ n) with hlow | hhigh
    · rw [extend_low hraw hlow]
      exact s16_toInt (by omega) (by omega)
    · rw [extend_high hraw hhigh]
      exact s16_toInt (by omega) (by omega)

/-! ## The illegal symbols (R153, R156) -/

/-- A symbol whose effect is a fault that enters ERROR ends the command there. -/
theorem exec_symbol_inError {i : Instr} {s : State} {e : BitVec 4} {d sy : Byte} (hc : isCommand i = false)
    (he : symbolEffect i s = some (takeFault e d sy s)) (hne : e ≠ errSync) :
    exec i s = .next (tick (inError e d sy s)) := by
  rw [exec_symbol hc, he, takeFault_eq_inError (fun h => hne h.1)]
  exact congrArg _ (runBlock_rest rfl)

/-- Settles O31: each illegal symbol is a fault at the point that has matched it. -/
theorem illegalSymbolsFault : Obligations.IllegalSymbolsFault :=
  ⟨fun _ _ _ _ t _ hpos => exec_symbol_inError rfl (dcIllegalEffect_at hpos t) (by decide),
    fun _ _ _ _ _ _ r hpos => exec_symbol_inError rfl (acUndefEffect_at hpos r) (by decide)⟩

/-! ## DEC_BLK on buffered bits -/

/-- In any body but DEC_DC the difference of a DC symbol leads on to DecodeAC (R151, R154). -/
theorem dcFinish_acNext {body : Body} (hbody : body ≠ .decDc) {c b : Nat} {diff : Int} {s : State} {v : Half}
    {m : Memory} (hv : v = s16 ((predRead s c).toInt + diff)) (hm : coefClear (coefWrite s.mem b 0 v) b 1 63 = m) :
    dcFinish body c b diff s = acNext body c b 1 { s with pred := s.pred.setIfInBounds c v, mem := m } := by
  subst hv hm
  cases body with
  | decDc => exact absurd rfl hbody
  | _ => exact startAc_eq_acNext _ c b _

/-- DecodeDC and then DecodeAC on buffered bits end the command (R159). -/
theorem settle_decodeBlk {body : Body} (hdc : body ≠ .decDc) (hdrive : ∀ i, body ≠ .drive i) {s : State} {c b : Nat}
    {sy : Byte} {left left' : List Bool} {v : Half} {m0 m : Memory} (hpend : s.pend = none)
    (hcode : huffPrefix (dcTable s c) (bufferedBits s) = some (sy, left)) (hsize : sy.toNat ≤ 15)
    (hbits : sy.toNat ≤ left.length)
    (hv : v = s16 ((predRead s c).toInt + extend (bitsValue (left.take sy.toNat)) sy.toNat))
    (hm0 : coefClear (coefWrite s.mem b 0 v) b 1 63 = m0)
    (hblock : acBlockRef (acTable s c) b 64 1 m0 (left.drop sy.toNat) = some (m, left')) :
    ∃ n ≤ moveBound, settle n (goto body (.dcCode c b 0 0) s) =
      completed { s with
        bcnt := BitVec.ofNat 4 left'.length, pred := s.pred.setIfInBounds c v, mem := m } := by
  have hleft := ((readsCode_dc body c b).settle_huffPrefix hpend hcode).2
  have hcnt : (withLeft left.length s).bcnt.toNat = left.length := by rw [← bufferedBits_length, hleft]
  have hdrop := bufferedBits_withLeft (s := withLeft left.length s) (hcnt.symm ▸ hbits)
  rw [hcnt, hleft] at hdrop
  have hfirst := (settle_decodeDc (body := body) (b := b) hpend hcode hsize hbits).trans
    (dcFinish_acNext hdc (s := withLeft (left.length - sy.toNat) s) hv hm0)
  obtain ⟨n, hn, hsecond⟩ := settle_acBlock hdrive 64 (s := { withLeft (left.length - sy.toNat) s with
      pred := s.pred.setIfInBounds c v, mem := m0 }) hpend (hdrop.symm ▸ hblock)
  refine ⟨s.bcnt.toNat - left.length + (sy.toNat + 1) + n, ?_,
    (settle_add _ n _).trans ((congrArg (settle n) hfirst).trans hsecond)⟩
  have h1 := s.bcnt.isLt
  have h2 : n ≤ 2 * (BitVec.ofNat 4 (left.length - sy.toNat)).toNat := hn
  have h3 := (BitVec.ofNat 4 (left.length - sy.toNat)).isLt
  unfold moveBound
  omega

/-- Settles O28: the moves of `settle_decodeBlk` complete the command. -/
theorem decBlkCompletes : Obligations.DecBlkCompletes := by
  intro s c b sy left left' v m hidle hpend hcfg hc hb hcode hsize hbits hv hblock
  obtain ⟨n, hn, hend⟩ := settle_decodeBlk (body := .decBlk) (by simp) (by simp)
    (s := tick { s with state := .step }) hpend hcode hsize hbits hv rfl hblock
  have hrun := runBlock_of_moves (s := startDc .decBlk c.toNat b.toNat { s with state := .step }) hn hend rfl
  exact congrArg _ ((decodeCommand_accepted hidle hcfg hc hb .decBlk startDc).trans hrun)

/-! ## A run that ends in a read of the stream -/

/-- A run whose moves lead to a code with no bit at hand suspends there in its first PortRead (R144, R147). -/
theorem ReadsCode.runBlock_suspends {table : State → HuffTable} {body : Body} {point : Nat → Nat → Point}
    {symbol : Byte → Point} (hr : ReadsCode table body point symbol) {n len code : Nat} {s t : State}
    (hn : n + 1 ≤ moveBound) (h : settle n (tick s) = goto body (point len code) t) (hpend : t.pend = none)
    (h0 : t.bcnt = 0#4) (hmp : t.mp = false) (heos : t.eos = false) :
    runBlock s = waiting .dataFirst (atPoint body (point len code) t) := by
  have hmove : blockMove (goto body (point len code) t) = waiting .dataFirst (atPoint body (point len code) t) := by
    rw [hr.move]
    refine (if_pos h0).trans (if_neg ?_)
    simp [hmp, heos]
  refine runBlock_of_moves hn ?_ (not_runnable_of_pend (Option.some_ne_none Pend.dataFirst))
  rw [settle_add, h, settle_succ (hr.runnable hpend _ _), hmove]
  rfl

/-! ## A run and a size (R156) -/

section
variable {body : Body} {c b k size : Nat}

/-- Inside the block the last bit of a coefficient leads to the next position, in any body. -/
theorem blockMove_acBits_inside {s : State} {raw : Nat} (hk : k < 63) (h : s.bcnt ≠ 0#4) :
    blockMove (goto body (.acBits c b k size 1 raw) s) =
      goto body (.acCode c b (k + 1) 0 0) { bitTaken s with
        mem := coefWrite s.mem b k (s16 (extend (2 * raw + (s.cbits.getLsbD (s.bcnt.toNat - 1)).toNat) size)) } := by
  rw [blockMove_acBits (goto_pos _ _ s), withBit_buffered (s := goto _ _ s) h, acReceive, if_pos le_rfl]
  exact if_pos hk

/-- Receive over buffered bits, inside the block: the coefficient of position k is written and the decode goes on. -/
theorem settle_acBits_inside (hk : k < 63) (n : Nat) : ∀ {s : State} {raw : Nat}, s.pend = none →
    n + 1 ≤ s.bcnt.toNat → settle (n + 1) (goto body (.acBits c b k size (n + 1) raw) s) =
      goto body (.acCode c b (k + 1) 0 0) { s with
        bcnt := s.bcnt - BitVec.ofNat 4 (n + 1)
        mem := coefWrite s.mem b k (s16 (extend (receivedValue raw ((bufferedBits s).take (n + 1))) size)) } := by
  induction n with
  | zero =>
    intro s raw hpend hbits
    have hne := bcnt_ne_zero hbits
    rw [settle_succ (runnable_at (goto_pos _ _ s) hpend (by simp)), blockMove_acBits_inside hk hne,
      bufferedBits_cons hne]
    rfl
  | succ n ih =>
    intro s raw hpend hbits
    have hne := bcnt_ne_zero hbits
    have hleft : n + 1 ≤ (bitTaken s).bcnt.toNat := by rw [bitTaken_bcnt hne]; omega
    have hcount : s.bcnt - BitVec.ofNat 4 (n + 1 + 1) = (bitTaken s).bcnt - BitVec.ofNat 4 (n + 1) := by
      rw [bitTaken, BitVec.ofNat_add, sub_sub, add_comm]
    rw [settle_succ (runnable_at (goto_pos _ _ s) hpend (by simp)), blockMove_acBits_buffered hne,
      bufferedBits_cons hne, hcount]
    exact ih (s := bitTaken s) hpend hleft

end

section
variable {s : State} {body : Body} {c b k : Nat} {t : Byte} (hpos : s.pos = some ⟨body, .acSymbol c b k t⟩)
  {r size : BitVec 4}
include hpos

/-- A run past position 63 is AC_OVERRUN before any bit. -/
theorem exec_acRunsize_overrun (h : 63 < k + r.toNat) :
    exec (.acRunsize r size) s = .next (tick (inError 1#4 0x22#8 (r ++ size) s)) :=
  exec_symbol_inError rfl ((acRunsizeEffect_at hpos r size).trans (congrArg some (if_pos h))) (by decide)

/-- A run inside the block is followed by its coefficient's bits. -/
theorem exec_acRunsize (h : k + r.toNat ≤ 63) : exec (.acRunsize r size) s =
    .next (runBlock (goto body (.acBits c b (k + r.toNat) size.toNat size.toNat 0) s)) := by
  rw [exec_symbol rfl, symbolEffect, acRunsizeEffect_at hpos, if_neg (Nat.not_lt.2 h)]
  rfl

/-- Before position 63, with no more than the coefficient's bits buffered, the block suspends in the code of the next
position. -/
theorem exec_acRunsize_inside (hpend : s.pend = none) (hne : size ≠ 0#4) (h : k + r.toNat < 63)
    (hbits : size = s.bcnt) (hmp : s.mp = false) (heos : s.eos = false) :
    exec (.acRunsize r size) s = .next (tick (waiting .dataFirst
      (atPoint body (.acCode c b (k + r.toNat + 1) 0 0) { s with
        bcnt := 0#4
        mem := coefWrite s.mem b (k + r.toNat) (s16 (extend (bitsValue (bufferedBits s)) size.toNat)) }))) := by
  subst hbits
  obtain ⟨n, hn⟩ := Nat.exists_eq_add_one_of_ne_zero (bcnt_toNat_ne_zero hne)
  have hsettle := settle_acBits_inside (body := body) (c := c) (b := b) (size := s.bcnt.toNat) h n (s := tick s)
    (raw := 0) hpend hn.ge
  have htake : (bufferedBits (tick s)).take (n + 1) = bufferedBits s :=
    List.take_of_length_le (by rw [bufferedBits_length]; exact hn.le)
  have hcnt : (tick s).bcnt - BitVec.ofNat 4 (n + 1) = 0#4 := by
    rw [← hn, BitVec.ofNat_toNat, BitVec.setWidth_eq]
    exact BitVec.sub_self s.bcnt
  rw [htake, hcnt, ← hn] at hsettle
  have hfew : s.bcnt.toNat + 1 ≤ moveBound := s.bcnt.isLt.trans (by decide)
  rw [exec_acRunsize hpos h.le]
  exact congrArg _ ((readsCode_ac body c b _).runBlock_suspends
    (s := goto body (.acBits c b (k + r.toNat) s.bcnt.toNat s.bcnt.toNat 0) s) hfew hsettle hpend rfl hmp heos)

/-- At position 63, with its bits buffered, the coefficient is the block's last. -/
theorem exec_acRunsize_last (hbody : ∀ i, body ≠ .drive i) (hpend : s.pend = none) (hne : size ≠ 0#4)
    (h : k + r.toNat = 63) (hbits : size.toNat ≤ s.bcnt.toNat) :
    exec (.acRunsize r size) s = .next (tick (completed { s with
      bcnt := s.bcnt - size
      mem := coefWrite s.mem b 63
        (s16 (extend (bitsValue ((bufferedBits s).take size.toNat)) size.toNat)) })) := by
  obtain ⟨n, hn⟩ := Nat.exists_eq_add_one_of_ne_zero (fun h0 => hne (BitVec.eq_of_toNat_eq h0) : size.toNat ≠ 0)
  have hsettle := settle_acBits hbody (c := c) (b := b) (k := 63) (size := size.toNat) n (s := tick s) (raw := 0)
    hpend (hn ▸ hbits)
  rw [← hn, BitVec.ofNat_toNat, BitVec.setWidth_eq, acNext, if_neg (by decide), blockDone_step hbody] at hsettle
  have hfew : size.toNat ≤ moveBound := size.isLt.le.trans (by decide)
  rw [exec_acRunsize hpos h.le, h]
  exact congrArg _ (runBlock_of_moves (s := goto body (.acBits c b 63 size.toNat size.toNat 0) s) hfew hsettle rfl)

end

end Sys2Proof.Machine

/-! The model's own `acRunsizeEffect` holds that name in the namespace of the machine. -/

namespace Sys2Proof
open Machine

/-- Settles O33: the overrun, the reception, and both ends of a coefficient whose bits are buffered. -/
theorem acRunsizeEffect : Obligations.AcRunsizeEffect := by
  intro s body c b k t r size hpend hpos hne
  refine ⟨exec_acRunsize_overrun hpos, exec_acRunsize hpos, exec_acRunsize_inside hpos hpend hne,
    fun h hbits hbody => exec_acRunsize_last hpos ?_ hpend hne h hbits⟩
  rintro i rfl
  simp at hbody

end Sys2Proof
end

section
/-! PROOFS. Restart markers: a pair in a restart check or a scan (O35), RESTART (O37), RESYNC after a step-mode halt (O38)
and after a driver halt (O39), and the restart check at the head of the driver's loop (O49). -/

namespace Sys2Proof.Machine

/-! ## Which second byte is which marker (30_encoding R102) -/

/-- The byte of RSTn, by its pair and by R160's sum. -/
theorem rstByte_eq_sum (n : BitVec 3) : (0x1A#5 ++ n : Byte) = 0xD0#8 + n.setWidth 8 := by
  revert n; decide

theorem rstByte_inj {n m : BitVec 3} : (0x1A#5 ++ n : Byte) = 0xD0#8 + m.setWidth 8 ↔ n = m := by
  revert n m; decide

theorem rstByte_index (n : BitVec 3) : (0x1A#5 ++ n : Byte).extractLsb' 0 3 = n :=
  BitVec.extractLsb'_append_eq_right

/-- A byte that is no restart marker is not the one expected. -/
theorem ne_expected_of_not_rst {x : Byte} (h : isRstByte x = false) (n : BitVec 3) :
    x ≠ 0xD0#8 + n.setWidth 8 := by
  rw [← rstByte_eq_sum]
  rintro rfl
  rw [isRstByte_append] at h
  cases h

/-! ## The restart check (R160) -/

/-- A restart check has taken the pending marker RSTn: the partial bits are discarded, and MARKER keeps its value
(log 11). -/
def markerTaken (n : BitVec 3) (s : State) : State := { afterMarker n s with bcnt := 0#4, mp := false }

section
variable {body : Body} {s : State}

theorem checkMarker_expected {x : Byte} (h : x = 0xD0#8 + s.rstnext.setWidth 8) :
    checkMarker body x s = afterRestart body (afterMarker s.rstnext s) := if_pos h

theorem checkMarker_wrong {x : Byte} (h : x ≠ 0xD0#8 + s.rstnext.setWidth 8) :
    checkMarker body x s = inSyncHalt 0x41#8 x (s.state == .run) { s with mp := true, marker := x } :=
  (if_neg h).trans (takeFault_eq_inSyncHalt (.inr rfl) _ _)

/-- The restart check up to its first read: a pending marker is the one expected or a wrong one. -/
theorem restartCheck_eq (body : Body) (s : State) : restartCheck body s =
    if s.mp = true then
      if s.marker = 0xD0#8 + s.rstnext.setWidth 8 then
        afterRestart body (markerTaken s.rstnext s)
      else inSyncHalt 0x41#8 s.marker (s.state == .run) { s with bcnt := 0#4 }
    else atPoint body .rstFirst { s with bcnt := 0#4 } := by
  unfold restartCheck
  dsimp only
  split
  · next hmp =>
    split
    · next h => exact checkMarker_expected (s := { s with bcnt := 0#4, mp := false }) h
    · next h =>
      have hwrong := checkMarker_wrong (body := body) (s := { s with bcnt := 0#4, mp := false }) h
      rw [hwrong, ← hmp]
  · rfl

end

/-! ## The MCU's first block -/

/-- MCUX and MCUY are those of MCU i (44_driver R227). -/
def mcuAt (i : Nat) (s : State) : State :=
  { s with mcux := BitVec.ofNat 16 (i % nmcux s), mcuy := BitVec.ofNat 16 (i / nmcux s) }

section
variable (i : Nat) (s : State)

@[simp] theorem mcuAt_state : (mcuAt i s).state = s.state := rfl
@[simp] theorem mcuAt_bcnt : (mcuAt i s).bcnt = s.bcnt := rfl
@[simp] theorem mcuAt_mp : (mcuAt i s).mp = s.mp := rfl
@[simp] theorem mcuAt_marker : (mcuAt i s).marker = s.marker := rfl
@[simp] theorem mcuAt_eos : (mcuAt i s).eos = s.eos := rfl
@[simp] theorem mcuAt_rstnext : (mcuAt i s).rstnext = s.rstnext := rfl
@[simp] theorem mcuAt_pend : (mcuAt i s).pend = s.pend := rfl
@[simp] theorem setupOf_mcuAt : setupOf (mcuAt i s) = setupOf s := rfl

@[simp] theorem setupOf_afterMarker (n : BitVec 3) : setupOf (afterMarker n s) = setupOf s := rfl

end

section
variable {s : State} {i : Nat}

/-- Under an accepted configuration an MCU begins with slot 0, of component 0 (43_color R201). -/
theorem blockFrom_first (hcfg : cfgCheck s = none) : blockFrom i 0 s = atPoint (.drive i) (.dcCode 0 0 0 0) s := by
  rw [blockFrom, if_pos (slots_of_cfg hcfg).2.1, compOf_zero hcfg]
  rfl

/-- The head of the driver's loop before the last MCU is passed (R161, R227). -/
theorem nextMcuStep_inside (h : i < nmcu s) (skip : Bool) : nextMcuStep i skip s =
    if skip = false ∧ 0 < i ∧ s.rstint ≠ 0#16 ∧ s.rstctr = 0#16 then restartCheck (.drive i) (mcuAt i s)
    else blockFrom i 0 (mcuAt i s) := by
  refine (if_pos h).trans (if_congr ?_ rfl rfl)
  simp only [Bool.and_eq_true, Bool.not_eq_true', decide_eq_true_iff, bne_iff_ne, beq_iff_eq, and_assoc]

/-- Settles O49: the head of the loop by `nextMcuStep_inside`, the check by `restartCheck_eq`. -/
theorem nextMcuRestart : Obligations.NextMcuRestart := by
  intro s t i skip _ hpos hcfg hi ht
  obtain rfl : t = mcuAt i s := ht
  have hcfg' : cfgCheck (mcuAt i s) = none := (cfgCheck_of_setup (setupOf_mcuAt i s)).trans hcfg
  have hafter : ∀ u : State, setupOf u = setupOf (mcuAt i s) →
      afterRestart (.drive i) u = atPoint (.drive i) (.dcCode 0 0 0 0) u :=
    fun u hu => blockFrom_first ((cfgCheck_of_setup hu).trans hcfg')
  rw [blockMove_nextMcu hpos, nextMcuStep_inside hi, restartCheck_eq, blockFrom_first hcfg',
    hafter (markerTaken _ (mcuAt i s)) rfl]
  simp only [mcuAt_state, mcuAt_mp, mcuAt_marker, mcuAt_rstnext]
  rfl

theorem cfgCheck_tick (s : State) : cfgCheck (tick s) = cfgCheck s := rfl

/-- With the cursor empty the driver that skips the check suspends in the MCU's first read. -/
theorem runBlock_nextMcu_skip (hi : i < nmcu s) (hcfg : cfgCheck s = none) (hpend : s.pend = none)
    (h0 : s.bcnt = 0#4) (hmp : s.mp = false) (heos : s.eos = false) :
    runBlock (atPoint (.drive i) (.nextMcu true) s) =
      tick (waiting .dataFirst (atPoint (.drive i) (.dcCode 0 0 0 0) (mcuAt i s))) := by
  have hmove : ∀ u : State, i < nmcu u → cfgCheck u = none →
      blockMove (goto (.drive i) (.nextMcu true) u) = goto (.drive i) (.dcCode 0 0 0 0) (mcuAt i u) := by
    intro u hu hcfg
    rw [blockMove_nextMcu (goto_pos _ _ u), nextMcuStep_inside (s := goto _ _ u) hu, if_neg (by simp)]
    exact blockFrom_first ((cfgCheck_of_setup (s := u) rfl).trans hcfg)
  have hone : settle 1 (goto (.drive i) (.nextMcu true) (tick s)) =
      goto (.drive i) (.dcCode 0 0 0 0) (mcuAt i (tick s)) :=
    (settle_succ (runnable_at (goto_pos _ _ (tick s)) hpend (by simp)) 0).trans
      (hmove (tick s) hi ((cfgCheck_tick s).trans hcfg))
  exact (readsCode_dc (.drive i) 0 0).runBlock_suspends (s := goto (.drive i) (.nextMcu true) s) (by decide) hone
    hpend h0 hmp heos

end

/-! ## What a recovery finds (R166, R167) -/

/-- The restart state, the predictors and the fault record after a recovery has found RSTn (R166). -/
def recovered (n : BitVec 3) (s : State) : State := { afterMarker n s with err := 0#4, detail := 0#8, sym := 0#8 }

/-- The MCU at which a driver halt resumes with RSTn: the intervals skipped since the halt lie before it (R167). -/
def resumeMcu (n : BitVec 3) (s : State) : Nat :=
  s.mcuy.toNat * nmcux s + s.mcux.toNat + (n - s.rstnext).toNat * s.rstint.toNat

theorem resyncFound_step (n : BitVec 3) (s : State) : resyncFound false n s = completed (recovered n s) := rfl

theorem resyncFound_run (n : BitVec 3) (s : State) : resyncFound true n s =
    if nmcu s ≤ resumeMcu n s then inDone (recovered n s)
    else atPoint (.drive (resumeMcu n s)) (.nextMcu true) (recovered n s) := rfl

section
variable {s t : State} {n : BitVec 3}

/-- A driver halt recovered past the last MCU ends in DONE. -/
theorem runBlock_resyncFound_done (h : nmcu s ≤ resumeMcu n s) :
    runBlock (resyncFound true n s) = tick (inDone (recovered n s)) := by
  rw [resyncFound_run, if_pos h]
  exact runBlock_rest rfl

/-- A driver halt recovered before the last MCU resumes there. -/
theorem runBlock_resyncFound_resume (h : resumeMcu n s < nmcu s) : runBlock (resyncFound true n s) =
    runBlock (atPoint (.drive (resumeMcu n s)) (.nextMcu true) (recovered n s)) := by
  rw [resyncFound_run, if_neg (Nat.not_le.2 h)]

end

/-! ## A byte pair at a marker read -/

section
variable {s : State} {body : Body}

/-- A pair of second byte y at a marker read runs as that byte. -/
theorem exec_pair_raw {i : Instr} {y : Byte} {p : Pos} (hi : symbolEffect i s = afterFf y s)
    (hc : isCommand i = false) (hpoint : p.point = .rstSecond ∨ p.point = .scan true) (hpos : s.pos = some p)
    (hpend : s.pend = some .raw) : exec i s = .next (runBlock (rawByte p y { s with pend := none })) := by
  rw [exec_symbol hc, hi, afterFf_raw hpoint hpos hpend]
  rfl

/-- At a restart check every second byte but the one expected is SYNC_WRONG. -/
theorem exec_pair_wrong {i : Instr} {y : Byte} (hi : symbolEffect i s = afterFf y s) (hc : isCommand i = false)
    (hpos : s.pos = some ⟨body, .rstSecond⟩) (hpend : s.pend = some .raw)
    (h : y ≠ 0xD0#8 + s.rstnext.setWidth 8) :
    exec i s = .next (tick (inSyncHalt 0x41#8 y (s.state == .run) { s with mp := true, marker := y })) := by
  have hwrong := checkMarker_wrong (body := body) (s := { s with pend := none }) h
  rw [exec_pair_raw hi hc (.inl rfl) hpos hpend]
  exact congrArg _ ((congrArg runBlock hwrong).trans (runBlock_rest rfl))

/-- At a restart check the expected marker takes the command on. -/
theorem exec_rstN_expected (hpos : s.pos = some ⟨body, .rstSecond⟩) (hpend : s.pend = some .raw) :
    exec (.rstN s.rstnext) s =
      .next (runBlock (afterRestart body (afterMarker s.rstnext { s with pend := none }))) := by
  have hexp := checkMarker_expected (body := body) (s := { s with pend := none }) (rstByte_eq_sum s.rstnext)
  rw [exec_pair_raw (y := 0x1A#5 ++ s.rstnext) rfl rfl (.inl rfl) hpos hpend]
  exact congrArg _ (congrArg runBlock hexp)

variable {fromRun : Bool} (hpos : s.pos = some ⟨.resync fromRun, .scan true⟩) (hpend : s.pend = some .raw)
  (heos : s.eos = false)
include hpos hpend heos

/-- In a scan a pair that is no restart marker is skipped, its second byte remembered if it is 0xFF. -/
theorem exec_pair_skipped {i : Instr} {y : Byte} (hi : symbolEffect i s = afterFf y s) (hc : isCommand i = false)
    (h : isRstByte y = false) :
    exec i s = .next (tick (atPoint (.resync fromRun) (.scan (y == 0xFF#8)) s)) := by
  have hskip : rawByte ⟨.resync fromRun, .scan true⟩ y { s with pend := none } =
      atPoint (.resync fromRun) (.scan (y == 0xFF#8)) { s with pend := none } :=
    (if_neg (Bool.eq_false_iff.1 heos)).trans (if_neg (by simp [h]))
  have hread := runBlock_rawRead (s := atPoint (.resync fromRun) (.scan (y == 0xFF#8)) { s with pend := none })
    (.inr (.inr ⟨_, rfl⟩)) rfl rfl heos
  have hwait : waiting .raw (atPoint (.resync fromRun) (.scan (y == 0xFF#8)) { s with pend := none }) =
      atPoint (.resync fromRun) (.scan (y == 0xFF#8)) s := by rw [waiting, atPoint, atPoint, ← hpend]
  rw [exec_pair_raw hi hc (.inr rfl) hpos hpend, hskip, hread, hwait]

/-- In a scan a restart marker is found. -/
theorem exec_rstN_found (n : BitVec 3) :
    exec (.rstN n) s = .next (runBlock (resyncFound fromRun n { s with pend := none })) := by
  have hfound : rawByte ⟨.resync fromRun, .scan true⟩ (0x1A#5 ++ n) { s with pend := none } =
      resyncFound fromRun ((0x1A#5 ++ n : Byte).extractLsb' 0 3) { s with pend := none } :=
    (if_neg (Bool.eq_false_iff.1 heos)).trans (if_pos (by simp [isRstByte_append]))
  rw [exec_pair_raw (y := 0x1A#5 ++ n) rfl rfl (.inr rfl) hpos hpend, hfound, rstByte_index]

end

/-- Settles O35: each second byte at a restart check and in a scan. -/
theorem pairsInMarkerReads : Obligations.PairsInMarkerReads := by
  intro s hpend heos
  refine ⟨fun body _ hpos => ⟨fun n hn => ?_, ?_, fun b hb => ?_⟩, fun hpos => ?_, fun i hpos hcfg => ?_,
    fun fromRun hpos => ⟨?_, fun b hb => ?_⟩, fun hpos n => ?_, ?_⟩
  · exact exec_pair_wrong rfl rfl hpos hpend (mt rstByte_inj.1 hn)
  · exact exec_pair_wrong rfl rfl hpos hpend (ne_expected_of_not_rst rfl _)
  · exact exec_pair_wrong rfl rfl hpos hpend (ne_expected_of_not_rst hb _)
  · rw [exec_rstN_expected hpos hpend]
    exact congrArg _ (runBlock_rest rfl)
  · rw [exec_rstN_expected hpos hpend]
    exact congrArg _ (congrArg runBlock (blockFrom_first hcfg))
  · exact exec_pair_skipped (y := 0x00#8) hpos hpend heos rfl rfl rfl
  · exact exec_pair_skipped hpos hpend heos rfl rfl hb
  · rw [exec_rstN_found hpos hpend heos, resyncFound_step]
    exact congrArg _ (runBlock_rest rfl)
  · rintro hpos n i t rfl rfl
    rw [exec_rstN_found hpos hpend heos]
    refine ⟨fun h => ?_, fun h => ?_, fun h h0 hmp hcfg => ?_⟩
    · exact congrArg _ (runBlock_resyncFound_done (s := { s with pend := none }) h)
    · exact congrArg _ (runBlock_resyncFound_resume (s := { s with pend := none }) h)
    · exact congrArg _ ((runBlock_resyncFound_resume (s := { s with pend := none }) h).trans
        (runBlock_nextMcu_skip (s := recovered n { s with pend := none }) h hcfg rfl h0 hmp heos))

/-! ## RESTART (R163) -/

/-- In IDLE with a legal configuration RESTART begins the restart check in STEP. -/
theorem exec_restart_accepted {s : State} (hidle : s.state = .idle) (hcfg : cfgCheck s = none) :
    exec .restart s = .next (runBlock (restartCheck .restart { s with state := .step })) := by
  simp [exec, execRestart, issue, stepCommand, hidle, hcfg]

/-- Settles O37: the check by `restartCheck_eq`, its first read by the run from there. -/
theorem restartOutcome : Obligations.RestartOutcome := by
  intro s hidle hpend hcfg
  rw [exec_restart_accepted hidle hcfg, restartCheck_eq]
  refine congrArg _ ?_
  dsimp only
  split
  · split
    · exact runBlock_rest rfl
    · exact runBlock_rest rfl
  · split
    · next heos => exact runBlock_restartCheck_ended (body := .restart) (.inl rfl) rfl hpend heos
    · next heos =>
      exact runBlock_rawRead (body := .restart) (.inl rfl) rfl hpend (Bool.not_eq_true _ ▸ heos)

/-! ## RESYNC (R165, R166) -/

/-- In SYNC_HALT RESYNC is accepted: the body runs in STEP or RUN, and RUNHALT is cleared. -/
theorem exec_resync_accepted {s : State} (hstate : s.state = .syncHalt) : exec .resync s = .next (runBlock
    (resyncBegin s.runhalt { s with state := if s.runhalt then .run else .step, runhalt := false })) := by
  simp [exec, execResync, issue, hstate]

section
variable {s : State} {fromRun : Bool}

/-- A pending restart marker is found at once (R165). -/
theorem resyncBegin_pending {n : BitVec 3} (hmp : s.mp = true) (hmarker : s.marker = 0x1A#5 ++ n) :
    resyncBegin fromRun s = resyncFound fromRun n { s with bcnt := 0#4, mp := false } := by
  refine (if_pos (by simp [hmp, hmarker, isRstByte_append])).trans ?_
  dsimp only
  rw [hmarker, rstByte_index]

/-- Without one the scan begins: it suspends in its first read, or ends the command after end of stream. -/
theorem runBlock_resyncBegin_scan (h : s.mp = false ∨ isRstByte s.marker = false) (hpend : s.pend = none) :
    runBlock (resyncBegin fromRun s) = tick
      (if s.eos = true then inError 4#4 0x42#8 0#8 { s with bcnt := 0#4, mp := false }
      else waiting .raw (atPoint (.resync fromRun) (.scan (s.mp && s.marker == 0xFF#8))
        { s with bcnt := 0#4, mp := false })) := by
  have hbegin : resyncBegin fromRun s = atPoint (.resync fromRun) (.scan (s.mp && s.marker == 0xFF#8))
      { s with bcnt := 0#4, mp := false } := if_neg (by rcases h with h | h <;> simp [h])
  rw [hbegin]
  split
  · next heos => exact runBlock_scan_ended (body := .resync fromRun) rfl hpend heos
  · next heos =>
    exact runBlock_rawRead (body := .resync fromRun) (.inr (.inr ⟨_, rfl⟩)) rfl hpend (Bool.not_eq_true _ ▸ heos)

end

/-- Settles O38: a pending marker completes the command, and the scan begins without one. -/
theorem resyncFromStep : Obligations.ResyncFromStep := by
  intro s hstate hhalt hpend
  have hexec := exec_resync_accepted hstate
  simp only [hhalt, Bool.false_eq_true, if_false] at hexec
  rw [hexec]
  refine ⟨fun n hmp hmarker => ?_, fun h => ?_⟩
  · have hfound := resyncBegin_pending (fromRun := false) (s := { s with state := .step, runhalt := false }) hmp hmarker
    rw [hfound, resyncFound_step, runBlock_rest rfl, ← hhalt]
    rfl
  · have hscan := runBlock_resyncBegin_scan (fromRun := false)
      (s := { s with state := .step, runhalt := false }) h hpend
    rw [hscan, ← hhalt]
    rfl

/-- Settles O39: a pending marker resumes the driver or ends the decode, and the scan begins without one. -/
theorem resyncFromRun : Obligations.ResyncFromRun := by
  intro s hstate hhalt hpend
  have hexec := exec_resync_accepted hstate
  simp only [hhalt, if_true] at hexec
  rw [hexec]
  refine ⟨?_, fun h => ?_⟩
  · rintro n i t hmp hmarker rfl rfl
    have hfound := resyncBegin_pending (fromRun := true) (s := { s with state := .run, runhalt := false }) hmp hmarker
    rw [hfound]
    refine ⟨fun h => ?_, fun h => ?_, fun h heos hcfg => ?_⟩
    · exact congrArg _ (runBlock_resyncFound_done
        (s := { s with state := .run, runhalt := false, bcnt := 0#4, mp := false }) h)
    · exact congrArg _ (runBlock_resyncFound_resume
        (s := { s with state := .run, runhalt := false, bcnt := 0#4, mp := false }) h)
    · exact congrArg _ ((runBlock_resyncFound_resume
        (s := { s with state := .run, runhalt := false, bcnt := 0#4, mp := false }) h).trans
        (runBlock_nextMcu_skip
          (s := recovered n { s with state := .run, runhalt := false, bcnt := 0#4, mp := false }) h hcfg hpend rfl rfl
          heos))
  · have hscan := runBlock_resyncBegin_scan (fromRun := true) (s := { s with state := .run, runhalt := false }) h hpend
    rw [hscan]
    rfl

end Sys2Proof.Machine
end

section
/-! PROOFS. Frames: what an instruction may change, and what the command at a position may (for O52, O53, O54). -/

namespace Sys2Proof.Machine

/-! ## Frames -/

/-- What a run may change: bytes of memory, predictors, the rectangle with the MCU position, the restart registers. -/
structure Region where
  store : Nat → Prop
  predict : Nat → Prop
  place : Prop
  restart : Prop

/-- All that Q may change, R may change. -/
structure Region.Sub (Q R : Region) : Prop where
  store : ∀ a, Q.store a → R.store a
  predict : ∀ c, Q.predict c → R.predict c
  place : Q.place → R.place
  restart : Q.restart → R.restart

theorem Region.Sub.refl (R : Region) : R.Sub R := ⟨fun _ => id, fun _ => id, id, id⟩

/-- DEC_DC, DEC_AC and DEC_BLK (41_entropy R155-R159). -/
def isDecode (body : Body) : Prop := body = .decDc ∨ body = .decAc ∨ body = .decBlk

/-- What the command at a position may change (41_entropy R140): memory and predictors as `mayStore` and `mayPredict`
say, the rectangle and the MCU position in RUN, the restart registers in any command but a decode. -/
def regionAt (s : State) (p : Pos) : Region where
  store := mayStore { s with pos := some p }
  predict := mayPredict { s with pos := some p }
  place := bodyState p.body = .run
  restart := ¬isDecode p.body

/-- What the frames speak of, as one projection of the state. -/
def framePart (s : State) : Setup × Memory × Vector Half 3 × (List Half × BitVec 10) × Half × BitVec 3 × Word :=
  (setupOf s, s.mem, s.pred, ([s.left, s.top, s.right, s.bottom, s.mcux, s.mcuy], s.pixlen), s.rstctr, s.rstnext,
    s.bytecnt)

/-- Outside R the state t is as s was. -/
structure Framed (R : Region) (s t : State) : Prop where
  setup : setupOf t = setupOf s
  wf : t.mem.wf = true
  mem : ∀ a, ¬R.store a → t.mem.read a = s.mem.read a
  pred : ∀ c, c < 3 → ¬R.predict c → predRead t c = predRead s c
  place : ¬R.place → SameRect s t ∧ t.mcux = s.mcux ∧ t.mcuy = s.mcuy
  restart : ¬R.restart → t.rstctr = s.rstctr ∧ t.rstnext = s.rstnext
  bytes : t.bytecnt = s.bytecnt

/-- Outside R the state t is as s was, and the command at t's position may change no more than R. -/
structure Within (R : Region) (s t : State) : Prop extends Framed R s t where
  inside : ∀ p, t.pos = some p → (regionAt s p).Sub R

section
variable {R : Region} {s t u : State}

theorem Framed.refl (hwf : s.mem.wf = true) : Framed R s s :=
  ⟨rfl, hwf, fun _ _ => rfl, fun _ _ _ => rfl, fun _ => ⟨⟨rfl, rfl, rfl, rfl, rfl⟩, rfl, rfl⟩, fun _ => ⟨rfl, rfl⟩, rfl⟩

/-- The frame is a matter of `framePart` alone. -/
theorem Framed.congr (h : Framed R s t) (hu : framePart u = framePart t) : Framed R s u := by
  simp only [framePart, Prod.mk.injEq, List.cons.injEq] at hu
  obtain ⟨hsetup, hmem, hpred, ⟨⟨hl, ht, hr, hb, hx, hy, -⟩, hlen⟩, hctr, hnext, hbytes⟩ := hu
  refine ⟨hsetup.trans h.setup, hmem ▸ h.wf, fun a ha => hmem ▸ h.mem a ha,
    fun c hc hR => (show predRead u c = predRead t c by rw [predRead, predRead, hpred]).trans (h.pred c hc hR),
    fun hR => ?_, fun hR => hctr ▸ hnext ▸ h.restart hR, hbytes.trans h.bytes⟩
  rw [SameRect, hl, ht, hr, hb, hx, hy, hlen]
  exact h.place hR

theorem Framed.setMem (h : Framed R s t) {m : Memory} (hwf : m.wf = true)
    (hm : ∀ a, ¬R.store a → m.read a = t.mem.read a) : Framed R s { t with mem := m } :=
  ⟨h.setup, hwf, fun a ha => (hm a ha).trans (h.mem a ha), h.pred, h.place, h.restart, h.bytes⟩

theorem Framed.coefWrite (h : Framed R s t) {b k : Nat} (hR : R.store (coefAddr b k) ∧ R.store (coefAddr b k + 1))
    (v : Half) : Framed R s { t with mem := Machine.coefWrite t.mem b k v } := by
  refine h.setMem (wf_coefWrite b k v h.wf) fun a ha => ?_
  rw [read_coefWrite h.wf, if_neg (by rintro rfl; exact ha hR.2), if_neg (by rintro rfl; exact ha hR.1)]

theorem Framed.coefClear (h : Framed R s t) {b : Nat}
    (hR : ∀ k, 1 ≤ k → k < 64 → R.store (coefAddr b k) ∧ R.store (coefAddr b k + 1)) {m : Memory}
    (hm : Machine.coefClear t.mem b 1 63 = m) : Framed R s { t with mem := m } := by
  subst hm
  refine h.setMem (wf_coefClear b 1 63 h.wf) fun a ha => read_coefClear h.wf fun k h1 h2 => ?_
  obtain ⟨hlow, hhigh⟩ := hR k h1 (by omega)
  exact ⟨by rintro rfl; exact ha hlow, by rintro rfl; exact ha hhigh⟩

theorem predRead_predWrite_ne {c c' : Nat} (h : c' ≠ c) (t : State) (v : Half) :
    predRead (predWrite t c v) c' = predRead t c' := by
  rw [predRead, predWrite_pred, Vector.getElem?_setIfInBounds_ne h.symm, predRead]

theorem Framed.predWrite (h : Framed R s t) {c : Nat} (hR : R.predict c) (v : Half) :
    Framed R s (Machine.predWrite t c v) :=
  ⟨h.setup, h.wf, h.mem,
    fun c' hc hne => (predRead_predWrite_ne (by rintro rfl; exact hne hR) t v).trans (h.pred c' hc hne),
    h.place, h.restart, h.bytes⟩

/-- The predictors are cleared and the restart registers set. -/
theorem Framed.restarted (h : Framed R s t) (hp : ∀ c, R.predict c) (hr : R.restart) (x : Half) (n : BitVec 3) :
    Framed R s { t with pred := Vector.replicate 3 0#16, rstctr := x, rstnext := n } :=
  ⟨h.setup, h.wf, h.mem, fun c _ hne => absurd (hp c) hne, h.place, fun hne => absurd hr hne, h.bytes⟩

/-- The MCU position is written. -/
theorem Framed.setMcu (h : Framed R s t) (hR : R.place) (x y : Half) : Framed R s { t with mcux := x, mcuy := y } :=
  ⟨h.setup, h.wf, h.mem, h.pred, fun hne => absurd hR hne, h.restart, h.bytes⟩

theorem Framed.mcuAt (h : Framed R s t) (hR : R.place) (i : Nat) : Framed R s (mcuAt i t) := h.setMcu hR _ _

/-- Memory and the rectangle are written. -/
theorem Framed.setRect (h : Framed R s t) (hR : R.place) {m : Memory} (hwf : m.wf = true)
    (hm : ∀ a, ¬R.store a → m.read a = t.mem.read a) (l tp r b : Half) (len : BitVec 10) :
    Framed R s { t with mem := m, left := l, top := tp, right := r, bottom := b, pixlen := len } :=
  ⟨h.setup, hwf, fun a ha => (hm a ha).trans (h.mem a ha), h.pred, fun hne => absurd hR hne, h.restart, h.bytes⟩

/-! ### Ended and going on -/

theorem Framed.ended (h : Framed R s t) (hpos : t.pos = none) : Within R s t :=
  ⟨h, fun p hp => by cases hpos.symm.trans hp⟩

theorem Framed.complete (h : Framed R s t) : Within R s (completeCommand t) :=
  (h.congr (u := completeCommand t) rfl).ended rfl

theorem framePart_takeFault (e : BitVec 4) (d sy : Byte) (s : State) :
    framePart (takeFault e d sy s) = framePart s := by
  unfold takeFault
  split <;> rfl

theorem Framed.fault (h : Framed R s t) (e : BitVec 4) (d sy : Byte) : Within R s (takeFault e d sy t) :=
  (h.congr (framePart_takeFault e d sy t)).ended (by simp)

theorem Framed.goto (h : Framed R s t) {body : Body} {p : Point} (hp : (regionAt s ⟨body, p⟩).Sub R) :
    Within R s (Machine.goto body p t) :=
  ⟨h.congr rfl, fun q hq => by cases hq; exact hp⟩

/-- A change of neither the frame nor the position. -/
theorem Within.congr (h : Within R s t) (hu : framePart u = framePart t) (hpos : u.pos = t.pos) : Within R s u :=
  ⟨h.toFramed.congr hu, fun p hp => h.inside p (hpos ▸ hp)⟩

end

theorem Within.raiseInt {R : Region} {s t : State} (h : Within R s t) (bit : BitVec 8) :
    Within R s (Machine.raiseInt bit t) := h.congr rfl rfl

/-! ## The region of a block's decode, and of the driver -/

/-- What a body that decodes slot b for component c may change. -/
def blockRegion (s : State) (body : Body) (c b : Nat) : Region := regionAt s ⟨body, .dcCode c b 0 0⟩

/-- The region depends on the body, the slot and the component alone. -/
theorem regionAt_block {p : Point} {c b : Nat} (hb : pointSlot p = some b) (hc : pointComp p = some c) (s : State)
    (body : Body) : regionAt s ⟨body, p⟩ = blockRegion s body c b := by
  cases p <;> cases hb <;> cases hc <;> rfl

section
variable {R : Region} {s : State} {body : Body} {c b : Nat}

/-- A body that decodes a DC symbol may store to COEF[b][0]. -/
theorem store_dc {t : Byte} (hf : bodyFits body (.dcSymbol c b t) = true) (h : (blockRegion s body c b).Sub R) :
    R.store (coefAddr b 0) ∧ R.store (coefAddr b 0 + 1) := by
  cases body with
  | decDc => exact ⟨h.store _ ⟨b, rfl, .inl rfl⟩, h.store _ ⟨b, rfl, .inr rfl⟩⟩
  | decBlk =>
    exact ⟨h.store _ ⟨b, rfl, 0, by decide, .inl rfl⟩, h.store _ ⟨b, rfl, 0, by decide, .inr rfl⟩⟩
  | drive i =>
    exact ⟨h.store _ (.inl ⟨b, rfl, 0, by decide, .inl rfl⟩), h.store _ (.inl ⟨b, rfl, 0, by decide, .inr rfl⟩)⟩
  | decAc | restart | resync => simp [bodyFits] at hf

/-- A body that decodes AC symbols may store to COEF[b][1..63]. -/
theorem store_ac {t : Byte} {k : Nat} (hf : bodyFits body (.acSymbol c b 1 t) = true)
    (h : (blockRegion s body c b).Sub R) (h1 : 1 ≤ k) (h64 : k < 64) :
    R.store (coefAddr b k) ∧ R.store (coefAddr b k + 1) := by
  cases body with
  | decAc => exact ⟨h.store _ ⟨b, k, rfl, h1, h64, .inl rfl⟩, h.store _ ⟨b, k, rfl, h1, h64, .inr rfl⟩⟩
  | decBlk => exact ⟨h.store _ ⟨b, rfl, k, h64, .inl rfl⟩, h.store _ ⟨b, rfl, k, h64, .inr rfl⟩⟩
  | drive i => exact ⟨h.store _ (.inl ⟨b, rfl, k, h64, .inl rfl⟩), h.store _ (.inl ⟨b, rfl, k, h64, .inr rfl⟩)⟩
  | decDc | restart | resync => simp [bodyFits] at hf

/-- A body that decodes a DC symbol may write its component's predictor. -/
theorem predict_dc {t : Byte} (hf : bodyFits body (.dcSymbol c b t) = true) (h : (blockRegion s body c b).Sub R) :
    R.predict c := by
  cases body with
  | decDc | decBlk => exact h.predict _ rfl
  | drive i => exact h.predict _ trivial
  | decAc | restart | resync => simp [bodyFits] at hf

/-- What a body may change where it decodes no block. -/
def headRegion (s : State) (body : Body) : Region := regionAt s ⟨body, .emit⟩

theorem regionAt_head {p : Point} (hp : pointSlot p = none) (s : State) (body : Body) :
    regionAt s ⟨body, p⟩ = headRegion s body := by
  cases p <;> cases hp <;> rfl

/-- A command that is no decode may clear the predictors and set the restart registers. -/
theorem predict_restart (hb : ¬isDecode body) (h : (headRegion s body).Sub R) :
    (∀ c, R.predict c) ∧ R.restart := by
  refine ⟨fun c => h.predict c ?_, h.restart hb⟩
  cases body with
  | decDc | decAc | decBlk => simp [isDecode] at hb
  | restart | resync | drive => trivial

/-- A region that holds all that the driver may change at its own buffers. -/
def DriverIn (s : State) (R : Region) : Prop := (headRegion s (.drive 0)).Sub R

theorem driverIn_drive {i : Nat} {p : Point} (h : (regionAt s ⟨.drive i, p⟩).Sub R) : DriverIn s R :=
  ⟨fun a ha => h.store a (ha.elim (fun ⟨_, hb, _⟩ => nomatch hb) .inr), h.predict, h.place,
    fun _ => h.restart (by simp [regionAt, isDecode])⟩

theorem driverIn_resync {p : Point} (h : (regionAt s ⟨.resync true, p⟩).Sub R) : DriverIn s R :=
  ⟨fun a ha => h.store a (ha.elim (fun ⟨_, hb, _⟩ => nomatch hb) fun ha => ⟨rfl, ha⟩), h.predict, fun _ => h.place rfl,
    fun _ => h.restart (by simp [regionAt, isDecode])⟩

namespace DriverIn
variable (h : DriverIn s R)
include h

theorem store {a : Nat} (ha : inDriverBuffer s a) : R.store a := Region.Sub.store h a (.inr ha)
theorem predict (c : Nat) : R.predict c := Region.Sub.predict h c trivial
theorem place : R.place := Region.Sub.place h rfl
theorem restart : R.restart := Region.Sub.restart h (by simp [headRegion, regionAt, isDecode])

/-- At a point that decodes none of the MCU's blocks the driver's region is its own buffers. -/
theorem at_head {i : Nat} {p : Point} (hp : pointSlot p = none) : (regionAt s ⟨.drive i, p⟩).Sub R :=
  ⟨fun _ ha => ha.elim (fun ⟨_, hb, _⟩ => nomatch hp.symm.trans hb) h.store, fun c _ => h.predict c,
    fun _ => h.place, fun _ => h.restart⟩

/-- At a slot of the MCU too. -/
theorem at_slot {i : Nat} (hb : b < slotCount s) : (blockRegion s (.drive i) c b).Sub R := by
  refine ⟨fun a ha => h.store ?_, fun c _ => h.predict c, fun _ => h.place, fun _ => h.restart⟩
  rcases ha with ⟨b', hb', ha⟩ | ha
  · cases hb'
    exact .inl ⟨b, hb, .inl ha⟩
  · exact ha

end DriverIn

end

end Sys2Proof.Machine
end

section
/-! PROOFS. The sizes of an MCU's tiles and rectangle, and where the transform and the assembly store. -/

namespace Sys2Proof.Machine

/-! ## The bytes of an MCU (42_idct R190, 43_color R203-R210) -/

theorem idctSamples_length (s : State) (b q : Nat) : (idctSamples s b q).length = 64 := by
  simp [idctSamples, tileLayout]

/-- The transform writes memory alone. -/
theorem idctBlock_eq (b q : Nat) (s : State) : idctBlock b q s = { s with mem := (idctBlock b q s).mem } := by
  simp only [idctBlock]

/-- The transform of slot b stores to TILE[b] alone. -/
theorem read_idctBlock {s : State} (hwf : s.mem.wf = true) {b a : Nat} (ha : ¬inTileSlot b a) (q : Nat) :
    (idctBlock b q s).mem.read a = s.mem.read a := by
  rw [idctBlock_mem]
  refine read_tileWrite hwf fun n hn => ?_
  rintro rfl
  exact ha ⟨n, idctSamples_length s b q ▸ hn, rfl⟩

section
variable (s : State)

theorem scale_lt : scale s < 4 := (s.cfg0.extractLsb' 2 2).isLt

theorem blockSize_eq : blockSize s = 8 / 2 ^ scale s := Nat.shiftRight_eq_div_pow 8 (scale s)

/-- The block size is 1, 2, 4 or 8 (42_idct R186). -/
theorem blockSize_cases : blockSize s = 8 ∨ blockSize s = 4 ∨ blockSize s = 2 ∨ blockSize s = 1 := by
  have h := scale_lt s
  rw [blockSize]
  interval_cases scale s <;> simp

/-- A multiple of 8 scales by the block size (R204). -/
theorem scaled_eight (h : Nat) : (8 * h) >>> scale s = blockSize s * h := by
  have hs := scale_lt s
  rw [Nat.shiftRight_eq_div_pow, blockSize_eq]
  interval_cases scale s <;> omega

theorem scaledMcuWidth_eq : scaledMcuWidth s = blockSize s * hFactor s 0 := scaled_eight s _
theorem scaledMcuHeight_eq : scaledMcuHeight s = blockSize s * vFactor s 0 := scaled_eight s _

end

/-- The assembly writes the pixel buffer and the rectangle. -/
theorem assembleMcu_eq (s : State) : assembleMcu s = { s with
    mem := (assembleMcu s).mem, left := (assembleMcu s).left, top := (assembleMcu s).top
    right := (assembleMcu s).right, bottom := (assembleMcu s).bottom, pixlen := (assembleMcu s).pixlen } := by
  simp only [assembleMcu]

section
variable {s : State} (h : Accepted s)
include h

theorem factors_zero : (hFactor s 0 = 1 ∨ hFactor s 0 = 2) ∧ (vFactor s 0 = 1 ∨ vFactor s 0 = 2) :=
  h.factors 0 (by rcases h.ncomp with e | e <;> omega)

/-- The scaled MCU is 1 to 16 pixels wide and high. -/
theorem scaledMcu_bounds :
    (0 < scaledMcuWidth s ∧ scaledMcuWidth s ≤ 16) ∧ 0 < scaledMcuHeight s ∧ scaledMcuHeight s ≤ 16 := by
  obtain ⟨hh, hv⟩ := factors_zero h
  have hn := blockSize_cases s
  rw [scaledMcuWidth_eq, scaledMcuHeight_eq]
  rcases hh with e | e <;> rcases hv with e' | e' <;> rw [e, e'] <;> omega

/-- The rectangle is no larger than the scaled MCU (R206). -/
theorem rect_le : rectCols s ≤ 16 ∧ rectRows s ≤ 16 := by
  obtain ⟨hw, hh⟩ := scaledMcu_bounds h
  unfold rectCols rectRows rectRight rectBottom
  omega

/-- Every pixel takes the bytes of its format (R208). -/
theorem pixelBytes_length (i j : Nat) : (pixelBytes s i j).length = bytesPerPixel s := by
  have hfmt := h.pixfmt
  have hlt : pixfmt s < 4 := (s.cfg0.extractLsb' 4 2).isLt
  unfold pixelBytes bytesPerPixel packRgb
  interval_cases pixfmt s
  · cases rgbOrder s <;> rfl
  · cases r565Be s <;> rfl
  · rfl
  · exact absurd rfl hfmt

omit h in
theorem bytesPerPixel_le (s : State) : bytesPerPixel s ≤ 3 := by
  unfold bytesPerPixel
  split
  · omega
  · split <;> omega

/-- The bytes of the rectangle are its pixels' bytes, and fit the pixel buffer (R210). -/
theorem rectBytes_length : (rectBytes s).length = rectCols s * rectRows s * bytesPerPixel s := by
  simp only [rectBytes, List.length_flatMap, pixelBytes_length h, List.map_const', List.sum_replicate,
    List.length_range, smul_eq_mul]
  ring

theorem rectBytes_le : (rectBytes s).length ≤ Config.pixBytes := by
  rw [rectBytes_length h]
  obtain ⟨hc, hr⟩ := rect_le h
  calc rectCols s * rectRows s * bytesPerPixel s ≤ 16 * 16 * 3 :=
        Nat.mul_le_mul (Nat.mul_le_mul hc hr) (bytesPerPixel_le s)
    _ = Config.pixBytes := rfl

/-- The assembly stores to the pixel buffer alone. -/
theorem read_assembleMcu (hwf : s.mem.wf = true) {a : Nat} (ha : ¬inPixBuffer a) :
    (assembleMcu s).mem.read a = s.mem.read a := by
  have hle := rectBytes_le h
  simp only [assembleMcu]
  refine read_pixWrite hwf fun i hi => ?_
  rintro rfl
  rw [List.length_append, List.length_replicate] at hi
  exact ha ⟨i, by omega, rfl⟩

end

end Sys2Proof.Machine
end

section
/-! PROOFS. Every move of the block keeps the frame of the command being executed, and leads to no point whose own frame is
wider. -/

namespace Sys2Proof.Machine

/-! ## The operations of a run -/

section
variable {R : Region} {s t : State} {body : Body} {c b : Nat}

/-- A block's decode goes on at a point of its own. -/
theorem Framed.gotoBlock (h : Framed R s t) (hp : (blockRegion s body c b).Sub R) {p : Point}
    (hb : pointSlot p = some b) (hc : pointComp p = some c) : Within R s (Machine.goto body p t) :=
  h.goto (regionAt_block hb hc s body ▸ hp)

theorem Framed.gotoHead (h : Framed R s t) (hp : (headRegion s body).Sub R) {p : Point} (hb : pointSlot p = none) :
    Within R s (Machine.goto body p t) :=
  h.goto (regionAt_head hb s body ▸ hp)

/-! ### The driver and the restart markers -/

section
variable (hd : DriverIn s R)
include hd

theorem Framed.idctBlock (h : Framed R s t) (hb : b < slotCount s) (q : Nat) :
    Framed R s (Machine.idctBlock b q t) := by
  have hread : ∀ a, ¬R.store a → (Machine.idctBlock b q t).mem.read a = t.mem.read a := fun a ha =>
    read_idctBlock h.wf (fun hin => ha (hd.store (.inl ⟨b, hb, .inr hin⟩))) q
  have hwf : (Machine.idctBlock b q t).mem.wf = true := by rw [idctBlock_mem]; exact wf_tileWrite _ _ h.wf
  rw [idctBlock_eq]
  exact h.setMem hwf hread

theorem Framed.idctAll (h : Framed R s t) : Framed R s (Machine.idctAll t) := by
  have hslots : ∀ b ∈ List.range (slotCount t), b < slotCount s := fun b hb =>
    slotCount_of_setup h.setup ▸ List.mem_range.1 hb
  unfold Machine.idctAll
  generalize List.range (slotCount t) = l at hslots
  suffices ∀ u, Framed R s u → Framed R s (l.foldl (fun u b => Machine.idctBlock b (qSel t (compOf t b)) u) u) from
    this t h
  induction l with
  | nil => exact fun u hu => hu
  | cons b l ih =>
    intro u hu
    rw [List.foldl_cons]
    exact ih (fun b' hb' => hslots b' (List.mem_cons_of_mem b hb')) _
      (hu.idctBlock hd (hslots b List.mem_cons_self) _)

variable (hcfg : cfgCheck s = none)
include hcfg

theorem Framed.assembleMcu (h : Framed R s t) : Framed R s (Machine.assembleMcu t) := by
  have hacc : Accepted t := accepted_of_cfg ((cfgCheck_of_setup h.setup).trans hcfg)
  rw [assembleMcu_eq]
  exact h.setRect hd.place (wf_assembleMcu h.wf)
    (fun a ha => read_assembleMcu hacc h.wf fun hin => ha (hd.store (.inr hin))) _ _ _ _ _

theorem Framed.blockFrom (h : Framed R s t) (i b : Nat) : Within R s (Machine.blockFrom i b t) := by
  unfold Machine.blockFrom
  split
  · next hb => exact h.gotoBlock (hd.at_slot (slotCount_of_setup h.setup ▸ hb)) rfl rfl
  · exact (((h.idctAll hd).assembleMcu hd hcfg).gotoHead (hd.at_head rfl) rfl).raiseInt _

end

section
variable (hcfg : cfgCheck s = none)
include hcfg

theorem Framed.afterRestart (h : Framed R s t) (hp : (headRegion s body).Sub R) :
    Within R s (Machine.afterRestart body t) := by
  cases body with
  | drive i => exact h.blockFrom (driverIn_drive hp) hcfg i 0
  | _ => exact h.complete

theorem Framed.checkMarker (h : Framed R s t) (hb : ¬isDecode body) (hp : (headRegion s body).Sub R) (x : Byte) :
    Within R s (Machine.checkMarker body x t) := by
  obtain ⟨hpred, hrst⟩ := predict_restart hb hp
  unfold Machine.checkMarker
  split
  · exact (h.restarted hpred hrst _ _).afterRestart hcfg hp
  · exact (h.congr (u := { t with mp := true, marker := x }) rfl).fault _ _ _

theorem Framed.restartCheck (h : Framed R s t) (hb : ¬isDecode body) (hp : (headRegion s body).Sub R) :
    Within R s (Machine.restartCheck body t) := by
  unfold Machine.restartCheck
  dsimp only
  split
  · exact (h.congr (u := { t with bcnt := 0#4, mp := false }) rfl).checkMarker hcfg hb hp _
  · exact (h.congr (u := { t with bcnt := 0#4 }) rfl).gotoHead hp rfl

theorem Framed.nextMcuStep (h : Framed R s t) (hd : DriverIn s R) (i : Nat) (skip : Bool) :
    Within R s (Machine.nextMcuStep i skip t) := by
  by_cases hi : i < nmcu t
  · rw [nextMcuStep_inside hi]
    split
    · exact (h.mcuAt hd.place i).restartCheck hcfg (by simp [isDecode]) (hd.at_head rfl)
    · exact (h.mcuAt hd.place i).blockFrom hd hcfg i 0
  · unfold Machine.nextMcuStep
    rw [if_neg hi]
    exact (h.congr (u := raiseInt intDone { endCommand t with state := .done }) rfl).ended rfl

omit hcfg in
theorem Framed.resyncFound {fromRun : Bool} (h : Framed R s t) (hp : (headRegion s (.resync fromRun)).Sub R)
    (n : BitVec 3) : Within R s (Machine.resyncFound fromRun n t) := by
  obtain ⟨hpred, hrst⟩ := predict_restart (by simp [isDecode]) hp
  have hrec : Framed R s (recovered n t) := (h.restarted hpred hrst t.rstint (n + 1#3)).congr rfl
  cases fromRun with
  | false => exact hrec.complete
  | true =>
    have hd := driverIn_resync hp
    rw [resyncFound_run]
    split
    · exact (hrec.congr (u := inDone (recovered n t)) rfl).ended rfl
    · exact hrec.gotoHead (hd.at_head rfl) rfl

omit hcfg in
theorem Framed.resyncBegin {fromRun : Bool} (h : Framed R s t) (hp : (headRegion s (.resync fromRun)).Sub R) :
    Within R s (Machine.resyncBegin fromRun t) := by
  have h' : Framed R s { t with bcnt := 0#4, mp := false } := h.congr rfl
  unfold Machine.resyncBegin
  dsimp only
  split
  · exact h'.resyncFound hp _
  · exact h'.gotoHead hp rfl

/-- The byte of a RawRead, at the points that read one. -/
theorem Framed.rawByte {p : Point} (h : Framed R s t) (hf : bodyFits body p = true)
    (hpoint : p = .rstFirst ∨ p = .rstSecond ∨ ∃ q, p = .scan q) (hp : (headRegion s body).Sub R) (x : Byte) :
    Within R s (Machine.rawByte ⟨body, p⟩ x t) := by
  have hb : ¬isDecode body := by
    rintro (rfl | rfl | rfl) <;> rcases hpoint with rfl | rfl | ⟨q, rfl⟩ <;> simp [bodyFits] at hf
  rcases hpoint with rfl | rfl | ⟨q, rfl⟩
  · unfold Machine.rawByte
    dsimp only
    split
    · exact h.gotoHead hp rfl
    · exact h.fault _ _ _
  · exact h.checkMarker hcfg hb hp x
  · unfold Machine.rawByte
    dsimp only
    split
    · exact h.fault _ _ _
    · cases body with
      | resync fromRun =>
        unfold scanByte
        split
        · exact h.resyncFound hp _
        · exact h.gotoHead hp rfl
      | _ => simp [bodyFits] at hf

end

/-! ### A block's decode -/

section
variable (hp : (blockRegion s body c b).Sub R)
include hp

theorem Framed.blockDone (h : Framed R s t) (hcfg : cfgCheck s = none) : Within R s (Machine.blockDone body b t) := by
  cases body with
  | drive i => exact h.blockFrom (driverIn_drive hp) hcfg i (b + 1)
  | _ => exact h.complete

theorem Framed.startAc (h : Framed R s t) {sy : Byte} (hf : bodyFits body (.acSymbol c b 1 sy) = true) :
    Within R s (Machine.startAc body c b t) :=
  (h.coefClear (fun _ h1 h64 => store_ac hf hp h1 h64) rfl).gotoBlock hp rfl rfl

theorem Framed.dcFinish (h : Framed R s t) {sy : Byte} (hf : bodyFits body (.dcSymbol c b sy) = true) (d : Int) :
    Within R s (Machine.dcFinish body c b d t) := by
  have hdone := (h.coefWrite (store_dc hf hp) (s16 ((predRead t c).toInt + d))).predWrite (predict_dc hf hp)
    (s16 ((predRead t c).toInt + d))
  cases body with
  | decDc => exact hdone.complete
  | decBlk | drive => exact hdone.startAc hp (sy := sy) rfl
  | decAc | restart | resync => simp [bodyFits] at hf

theorem Framed.acNext (h : Framed R s t) (hcfg : cfgCheck s = none) (k : Nat) :
    Within R s (Machine.acNext body c b k t) := by
  unfold Machine.acNext
  split
  · exact h.gotoBlock hp rfl rfl
  · exact h.blockDone hp hcfg

theorem Framed.dcReceive (h : Framed R s t) {sy : Byte} (hf : bodyFits body (.dcSymbol c b sy) = true)
    (size left raw : Nat) (bit : Bool) : Within R s (Machine.dcReceive body c b size left raw bit t) := by
  unfold Machine.dcReceive
  split
  · exact h.dcFinish hp hf _
  · exact h.gotoBlock hp rfl rfl

theorem Framed.acReceive (h : Framed R s t) (hcfg : cfgCheck s = none) {sy : Byte} {k : Nat}
    (hf : bodyFits body (.acSymbol c b 1 sy) = true) (h1 : 1 ≤ k) (h64 : k < 64) (size left raw : Nat) (bit : Bool) :
    Within R s (Machine.acReceive body c b k size left raw bit t) := by
  unfold Machine.acReceive
  split
  · exact (h.coefWrite (store_ac hf hp h1 h64) _).acNext hp hcfg (k + 1)
  · exact h.gotoBlock hp rfl rfl

end

/-- NextBit and what is done with the bit. -/
theorem Within.withBit (h : Within R s t) {use : Bool → State → State}
    (huse : ∀ bit u, Framed R s u → Within R s (use bit u)) : Within R s (Machine.withBit t use) := by
  unfold Machine.withBit
  split
  · split
    · exact huse _ _ (h.toFramed.congr rfl)
    · exact h.congr rfl rfl
  · exact huse _ _ (h.toFramed.congr rfl)

theorem Framed.huffBit (h : Framed R s t) {T : HuffTable} {len code : Nat} {bit : Bool}
    {matched : Byte → State → State} {more : Nat → Nat → State → State} (h1 : ∀ sy, Within R s (matched sy t))
    (h2 : ∀ l v, Within R s (more l v t)) : Within R s (Machine.huffBit T len code bit matched more t) := by
  unfold Machine.huffBit
  split
  · exact h1 _
  · split
    · exact h.fault _ _ _
    · exact h2 _ _

theorem Within.withRawByte (h : Within R s t) {use : Byte → State → State}
    (huse : ∀ x, Within R s (use x t)) : Within R s (Machine.withRawByte t use) := by
  unfold Machine.withRawByte
  split
  · exact huse _
  · exact h.congr rfl rfl

end

/-! ## The symbols and the moves -/

/-- A stream symbol is read as a DC symbol, as an AC symbol, or as the second byte of a pair (30_encoding
R102-R105). -/
theorem symbol_space {i : Instr} (hwf : i.wellFormed = true) (hc : isCommand i = false) :
    (∃ t, i = decodeDcSymbol t) ∨ (∃ t, i = decodeAcSymbol t) ∨ ∃ y, ∀ s, symbolEffect i s = afterFf y s := by
  have hd := encodeThenDecode i hwf
  cases i with
  | dcDiff | dcIllegal => exact .inl ⟨_, (Except.ok.inj hd).symm⟩
  | acEob | acZrl | acRunsize | acUndef => exact .inr (.inl ⟨_, (Except.ok.inj hd).symm⟩)
  | stuffFf00 | rstN | markerOther => exact .inr (.inr ⟨_, fun _ => rfl⟩)
  | _ => cases hc

theorem pos_of_dcSymbolAt {s : State} {x : Body × Nat × Nat} (h : dcSymbolAt s = some x) :
    ∃ t, s.pos = some ⟨x.1, .dcSymbol x.2.1 x.2.2 t⟩ := by
  unfold dcSymbolAt at h
  split at h
  · next hpos => cases h; exact ⟨_, hpos⟩
  · cases h

theorem pos_of_acSymbolAt {s : State} {x : Body × Nat × Nat × Nat} (h : acSymbolAt s = some x) :
    ∃ t, s.pos = some ⟨x.1, .acSymbol x.2.1 x.2.2.1 x.2.2.2 t⟩ := by
  unfold acSymbolAt at h
  split at h
  · next hpos => cases h; exact ⟨_, hpos⟩
  · cases h

/-- A DC symbol has an effect at a point that has matched one. -/
theorem pos_of_dcEffect {s u : State} {t : Byte} (h : symbolEffect (decodeDcSymbol t) s = some u) :
    ∃ body c b x, s.pos = some ⟨body, .dcSymbol c b x⟩ := by
  have hat : ∃ x, dcSymbolAt s = some x := by
    unfold decodeDcSymbol at h
    split at h
    · obtain ⟨x, hx, -⟩ := Option.map_eq_some_iff.1 h; exact ⟨x, hx⟩
    · obtain ⟨x, hx, -⟩ := Option.map_eq_some_iff.1 h; exact ⟨x, hx⟩
  obtain ⟨x, hx⟩ := hat
  obtain ⟨y, hpos⟩ := pos_of_dcSymbolAt hx
  exact ⟨_, _, _, y, hpos⟩

/-- An AC symbol has an effect at a point that has matched one. -/
theorem pos_of_acEffect {s u : State} {t : Byte} (h : symbolEffect (decodeAcSymbol t) s = some u) :
    ∃ body c b k x, s.pos = some ⟨body, .acSymbol c b k x⟩ := by
  have hat : ∃ x, acSymbolAt s = some x := by
    unfold decodeAcSymbol at h
    split at h
    · obtain ⟨x, hx, -⟩ := Option.map_eq_some_iff.1 h; exact ⟨x, hx⟩
    split at h
    · obtain ⟨x, hx, -⟩ := Option.map_eq_some_iff.1 h; exact ⟨x, hx⟩
    split at h
    · obtain ⟨x, hx, -⟩ := Option.map_eq_some_iff.1 h; exact ⟨x, hx⟩
    · obtain ⟨x, hx, -⟩ := Option.map_eq_some_iff.1 h; exact ⟨x, hx⟩
  obtain ⟨x, hx⟩ := hat
  obtain ⟨y, hpos⟩ := pos_of_acSymbolAt hx
  exact ⟨_, _, _, _, y, hpos⟩

/-- Nothing is outstanding at a point that has matched a symbol. -/
theorem pend_of_symbol {s : State} (h : s.Inv) {p : Pos} (hpos : s.pos = some p)
    (hp : (∃ c b t, p.point = .dcSymbol c b t) ∨ ∃ c b k t, p.point = .acSymbol c b k t) : s.pend = none := by
  obtain ⟨-, -, -, -, hpend, -⟩ := h
  cases hq : s.pend with
  | none => rfl
  | some q =>
    obtain ⟨body, point⟩ := p
    rcases hp with ⟨c, b, t, rfl⟩ | ⟨c, b, k, t, rfl⟩ <;> cases q <;> simp [pendOk, hpos, hq] at hpend

/-- The second byte of a pair has an effect where one is awaited. -/
theorem awaits_of_afterFf {s u : State} {y : Byte} (hu : afterFf y s = some u) : awaitsAfterFf s = true := by
  by_contra hne
  rw [afterFf_eq_none (Bool.not_eq_true _ ▸ hne)] at hu
  cases hu

/-- The second byte of a pair leaves the invariant. -/
theorem inv_afterFf {s u : State} (h : s.Inv) {y : Byte} (hu : afterFf y s = some u) : u.Inv := by
  rcases awaitsAfterFf_cases (awaits_of_afterFf hu) with ⟨p, hpos, hpend⟩ | ⟨⟨body, point⟩, hpoint, hpos, hpend⟩
  · obtain ⟨-, hp, hf⟩ := pos_some h hpos
    have hrun := running_answered h hpos
    have hload : ∀ v : State, v.pos = some p → Running p.body (loadByte 0xFF#8 v) → (loadByte 0xFF#8 v).Inv :=
      fun v hv hr => (moved_same hr hv hp hf).inv
    rw [afterFf_data hpos hpend] at hu
    obtain rfl := Option.some.inj hu
    split
    · exact hload s hpos (hrun.of_eq rfl hrun.wf (show (8#4).toNat ≤ 8 by decide) rfl rfl rfl)
    · exact hload { s with mp := true, marker := y } hpos
        (hrun.of_eq rfl hrun.wf (show (8#4).toNat ≤ 8 by decide) rfl rfl rfl)
  · obtain ⟨-, -, hf⟩ := pos_some h hpos
    rw [afterFf_raw hpoint hpos hpend] at hu
    obtain rfl := Option.some.inj hu
    have hcost : pointCost point < 100000 := by rcases hpoint with h | h <;> cases h <;> simp [pointCost]
    refine (moved_rawByte (n := 100000) y (running_answered h hpos) ?_ hf hcost.le (.inr hcost)).inv
    rcases hpoint with h | h
    · exact .inr (.inl h)
    · exact .inr (.inr ⟨true, h⟩)

/-- The effect of a stream symbol leaves the invariant. -/
theorem inv_symbolEffect {i : Instr} {s u : State} (h : s.Inv) (hwf : i.wellFormed = true)
    (hc : isCommand i = false) (hu : symbolEffect i s = some u) : u.Inv := by
  rcases symbol_space hwf hc with ⟨t, rfl⟩ | ⟨t, rfl⟩ | ⟨y, hy⟩
  · obtain ⟨body, c, b, x, hpos⟩ := pos_of_dcEffect hu
    obtain ⟨hrun, hp, hf⟩ := running_of_inv h hpos (pend_of_symbol h hpos (.inl ⟨_, _, _, rfl⟩))
    obtain ⟨v, hv, hm⟩ := moved_decodeDc (t := t) hrun hpos hp hf le_rfl
    cases hv.symm.trans hu
    exact hm.inv
  · obtain ⟨body, c, b, k, x, hpos⟩ := pos_of_acEffect hu
    obtain ⟨hrun, hp, hf⟩ := running_of_inv h hpos (pend_of_symbol h hpos (.inr ⟨_, _, _, _, rfl⟩))
    obtain ⟨v, hv, hm⟩ := moved_decodeAc (t := t) hrun hpos hp hf le_rfl
    cases hv.symm.trans hu
    exact hm.inv
  · exact inv_afterFf h ((hy s).symm.trans hu)

section
variable {R : Region} {s t u : State} (hi : t.Inv) (h : Within R s t)
include hi h

/-- A DC symbol at the point that has matched one keeps the frame. -/
theorem within_decodeDc {body : Body} {c b : Nat} {x : Byte} (hpos : t.pos = some ⟨body, .dcSymbol c b x⟩) {y : Byte}
    (hu : symbolEffect (decodeDcSymbol y) t = some u) : Within R s u := by
  obtain ⟨-, -, hf⟩ := pos_some hi hpos
  have hp := h.inside _ hpos
  unfold decodeDcSymbol at hu
  split at hu
  · cases (dcDiffEffect_at hpos _).symm.trans hu
    split
    · exact h.toFramed.dcFinish hp hf 0
    · exact h.toFramed.gotoBlock hp rfl rfl
  · cases (dcIllegalEffect_at hpos _).symm.trans hu
    exact h.toFramed.fault _ _ _

variable (hcfg : cfgCheck s = none)
include hcfg

omit hi in
/-- An AC symbol at the point that has matched one keeps the frame. -/
theorem within_decodeAc {body : Body} {c b k : Nat} {x : Byte} (hpos : t.pos = some ⟨body, .acSymbol c b k x⟩)
    {y : Byte} (hu : symbolEffect (decodeAcSymbol y) t = some u) : Within R s u := by
  have hp := h.inside _ hpos
  unfold decodeAcSymbol at hu
  split at hu
  · cases (acEobEffect_at hpos).symm.trans hu
    exact h.toFramed.blockDone hp hcfg
  split at hu
  · cases (acZrlEffect_at hpos).symm.trans hu
    split
    · exact h.toFramed.fault _ _ _
    · exact h.toFramed.acNext hp hcfg _
  split at hu
  · cases (acUndefEffect_at hpos _).symm.trans hu
    exact h.toFramed.fault _ _ _
  · cases (acRunsizeEffect_at hpos _ _).symm.trans hu
    split
    · exact h.toFramed.fault _ _ _
    · exact h.toFramed.gotoBlock hp rfl rfl

/-- The second byte of a pair keeps the frame. -/
theorem within_afterFf {y : Byte} (hu : afterFf y t = some u) : Within R s u := by
  rcases awaitsAfterFf_cases (awaits_of_afterFf hu) with ⟨p, hpos, hpend⟩ | ⟨⟨body, point⟩, hpoint, hpos, hpend⟩
  · rw [afterFf_data hpos hpend] at hu
    obtain rfl := Option.some.inj hu
    split
    · exact h.congr rfl rfl
    · exact h.congr rfl rfl
  · obtain ⟨-, -, hf⟩ := pos_some hi hpos
    rw [afterFf_raw hpoint hpos hpend] at hu
    obtain rfl := Option.some.inj hu
    have hslot : pointSlot point = none := by rcases hpoint with h | h <;> cases h <;> rfl
    have hread : point = .rstFirst ∨ point = .rstSecond ∨ ∃ q, point = .scan q := by
      rcases hpoint with h | h
      · exact .inr (.inl h)
      · exact .inr (.inr ⟨true, h⟩)
    have hframed : Framed R s { t with pend := none } := h.toFramed.congr rfl
    exact hframed.rawByte hcfg hf hread (regionAt_head hslot s body ▸ h.inside _ hpos) y

/-- ONE MOVE of the block keeps the frame of the command being executed. -/
theorem within_blockMove : Within R s (blockMove t) := by
  cases hpos : t.pos with
  | none => rw [blockMove, hpos]; exact h
  | some p =>
    obtain ⟨body, point⟩ := p
    obtain ⟨-, hpt, hf⟩ := pos_some hi hpos
    have hp := h.inside _ hpos
    have hraw : ∀ q, pointSlot q = none → t.pos = some ⟨body, q⟩ → bodyFits body q = true →
        (q = .rstFirst ∨ q = .rstSecond ∨ ∃ x, q = .scan x) → Within R s (withRawByte t (rawByte ⟨body, q⟩)) :=
      fun q hq hposq hfq hread => h.withRawByte fun x =>
        h.toFramed.rawByte hcfg hfq hread (regionAt_head hq s body ▸ h.inside _ hposq) x
    cases point with
    | dcCode c b len code =>
      rw [blockMove_dcCode hpos]
      exact h.withBit fun bit v hv => hv.huffBit (fun _ => hv.gotoBlock hp rfl rfl) fun _ _ => hv.gotoBlock hp rfl rfl
    | dcSymbol c b x =>
      rw [blockMove_dcSymbol hpos]
      cases hu : symbolEffect (decodeDcSymbol x) t with
      | none => exact h
      | some u => exact within_decodeDc hi h hpos hu
    | dcBits c b size left raw =>
      rw [blockMove_dcBits hpos]
      have hf' : bodyFits body (.dcSymbol c b 0#8) = true := by cases body <;> simp_all [bodyFits]
      exact h.withBit fun bit v hv => hv.dcReceive (sy := 0#8) hp hf' size left raw bit
    | acCode c b k len code =>
      rw [blockMove_acCode hpos]
      exact h.withBit fun bit v hv => hv.huffBit (fun _ => hv.gotoBlock hp rfl rfl) fun _ _ => hv.gotoBlock hp rfl rfl
    | acSymbol c b k x =>
      rw [blockMove_acSymbol hpos]
      cases hu : symbolEffect (decodeAcSymbol x) t with
      | none => exact h
      | some u => exact within_decodeAc h hcfg hpos hu
    | acBits c b k size left raw =>
      rw [blockMove_acBits hpos]
      have hf' : bodyFits body (.acSymbol c b 1 0#8) = true := by cases body <;> simp_all [bodyFits]
      simp only [pointOk, Bool.and_eq_true, decide_eq_true_eq] at hpt
      exact h.withBit fun bit v hv =>
        hv.acReceive (sy := 0#8) hp hcfg hf' (by omega) (by omega) size left raw bit
    | rstFirst => rw [blockMove_rstFirst hpos]; exact hraw _ rfl hpos hf (.inl rfl)
    | rstSecond => rw [blockMove_rstSecond hpos]; exact hraw _ rfl hpos hf (.inr (.inl rfl))
    | scan q => rw [blockMove_scan hpos]; exact hraw _ rfl hpos hf (.inr (.inr ⟨q, rfl⟩))
    | nextMcu skip =>
      cases body with
      | drive i => rw [blockMove_nextMcu hpos]; exact h.toFramed.nextMcuStep hcfg (driverIn_drive hp) i skip
      | _ => simp [bodyFits] at hf
    | emit => unfold blockMove; rw [hpos]; exact h

end

end Sys2Proof.Machine
end

section
/-! PROOFS. What the step commands (O52), the driver's commands (O53) and the stream symbols (O54) leave unchanged. -/

namespace Sys2Proof.Machine

/-! ## What an instruction leaves unchanged -/

/-- Outside R an instruction that gave t left s unchanged. -/
structure Unchanged (R : Region) (s t : State) : Prop where
  mem : ∀ a, ¬R.store a → t.mem.read a = s.mem.read a
  pred : ∀ c, c < 3 → ¬R.predict c → predRead t c = predRead s c
  place : ¬R.place → SameRect s t ∧ t.mcux = s.mcux ∧ t.mcuy = s.mcuy
  restart : ¬R.restart → t.rstctr = s.rstctr ∧ t.rstnext = s.rstnext
  bytes : t.bytecnt = s.bytecnt

section
variable {R : Region} {s t : State}

/-- A state that meets the invariant is within any frame of itself. -/
theorem framed_self (h : s.Inv) : Framed R s s := .refl h.1

theorem Framed.unchanged (h : Framed R s t) : Unchanged R s t := ⟨h.mem, h.pred, h.place, h.restart, h.bytes⟩

/-- Outside the rectangle and the restart registers nothing of the progress changes. -/
theorem Unchanged.progress (h : Unchanged R s t) (hp : ¬R.place) (hr : ¬R.restart) : SameProgress s t := by
  obtain ⟨-, hx, hy⟩ := h.place hp
  obtain ⟨hctr, hnext⟩ := h.restart hr
  exact ⟨hctr, hnext, hx, hy⟩

theorem pred_eq_of_predRead (h : ∀ c, c < 3 → predRead t c = predRead s c) : t.pred = s.pred := by
  refine Vector.ext fun c hc => ?_
  simpa [predRead, hc] using h c hc

/-- A RUN of the block keeps the frame of the command being executed. -/
theorem unchanged_runBlock (hi : t.Inv) (hcfg : cfgCheck s = none) (h : Within R s t) :
    Unchanged R s (runBlock t) := by
  have htick : Within R (tick s) (tick t) :=
    ⟨⟨congrArg (fun p : Setup => { p with epoch := p.epoch + 1 }) h.setup, h.wf, h.mem, h.pred, h.place, h.restart,
      h.bytes⟩, h.inside⟩
  obtain ⟨-, hend⟩ := settle_inv_induct (P := Within R (tick s))
    (fun u hu _ hw => within_blockMove hu hw hcfg) moveBound (tick t) (Inv.tick hi) htick
  exact ⟨hend.mem, hend.pred, hend.place, hend.restart, hend.bytes⟩

/-- A decode command keeps the frame that its beginning keeps. -/
theorem unchanged_decodeCommand {body : Body} {begin' : Body → Nat → Nat → State → State} {c : BitVec 2}
    {b : BitVec 4} (hi : s.Inv) (hidle : s.state = .idle) (hbody : bodyState body = .step)
    (hinv : c.toNat < 3 → b.toNat < 12 → ∀ u, Running body u → (begin' body c.toNat b.toNat u).Inv)
    (hw : ∀ u, Framed R s u → Within R s (begin' body c.toNat b.toNat u)) :
    Unchanged R s (decodeCommand body begin' c b s) := by
  have hrefl := framed_self (R := R) hi
  have herror : Unchanged R s (cmdError s) := (hrefl.congr (u := cmdError s) rfl).unchanged
  unfold decodeCommand issue
  split
  · next hok =>
    obtain ⟨hc, hb⟩ := fbOk hok
    unfold stepCommand
    split
    · exact (hrefl.fault _ _ _).toFramed.unchanged
    · next hcfg =>
      split
      · exact herror
      · exact unchanged_runBlock (hinv hc hb _ (running_step hi hidle hcfg hbody)) hcfg (hw _ (hrefl.congr rfl))
  · exact herror

end

section
variable {s : State} (hi : s.Inv) (hidle : s.state = .idle) (c : BitVec 2) (b : BitVec 4)
include hi hidle

theorem unchanged_decDc :
    Unchanged (blockRegion s .decDc c.toNat b.toNat) s (decodeCommand .decDc startDc c b s) :=
  unchanged_decodeCommand hi hidle rfl
    (fun hc hb _ hu => (moved_goto (n := 100000) hu rfl (by simpa [pointOk] using ⟨hc, hb⟩) rfl
      fun _ => by simp only [pointCost]; omega).inv)
    fun _ hu => hu.gotoBlock (.refl _) rfl rfl

theorem unchanged_decAc :
    Unchanged (blockRegion s .decAc c.toNat b.toNat) s (decodeCommand .decAc startAc c b s) :=
  unchanged_decodeCommand hi hidle rfl
    (fun hc hb _ hu => (moved_startAc (n := 100000) hu rfl hc hb (by omega)).inv)
    fun _ hu => hu.startAc (.refl _) (sy := 0#8) rfl

theorem unchanged_decBlk :
    Unchanged (blockRegion s .decBlk c.toNat b.toNat) s (decodeCommand .decBlk startDc c b s) :=
  unchanged_decodeCommand hi hidle rfl
    (fun hc hb _ hu => (moved_goto (n := 100000) hu rfl (by simpa [pointOk] using ⟨hc, hb⟩) rfl
      fun _ => by simp only [pointCost]; omega).inv)
    fun _ hu => hu.gotoBlock (.refl _) rfl rfl

/-- RESTART reads one marker at most: its outcome is one of O37, or the fault of CFGCHK. -/
theorem restart_frame {t : State} (ht : exec .restart s = .next t) :
    SameRect s t ∧ t.mcux = s.mcux ∧ t.mcuy = s.mcuy ∧ t.mem = s.mem ∧ t.cbits = s.cbits
      ∧ t.bytecnt = s.bytecnt := by
  obtain ⟨-, hpend⟩ := pos_none hi (busy_idle hidle)
  cases hcfg : cfgCheck s with
  | none =>
    cases (restartOutcome s hidle hpend hcfg).symm.trans ht
    split
    · split
      · exact ⟨⟨rfl, rfl, rfl, rfl, rfl⟩, rfl, rfl, rfl, rfl, rfl⟩
      · exact ⟨⟨rfl, rfl, rfl, rfl, rfl⟩, rfl, rfl, rfl, rfl, rfl⟩
    · split
      · exact ⟨⟨rfl, rfl, rfl, rfl, rfl⟩, rfl, rfl, rfl, rfl, rfl⟩
      · exact ⟨⟨rfl, rfl, rfl, rfl, rfl⟩, rfl, rfl, rfl, rfl, rfl⟩
  | some d =>
    have hfault : exec .restart s = .next (takeFault errFormat d 0#8 s) := by
      simp [exec, execRestart, issue, stepCommand, hidle, hcfg]
    cases hfault.symm.trans ht
    simp [SameRect]

end

/-- Settles O52: the region of each decode command, and the outcomes of RESTART. -/
theorem stepCommandFrames : Obligations.StepCommandFrames := by
  intro s t hi hidle
  have hdecode : ∀ {body}, isDecode body → ¬(¬isDecode body) := fun h hn => hn h
  refine ⟨fun c b ht => ?_, fun c b ht => ?_, fun c b ht => ?_, restart_frame hi hidle⟩
  · cases ht
    have hu := unchanged_decDc hi hidle c b
    have hplace := hu.place (by simp [blockRegion, regionAt, bodyState])
    refine ⟨hu.progress (by simp [blockRegion, regionAt, bodyState]) (hdecode (.inl rfl)), hplace.1, hu.bytes,
      fun c' h3 hne => hu.pred c' h3 fun h => hne (Option.some.inj h).symm, fun a h0 h1 => hu.mem a ?_⟩
    rintro ⟨_, hb, ha⟩
    cases hb
    exact ha.elim h0 h1
  · cases ht
    have hu := unchanged_decAc hi hidle c b
    have hplace := hu.place (by simp [blockRegion, regionAt, bodyState])
    refine ⟨hu.progress (by simp [blockRegion, regionAt, bodyState]) (hdecode (.inr (.inl rfl))), hplace.1, hu.bytes,
      pred_eq_of_predRead fun c' h3 => hu.pred c' h3 id, fun a hne => hu.mem a ?_⟩
    rintro ⟨_, k, hb, h1, h64, ha⟩
    cases hb
    exact ha.elim (hne k h1 h64).1 (hne k h1 h64).2
  · cases ht
    have hu := unchanged_decBlk hi hidle c b
    have hplace := hu.place (by simp [blockRegion, regionAt, bodyState])
    refine ⟨hu.progress (by simp [blockRegion, regionAt, bodyState]) (hdecode (.inr (.inr rfl))), hplace.1, hu.bytes,
      fun c' h3 hne => hu.pred c' h3 fun h => hne (Option.some.inj h).symm, fun a hne => hu.mem a ?_⟩
    rintro ⟨_, hb, ha⟩
    cases hb
    exact hne ha

/-! ## The driver's commands -/

/-- What the driver may store to. -/
theorem mem_of_unchanged_drive {s t : State} {i : Nat} (h : Unchanged (headRegion s (.drive i)) s t) {a : Nat}
    (ha : ¬inDriverBuffer s a) : t.mem.read a = s.mem.read a :=
  h.mem a fun hs => hs.elim (fun ⟨_, hb, _⟩ => nomatch hb) ha

section
variable {s t : State} (hi : s.Inv)
include hi

/-- START runs the driver from the head of its loop, or changes nothing that a frame speaks of. -/
theorem unchanged_start (ht : exec .start s = .next t) : Unchanged (headRegion s (.drive 0)) s t := by
  have hrefl := framed_self (R := headRegion s (.drive 0)) hi
  by_cases hidle : s.state = .idle
  · cases hcfg : cfgCheck s with
    | some d =>
      have hfault : exec .start s = .next (takeFault errFormat d 0#8 s) := by
        simp [exec, execStart, issue, hidle, hcfg]
      cases hfault.symm.trans ht
      exact (hrefl.fault _ _ _).toFramed.unchanged
    | none =>
      have hstart : exec .start s = .next (runBlock (goto (.drive 0) (.nextMcu false) (startInit s))) := by
        simp [exec, execStart, issue, hidle, hcfg]
      cases hstart.symm.trans ht
      have hs := running_step (body := .restart) hi hidle hcfg rfl
      have hrun : Running (.drive 0) (startInit s) :=
        ⟨hs.wf, hs.bcnt, hs.halt, rfl, hs.pend, (cfgCheck_of_setup (setupOf_startInit s)).trans hcfg, hs.base⟩
      have hm := moved_goto (p := .nextMcu false) (n := 100000) hrun rfl rfl rfl (by simp [pointCost])
      have hd : DriverIn s (headRegion s (.drive 0)) := .refl _
      have hinit := (hrefl.restarted hd.predict hd.restart s.rstint 0#3).setMcu hd.place 0#16 0#16
      exact unchanged_runBlock hm.inv hcfg ((hinit.congr (u := startInit s) rfl).gotoHead (.refl _) rfl)
  · have hign : exec .start s = .next (cmdIgnored s) := by simp [exec, execStart, issue, hidle]
    cases hign.symm.trans ht
    exact (hrefl.congr (u := cmdIgnored s) rfl).unchanged

/-- RESYNC changes what the driver may change after a driver halt, and what RESTART may change after another. -/
theorem unchanged_resync (hstate : s.state = .syncHalt) (ht : exec .resync s = .next t) :
    Unchanged (headRegion s (.resync s.runhalt)) s t := by
  have hcfg : cfgCheck s = none := by
    obtain ⟨-, -, -, -, -, -, hc, -⟩ := hi
    simpa [cfgOk, hstate, busy] using hc
  obtain ⟨-, hpend⟩ := pos_none hi (by simp [busy, hstate])
  obtain ⟨hwf, hbcnt, -, -, -, -, -, hbase⟩ := id hi
  have hrun : Running (.resync s.runhalt)
      { s with state := if s.runhalt then .run else .step, runhalt := false } :=
    ⟨hwf, hbcnt, rfl, rfl, hpend, hcfg, hbase⟩
  have hm := moved_resyncBegin (n := 100000) hrun (by omega)
  have hbegin := ((framed_self (R := headRegion s (.resync s.runhalt)) hi).congr
    (u := { s with state := if s.runhalt then .run else .step, runhalt := false }) rfl).resyncBegin (.refl _)
  cases (exec_resync_accepted hstate).symm.trans ht
  exact unchanged_runBlock hm.inv hcfg hbegin

/-- RESYNC after a step-mode halt reads no data and stores nothing: its outcome is one of O38. -/
theorem mem_of_resync_step (hstate : s.state = .syncHalt) (hhalt : s.runhalt = false)
    (ht : exec .resync s = .next t) : t.mem = s.mem := by
  obtain ⟨-, hpend⟩ := pos_none hi (by simp [busy, hstate])
  obtain ⟨hfound, hscan⟩ := resyncFromStep s hstate hhalt hpend
  by_cases h : s.mp = true ∧ isRstByte s.marker = true
  · obtain ⟨hmp, hrst⟩ := h
    cases (hfound _ hmp (rstByte_eq hrst).symm).symm.trans ht
    rfl
  · rw [not_and_or, Bool.not_eq_true, Bool.not_eq_true] at h
    cases (hscan h).symm.trans ht
    split
    · rfl
    · rfl

omit hi in
/-- RESYNC outside SYNC_HALT is ignored. -/
theorem exec_resync_ignored (hstate : s.state ≠ .syncHalt) : exec .resync s = .next (cmdIgnored s) := by
  simp [exec, execResync, issue, hstate]

end

/-- Settles O53: START and a RESYNC after a driver halt by the driver's region, a step-mode RESYNC by its outcomes. -/
theorem driverFrames : Obligations.DriverFrames := by
  intro s t hi
  refine ⟨fun ht a ha => mem_of_unchanged_drive (unchanged_start hi ht) ha, fun ht => ?_⟩
  by_cases hstate : s.state = .syncHalt
  · have hu := unchanged_resync hi hstate ht
    refine ⟨fun a ha => ?_, fun hhalt => ?_⟩
    · exact hu.mem a fun hs => ha hs.2
    · obtain ⟨hrect, hx, hy⟩ := hu.place (by simp [headRegion, regionAt, bodyState, hhalt])
      exact ⟨mem_of_resync_step hi hstate hhalt ht, hrect, hx, hy⟩
  · cases (exec_resync_ignored hstate).symm.trans ht
    exact ⟨fun _ _ => rfl, fun _ => ⟨rfl, ⟨rfl, rfl, rfl, rfl, rfl⟩, rfl, rfl⟩⟩

/-! ## The stream symbols -/

/-- A symbol that has an effect finds a command executing. -/
theorem pos_of_symbolEffect {i : Instr} {s u : State} (hwf : i.wellFormed = true) (hc : isCommand i = false)
    (hu : symbolEffect i s = some u) : ∃ p, s.pos = some p := by
  rcases symbol_space hwf hc with ⟨t, rfl⟩ | ⟨t, rfl⟩ | ⟨y, hy⟩
  · obtain ⟨_, _, _, _, hpos⟩ := pos_of_dcEffect hu
    exact ⟨_, hpos⟩
  · obtain ⟨_, _, _, _, _, hpos⟩ := pos_of_acEffect hu
    exact ⟨_, hpos⟩
  · rcases awaitsAfterFf_cases (awaits_of_afterFf ((hy s).symm.trans hu)) with ⟨p, hpos, -⟩ | ⟨p, -, hpos, -⟩
    · exact ⟨p, hpos⟩
    · exact ⟨p, hpos⟩

section
variable {i : Instr} {s t : State} (hi : s.Inv) (hwf : i.wellFormed = true) (hc : isCommand i = false)
include hi hwf hc

/-- The effect of a symbol keeps the frame of the command being executed. -/
theorem within_symbolEffect {p : Pos} {u : State} (hpos : s.pos = some p) (hcfg : cfgCheck s = none)
    (hu : symbolEffect i s = some u) : Within (regionAt s p) s u := by
  have h : Within (regionAt s p) s s := ⟨framed_self hi, fun q hq => by cases hpos.symm.trans hq; exact .refl _⟩
  rcases symbol_space hwf hc with ⟨t, rfl⟩ | ⟨t, rfl⟩ | ⟨y, hy⟩
  · obtain ⟨_, _, _, _, hat⟩ := pos_of_dcEffect hu
    exact within_decodeDc hi h hat hu
  · obtain ⟨_, _, _, _, _, hat⟩ := pos_of_acEffect hu
    exact within_decodeAc h hcfg hat hu
  · exact within_afterFf hi h hcfg ((hy s).symm.trans hu)

/-- A stream symbol changes what the command being executed may change. -/
theorem unchanged_symbol (ht : exec i s = .next t) : ∃ p, s.pos = some p ∧ Unchanged (regionAt s p) s t := by
  rw [exec_symbol hc] at ht
  cases hu : symbolEffect i s with
  | none => rw [hu] at ht; cases ht
  | some u =>
    rw [hu] at ht
    cases ht
    obtain ⟨p, hpos⟩ := pos_of_symbolEffect hwf hc hu
    have hcfg : cfgCheck s = none := (running_answered hi hpos).cfg
    exact ⟨p, hpos, unchanged_runBlock (inv_symbolEffect hi hwf hc hu) hcfg
      (within_symbolEffect hi hwf hc hpos hcfg hu)⟩

end

/-- Settles O54: the region of the command being executed. -/
theorem symbolFrames : Obligations.SymbolFrames := by
  intro i s t hi hwf hc ht
  obtain ⟨p, hpos, hu⟩ := unchanged_symbol hi hwf hc ht
  have hself : { s with pos := some p } = s := by rw [← hpos]
  obtain ⟨hstate, -⟩ := pos_some hi hpos
  refine ⟨fun a ha => hu.mem a fun h => ha (hself ▸ h), fun c h3 hne => hu.pred c h3 fun h => hne (hself ▸ h),
    fun hstep => hu.place fun h => ?_, fun body point hat hbody => hu.progress (fun h => ?_) fun h => ?_, hu.bytes⟩
  · cases hstep.symm.trans (hstate.trans h)
  · cases hpos.symm.trans hat
    rcases hbody with rfl | rfl | rfl <;> cases h
  · cases hpos.symm.trans hat
    exact h hbody

end Sys2Proof.Machine
end

section
/-! PROOFS. The transform of a block: its samples are those of R187 and R188, and the driver's transforms fill the tiles
of the MCU (for O32). -/

namespace Sys2Proof.Machine

/-! ## Sums (42_idct R187, R188) -/

theorem sumTo_eq_finset (n : Nat) (f : Nat → Int) : sumTo n f = ∑ k ∈ Finset.range n, f k := rfl

theorem sumTo_congr {n : Nat} {f g : Nat → Int} (h : ∀ k, k < n → f k = g k) : sumTo n f = sumTo n g := by
  rw [sumTo_eq_finset, sumTo_eq_finset]
  exact Finset.sum_congr rfl fun k hk => h k (Finset.mem_range.1 hk)

/-- A sum with one summand that counts. -/
theorem sumTo_ite {n k : Nat} (hk : k < n) (f : Nat → Int) : sumTo n (fun j => if j = k then f j else 0) = f k := by
  rw [sumTo_eq_finset, Finset.sum_ite_eq', if_pos (Finset.mem_range.2 hk)]

theorem dot_eq_sum : ∀ as bs : List Int, dot as bs = (List.zipWith (· * ·) as bs).sum
  | [], _ => by simp [dot]
  | _ :: _, [] => by simp [dot]
  | a :: as, b :: bs => by rw [dot, dot_eq_sum as bs, List.zipWith_cons_cons, List.sum_cons]

/-- A product of rows is the sum of the products of their entries. -/
theorem dot_range {as : List Int} {n : Nat} (h : as.length = n) (f : Nat → Int) :
    dot as ((List.range n).map f) = sumTo n fun u => as[u]?.getD 0 * f u := by
  rw [dot_eq_sum, sumTo]
  refine congrArg List.sum (List.ext_getElem (by simp [h]) fun i h1 h2 => ?_)
  have hi : i < as.length := by
    rw [List.length_zipWith, List.length_map, List.length_range] at h1
    omega
  simp [hi]

/-! ## The samples -/

theorem basisRow_length {n x : Nat} (hn : n = 8 ∨ n = 4 ∨ n = 2 ∨ n = 1) (hx : x < n) : (basisRow n x).length = n := by
  have hall : ∀ m ∈ [8, 4, 2, 1], ∀ y < m, (basisRow m y).length = m := by decide
  exact hall n (by simpa using hn) x hx

/-- ZZ and its inverse (R180). -/
theorem zigzag_zigzagPos : ∀ n < 64, zigzag[zigzagPos[n]?.getD 0]?.getD 64 = n := by decide
theorem zigzagPos_zigzag : ∀ k < 64, zigzagPos[zigzag[k]?.getD 64]?.getD 0 = k := by decide

theorem zigzagPos_lt (n : Nat) : zigzagPos[n]?.getD 0 < 64 := by
  have hall : ∀ k ∈ zigzagPos, k < 64 := by decide
  cases h : zigzagPos[n]? with
  | none => exact Nat.zero_lt_succ _
  | some k => exact hall k (List.mem_of_getElem? h)

theorem zigzag_eq_iff {n k : Nat} (hn : n < 64) (hk : k < 64) :
    zigzag[k]?.getD 64 = n ↔ k = zigzagPos[n]?.getD 0 := by
  constructor
  · rintro rfl
    exact (zigzagPos_zigzag k hk).symm
  · rintro rfl
    exact zigzag_zigzagPos n hn

section
variable (s : State) (b q : Nat)

/-- F[n] is the product at the one zigzag position that ZZ sends to n (R181). -/
theorem dequant_eq_ref {n : Nat} (hn : n < 64) : dequant s b q n = dequantRef s b q n := by
  rw [dequantRef, dequant, ← sumTo_ite (zigzagPos_lt n)
    fun k => (coefRead s.mem b k).toInt * ((qtEntry s q k).toNat : Int)]
  exact sumTo_congr fun k hk => if_congr (zigzag_eq_iff hn hk).symm rfl rfl

variable {n : Nat} (hn : n = 8 ∨ n = 4 ∨ n = 2 ∨ n = 1)
include hn

/-- The row pass (R187). -/
theorem rowPass_eq_ref {v x : Nat} (hv : v < n) (hx : x < n) :
    rowPass n x (coefRow s b q n v) = rowRef s b q n v x := by
  have hentry : ∀ u, u < n → (basisRow n x)[u]?.getD 0 * dequant s b q (8 * v + u) =
      kEntry n x u * dequantRef s b q (8 * v + u) := fun u hu => by
    rw [dequant_eq_ref s b q (by omega)]
    rfl
  rw [rowPass, coefRow, dot_range (basisRow_length hn hx), sumTo_congr hentry]
  rfl

/-- The column pass (R188). -/
theorem sampleAt_eq_ref {y x : Nat} (hy : y < n) (hx : x < n) : sampleAt s b q n y x = sampleRef s b q n y x := by
  have hcolumn : rowColumn n x (coefRows s b q n) = (List.range n).map fun v => rowPass n x (coefRow s b q n v) := by
    rw [rowColumn, coefRows, List.map_map]
    rfl
  have hentry : ∀ v, v < n → (basisRow n y)[v]?.getD 0 * rowPass n x (coefRow s b q n v) =
      kEntry n y v * rowRef s b q n v x := fun v hv => by
    rw [rowPass_eq_ref s b q hn hv hx]
    rfl
  rw [sampleAt, colPass, hcolumn, dot_range (basisRow_length hn hy), sumTo_congr hentry]
  rfl

end

/-- A value of 0..255 is kept by its byte. -/
theorem byteOfInt_toNat {v : Int} (h0 : 0 ≤ v) (h255 : v ≤ 255) : ((byteOfInt v).toNat : Int) = v := by
  rw [byteOfInt, BitVec.toNat_ofInt]
  omega

/-- A sample is a value of 0..255 (R188). -/
theorem sampleRef_bounds (s : State) (b q n y x : Nat) :
    0 ≤ sampleRef s b q n y x ∧ sampleRef s b q n y x ≤ 255 := by
  rw [sampleRef]
  omega

/-- The tile bytes of a block: its samples, and 0 outside the N×N corner (R190). -/
theorem idctSamples_toNat (s : State) (b q : Nat) {y x : Nat} (hy : y < 8) (hx : x < 8) :
    (((idctSamples s b q)[8 * y + x]?.getD 0#8).toNat : Int) =
      if x < 8 / 2 ^ scale s ∧ y < 8 / 2 ^ scale s then sampleRef s b q (8 / 2 ^ scale s) y x else 0 := by
  rw [← blockSize_eq]
  have hcol : (8 * y + x) % 8 = x := by omega
  have hrow : (8 * y + x) / 8 = y := by omega
  have hlt : 8 * y + x < 64 := by omega
  simp only [idctSamples, tileLayout, List.getElem?_map, List.getElem?_range hlt, Option.map_some, Option.getD_some,
    hcol, hrow]
  split
  · next h =>
    obtain ⟨hxn, hyn⟩ := h
    obtain ⟨h0, h255⟩ := sampleRef_bounds s b q (blockSize s) y x
    have hsample := sampleAt_eq_ref s b q (blockSize_cases s) hyn hxn
    rw [sampleAt] at hsample
    rw [List.getElem?_range hxn, Option.map_some, Option.getD_some, hsample, byteOfInt_toNat h0 h255]
  · rfl

/-! ## The tiles -/

theorem tileAddr_inj {b n b' n' : Nat} (hn : n < 64) (hn' : n' < 64) (h : tileAddr b n = tileAddr b' n') :
    b = b' ∧ n = n' := by
  unfold tileAddr at h
  omega

/-- The bytes of COEF are in no tile. -/
theorem not_inTileSlot_coefAddr {b k b' : Nat} (hb : b < 12) (hk : k < 64) :
    ¬inTileSlot b' (coefAddr b k) ∧ ¬inTileSlot b' (coefAddr b k + 1) := by
  constructor
  · rintro ⟨n, -, h⟩
    unfold coefAddr tileAddr at h
    omega
  · rintro ⟨n, -, h⟩
    unfold coefAddr tileAddr at h
    omega

/-- The tile bytes depend on the setup and on the block's coefficients alone. -/
theorem idctSamples_congr {s t : State} {b : Nat} (hset : setupOf t = setupOf s)
    (hcoef : ∀ k, k < 64 → coefRead t.mem b k = coefRead s.mem b k) (q : Nat) :
    idctSamples t b q = idctSamples s b q := by
  have hsize : blockSize t = blockSize s := by rw [blockSize, scale_of_setup hset, blockSize]
  have hdequant : dequant t b q = dequant s b q := by
    funext n
    simp only [dequant, qtEntry, hcoef _ (zigzagPos_lt n), qt_of_setup hset]
  have hrow : coefRow t b q (blockSize s) = coefRow s b q (blockSize s) := by
    funext v
    rw [coefRow, coefRow, hdequant]
  have hrows : coefRows t b q (blockSize s) = coefRows s b q (blockSize s) := by rw [coefRows, coefRows, hrow]
  simp only [idctSamples, hsize, hrows]

section
variable {s : State} (hwf : s.mem.wf = true)
include hwf

/-- The transform of slot b fills TILE[b] (R190). -/
theorem tileRead_idctBlock {b n : Nat} (hn : n < 64) (q : Nat) :
    tileRead (idctBlock b q s).mem b n = (idctSamples s b q)[n]?.getD 0#8 := by
  have hlt : n < (idctSamples s b q).length := idctSamples_length s b q ▸ hn
  rw [idctBlock_mem, tileRead_tileWrite hwf b _ n hlt, List.getElem?_eq_getElem hlt]
  rfl

end

/-- Transforms of several slots, each with its own table. -/
def idctSlots (q : Nat → Nat) (l : List Nat) (s : State) : State := l.foldl (fun t b => idctBlock b (q b) t) s

theorem idctAll_eq_idctSlots (s : State) :
    idctAll s = idctSlots (fun b => qSel s (compOf s b)) (List.range (slotCount s)) s := rfl

section
variable {q : Nat → Nat} {l : List Nat}

theorem idctSlots_cons (b : Nat) (s : State) : idctSlots q (b :: l) s = idctSlots q l (idctBlock b (q b) s) := by
  rw [idctSlots, List.foldl_cons, idctSlots]

/-- The transforms of several slots write memory alone. -/
theorem idctSlots_eq (q : Nat → Nat) (l : List Nat) (s : State) :
    idctSlots q l s = { s with mem := (idctSlots q l s).mem } := by
  induction l generalizing s with
  | nil => rfl
  | cons b l ih => rw [idctSlots_cons, ih (idctBlock b (q b) s), idctBlock_eq]

theorem wf_idctBlock {s : State} (hwf : s.mem.wf = true) (b q : Nat) : (idctBlock b q s).mem.wf = true := by
  rw [idctBlock_mem]
  exact wf_tileWrite _ _ hwf

/-- A transform leaves the coefficients of every slot, so its result is that of the block before the others. -/
theorem idctSamples_idctBlock {s : State} (hwf : s.mem.wf = true) {b : Nat} (hb : b < 12) (b' q' q : Nat) :
    idctSamples (idctBlock b' q' s) b q = idctSamples s b q := by
  refine idctSamples_congr (setupOf_idctBlock b' q' s) (fun k hk => ?_) q
  obtain ⟨hlow, hhigh⟩ := not_inTileSlot_coefAddr (b' := b') hb hk
  rw [coefRead, coefRead, read_idctBlock hwf hlow, read_idctBlock hwf hhigh]

/-- Transforms store to the tiles of their slots alone. -/
theorem read_idctSlots {s : State} (hwf : s.mem.wf = true) {a : Nat} (ha : ∀ b ∈ l, ¬inTileSlot b a) :
    (idctSlots q l s).mem.read a = s.mem.read a := by
  induction l generalizing s with
  | nil => rfl
  | cons b l ih =>
    rw [idctSlots_cons, ih (wf_idctBlock hwf b (q b)) fun b' hb' => ha b' (List.mem_cons_of_mem b hb'),
      read_idctBlock hwf (ha b List.mem_cons_self)]

theorem tileRead_idctSlots_of_notMem {s : State} (hwf : s.mem.wf = true) {b n : Nat} (hb : b ∉ l) (hn : n < 64) :
    tileRead (idctSlots q l s).mem b n = tileRead s.mem b n := by
  have hother : ∀ c ∈ l, ¬inTileSlot c (tileAddr b n) := by
    rintro c hc ⟨n', hn', h⟩
    exact hb ((tileAddr_inj hn hn' h).1 ▸ hc)
  rw [tileRead, tileRead, read_idctSlots hwf hother]

/-- Transforms of different slots fill each tile with the samples of its own block. -/
theorem tileRead_idctSlots {s : State} (hwf : s.mem.wf = true) (hnodup : l.Nodup) (hslots : ∀ b ∈ l, b < 12) {b n : Nat}
    (hb : b ∈ l) (hn : n < 64) : tileRead (idctSlots q l s).mem b n = (idctSamples s b (q b))[n]?.getD 0#8 := by
  induction l generalizing s with
  | nil => cases hb
  | cons b' l ih =>
    obtain ⟨hnew, hnodup'⟩ := List.nodup_cons.1 hnodup
    have hwf' := wf_idctBlock hwf b' (q b')
    rw [idctSlots_cons]
    by_cases hfirst : b = b'
    · rw [hfirst, tileRead_idctSlots_of_notMem hwf' hnew hn, tileRead_idctBlock hwf hn]
    · have hmem : b ∈ l := List.mem_of_ne_of_mem hfirst hb
      rw [ih hwf' hnodup' (fun c hc => hslots c (List.mem_cons_of_mem b' hc)) hmem,
        idctSamples_idctBlock hwf (hslots b hb)]

end

/-! ## The slots of an MCU (43_color R201) -/

section
variable {s : State} {c bx by' : Nat}

theorem slotBase_eq_baseRef (s : State) (hc : c < 3) : slotBase s c = baseRef s c := by
  interval_cases c <;> simp [slotBase, baseRef, blocksOf, List.range_succ]

theorem slotBase_succ (s : State) (c : Nat) : slotBase s (c + 1) = slotBase s c + blocksOf s c := by
  simp [slotBase, List.range_succ]

theorem slotBase_mono (s : State) {c c' : Nat} (h : c ≤ c') : slotBase s c ≤ slotBase s c' := by
  induction h with
  | refl => exact le_rfl
  | step _ ih => exact ih.trans (by rw [slotBase_succ]; exact Nat.le_add_right _ _)

/-- A block of component c stands among the slots of that component. -/
theorem slotOf_lt (hx : bx < hFactor s c) (hy : by' < vFactor s c) : slotOf s c bx by' < slotBase s (c + 1) := by
  have hrow : by' * hFactor s c + bx < hFactor s c * vFactor s c := by
    calc by' * hFactor s c + bx < (by' + 1) * hFactor s c := by rw [Nat.add_mul, Nat.one_mul]; omega
      _ ≤ vFactor s c * hFactor s c := Nat.mul_le_mul_right _ hy
      _ = hFactor s c * vFactor s c := Nat.mul_comm _ _
  rw [slotBase_succ, slotOf, blocksOf]
  omega

/-- And the slot is that component's. -/
theorem compOf_slotOf (hc : c < 3) (hx : bx < hFactor s c) (hy : by' < vFactor s c) :
    compOf s (slotOf s c bx by') = c := by
  have hlt := slotOf_lt hx hy
  have hge : slotBase s c ≤ slotOf s c bx by' := by unfold slotOf; omega
  have hmono := slotBase_mono s (show 1 ≤ 2 by decide)
  unfold compOf
  interval_cases c
  · rw [if_pos hlt]
  · rw [if_neg (by omega), if_pos hlt]
  · rw [if_neg (by omega), if_neg (by omega)]

end

/-- The driver's transforms fill the tiles of the MCU (R190, R227). -/
theorem showsTiles_idctAll {s : State} (hwf : s.mem.wf = true) (hcfg : cfgCheck s = none) :
    ShowsTiles s (idctAll s) := by
  intro c bx by' y x hc hbx hby hy hx
  have hc3 : c < 3 := hc.trans_le (ncomp_le s)
  have hslot : baseRef s c + by' * hFactor s c + bx = slotOf s c bx by' := by
    rw [slotOf, slotBase_eq_baseRef s hc3]
  have hcount : slotOf s c bx by' < slotCount s := (slotOf_lt hbx hby).trans_le (slotBase_mono s hc)
  have htile := tileRead_idctSlots (q := fun b => qSel s (compOf s b)) hwf List.nodup_range
    (fun b hb => (List.mem_range.1 hb).trans_le (slots_of_cfg hcfg).2.2) (List.mem_range.2 hcount)
    (show 8 * y + x < 64 by omega)
  rw [hslot, idctAll_eq_idctSlots, htile, compOf_slotOf hc3 hbx hby]
  exact idctSamples_toNat s _ _ hy hx

/-- The driver's transforms write the tiles of the MCU alone. -/
theorem read_idctAll {s : State} (hwf : s.mem.wf = true) {a : Nat} (ha : ∀ b, b < slotCount s → ¬inTileSlot b a) :
    (idctAll s).mem.read a = s.mem.read a :=
  read_idctSlots hwf fun b hb => ha b (List.mem_range.1 hb)

theorem idctAll_eq (s : State) : idctAll s = { s with mem := (idctAll s).mem } := idctSlots_eq _ _ s

end Sys2Proof.Machine
end

section
/-! PROOFS. The rectangle of an MCU: the bytes of its pixels are those of R205-R209, and the assembly lays them out in
PIX as R206 and R210 say (for O32). -/

namespace Sys2Proof.Machine

/-! ## The bytes of a pixel -/

section
variable (s : State) (i j : Nat)

/-- Sample(c, i, j) (R205). -/
theorem pixelSampleRef_eq {c : Nat} (hc : c < 3) : pixelSampleRef s c i j = (sampleFor s c i j).toNat := by
  rw [pixelSampleRef, sampleFor, slotOf, slotBase_eq_baseRef s hc, blockSize_eq, replX, replY]

theorem pixelSampleRef_bounds (c : Nat) : 0 ≤ pixelSampleRef s c i j ∧ pixelSampleRef s c i j ≤ 255 := by
  simp only [pixelSampleRef]
  omega

/-- A channel is a value of 0..255 (R207). -/
theorem channelRef_bounds (y term : Int) : 0 ≤ channelRef y term ∧ channelRef y term ≤ 255 := by
  unfold channelRef
  omega

/-- A channel of the model (R207). -/
theorem clamp_eq_channelRef (y term : Int) : clamp (y + asr (term + 512) 10) 0 255 = channelRef y term := by
  unfold clamp asr channelRef
  omega

/-- The channels of a pixel (R207, R209). -/
theorem pixelRgb_eq : pixelRgb s i j = ⟨redRef s i j, greenRef s i j, blueRef s i j⟩ := by
  unfold pixelRgb redRef greenRef blueRef
  simp only [pixelSampleRef_eq s i j (show 0 < 3 by decide), pixelSampleRef_eq s i j (show 1 < 3 by decide),
    pixelSampleRef_eq s i j (show 2 < 3 by decide), ycbcrToRgb, clamp_eq_channelRef]
  split <;> rfl

theorem redRef_bounds : 0 ≤ redRef s i j ∧ redRef s i j ≤ 255 := by
  unfold redRef
  split
  · exact pixelSampleRef_bounds s i j 0
  · exact channelRef_bounds _ _

theorem greenRef_bounds : 0 ≤ greenRef s i j ∧ greenRef s i j ≤ 255 := by
  unfold greenRef
  split
  · exact pixelSampleRef_bounds s i j 0
  · exact channelRef_bounds _ _

theorem blueRef_bounds : 0 ≤ blueRef s i j ∧ blueRef s i j ≤ 255 := by
  unfold blueRef
  split
  · exact pixelSampleRef_bounds s i j 0
  · exact channelRef_bounds _ _

end

/-- The three fields of an RGB565 word (R208). -/
theorem rgb565Fields_toNat (r g b : Byte) :
    (r.extractLsb' 3 5 ++ g.extractLsb' 2 6 ++ b.extractLsb' 3 5).toNat =
      2048 * (r.toNat / 8) + 32 * (g.toNat / 4) + b.toNat / 8 := by
  have hr := r.isLt
  have hg := g.isLt
  have hb := b.isLt
  simp only [BitVec.toNat_append, BitVec.extractLsb'_toNat, Nat.shiftRight_eq_div_pow]
  rw [← Nat.shiftLeft_add_eq_or_of_lt (by omega), ← Nat.shiftLeft_add_eq_or_of_lt (by omega)]
  simp only [Nat.shiftLeft_eq]
  omega

theorem rgb565_toNat (s : State) (i j : Nat) : ((rgb565 (pixelRgb s i j)).toNat : Int) = word565Ref s i j := by
  obtain ⟨hr0, hr⟩ := redRef_bounds s i j
  obtain ⟨hg0, hg⟩ := greenRef_bounds s i j
  obtain ⟨hb0, hb⟩ := blueRef_bounds s i j
  have hr' := byteOfInt_toNat hr0 hr
  have hg' := byteOfInt_toNat hg0 hg
  have hb' := byteOfInt_toNat hb0 hb
  rw [rgb565, rgb565Fields_toNat, pixelRgb_eq, word565Ref]
  dsimp only
  omega

/-- The two bytes of a word. -/
theorem lowByte_toNat (w : Half) : (w.extractLsb' 0 8).toNat = w.toNat % 256 := by
  simp

theorem highByte_toNat (w : Half) : (w.extractLsb' 8 8).toNat = w.toNat / 256 := by
  have := w.isLt
  simp only [BitVec.extractLsb'_toNat, Nat.shiftRight_eq_div_pow]
  omega

/-- Byte z of a pixel (R208, R209). -/
theorem pixelBytes_toNat {s : State} (h : Accepted s) (i j : Nat) {z : Nat} (hz : z < bytesPerPixel s) :
    (((pixelBytes s i j)[z]?.getD 0#8).toNat : Int) = pixelByteRef s i j z := by
  have hfmt : pixfmt s = 0 ∨ pixfmt s = 1 ∨ pixfmt s = 2 := by
    have hlt : pixfmt s < 4 := (s.cfg0.extractLsb' 4 2).isLt
    have hne := h.pixfmt
    omega
  rw [pixelBytes, pixelByteRef]
  rw [bytesPerPixel] at hz
  rcases hfmt with e | e | e
  · have hr := byteOfInt_toNat (redRef_bounds s i j).1 (redRef_bounds s i j).2
    have hg := byteOfInt_toNat (greenRef_bounds s i j).1 (greenRef_bounds s i j).2
    have hb := byteOfInt_toNat (blueRef_bounds s i j).1 (blueRef_bounds s i j).2
    rw [e, if_pos rfl] at hz
    rw [e, pixelRgb_eq, packRgb]
    interval_cases z <;> cases rgbOrder s <;> simp [hr, hg, hb]
  · have hword := rgb565_toNat s i j
    have hlow := lowByte_toNat (rgb565 (pixelRgb s i j))
    have hhigh := highByte_toNat (rgb565 (pixelRgb s i j))
    rw [e, if_neg (by decide), if_pos rfl] at hz
    rw [e, packRgb, ← hword]
    interval_cases z <;> cases r565Be s <;> simp [hlow, hhigh]
  · rw [e, if_neg (by decide), if_neg (by decide)] at hz
    rw [e, if_pos rfl, if_neg (by decide), if_neg (by decide), pixelSampleRef_eq s i j (by decide)]
    interval_cases z
    rfl

/-! ## The layout of the rectangle (R206, R210) -/

/-- In a list put together from pieces of one length, an element of piece i. -/
theorem flatMap_range_getElem? {α : Type} {f : Nat → List α} {m : Nat} (hlen : ∀ i, (f i).length = m) {n i z : Nat}
    (hi : i < n) (hz : z < m) : ((List.range n).flatMap f)[i * m + z]? = (f i)[z]? := by
  induction n with
  | zero => exact absurd hi (Nat.not_lt_zero i)
  | succ n ih =>
    have hprefix : ((List.range n).flatMap f).length = n * m := by
      simp only [List.length_flatMap, hlen, List.map_const', List.sum_replicate, List.length_range, smul_eq_mul]
    rw [List.range_succ, List.flatMap_append, List.flatMap_singleton]
    rcases Nat.lt_succ_iff_lt_or_eq.1 hi with hlt | rfl
    · have hin : i * m + z < n * m := by
        calc i * m + z < (i + 1) * m := by rw [Nat.add_mul, Nat.one_mul]; omega
          _ ≤ n * m := Nat.mul_le_mul_right m hlt
      rw [List.getElem?_append_left (hprefix ▸ hin), ih hlt]
    · rw [List.getElem?_append_right (by omega), hprefix, Nat.add_sub_cancel_left]

section
variable {s : State} (h : Accepted s)
include h

theorem rectRow_length (j : Nat) :
    ((List.range (rectCols s)).flatMap fun i => pixelBytes s i j).length = rectCols s * bytesPerPixel s := by
  simp only [List.length_flatMap, pixelBytes_length h, List.map_const', List.sum_replicate, List.length_range,
    smul_eq_mul]

/-- Byte z of pixel (i, j) in the bytes of the rectangle (R210). -/
theorem rectBytes_getElem? {i j z : Nat} (hi : i < rectCols s) (hj : j < rectRows s) (hz : z < bytesPerPixel s) :
    (rectBytes s)[(j * rectCols s + i) * bytesPerPixel s + z]? = (pixelBytes s i j)[z]? := by
  have hrow : i * bytesPerPixel s + z < rectCols s * bytesPerPixel s := by
    calc i * bytesPerPixel s + z < (i + 1) * bytesPerPixel s := by rw [Nat.add_mul, Nat.one_mul]; omega
      _ ≤ rectCols s * bytesPerPixel s := Nat.mul_le_mul_right _ hi
  have hindex : (j * rectCols s + i) * bytesPerPixel s + z =
      j * (rectCols s * bytesPerPixel s) + (i * bytesPerPixel s + z) := by ring
  rw [hindex, rectBytes, flatMap_range_getElem? (rectRow_length h) hj hrow,
    flatMap_range_getElem? (fun i => pixelBytes_length h i j) hi hz]

/-- PIX after the assembly (R210): the rectangle's bytes and zeros after them. -/
theorem pixRead_assembleMcu (hwf : s.mem.wf = true) {o : Nat} (ho : o < Config.pixBytes) :
    pixRead (assembleMcu s).mem o = (rectBytes s)[o]?.getD 0#8 := by
  have hle := rectBytes_le h
  simp only [assembleMcu]
  generalize rectBytes s = bytes at hle
  rw [pixRead_pixWrite hwf _ _ (by rw [List.length_append, List.length_replicate]; omega)]
  rcases Nat.lt_or_ge o bytes.length with hlt | hge
  · rw [List.getElem_append_left hlt, List.getElem?_eq_getElem hlt, Option.getD_some]
  · rw [List.getElem_append_right hge, List.getElem_replicate, List.getElem?_eq_none hge, Option.getD_none]

/-! ## Its corners -/

omit h in
/-- Below a quotient rounded up. -/
theorem lt_ceilDiv {a b n : Nat} (hb : 0 < b) : n < ceilDiv a b ↔ n * b < a := by
  rw [ceilDiv, Nat.lt_iff_add_one_le, Nat.le_div_iff_mul_le hb, Nat.add_mul]
  omega

omit h in
theorem ceilDiv_pos {a b : Nat} (ha : 0 < a) (hb : 0 < b) : 0 < ceilDiv a b :=
  (lt_ceilDiv hb).2 (by omega)

omit h in
theorem ceilDiv_le {a b : Nat} (hb : 0 < b) : ceilDiv a b ≤ a := by
  by_contra hlt
  have := (lt_ceilDiv hb).1 (Nat.lt_of_not_le hlt)
  have hmul : a ≤ a * b := Nat.le_mul_of_pos_right a hb
  omega

omit h in
/-- The corner of an MCU of the grid is a pixel of the scaled image (R204, R206). -/
theorem corner_lt {n f x size : Nat} {s : State} (hn : n = blockSize s * f) (hf : 0 < f)
    (hx : x < ceilDiv size (8 * f)) : x * n < ceilDiv size (2 ^ scale s) := by
  have hx' := (lt_ceilDiv (by omega)).1 hx
  have hpow : blockSize s * 2 ^ scale s = 8 := by
    have hs := scale_lt s
    rw [blockSize_eq]
    interval_cases scale s <;> rfl
  rw [lt_ceilDiv (Nat.two_pow_pos _)]
  calc x * n * 2 ^ scale s = x * (blockSize s * 2 ^ scale s * f) := by rw [hn]; ring
    _ = x * (8 * f) := by rw [hpow]
    _ < size := hx'

theorem rectLeft_lt (hx : s.mcux.toNat < nmcux s) : rectLeft s < scaledWidth s := by
  obtain ⟨hf, -⟩ := factors_zero h
  exact corner_lt (scaledMcuWidth_eq s) (by omega) hx

theorem rectTop_lt (hy : s.mcuy.toNat < nmcuy s) : rectTop s < scaledHeight s := by
  obtain ⟨-, hf⟩ := factors_zero h
  exact corner_lt (scaledMcuHeight_eq s) (by omega) hy

omit h in
theorem scaledWidth_lt (s : State) : scaledWidth s < 65536 :=
  (ceilDiv_le (Nat.two_pow_pos _)).trans_lt (s.size.extractLsb' 0 16).isLt

omit h in
theorem scaledHeight_lt (s : State) : scaledHeight s < 65536 :=
  (ceilDiv_le (Nat.two_pow_pos _)).trans_lt (s.size.extractLsb' 16 16).isLt

end

/-! ## The pixels of the assembled MCU -/

/-- The block a pixel of the MCU takes its sample from is one of its component's (R201, R202). -/
theorem pixelBlock_lt {i n f g : Nat} (hf : f = 1 ∨ f = 2) (hg : g = 1 ∨ g = 2) (hle : g ≤ f) (hi : i < n * f) :
    i / (f / g) / n < g := by
  have hdiv : f / g * g = f := by
    rcases hf with rfl | rfl <;> rcases hg with rfl | rfl
    · rfl
    · exact absurd hle (by decide)
    · rfl
    · rfl
  refine Nat.div_lt_of_lt_mul (Nat.div_lt_of_lt_mul ?_)
  calc i < n * f := hi
    _ = f / g * (n * g) := by rw [Nat.mul_left_comm, hdiv]

/-- A pixel's bytes depend on the setup and on its samples alone. -/
theorem pixelByteRef_congr {s t : State} (h : Accepted s) (hset : setupOf t = setupOf s) {i j : Nat}
    (hsample : ∀ c, c < ncomp s → pixelSampleRef t c i j = pixelSampleRef s c i j) (z : Nat) :
    pixelByteRef t i j z = pixelByteRef s i j z := by
  have hn := ncomp_of_setup hset
  have hluma : pixelSampleRef t 0 i j = pixelSampleRef s 0 i j :=
    hsample 0 (by rcases h.ncomp with e | e <;> omega)
  have hchroma : ncomp s ≠ 1 → ∀ c, c < 3 → pixelSampleRef t c i j = pixelSampleRef s c i j := fun hne c hc =>
    hsample c (by rcases h.ncomp with e | e <;> omega)
  have hred : redRef t i j = redRef s i j := by
    unfold redRef
    rw [hn, hluma]
    split
    · rfl
    · next hne => rw [hchroma hne 2 (by decide)]
  have hgreen : greenRef t i j = greenRef s i j := by
    unfold greenRef
    rw [hn, hluma]
    split
    · rfl
    · next hne => rw [hchroma hne 1 (by decide), hchroma hne 2 (by decide)]
  have hblue : blueRef t i j = blueRef s i j := by
    unfold blueRef
    rw [hn, hluma]
    split
    · rfl
    · next hne => rw [hchroma hne 1 (by decide)]
  have horder : rgbOrder t = rgbOrder s := by rw [rgbOrder, cfg0_of_setup hset, rgbOrder]
  have hbe : r565Be t = r565Be s := by rw [r565Be, cfg0_of_setup hset, r565Be]
  simp only [pixelByteRef, word565Ref, pixfmt_of_setup hset, horder, hbe, hluma, hred, hgreen, hblue]

section
variable {s : State} (hcfg : cfgCheck s = none) (hwf : s.mem.wf = true)
include hcfg

theorem rectCols_le : rectCols s ≤ scaledMcuWidth s := by
  obtain ⟨hw, -⟩ := scaledMcu_bounds (accepted_of_cfg hcfg)
  unfold rectCols rectRight
  omega

theorem rectRows_le : rectRows s ≤ scaledMcuHeight s := by
  obtain ⟨-, hh⟩ := scaledMcu_bounds (accepted_of_cfg hcfg)
  unfold rectRows rectBottom
  omega

include hwf

/-- The tiles of the MCU's slots stand apart from PIX (20_memory R65, R66). -/
theorem tileRead_assembleMcu {b n : Nat} (hb : b < slotCount s) (hn : n < 64) :
    tileRead (assembleMcu s).mem b n = tileRead s.mem b n := by
  obtain ⟨-, -, hcount⟩ := slots_of_cfg hcfg
  refine read_assembleMcu (accepted_of_cfg hcfg) hwf ?_
  rintro ⟨o, -, hpix⟩
  unfold tileAddr pixAddr at hpix
  omega

/-- The assembly leaves the samples of the rectangle's pixels. -/
theorem pixelSampleRef_assembleMcu {c i j : Nat} (hc : c < ncomp s) (hi : i < rectCols s) (hj : j < rectRows s) :
    pixelSampleRef (assembleMcu s) c i j = pixelSampleRef s c i j := by
  have h := accepted_of_cfg hcfg
  have hset := setupOf_assembleMcu s
  obtain ⟨hf0, hv0⟩ := factors_zero h
  obtain ⟨hf, hv⟩ := h.factors c hc
  obtain ⟨hfle, hvle⟩ := h.chroma c hc
  have hbx := pixelBlock_lt hf0 hf hfle (scaledMcuWidth_eq s ▸ hi.trans_le (rectCols_le hcfg))
  have hby := pixelBlock_lt hv0 hv hvle (scaledMcuHeight_eq s ▸ hj.trans_le (rectRows_le hcfg))
  have hc3 := hc.trans_le (ncomp_le s)
  have hslot := (slotOf_lt hbx hby).trans_le (slotBase_mono s hc)
  have hbase : baseRef (assembleMcu s) c = baseRef s c := by
    rw [← slotBase_eq_baseRef _ hc3, slotBase_of_setup hset, slotBase_eq_baseRef _ hc3]
  rw [slotOf, slotBase_eq_baseRef s hc3, blockSize_eq] at hslot
  simp only [pixelSampleRef, hbase, scale_of_setup hset, hFactor_of_setup hset, vFactor_of_setup hset]
  rw [tileRead_assembleMcu hcfg hwf hslot]
  have hn : 0 < 8 / 2 ^ scale s ∧ 8 / 2 ^ scale s ≤ 8 := by
    have := blockSize_cases s
    rw [blockSize_eq] at this
    omega
  have hx := Nat.mod_lt (i / (hFactor s 0 / hFactor s c)) hn.1
  have hy := Nat.mod_lt (j / (vFactor s 0 / vFactor s c)) hn.1
  omega

/-- The assembly puts the rectangle of the MCU at MCUPOS into RECT, PIXLEN and PIX (R206, R210). -/
theorem showsRectangle_assembleMcu (hx : s.mcux.toNat < nmcux s) (hy : s.mcuy.toNat < nmcuy s) :
    ShowsRectangle (assembleMcu s) (assembleMcu s) := by
  have h := accepted_of_cfg hcfg
  have hset := setupOf_assembleMcu s
  have hleft := rectLeft_lt h hx
  have htop := rectTop_lt h hy
  have hwidth := scaledWidth_lt s
  have hheight := scaledHeight_lt s
  obtain ⟨⟨hw, -⟩, hh, -⟩ := scaledMcu_bounds h
  have hleft' : (assembleMcu s).left.toNat = rectLeft s := Nat.mod_eq_of_lt (by omega)
  have htop' : (assembleMcu s).top.toNat = rectTop s := Nat.mod_eq_of_lt (by omega)
  have hright' : (assembleMcu s).right.toNat = rectRight s := Nat.mod_eq_of_lt (by unfold rectRight; omega)
  have hbottom' : (assembleMcu s).bottom.toNat = rectBottom s := Nat.mod_eq_of_lt (by unfold rectBottom; omega)
  have hlen := rectBytes_le h
  have hpixlen : (assembleMcu s).pixlen.toNat = (rectBytes s).length :=
    Nat.mod_eq_of_lt (hlen.trans_lt (by decide))
  have hcols : rectRight s + 1 - rectLeft s = rectCols s := rfl
  have hrows : rectBottom s + 1 - rectTop s = rectRows s := rfl
  have hbpp : bytesPerPixel (assembleMcu s) = bytesPerPixel s := by
    rw [bytesPerPixel, pixfmt_of_setup hset, bytesPerPixel]
  have hws : scaledWidth (assembleMcu s) = scaledWidth s := by
    rw [scaledWidth, width_of_setup hset, scale_of_setup hset, scaledWidth]
  have hhs : scaledHeight (assembleMcu s) = scaledHeight s := by
    rw [scaledHeight, height_of_setup hset, scale_of_setup hset, scaledHeight]
  have hmcux : (assembleMcu s).mcux = s.mcux := by rw [assembleMcu_eq]
  have hmcuy : (assembleMcu s).mcuy = s.mcuy := by rw [assembleMcu_eq]
  rw [ShowsRectangle, hleft', htop', hright', hbottom', hpixlen, hcols, hrows, hbpp, hws, hhs, hmcux, hmcuy,
    scale_of_setup hset, hFactor_of_setup hset, vFactor_of_setup hset, ← blockSize_eq, ← scaledMcuWidth_eq,
    ← scaledMcuHeight_eq]
  refine ⟨rfl, rfl, rfl, rfl, ?_, ?_, rectBytes_length h, hlen, fun i j z hi hj hz => ?_, fun o ho hlt => ?_⟩
  · unfold rectRight
    omega
  · unfold rectBottom
    omega
  · have hbyte := rectBytes_getElem? h hi hj hz
    have hin : (j * rectCols s + i) * bytesPerPixel s + z < (rectBytes s).length := by
      refine (List.getElem?_eq_some_iff.1 (hbyte.trans (List.getElem?_eq_getElem ?_))).1
      rwa [pixelBytes_length h]
    rw [pixRead_assembleMcu h hwf (hin.trans_le hlen), hbyte, pixelBytes_toNat h i j hz]
    exact (pixelByteRef_congr h hset (fun c hc => pixelSampleRef_assembleMcu hcfg hwf hc hi hj) z).symm
  · rw [pixRead_assembleMcu h hwf hlt, List.getElem?_eq_none ho, Option.getD_none]

end

end Sys2Proof.Machine
end

section
/-! PROOFS. The symbols that end a block or pass sixteen positions, and the end of an MCU (O32). -/

namespace Sys2Proof.Machine

/-- The MCU's pixels are offered to the host: the driver waits in Emit, OUTREQ raised (44_driver R228). -/
def offered (body : Body) (u : State) : State := { u with pos := some ⟨body, .emit⟩, intstat := u.intstat ||| 0x20#8 }

/-- The MCU's last block is decoded: the driver transforms, assembles, and waits for the host (R227). -/
theorem runBlock_finishMcu (i : Nat) (s : State) :
    runBlock (finishMcu i s) = tick (offered (.drive i) (assembleMcu (idctAll s))) := by
  have hrest : ∀ u, runnable (raiseInt intOutReq (goto (.drive i) .emit u)) = false := fun u => by
    simp [runnable]
  rw [finishMcu, runBlock_rest (hrest _)]
  generalize assembleMcu (idctAll s) = u
  rfl

/-- Transform and assembly write memory and the rectangle alone. -/
theorem assembled_eq {s u : State} (hu : u = assembleMcu (idctAll s)) : u = { s with
    mem := u.mem, left := u.left, top := u.top, right := u.right, bottom := u.bottom, pixlen := u.pixlen } := by
  have h := assembleMcu_eq (idctAll s)
  rw [← hu, idctAll_eq] at h
  exact h

/-- So the offer changes nothing else of s but what it sets itself. -/
theorem offered_assembled (body : Body) (s : State) {t : State}
    (ht : t = tick (offered body (assembleMcu (idctAll s)))) :
    t = tick { s with
      mem := t.mem, left := t.left, top := t.top, right := t.right, bottom := t.bottom, pixlen := t.pixlen
      pos := some ⟨body, .emit⟩, intstat := s.intstat ||| 0x20#8 } := by
  generalize hu : assembleMcu (idctAll s) = u at ht
  rw [ht, assembled_eq hu.symm]
  rfl

section
variable {s : State} {body : Body} {c b k : Nat} {t : Byte} (hpos : s.pos = some ⟨body, .acSymbol c b k t⟩)
include hpos

theorem exec_acEob : exec .acEob s = .next (runBlock (blockDone body b s)) := by
  rw [exec_symbol rfl, symbolEffect, acEobEffect_at hpos]
  rfl

/-- Outside the driver the end of the block ends the command. -/
theorem exec_acEob_step (hbody : body = .decAc ∨ body = .decBlk) : exec .acEob s = .next (tick (completed s)) := by
  have hdrive : ∀ i, body ≠ .drive i := by
    rintro i rfl
    simp at hbody
  rw [exec_acEob hpos, blockDone_step hdrive]
  exact congrArg _ (runBlock_rest rfl)

/-- Sixteen zeros within the block, or up to its end. -/
theorem exec_acZrl (h : k + 16 ≤ 64) : exec .acZrl s = .next (runBlock (acNext body c b (k + 16) s)) := by
  rw [exec_symbol rfl, symbolEffect, acZrlEffect_at hpos, if_neg (Nat.not_lt.2 h)]
  rfl

theorem exec_acZrl_overrun (h : 64 < k + 16) : exec .acZrl s = .next (tick (inError 1#4 0x22#8 0xF0#8 s)) :=
  exec_symbol_inError rfl ((acZrlEffect_at hpos).trans (congrArg some (if_pos h))) (by decide)

theorem exec_acZrl_end (h : k + 16 = 64) : exec .acZrl s = exec .acEob s := by
  rw [exec_acZrl hpos h.le, exec_acEob hpos, acNext, if_neg (by omega)]

end

section
variable {s : State} {i c b k : Nat} {t : Byte} (hpos : s.pos = some ⟨.drive i, .acSymbol c b k t⟩)
include hpos

/-- The driver goes on with the next slot of the MCU. -/
theorem exec_acEob_nextSlot (h : b + 1 < slotCount s) : exec .acEob s =
    .next (runBlock (atPoint (.drive i) (.dcCode (compOf s (b + 1)) (b + 1) 0 0) s)) := by
  rw [exec_acEob hpos, blockDone, blockFrom, if_pos h]
  rfl

/-- After the last slot the MCU is transformed, assembled and offered. -/
theorem exec_acEob_lastSlot (h : slotCount s ≤ b + 1) :
    exec .acEob s = .next (tick (offered (.drive i) (assembleMcu (idctAll s)))) := by
  rw [exec_acEob hpos, blockDone, blockFrom, if_neg (Nat.not_lt.2 h), runBlock_finishMcu]

end

section
variable {s : State} (hwf : s.mem.wf = true) (hcfg : cfgCheck s = none)
include hwf hcfg

/-- The offered tiles (R190, R227). -/
theorem showsTiles_assembled : ShowsTiles s (assembleMcu (idctAll s)) := by
  have hcfg' : cfgCheck (idctAll s) = none := (cfgCheck_of_setup (setupOf_idctAll s)).trans hcfg
  intro c bx by' y x hc hbx hby hy hx
  have hslot : baseRef s c + by' * hFactor s c + bx < slotCount s := by
    rw [← slotBase_eq_baseRef s (hc.trans_le (ncomp_le s))]
    exact (slotOf_lt hbx hby).trans_le (slotBase_mono s hc)
  rw [tileRead_assembleMcu hcfg' (wf_idctAll hwf) (slotCount_of_setup (setupOf_idctAll s) ▸ hslot) (by omega)]
  exact showsTiles_idctAll hwf hcfg c bx by' y x hc hbx hby hy hx

/-- The offered rectangle (R206, R210). -/
theorem showsRectangle_assembled (hx : s.mcux.toNat < nmcux s) (hy : s.mcuy.toNat < nmcuy s) :
    ShowsRectangle (assembleMcu (idctAll s)) (assembleMcu (idctAll s)) := by
  have hset := setupOf_idctAll s
  have hmcux : (idctAll s).mcux = s.mcux := by rw [idctAll_eq]
  have hmcuy : (idctAll s).mcuy = s.mcuy := by rw [idctAll_eq]
  exact showsRectangle_assembleMcu ((cfgCheck_of_setup hset).trans hcfg) (wf_idctAll hwf)
    (by rwa [hmcux, nmcux_of_setup hset]) (by rwa [hmcuy, nmcuy_of_setup hset])

/-- And what of memory the end of an MCU leaves. -/
theorem read_assembled {a : Nat} (htile : ∀ b, b < slotCount s → ¬inTileSlot b a) (hpix : ¬inPixBuffer a) :
    (assembleMcu (idctAll s)).mem.read a = s.mem.read a := by
  have h : Accepted (idctAll s) := accepted_of_cfg ((cfgCheck_of_setup (setupOf_idctAll s)).trans hcfg)
  rw [read_assembleMcu h (wf_idctAll hwf) hpix, read_idctAll hwf htile]

end

theorem showsTiles_offered {s u : State} (h : ShowsTiles s u) (body : Body) : ShowsTiles s (tick (offered body u)) := h

theorem showsRectangle_offered {u : State} (h : ShowsRectangle u u) (body : Body) :
    ShowsRectangle (tick (offered body u)) (tick (offered body u)) := h

/-- Settles O32: each symbol's effect at its point, and the end of an MCU by its tiles, its rectangle and its frame. -/
theorem acEobZrlEffect : Obligations.AcEobZrlEffect := by
  intro s body c b k t hpend hpos
  refine ⟨exec_acEob_step hpos, ?_, ?_, ?_, ?_, ?_, exec_acZrl_end hpos, exec_acZrl_overrun hpos⟩
  · rintro i rfl h
    exact exec_acEob_nextSlot hpos h
  · rintro i rfl h u rfl
    exact exec_acEob_lastSlot hpos h
  · rintro i rfl h hwf hcfg
    exact ⟨_, exec_acEob_lastSlot hpos h, offered_assembled _ s rfl,
      showsTiles_offered (showsTiles_assembled hwf hcfg) _,
      fun hx hy => showsRectangle_offered (showsRectangle_assembled hwf hcfg hx hy) _,
      fun a htile hpix => read_assembled hwf hcfg htile hpix⟩
  · intro h
    rw [exec_acZrl hpos h.le, acNext, if_pos (by omega)]
    rfl
  · intro h hbody
    rw [exec_acZrl_end hpos h, exec_acEob_step hpos hbody]

end Sys2Proof.Machine
end

section
/-! PROOFS. The command IDCT: what it writes to its tile, and what it leaves (O40). -/

namespace Sys2Proof.Machine

/-! ## IDCT (42_idct R191) -/

section
variable {s : State} {c : BitVec 2} {b : BitVec 4}

/-- The operands of a block command that name a component in use and a slot are well formed (30_encoding R96). -/
theorem fbOperandsOk_of_lt (hc : c.toNat < ncomp s) (hb : b.toNat < 12) : fbOperandsOk c b = true :=
  Bool.and_eq_true_iff.2 ⟨decide_eq_true (hc.trans_le (ncomp_le s)), decide_eq_true hb⟩

/-- The transform neither reads nor writes STATE. -/
theorem idctBlock_setState (b q : Nat) (s : State) (v : SeqState) :
    idctBlock b q { s with state := v } = { idctBlock b q s with state := v } := by
  have hsamples : idctSamples { s with state := v } b q = idctSamples s b q :=
    idctSamples_congr (s := s) (t := { s with state := v }) rfl (fun _ _ => rfl) q
  rw [idctBlock, idctBlock, hsamples]

/-- A command that ran in STEP completes as R224 says, whatever STATE was before. -/
theorem completeCommand_setState (s : State) (v : SeqState) :
    completeCommand { s with state := v } = completed s := rfl

/-- In IDLE, with a legal configuration and operands, IDCT is the transform of its block and then completes. -/
theorem exec_idct_accepted (hidle : s.state = .idle) (hcfg : cfgCheck s = none) (hc : c.toNat < ncomp s)
    (hb : b.toNat < 12) : exec (.idct c b) s = .next (completed (idctBlock b.toNat (qSel s c.toNat) s)) := by
  have hconf : compUnconfigured c s = false := decide_eq_false (Nat.not_le.2 hc)
  have hrun : exec (.idct c b) s = .next
      (completeCommand (idctBlock b.toNat (qSel s c.toNat) { s with state := .step })) := by
    simp [exec, execIdct, issue, stepCommand, fbOperandsOk_of_lt hc hb, hidle, hcfg, hconf, qSel]
  rw [hrun, idctBlock_setState, completeCommand_setState]

end

/-- Settles O40: the accepted command by `exec_idct_accepted`, its tile by the samples of R187 and R188, its frame by
that of the transform. -/
theorem idctWritesSamples : Obligations.IdctSamples := by
  intro s c b hidle hwf hcfg hc hb
  refine ⟨(idctBlock b.toNat (qSel s c.toNat) s).mem, ?_, fun y x hy hx => ?_, fun a ha => read_idctBlock hwf ha _⟩
  · rw [exec_idct_accepted hidle hcfg hc hb, ← idctBlock_eq]
  · rw [tileRead_idctBlock hwf (by omega)]
    exact idctSamples_toNat s _ _ hy hx

end Sys2Proof.Machine
end

section
/-! PROOFS. The colour unit: the conversion (O42), the rectangles of a decode (O43), and the command COLOR (O41). -/

namespace Sys2Proof.Machine

/-! ## The conversion (43_color R207) -/

/-- The channels of a converted pixel. -/
theorem ycbcrToRgb_eq (y cb cr : Byte) : ycbcrToRgb y cb cr =
    ⟨channelRef y.toNat (1436 * (cr.toNat - 128)),
      channelRef y.toNat (-352 * (cb.toNat - 128) - 731 * (cr.toNat - 128)),
      channelRef y.toNat (1815 * (cb.toNat - 128))⟩ := by
  simp only [ycbcrToRgb, clamp_eq_channelRef]

/-- Settles O42: the three quotients are those in `channelRef`, each bounded as a quotient rounded down is. -/
theorem colorConversion : Obligations.ColorConversion := by
  intro y cb cr
  have hfloor (t : Int) : 1024 * (t / 1024) ≤ t ∧ t < 1024 * (t / 1024 + 1) := by omega
  rw [ycbcrToRgb_eq]
  exact ⟨_, _, _, (hfloor _).1, (hfloor _).2, (hfloor _).1, (hfloor _).2, (hfloor _).1, (hfloor _).2, rfl, rfl, rfl⟩

/-! ## The rectangles of a decode (R203, R204, R206, R212) -/

/-- MCU k of a row or a column of the grid holds pixel x exactly when k is x over the MCU's scaled size. -/
theorem eq_div_iff_in_rect {k n x size : Nat} (hn : 0 < n) (hx : x < size) :
    k = x / n ↔ k * n ≤ x ∧ x ≤ min (k * n + n - 1) (size - 1) := by
  rw [eq_comm, Nat.div_eq_iff hn]
  omega

/-- The MCU that holds a pixel of the scaled image is one of the grid (R203, R204). -/
theorem div_lt_grid {n f x size : Nat} {s : State} (hn : n = blockSize s * f) (hf : 0 < f)
    (hx : x < ceilDiv size (2 ^ scale s)) : x / n < ceilDiv size (8 * f) := by
  have hx' := (lt_ceilDiv (Nat.two_pow_pos _)).1 hx
  have hpow : blockSize s * 2 ^ scale s = 8 := by
    have hs := scale_lt s
    rw [blockSize_eq]
    interval_cases scale s <;> rfl
  rw [lt_ceilDiv (by omega)]
  calc x / n * (8 * f) = x / n * n * 2 ^ scale s := by rw [hn, ← hpow]; ring
    _ ≤ x * 2 ^ scale s := Nat.mul_le_mul_right _ (Nat.div_mul_le_self x n)
    _ < size := hx'

section
variable {s : State} (h : Accepted s)
include h

theorem nmcux_lt : nmcux s < 65536 := by
  obtain ⟨hf, -⟩ := factors_zero h
  exact (ceilDiv_le (by unfold mcuWidth; omega)).trans_lt (s.size.extractLsb' 0 16).isLt

theorem nmcuy_lt : nmcuy s < 65536 := by
  obtain ⟨-, hf⟩ := factors_zero h
  exact (ceilDiv_le (by unfold mcuHeight; omega)).trans_lt (s.size.extractLsb' 16 16).isLt

/-- The rectangle of an MCU of the grid is non-empty and inside the scaled image (R206). -/
theorem rect_inside (hx : s.mcux.toNat < nmcux s) (hy : s.mcuy.toNat < nmcuy s) :
    rectLeft s ≤ rectRight s ∧ rectRight s < scaledWidth s
      ∧ rectTop s ≤ rectBottom s ∧ rectBottom s < scaledHeight s := by
  have hleft := rectLeft_lt h hx
  have htop := rectTop_lt h hy
  obtain ⟨⟨hw, -⟩, hh, -⟩ := scaledMcu_bounds h
  unfold rectRight rectBottom
  omega

/-- A pixel of the scaled image is in the rectangle at MCUPOS exactly when MCUPOS is its MCU (R206). -/
theorem in_rect_iff {x y : Nat} (hx : x < scaledWidth s) (hy : y < scaledHeight s) :
    rectLeft s ≤ x ∧ x ≤ rectRight s ∧ rectTop s ≤ y ∧ y ≤ rectBottom s ↔
      s.mcux.toNat = x / scaledMcuWidth s ∧ s.mcuy.toNat = y / scaledMcuHeight s := by
  obtain ⟨⟨hw, -⟩, hh, -⟩ := scaledMcu_bounds h
  rw [eq_div_iff_in_rect hw hx, eq_div_iff_in_rect hh hy, and_assoc]
  exact Iff.rfl

/-- MCU i of the grid is at column i mod NMCUX and row i div NMCUX (R203). -/
theorem mcuAt_position {i : Nat} (hi : i < nmcu s) :
    ((mcuAt i s).mcux.toNat = i % nmcux s ∧ (mcuAt i s).mcuy.toNat = i / nmcux s)
      ∧ i % nmcux s < nmcux s ∧ i / nmcux s < nmcuy s := by
  have hcol : i % nmcux s < nmcux s := Nat.mod_lt _ (Nat.pos_of_mul_pos_right (Nat.zero_lt_of_lt hi))
  have hrow : i / nmcux s < nmcuy s := Nat.div_lt_of_lt_mul hi
  exact ⟨⟨Nat.mod_eq_of_lt (hcol.trans (nmcux_lt h)), Nat.mod_eq_of_lt (hrow.trans (nmcuy_lt h))⟩, hcol, hrow⟩

end

/-- Settles O43: each rectangle by `rect_inside`; a pixel's one MCU is the one its two quotients name. -/
theorem rectanglesTile : Obligations.RectanglesTile := by
  intro s hcfg
  have h := accepted_of_cfg hcfg
  have hat (i : Nat) : Accepted (mcuAt i s) :=
    accepted_of_cfg ((cfgCheck_of_setup (setupOf_mcuAt i s)).trans hcfg)
  refine ⟨fun i hi u hu => ?_, fun x y hx hy => ?_⟩
  · obtain rfl : u = mcuAt i s := hu
    obtain ⟨⟨hcol, hrow⟩, hcol', hrow'⟩ := mcuAt_position h hi
    exact rect_inside (hat i) (hcol.trans_lt hcol') (hrow.trans_lt hrow')
  · obtain ⟨hfx, hfy⟩ := factors_zero h
    have hcol : x / scaledMcuWidth s < nmcux s := div_lt_grid (scaledMcuWidth_eq s) (by omega) hx
    have hrow : y / scaledMcuHeight s < nmcuy s := div_lt_grid (scaledMcuHeight_eq s) (by omega) hy
    refine ⟨x / scaledMcuWidth s + nmcux s * (y / scaledMcuHeight s), ?_, fun j hj u hu => ?_⟩
    · calc x / scaledMcuWidth s + nmcux s * (y / scaledMcuHeight s)
          < nmcux s * (y / scaledMcuHeight s + 1) := by rw [Nat.mul_add_one]; omega
        _ ≤ nmcu s := Nat.mul_le_mul_left _ hrow
    · obtain rfl : u = mcuAt j s := hu
      obtain ⟨⟨hjcol, hjrow⟩, -⟩ := mcuAt_position h hj
      have hindex : j = x / scaledMcuWidth s + nmcux s * (y / scaledMcuHeight s) ↔
          j / nmcux s = y / scaledMcuHeight s ∧ j % nmcux s = x / scaledMcuWidth s := by
        rw [Nat.div_mod_unique (Nat.zero_lt_of_lt hcol), and_iff_left hcol, eq_comm]
      rw [hindex, in_rect_iff (hat j) hx hy, hjcol, hjrow]
      exact and_comm

/-! ## COLOR (R211) -/

/-- The assembly neither reads nor writes STATE. -/
theorem assembleMcu_setState (s : State) (v : SeqState) :
    assembleMcu { s with state := v } = { assembleMcu s with state := v } := rfl

section
variable {s : State} (hcfg : cfgCheck s = none) (hx : s.mcux.toNat < nmcux s) (hy : s.mcuy.toNat < nmcuy s)
include hcfg hx hy

/-- In IDLE, with a legal configuration and position, COLOR assembles the MCU and then completes. -/
theorem exec_color_accepted (hidle : s.state = .idle) : exec .color s = .next (completed (assembleMcu s)) := by
  have hgrid : mcuOutsideGrid s = false := by
    rw [mcuOutsideGrid, decide_eq_false (Nat.not_le.2 hx), decide_eq_false (Nat.not_le.2 hy), Bool.or_false]
  have hrun : exec .color s = .next (completeCommand (assembleMcu { s with state := .step })) := by
    simp [exec, execColor, issue, stepCommand, hidle, hcfg, hgrid]
  rw [hrun, assembleMcu_setState, completeCommand_setState]

/-- RECT holds the corners of the MCU's rectangle (R206, R210). -/
theorem corners_assembleMcu :
    ((assembleMcu s).left.toNat = rectLeft s ∧ (assembleMcu s).right.toNat = rectRight s)
      ∧ (assembleMcu s).top.toNat = rectTop s ∧ (assembleMcu s).bottom.toNat = rectBottom s := by
  obtain ⟨hcols, hright, hrows, hbottom⟩ := rect_inside (accepted_of_cfg hcfg) hx hy
  have hwidth := scaledWidth_lt s
  have hheight := scaledHeight_lt s
  exact ⟨⟨Nat.mod_eq_of_lt (by omega), Nat.mod_eq_of_lt (by omega)⟩,
    Nat.mod_eq_of_lt (by omega), Nat.mod_eq_of_lt (by omega)⟩

/-- What the assembled PIX shows is the rectangle of the tiles before the assembly, which it does not store to. -/
theorem showsRectangle_before_assembleMcu (hwf : s.mem.wf = true) : ShowsRectangle s (assembleMcu s) := by
  obtain ⟨⟨hl, hr⟩, ht, hb⟩ := corners_assembleMcu hcfg hx hy
  obtain ⟨hleft, htop, hright, hbottom, hcols, hrows, hlen, hle, hbytes, hzeros⟩ :=
    showsRectangle_assembleMcu hcfg hwf hx hy
  refine ⟨hleft, htop, hright, hbottom, hcols, hrows, hlen, hle, fun i j z hi hj hz => ?_, hzeros⟩
  have hsample (c : Nat) (hc : c < ncomp s) : pixelSampleRef (assembleMcu s) c i j = pixelSampleRef s c i j := by
    rw [hr, hl] at hi
    rw [hb, ht] at hj
    exact pixelSampleRef_assembleMcu hcfg hwf hc hi hj
  exact (hbytes i j z hi hj hz).trans
    (pixelByteRef_congr (accepted_of_cfg hcfg) (setupOf_assembleMcu s) hsample z)

end

/-- Settles O41: the accepted command by `exec_color_accepted`, what it shows by the assembly of R210, its frame by
that of PIX. -/
theorem colorAssembles : Obligations.ColorAssembles := by
  intro s hidle hwf hcfg hx hy
  exact ⟨assembleMcu s, exec_color_accepted hcfg hx hy hidle, assembleMcu_eq s,
    showsRectangle_before_assembleMcu hcfg hx hy hwf, fun a ha => read_assembleMcu (accepted_of_cfg hcfg) hwf ha⟩

end Sys2Proof.Machine
end

section
/-! PROOFS. The sequencer: CFGCHK (O44), the commands it faults and those refused after it (O45, O46), START (O47),
OUTRESP (O48) and NOP (O16). -/

namespace Sys2Proof.Machine

/-! ## CFGCHK (44_driver R222) -/

/-- The sampling factors of a component are legal (R222, check 3). -/
abbrev FactorsLegal (s : State) (c : Nat) : Prop :=
  (hFactor s c = 1 ∨ hFactor s c = 2) ∧ (vFactor s c = 1 ∨ vFactor s c = 2)

/-- A component is sampled no more finely than component 0 (R222, check 4). -/
abbrev FactorsWithin (s : State) (c : Nat) : Prop := hFactor s c ≤ hFactor s 0 ∧ vFactor s c ≤ vFactor s 0

/-- The quantisation table of a component is loaded (R222, check 6). -/
abbrev QuantLoaded (s : State) (c : Nat) : Prop := s.qtv[qSel s c]? = some true

/-- The Huffman tables of a component are loaded (R222, check 7). -/
abbrev CodesLoaded (s : State) (c : Nat) : Prop :=
  s.htv[dcSel s c]? = some true ∧ s.htv[4 + acSel s c]? = some true

/-- A check of every component fails where the property it decides does not hold of them all. -/
theorem not_allComps_iff {s : State} {p : Nat → Bool} {P : Nat → Prop} (h : ∀ c, p c = true ↔ P c) :
    (!allComps s p) = true ↔ ¬∀ c, c < ncomp s → P c := by
  simp only [allComps, Bool.not_eq_true', ← Bool.not_eq_true, List.all_eq_true, List.mem_range, h]

theorem factorOk_iff (n : Nat) : factorOk n = true ↔ n = 1 ∨ n = 2 := by
  simp only [factorOk, Bool.or_eq_true, beq_iff_eq]

theorem getD_false_iff (o : Option Bool) : o.getD false = true ↔ o = some true := by
  simp [Option.getD_eq_iff]

/-- CFGCHK as the seven properties R222 names, in its order. -/
theorem cfgCheck_eq (s : State) : cfgCheck s =
    if ¬(ncomp s = 1 ∨ ncomp s = 3) then some 0x01#8
    else if pixfmt s = 3 ∨ strategy s = 3 then some 0x07#8
    else if ¬∀ c, c < ncomp s → FactorsLegal s c then some 0x02#8
    else if ¬∀ c, c < ncomp s → 1 ≤ c → FactorsWithin s c then some 0x03#8
    else if width s = 0 ∨ height s = 0 then some 0x06#8
    else if ¬∀ c, c < ncomp s → QuantLoaded s c then some 0x04#8
    else if ¬∀ c, c < ncomp s → CodesLoaded s c then some 0x05#8
    else none := by
  unfold cfgCheck
  refine if_congr (by simp) rfl <| if_congr (by simp) rfl <| if_congr (not_allComps_iff fun c => ?_) rfl <|
    if_congr (not_allComps_iff fun c => ?_) rfl <| if_congr (by simp) rfl <|
    if_congr (not_allComps_iff fun c => getD_false_iff _) rfl <| if_congr (not_allComps_iff fun c => ?_) rfl rfl
  · rw [Bool.and_eq_true, factorOk_iff, factorOk_iff]
  · simp only [Bool.or_eq_true, Bool.and_eq_true, beq_iff_eq, decide_eq_true_eq]
    omega
  · rw [Bool.and_eq_true, getD_false_iff, getD_false_iff]
    rfl

/-- Settles O44: one check of `cfgCheck_eq` after the other, each failing or passed. -/
theorem cfgCheckOrder : Obligations.CfgCheckOrder := by
  intro s
  rw [cfgCheck_eq]
  refine ⟨fun h => if_pos h, fun hcomps => ?_⟩
  rw [if_neg (not_not.2 hcomps)]
  refine ⟨fun h => if_pos h, fun hformat => ?_⟩
  rw [if_neg hformat]
  refine ⟨fun ⟨c, hc, hbad⟩ => if_pos fun h => hbad (h c hc), fun hlegal => ?_⟩
  rw [if_neg (not_not.2 hlegal)]
  refine ⟨fun ⟨c, h1, hc, hbad⟩ => if_pos fun h => ?_, fun hwithin => ?_⟩
  · have := h c hc h1
    omega
  rw [if_neg (not_not.2 fun c hc h1 => hwithin c h1 hc)]
  refine ⟨fun h => if_pos h, fun hwidth hheight => ?_⟩
  rw [if_neg (by omega)]
  refine ⟨fun ⟨c, hc, hbad⟩ => if_pos fun h => ?_, fun hquant => ?_⟩
  · cases hbad.symm.trans (h c hc)
  rw [if_neg (not_not.2 hquant)]
  refine ⟨fun ⟨c, hc, hbad⟩ => if_pos fun h => ?_, fun hcodes => if_neg (not_not.2 hcodes)⟩
  obtain ⟨hdc, hac⟩ := h c hc
  rcases hbad with hbad | hbad
  · cases hbad.symm.trans hdc
  · cases hbad.symm.trans hac

/-! ## The command wrapper (44_driver R223, R224) -/

section
variable {s : State}

/-- A command with good operands, in the state that accepts it. -/
theorem issue_accepted {ok : Bool} {acc : SeqState} (hok : ok = true) (hacc : s.state = acc) (run : State → State) :
    issue ok acc run s = run s :=
  (if_pos hok).trans (if_pos hacc)

/-- A failing CFGCHK is FORMAT_ERROR with its DETAIL code. -/
theorem takeFault_cfg (d : Byte) (s : State) : takeFault errFormat d 0#8 s = inError 1#4 d 0#8 s :=
  takeFault_eq_inError (fun h => absurd h.1 (by decide)) _ _

theorem stepCommand_cfgFault {d : Byte} (hcfg : cfgCheck s = some d) (refuse : State → Bool) (body : State → State) :
    stepCommand refuse body s = inError 1#4 d 0#8 s := by
  rw [stepCommand, hcfg]
  exact takeFault_cfg d s

theorem stepCommand_refused {refuse : State → Bool} (hcfg : cfgCheck s = none) (hrefuse : refuse s = true)
    (body : State → State) : stepCommand refuse body s = refusedWrite s := by
  rw [stepCommand, hcfg]
  exact if_pos hrefuse

/-- In IDLE a step command whose operand check fails is refused, its operands well formed or not. -/
theorem issue_stepCommand_refused {refuse : State → Bool} (hidle : s.state = .idle) (hcfg : cfgCheck s = none)
    (hrefuse : refuse s = true) (ok : Bool) (body : State → State) :
    issue ok .idle (stepCommand refuse body) s = refusedWrite s := by
  cases ok with
  | false => rfl
  | true => exact (issue_accepted rfl hidle _).trans (stepCommand_refused hcfg hrefuse body)

/-- In IDLE a step command with well-formed operands faults where CFGCHK does. -/
theorem issue_stepCommand_cfgFault {ok : Bool} {d : Byte} (hok : ok = true) (hidle : s.state = .idle)
    (hcfg : cfgCheck s = some d) (refuse : State → Bool) (body : State → State) :
    issue ok .idle (stepCommand refuse body) s = inError 1#4 d 0#8 s :=
  (issue_accepted hok hidle _).trans (stepCommand_cfgFault hcfg refuse body)

theorem exec_start_cfgFault {d : Byte} (hidle : s.state = .idle) (hcfg : cfgCheck s = some d) :
    exec .start s = .next (inError 1#4 d 0#8 s) := by
  simp only [exec, execStart, issue_accepted rfl hidle, hcfg, takeFault_cfg]

end

/-- Settles O45: START and the step commands by the wrapper, the other instructions excluded. -/
theorem cfgFaultsFirst : Obligations.CfgFaultsFirst := by
  intro s d i hidle hcfg hwf hcommand haccept hkind
  cases i with
  | nop | sreset | loadQt | loadHt => exact hkind.elim
  | resync => cases haccept
  | start => exact exec_start_cfgFault hidle hcfg
  | decDc | decAc | decBlk | idct => exact congrArg _ (issue_stepCommand_cfgFault hwf hidle hcfg _ _)
  | restart | color => exact congrArg _ (issue_stepCommand_cfgFault rfl hidle hcfg _ _)
  | _ => cases hcommand

/-- Settles O46: each command's operand check in the wrapper. -/
theorem operandsRefused : Obligations.OperandsRefused := by
  intro s hidle hcfg
  refine ⟨fun c b hc => ?_, fun hgrid => ?_⟩
  · have hrefuse : compUnconfigured c s = true := decide_eq_true hc
    have hissue := issue_stepCommand_refused hidle hcfg hrefuse (fbOperandsOk c b)
    exact ⟨congrArg _ (hissue _), congrArg _ (hissue _), congrArg _ (hissue _), congrArg _ (hissue _)⟩
  · have hrefuse : mcuOutsideGrid s = true := by
      simpa only [mcuOutsideGrid, Bool.or_eq_true, decide_eq_true_eq] using hgrid
    exact congrArg _ (issue_stepCommand_refused hidle hcfg hrefuse true _)

/-! ## START (44_driver R226, R227) -/

/-- In IDLE with a legal configuration START initialises the decode and runs the driver from MCU 0. -/
theorem exec_start_accepted {s : State} (hidle : s.state = .idle) (hcfg : cfgCheck s = none) :
    exec .start s = .next (runBlock (atPoint (.drive 0) (.nextMcu false) (startInit s))) := by
  simp only [exec, execStart, issue_accepted rfl hidle, hcfg]
  rfl

/-- MCU 0 begins with its first block, without a restart check (R161, R227). -/
theorem nextMcuStep_zero {s : State} (hcfg : cfgCheck s = none) :
    nextMcuStep 0 false s = atPoint (.drive 0) (.dcCode 0 0 0 0) (mcuAt 0 s) := by
  have hcfg' : cfgCheck (mcuAt 0 s) = none := (cfgCheck_of_setup (setupOf_mcuAt 0 s)).trans hcfg
  rw [nextMcuStep_inside (nmcu_pos hcfg), if_neg (by simp), blockFrom_first hcfg']

/-- With the cursor empty the driver suspends in the first read of MCU 0. -/
theorem runBlock_nextMcu_zero {s : State} (hcfg : cfgCheck s = none) (hpend : s.pend = none) (h0 : s.bcnt = 0#4)
    (hmp : s.mp = false) (heos : s.eos = false) :
    runBlock (atPoint (.drive 0) (.nextMcu false) s) =
      tick (waiting .dataFirst (atPoint (.drive 0) (.dcCode 0 0 0 0) (mcuAt 0 s))) := by
  have hone : settle 1 (goto (.drive 0) (.nextMcu false) (tick s)) =
      goto (.drive 0) (.dcCode 0 0 0 0) (mcuAt 0 (tick s)) := by
    rw [settle_succ (runnable_at (goto_pos _ _ (tick s)) hpend (by simp)), blockMove_nextMcu (goto_pos _ _ (tick s)),
      nextMcuStep_zero (s := goto _ _ (tick s)) ((cfgCheck_of_setup (s := s) rfl).trans hcfg)]
    rfl
  exact (readsCode_dc (.drive 0) 0 0).runBlock_suspends (s := goto (.drive 0) (.nextMcu false) s) (by decide) hone
    hpend h0 hmp heos

/-- The MCU position that START sets is that of MCU 0. -/
theorem mcuAt_startInit (s : State) : mcuAt 0 (startInit s) = startInit s := by
  rw [mcuAt, Nat.zero_mod, Nat.zero_div]
  rfl

/-- Settles O47: the accepted command by `exec_start_accepted`, its first read by `runBlock_nextMcu_zero`. -/
theorem startBegins : Obligations.StartBegins := by
  intro s t hidle hpend hcfg ht
  obtain rfl : t = startInit s := ht
  have hstart := exec_start_accepted hidle hcfg
  have hcfg' : cfgCheck (startInit s) = none := (cfgCheck_of_setup (s := s) rfl).trans hcfg
  refine ⟨hstart, fun h0 hmp heos => ?_⟩
  have hread := runBlock_nextMcu_zero hcfg' hpend h0 hmp heos
  rw [mcuAt_startInit] at hread
  exact hstart.trans (congrArg _ hread)

/-! ## OUTRESP (44_driver R228, R229) -/

/-- With OUTWAIT = 0 the write is ignored. -/
theorem registerWrite_outresp_ignored {s : State} (h : outwait s = false) (v : Word) :
    registerWrite 0x058 v s = ignored s := by
  show outrespWrite v s = ignored s
  unfold outrespWrite
  split
  · next i hpos => simp [outwait, hpos] at h
  · rfl

/-- In the output wait 1 goes on, 2 aborts, and any other value is refused. -/
theorem registerWrite_outresp_waiting {s : State} {i : Nat} (hpos : s.pos = some ⟨.drive i, .emit⟩) (v : Word) :
    registerWrite 0x058 v s =
      if v = 1#32 then runBlock (continueDrive i s) else if v = 2#32 then inCancelled s else refusedWrite s := by
  show outrespWrite v s = _
  rw [outrespWrite, hpos]
  rfl

/-- Past the last MCU the driver's loop ends (R227). -/
theorem nextMcuStep_past {s : State} {i : Nat} (h : nmcu s ≤ i) (skip : Bool) : nextMcuStep i skip s = inDone s :=
  if_neg (Nat.not_lt.2 h)

/-- A run that begins past the last MCU ends in DONE. -/
theorem runBlock_nextMcu_done {s : State} {i : Nat} (hpend : s.pend = none) (h : nmcu s ≤ i) (skip : Bool) :
    runBlock (atPoint (.drive i) (.nextMcu skip) s) = tick (inDone s) := by
  refine runBlock_of_move (runnable_at (goto_pos _ _ s) hpend (by simp)) ?_ rfl
  have hmove := blockMove_nextMcu (goto_pos (.drive i) (.nextMcu skip) (tick s))
  exact hmove.trans (nextMcuStep_past (s := goto _ _ (tick s)) h skip)

/-- Settles O48: each value by `registerWrite_outresp_waiting`, the end of the decode by `runBlock_nextMcu_done`. -/
theorem outrespWrites : Obligations.OutrespWrites := by
  intro s v
  refine ⟨fun h => registerWrite_outresp_ignored h v, fun i t hpos ht => ?_⟩
  have hgo : continueDrive i s = atPoint (.drive (i + 1)) (.nextMcu false) t := ht ▸ rfl
  have hwrite := registerWrite_outresp_waiting hpos v
  rw [hgo] at hwrite
  refine ⟨fun h1 => ?_, fun h2 => ?_, fun h1 h2 => ?_⟩
  · have hrun := hwrite.trans (if_pos h1)
    exact ⟨hrun, fun hpend hlast => hrun.trans (runBlock_nextMcu_done (ht ▸ hpend) (ht ▸ hlast) false)⟩
  · exact hwrite.trans ((if_neg (by rw [h2]; decide)).trans (if_pos h2))
  · exact hwrite.trans ((if_neg h1).trans (if_neg h2))

/-! ## NOP (44_driver R240) -/

/-- A word of NOP's opcode other than 0 has a bit set that R91 wants 0. -/
theorem malformedWord_of_nop {w : Word} (hopc : w.extractLsb' 24 8 = 0x00#8) (hne : w ≠ 0#32) : MalformedWord w := by
  have hf0 : w.extractLsb' 24 8 ∈ f0Opcodes := by rw [hopc]; decide
  refine (malformedWord_f0 hf0).2 fun hzero => hne ?_
  rw [← encodeF0_fields hzero, hopc]
  rfl

/-- Settles O16: the word 0 is NOP's encoding, and the other words of its opcode are malformed. -/
theorem nopDoesNothing : Obligations.NopDoesNothing := by
  refine ⟨decodeCmd_encode (i := .nop) rfl rfl, fun _ => rfl, fun w s hopc hne => ?_⟩
  obtain ⟨-, hrefused⟩ := malformedWordsRefused w
  exact hrefused (malformedWord_of_nop hopc hne) s

end Sys2Proof.Machine
end

section
/-! PROOFS. Faults and the interrupt line (60_exceptions): what taking a fault writes (O50), and when the line is
asserted (O13). -/

namespace Sys2Proof.Machine

/-- Settles O50: a failed restart check by `takeFault_eq_inSyncHalt`, every other fault by `takeFault_eq_inError`. -/
theorem faultEntry : Obligations.FaultEntry := by
  intro s e d sy
  split
  · next hsync =>
    obtain ⟨rfl, hdetail⟩ := hsync
    exact takeFault_eq_inSyncHalt hdetail sy s
  · next hother => exact takeFault_eq_inError hother sy s

/-- The line is asserted exactly when INTSTAT AND INTEN is not zero. -/
theorem irq_iff_and_ne_zero (s : State) : irq s = true ↔ s.intstat &&& s.inten ≠ 0#8 := bne_iff_ne

/-- Settles O13: a word is not zero exactly when one of its bits is 1, and a bit of an AND is 1 when both are. -/
theorem interruptLine : Obligations.InterruptLine := by
  intro s
  calc irq s = true
      ↔ s.intstat &&& s.inten ≠ 0#8 := irq_iff_and_ne_zero s
    _ ↔ ∃ i, (s.intstat &&& s.inten).getLsbD i = true := by
        rw [Ne, BitVec.zero_iff_eq_false, not_forall]
        simp only [Bool.not_eq_false]
    _ ↔ ∃ i, s.intstat.getLsbD i = true ∧ s.inten.getLsbD i = true := by
        simp only [BitVec.getLsbD_and, Bool.and_eq_true]
    _ ↔ ∃ i, i < 8 ∧ s.intstat.getLsbD i = true ∧ s.inten.getLsbD i = true :=
        exists_congr fun _ => ⟨fun ⟨hstat, hen⟩ => ⟨BitVec.lt_of_getLsbD hstat, hstat, hen⟩, And.right⟩

end Sys2Proof.Machine
end

section
/-! PROOFS. Reset (70_reset_and_hazards R280, R281): the platform's reset (O14) and the command SRESET (O15). -/

namespace Sys2Proof.Machine

/-! ## What a reset leaves of the agents around the block -/

@[simp] theorem resetBlock_agenda (s : State) : (resetBlock s).agenda = s.agenda := rfl

@[simp] theorem resetBlock_tjdBase (s : State) : (resetBlock s).tjdBase = s.tjdBase := rfl

@[simp] theorem resetBlock_reply (s : State) : (resetBlock s).reply = s.reply := rfl

/-! ## The reset values -/

/-- The model's counter of block steps is no row of R280's table. -/
theorem atReset_tick {s : State} : AtReset (tick s) ↔ AtReset s := Iff.rfl

/-- A reset of the reset state only counts as one more block step. -/
theorem resetBlock_reset : resetBlock State.reset = tick State.reset := rfl

/-- State.reset holds the table of R280. -/
theorem atReset_reset : AtReset State.reset := by
  have hblock : AtReset (resetBlock State.reset) := atReset_resetBlock State.reset
  rw [resetBlock_reset] at hblock
  exact atReset_tick.1 hblock

/-! ## The two resets -/

/-- The platform's reset of a block at rest. -/
theorem step_of_hwReset {s : State} {rest : List Event} (hr : runnable s = false) (ha : s.agenda = .hwReset :: rest) :
    step s = .next (resetBlock { s with agenda := rest }) :=
  step_of_agent hr ha

/-- Settles O14: State.reset by `atReset_reset`, the platform's reset by `step_of_hwReset`. -/
theorem resetState : Obligations.ResetState := by
  refine ⟨atReset_reset, fun s rest hr ha => ?_⟩
  exact ⟨_, step_of_hwReset hr ha, atReset_resetBlock _, resetBlock_agenda _, resetBlock_tjdBase _⟩

/-- SRESET is the reset of the block, whatever STATE is (R281). -/
theorem exec_sreset (s : State) : exec .sreset s = .next (resetBlock s) := rfl

/-- Settles O15: SRESET is a reset by `exec_sreset`, and a reset leaves what stands outside the block. -/
theorem sresetCompletes : Obligations.SresetCompletes := fun s =>
  ⟨_, exec_sreset s, atReset_resetBlock s, resetBlock_tjdBase s, resetBlock_agenda s, resetBlock_reply s⟩

end Sys2Proof.Machine
end
